-- ==== Sys2Proof/Word.lean ====
section
/-! DEFINITION. The word types of QRDC: a 32-bit bus word, an 8-bit field element or byte, a binary32 bit pattern. -/

namespace Sys2Proof

/-- A 32-bit word of the host bus (10_state.md R22). -/
abbrev Word := BitVec 32

/-- A byte of the register window, and a field element of GF(2^8) (00_scope.md R12). -/
abbrev Byte := BitVec 8

/-- The bit pattern of a binary32 value (00_scope.md R13). -/
abbrev F32 := BitVec 32

end Sys2Proof
end

