-- ==== Sys2Proof/Config.lean ====
section
/-! DEFINITION. The implementation parameters of QRDC (00_scope.md R6), the parameters the spec leaves open
(92_eei_decisions.md), and the free values. -/

namespace Sys2Proof.Config

/-- `PRIM`, the field's primitive polynomial (00_scope.md R6). PRESUMED by the spec (notes/assumptions/19.md). -/
def prim : Nat := 0x11D

/-- `GBASE`, the generator base (00_scope.md R6): 0 or 1. PRESUMED by the spec (notes/assumptions/19.md). -/
def gbase : Nat := 0

/-- `NPB`, the number of polynomial buffers (00_scope.md R6). -/
abbrev npb : Nat := 8

/-- `MAXLEN`, the coefficient capacity of a polynomial buffer (00_scope.md R6). -/
abbrev maxLen : Nat := 512

/-- `MAXCW`, the capacity of CWB, LOC and MAG (00_scope.md R6). -/
abbrev maxCw : Nat := 255

/-- `NT`, the number of matrix registers (00_scope.md R6). -/
abbrev nt : Nat := 4

/-- `NF`, the number of float operand registers (00_scope.md R6). -/
abbrev nf : Nat := 16

/-- `MAXPTS`, the capacity of the point memory, in points (00_scope.md R6). -/
abbrev maxPts : Nat := 256

/-- `MAXDIM`, the largest grid dimension (00_scope.md R6). -/
abbrev maxDim : Nat := 256

/-- `MAXCAND`, the capacity of the candidate memory (00_scope.md R6). -/
abbrev maxCand : Nat := 256

/-- The word slots of CWB, LOC and MAG: one more than `MAXCW`, the last used by no command (00_scope.md R6). -/
abbrev cwSlots : Nat := maxCw + 1

/-- The words of the point memory, two for each point (10_state.md R50). -/
abbrev pmWords : Nat := 2 * maxPts

/-- The 32-bit words of one row of the bit-matrix memory (10_state.md R51). -/
abbrev bmRowWords : Nat := maxDim / 32

/-- The words of the bit-matrix memory (10_state.md R51). -/
abbrev bmWords : Nat := maxDim * bmRowWords

/-- The words of the candidate memory, four for each entry (10_state.md R52). -/
abbrev candWords : Nat := 4 * maxCand

/-- `IMGMAX`, the largest image width or height (00_scope.md R6). -/
def imgMax : Nat := 32767

/-- The constant the ID register reads (10_state.md R23). -/
def idWord : Word := 0x51524443#32

/-- The 16 primitive polynomials of degree 8 (00_scope.md R7). -/
def primitives : List Nat :=
  [0x11D, 0x12B, 0x12D, 0x14D, 0x15F, 0x163, 0x165, 0x169,
   0x171, 0x187, 0x18D, 0x1A9, 0x1C3, 0x1CF, 0x1E7, 0x1F5]

/-- A configuration is a QRDC when its `PRIM` is one of the 16 primitive polynomials and its `GBASE` is 0 or 1
(00_scope.md R6, R7): a model refuses any other. -/
def legal (p b : Nat) : Bool := primitives.contains p && decide (b ≤ 1)

/-- `QRDC_BASE`, the base address of the register window on the host bus: left OPEN (20_memory.md R80). -/
opaque qrdcBase : Nat

/-- `IRQ_ROUTE`, where the platform routes `irq`: left OPEN (60_exceptions.md R381). -/
opaque irqRoute : Nat

/-- `RESET_LATENCY`, the time of reset initialisation: left OPEN, finite (70_reset_and_hazards.md R411). -/
opaque resetLatency : Nat

/-- `CMD_LATENCY`, the time from the acceptance of a command word to its completion: left OPEN, finite
(70_reset_and_hazards.md R430). -/
opaque cmdLatency : Word → Nat

/-- The free value of the n-th read of a word that the running command may write: any value of the word's width
(20_memory.md R94). No proof can see it. -/
opaque freeRead : Nat → Word

/-- The bus address of an offset of the register window (20_memory.md R80). -/
def busAddress (off : Nat) : Nat := qrdcBase + off

/-- The offset a bus address names, if it lies in the 64 KiB register window (20_memory.md R80). -/
def windowOffset (addr : Nat) : Option Nat :=
  if qrdcBase ≤ addr ∧ addr < qrdcBase + 0x10000 then some (addr - qrdcBase) else none

end Sys2Proof.Config
end

