-- ==== Sys2Proof/Syntax.lean ====
section
/-! DEFINITION. The 39 commands of QRDC (30_encoding.md, opcode map), one constructor per row of the opcode table.
Operands stand in the order of the assembler syntax, D, Q, A, B (30_encoding.md R114). -/

namespace Sys2Proof

/-- A command with the 3-bit indices its row of the opcode map uses (30_encoding.md R110, R111). -/
inductive Instr where
  | nop
  | gadd
  | gmul
  | ginv
  | gexp
  | glog
  | sreset
  | pnorm (d a : BitVec 3)
  | padd (d a b : BitVec 3)
  | pmul (d a b : BitVec 3)
  | pscale (d a : BitVec 3)
  | pmulmono (d a : BitVec 3)
  | pmono (d : BitVec 3)
  | pdiv (d q a b : BitVec 3)
  | peval (a : BitVec 3)
  | pcoef (a : BitVec 3)
  | rsdec
  | rssyn (d : BitVec 3)
  | rseuc (d q a b : BitVec 3)
  | rschien (a : BitVec 3)
  | rsforney (a : BitVec 3)
  | rsapply
  | xsq2q (d : BitVec 3)
  | xq2sq (d : BitVec 3)
  | xq2q (d : BitVec 3)
  | xadj (d a : BitVec 3)
  | xtimes (d a b : BitVec 3)
  | xpts (a : BitVec 3)
  | xqrgrid (d b : BitVec 3)
  | grid (a : BitVec 3)
  | pffind
  | pfalign
  | pfratio5
  | pfratio3
  | pforder
  | pfccv
  | pfcch
  | pfccd
  | pfccva
deriving DecidableEq, Repr

end Sys2Proof
end

