-- ==== Sys2Proof/WellFormed.lean ====
section
/-! DEFINITION. The operand checks of a command (30_encoding.md R111, R112): a matrix index is 0 to 3, the XQRGRID
flag is 0 or 1, and the two destinations of PDIV and RSEUC differ. -/

namespace Sys2Proof

/-- A matrix operand selects one of the `NT` registers T[0..3] (30_encoding.md R111). -/
def matrixIndexOk (k : BitVec 3) : Bool := decide (k.toNat < Config.nt)

/-- The XQRGRID flag is 0 or 1 (30_encoding.md R111). -/
def flagOk (b : BitVec 3) : Bool := decide (b.toNat ≤ 1)

/-- Every used matrix index of the command is at most 3 (30_encoding.md R112, fourth test). -/
def Instr.matricesOk : Instr → Bool
  | .xsq2q d => matrixIndexOk d
  | .xq2sq d => matrixIndexOk d
  | .xq2q d => matrixIndexOk d
  | .xadj d a => matrixIndexOk d && matrixIndexOk a
  | .xtimes d a b => matrixIndexOk d && matrixIndexOk a && matrixIndexOk b
  | .xpts a => matrixIndexOk a
  | .xqrgrid d _ => matrixIndexOk d
  | .grid a => matrixIndexOk a
  | .nop | .gadd | .gmul | .ginv | .gexp | .glog | .sreset
  | .pnorm .. | .padd .. | .pmul .. | .pscale .. | .pmulmono .. | .pmono .. | .pdiv .. | .peval .. | .pcoef ..
  | .rsdec | .rssyn .. | .rseuc .. | .rschien .. | .rsforney .. | .rsapply
  | .pffind | .pfalign | .pfratio5 | .pfratio3 | .pforder | .pfccv | .pfcch | .pfccd | .pfccva => true

/-- The flag of XQRGRID is at most 1 (30_encoding.md R112, fifth test). -/
def Instr.gridFlagOk : Instr → Bool
  | .xqrgrid _ b => flagOk b
  | .nop | .gadd | .gmul | .ginv | .gexp | .glog | .sreset
  | .pnorm .. | .padd .. | .pmul .. | .pscale .. | .pmulmono .. | .pmono .. | .pdiv .. | .peval .. | .pcoef ..
  | .rsdec | .rssyn .. | .rseuc .. | .rschien .. | .rsforney .. | .rsapply
  | .xsq2q .. | .xq2sq .. | .xq2q .. | .xadj .. | .xtimes .. | .xpts .. | .grid ..
  | .pffind | .pfalign | .pfratio5 | .pfratio3 | .pforder | .pfccv | .pfcch | .pfccd | .pfccva => true

/-- The two destinations of PDIV and RSEUC differ (30_encoding.md R112, sixth test). -/
def Instr.destinationsOk : Instr → Bool
  | .pdiv d q _ _ => d != q
  | .rseuc d q _ _ => d != q
  | .nop | .gadd | .gmul | .ginv | .gexp | .glog | .sreset
  | .pnorm .. | .padd .. | .pmul .. | .pscale .. | .pmulmono .. | .pmono .. | .peval .. | .pcoef ..
  | .rsdec | .rssyn .. | .rschien .. | .rsforney .. | .rsapply
  | .xsq2q .. | .xq2sq .. | .xq2q .. | .xadj .. | .xtimes .. | .xpts .. | .xqrgrid .. | .grid ..
  | .pffind | .pfalign | .pfratio5 | .pfratio3 | .pforder | .pfccv | .pfcch | .pfccd | .pfccva => true

/-- A command that 30_encoding.md R112 lets run. -/
def Instr.wellFormed (i : Instr) : Bool := i.matricesOk && i.gridFlagOk && i.destinationsOk

end Sys2Proof
end

