-- ==== Sys2Proof/Decode.lean ====
section
/-! DEFINITION. Decoding a command word (30_encoding.md R110 to R113), the tests in the order of R112, and the encoder
(R116). -/

namespace Sys2Proof

/-- Why a command word does not decode: the tests of 30_encoding.md R112, in their order, and a byte string that is
not one word long (R110). Each of the first six ends the command with ILLEGAL_CMD. DESIGN CHOICE
(notes/assumptions/24.md): the names. -/
inductive DecodeError where
  | reservedBits
  | unknownOpcode
  | unusedField
  | matrixIndex
  | gridFlag
  | sameDestination
  | notOneWord
deriving DecidableEq, Repr

/-- Which of the index fields a command uses (30_encoding.md, opcode map, column "fields"). -/
structure FieldUse where
  d : Bool
  a : Bool
  b : Bool
  q : Bool
deriving DecidableEq, Repr

/-- Field OP of a command word (30_encoding.md R110). -/
def opField (w : Word) : BitVec 8 := w.extractLsb' 0 8

/-- Field D of a command word (30_encoding.md R110). -/
def dField (w : Word) : BitVec 3 := w.extractLsb' 8 3

/-- Field A of a command word (30_encoding.md R110). -/
def aField (w : Word) : BitVec 3 := w.extractLsb' 11 3

/-- Field B of a command word (30_encoding.md R110). -/
def bField (w : Word) : BitVec 3 := w.extractLsb' 14 3

/-- Field Q of a command word (30_encoding.md R110). -/
def qField (w : Word) : BitVec 3 := w.extractLsb' 17 3

/-- Field RSV of a command word (30_encoding.md R110). -/
def rsvField (w : Word) : BitVec 12 := w.extractLsb' 20 12

/-- The command of an opcode with the index fields D, A, B and Q of the word, if the opcode is in the map of
30_encoding.md; every other opcode is reserved (R113). -/
def opcodeMap (op : Nat) (d a b q : BitVec 3) : Option Instr :=
  match op with
  | 0x00 => some .nop
  | 0x01 => some .gadd
  | 0x02 => some .gmul
  | 0x03 => some .ginv
  | 0x04 => some .gexp
  | 0x05 => some .glog
  | 0x0F => some .sreset
  | 0x10 => some (.pnorm d a)
  | 0x11 => some (.padd d a b)
  | 0x12 => some (.pmul d a b)
  | 0x13 => some (.pscale d a)
  | 0x14 => some (.pmulmono d a)
  | 0x15 => some (.pmono d)
  | 0x16 => some (.pdiv d q a b)
  | 0x17 => some (.peval a)
  | 0x18 => some (.pcoef a)
  | 0x20 => some .rsdec
  | 0x21 => some (.rssyn d)
  | 0x22 => some (.rseuc d q a b)
  | 0x23 => some (.rschien a)
  | 0x24 => some (.rsforney a)
  | 0x25 => some .rsapply
  | 0x30 => some (.xsq2q d)
  | 0x31 => some (.xq2sq d)
  | 0x32 => some (.xq2q d)
  | 0x33 => some (.xadj d a)
  | 0x34 => some (.xtimes d a b)
  | 0x35 => some (.xpts a)
  | 0x36 => some (.xqrgrid d b)
  | 0x37 => some (.grid a)
  | 0x40 => some .pffind
  | 0x41 => some .pfalign
  | 0x42 => some .pfratio5
  | 0x43 => some .pfratio3
  | 0x44 => some .pforder
  | 0x45 => some .pfccv
  | 0x46 => some .pfcch
  | 0x47 => some .pfccd
  | 0x48 => some .pfccva
  | _ => none

/-- The index fields a command uses (30_encoding.md, opcode map); the others must be 0 (R112). -/
def Instr.fieldUse : Instr → FieldUse
  | .nop | .gadd | .gmul | .ginv | .gexp | .glog | .sreset
  | .rsdec | .rsapply
  | .pffind | .pfalign | .pfratio5 | .pfratio3 | .pforder | .pfccv | .pfcch | .pfccd | .pfccva =>
    ⟨false, false, false, false⟩
  | .pnorm .. | .pscale .. | .pmulmono .. | .xadj .. => ⟨true, true, false, false⟩
  | .padd .. | .pmul .. | .xtimes .. => ⟨true, true, true, false⟩
  | .pmono .. | .rssyn .. | .xsq2q .. | .xq2sq .. | .xq2q .. => ⟨true, false, false, false⟩
  | .pdiv .. | .rseuc .. => ⟨true, true, true, true⟩
  | .peval .. | .pcoef .. | .rschien .. | .rsforney .. | .xpts .. | .grid .. => ⟨false, true, false, false⟩
  | .xqrgrid .. => ⟨true, false, true, false⟩

/-- Every index field the command does not use is 0 in the word (30_encoding.md R112, third test). -/
def unusedFieldsZero (u : FieldUse) (w : Word) : Bool :=
  (u.d || dField w == 0#3) && (u.a || aField w == 0#3) && (u.b || bField w == 0#3) && (u.q || qField w == 0#3)

/-- Decoding of a command word, the tests in the order of 30_encoding.md R112. -/
def decodeWord (w : Word) : Except DecodeError Instr :=
  if rsvField w ≠ 0#12 then .error .reservedBits
  else
    match opcodeMap (opField w).toNat (dField w) (aField w) (bField w) (qField w) with
    | none => .error .unknownOpcode
    | some i =>
      if !unusedFieldsZero i.fieldUse w then .error .unusedField
      else if !i.matricesOk then .error .matrixIndex
      else if !i.gridFlagOk then .error .gridFlag
      else if !i.destinationsOk then .error .sameDestination
      else .ok i

/-- The 32-bit word of four bytes, the first at the lowest address (little-endian, 20_memory.md R86). -/
def wordOfBytes (b0 b1 b2 b3 : Byte) : Word := b3 ++ (b2 ++ (b1 ++ b0))

/-- Byte k of a word holds its bits 8k+7 to 8k (20_memory.md R86). -/
def byteOfWord (w : Word) (k : Nat) : Byte := w.extractLsb' (8 * k) 8

/-- Decoding of the bytes of a command word as they lie in memory: exactly four of them (30_encoding.md R110). -/
def decodeBytes : List Byte → Except DecodeError Instr
  | [b0, b1, b2, b3] => decodeWord (wordOfBytes b0 b1 b2 b3)
  | _ => .error .notOneWord

/-- The opcode of a command (30_encoding.md, opcode map). -/
def Instr.opcode : Instr → BitVec 8
  | .nop => 0x00#8
  | .gadd => 0x01#8
  | .gmul => 0x02#8
  | .ginv => 0x03#8
  | .gexp => 0x04#8
  | .glog => 0x05#8
  | .sreset => 0x0F#8
  | .pnorm .. => 0x10#8
  | .padd .. => 0x11#8
  | .pmul .. => 0x12#8
  | .pscale .. => 0x13#8
  | .pmulmono .. => 0x14#8
  | .pmono .. => 0x15#8
  | .pdiv .. => 0x16#8
  | .peval .. => 0x17#8
  | .pcoef .. => 0x18#8
  | .rsdec => 0x20#8
  | .rssyn .. => 0x21#8
  | .rseuc .. => 0x22#8
  | .rschien .. => 0x23#8
  | .rsforney .. => 0x24#8
  | .rsapply => 0x25#8
  | .xsq2q .. => 0x30#8
  | .xq2sq .. => 0x31#8
  | .xq2q .. => 0x32#8
  | .xadj .. => 0x33#8
  | .xtimes .. => 0x34#8
  | .xpts .. => 0x35#8
  | .xqrgrid .. => 0x36#8
  | .grid .. => 0x37#8
  | .pffind => 0x40#8
  | .pfalign => 0x41#8
  | .pfratio5 => 0x42#8
  | .pfratio3 => 0x43#8
  | .pforder => 0x44#8
  | .pfccv => 0x45#8
  | .pfcch => 0x46#8
  | .pfccd => 0x47#8
  | .pfccva => 0x48#8

/-- The word with the given fields and RSV = 0 (30_encoding.md R116). -/
def packFields (op : BitVec 8) (d a b q : BitVec 3) : Word :=
  0#12 ++ (q ++ (b ++ (a ++ (d ++ op))))

/-- The encoding of a command (30_encoding.md R116): an unused field is 0. -/
def encode (i : Instr) : Word :=
  match i with
  | .nop | .gadd | .gmul | .ginv | .gexp | .glog | .sreset | .rsdec | .rsapply
  | .pffind | .pfalign | .pfratio5 | .pfratio3 | .pforder | .pfccv | .pfcch | .pfccd | .pfccva =>
    packFields i.opcode 0#3 0#3 0#3 0#3
  | .pnorm d a | .pscale d a | .pmulmono d a | .xadj d a => packFields i.opcode d a 0#3 0#3
  | .padd d a b | .pmul d a b | .xtimes d a b => packFields i.opcode d a b 0#3
  | .pmono d | .rssyn d | .xsq2q d | .xq2sq d | .xq2q d => packFields i.opcode d 0#3 0#3 0#3
  | .pdiv d q a b | .rseuc d q a b => packFields i.opcode d a b q
  | .peval a | .pcoef a | .rschien a | .rsforney a | .xpts a | .grid a => packFields i.opcode 0#3 a 0#3 0#3
  | .xqrgrid d b => packFields i.opcode d 0#3 b 0#3

/-- The bytes of a word in the order of their addresses (20_memory.md R86). -/
def bytesOfWord (w : Word) : List Byte := [byteOfWord w 0, byteOfWord w 1, byteOfWord w 2, byteOfWord w 3]

/-- The command word whose low `nbits` bits are those of `w`, every bit above them 0. -/
def tableWord (nbits w : Nat) : Word := BitVec.ofNat 32 (w % 2 ^ nbits)

/-- The command this decoder reads from the opcode table's numbering of a word: bit 0 the least significant. -/
def decodeTableWord (nbits w : Nat) : Option Instr := (decodeBytes (bytesOfWord (tableWord nbits w))).toOption

end Sys2Proof
end

