-- ==== Sys2Proof/Machine/State.lean ====
section
/-! DEFINITION. The state of QRDC (10_state.md), its reset value (70_reset_and_hazards.md R410), and the reasons a
step can stop. -/

namespace Sys2Proof.Machine

/-- The error codes of STATUS.ERR (60_exceptions.md R374). Codes 7 to 15 are never produced. -/
inductive ErrCode where
  | ok
  | notFound
  | checksum
  | illegalArg
  | arith
  | illegalCmd
  | capacity
deriving DecidableEq, Repr

/-- The phase of the command engine (10_state.md R57): RESETTING, IDLE, or RUNNING with the accepted command word. -/
inductive Phase where
  | resetting
  | idle
  | running (cmd : Word)
deriving DecidableEq, Repr

/-- The fields of STATUS (10_state.md, section 3). Its reserved bits read 0 and are not held. -/
structure Status where
  busy : Bool
  done : Bool
  cmdovr : Bool
  wrbusy : Bool
  err : ErrCode
  noerr : Bool
  resb : Bool
deriving DecidableEq, Repr

/-- The fields of CTRL (10_state.md R26). -/
structure Ctrl where
  tryh : Bool
  pure : Bool
  ie : Bool
deriving DecidableEq, Repr

/-- A projective matrix register T[t], its elements in the order of 10_state.md R49. -/
structure Mat where
  a11 : F32
  a12 : F32
  a13 : F32
  a21 : F32
  a22 : F32
  a23 : F32
  a31 : F32
  a32 : F32
  a33 : F32
deriving DecidableEq, Repr

/-- A pattern record: centre, module size and confirmation count (10_state.md R52, R54). -/
structure Pattern where
  x : F32
  y : F32
  size : F32
  count : Word
deriving DecidableEq, Repr

/-- The hidden field tables EXP and LOG (10_state.md R56). -/
structure Tables where
  exp : Vector Byte 256
  log : Vector Byte 256
deriving DecidableEq, Repr

/-- What the pixel port presents (00_scope.md R9): the width, the height, and the pixels as one number per row, whose
bit x is 1 when the pixel in column x is black. A row or a bit that is not listed is white. -/
structure Image where
  width : BitVec 16
  height : BitVec 16
  rows : List Nat
deriving DecidableEq, Repr

/-- One thing the outside world does (70_reset_and_hazards.md R425), or leaves to the engine. Offsets are byte offsets
from QRDC_BASE. -/
inductive Input where
  /-- A host read of `size` bytes at offset `off` (20_memory.md R83). -/
  | read (off size : Nat)
  /-- A host write of `size` bytes at offset `off` (20_memory.md R83). -/
  | write (off size : Nat) (v : Word)
  /-- The pixel port presents another image from now on (70_reset_and_hazards.md R420). -/
  | image (img : Image)
  /-- `rst` is asserted and released (70_reset_and_hazards.md R410). -/
  | rst
  /-- The outside does nothing: the engine moves (70_reset_and_hazards.md R430). -/
  | tick
deriving DecidableEq, Repr

/-- The buffer memories of the register window, as bytes at window offsets: addresses strictly rising, and no entry
equal to what an unlisted byte reads as. -/
abbrev Memory := List Host.Cell

/-- What a byte of the buffer memories reads as when it is not listed: the reset value of every word of them
(70_reset_and_hazards.md R410). -/
def unlistedByte : Byte := 0#8

/-- The machine stops with a fault. -/
inductive Fault where
  /-- Raised by a host access at an offset outside the 64 KiB register window (20_memory.md R80): such an access does
  not address QRDC. Safe: the model stops where the platform would answer. -/
  | outsideWindow
deriving DecidableEq, Repr

/-- The model gives no step. -/
inductive Refusal where
  /-- Raised by an arm of exec whose instruction has no meaning yet; no arm is left so. Safe: the model stops. -/
  | notModelled (mnemonic : String)
  /-- Raised by a host access that is not a naturally aligned access of 4 bytes, whose effect 20_memory.md R83 does
  not define. Safe: the model stops. -/
  | undefinedAccess
  /-- Raised by a change of the image while a command that reads pixels runs, for which 70_reset_and_hazards.md R420
  gives no meaning. Safe: the model stops. -/
  | imageChanged
deriving DecidableEq, Repr

/-- The state of QRDC. Every register of 10_state.md has one field; hard-wired registers and the live IMGW and IMGH
are computed where the host reads them. -/
structure State where
  /-- The engine phase (10_state.md R57). -/
  phase : Phase
  /-- STATUS (10_state.md R35 to R41). -/
  status : Status
  /-- CTRL (10_state.md R26). -/
  ctrl : Ctrl
  /-- GA, field element operand A (10_state.md R27). -/
  ga : Byte
  /-- GB, field element operand B (10_state.md R27). -/
  gb : Byte
  /-- GR, field element result (10_state.md R27). -/
  gr : Byte
  /-- DEG, signed degree operand (10_state.md R28). -/
  deg : BitVec 16
  /-- DEGR, degree result (10_state.md R28). -/
  degr : BitVec 16
  /-- TWOS, number of syndromes (10_state.md R29). -/
  twos : BitVec 9
  /-- CWLEN, codeword count (10_state.md R29). -/
  cwlen : BitVec 9
  /-- NLOC, number of error locations (10_state.md R29). -/
  nloc : BitVec 9
  /-- DIMX, grid width (10_state.md R31). -/
  dimx : BitVec 16
  /-- DIMY, grid height (10_state.md R31). -/
  dimy : BitVec 16
  /-- DIM, symbol dimension (10_state.md R31). -/
  dim : BitVec 16
  /-- NPTS, number of points in PM (10_state.md R31). -/
  npts : BitVec 16
  /-- RGX, alignment region left column (10_state.md R32). -/
  rgx : BitVec 16
  /-- RGY, alignment region top row (10_state.md R32). -/
  rgy : BitVec 16
  /-- RGW, alignment region width (10_state.md R32). -/
  rgw : BitVec 16
  /-- RGH, alignment region height (10_state.md R32). -/
  rgh : BitVec 16
  /-- AMS, estimated module size (10_state.md R32). -/
  ams : F32
  /-- NCAND, number of valid CAND entries (10_state.md R33). -/
  ncand : BitVec 16
  /-- RESF, cross-check result (10_state.md R33). -/
  resf : F32
  /-- SC0 to SC4, run counts (10_state.md R34). -/
  sc : Vector Word 5
  /-- CCMAX, cross-check maximum run count (10_state.md R34). -/
  ccmax : Word
  /-- CCTOT, cross-check original total (10_state.md R34). -/
  cctot : Word
  /-- CCI, cross-check row (10_state.md R34). -/
  cci : BitVec 16
  /-- CCJ, cross-check column (10_state.md R34). -/
  ccj : BitVec 16
  /-- PBLEN[0..7], lengths of the polynomial buffers (10_state.md R42). -/
  pblen : Vector (BitVec 10) Config.npb
  /-- F[0..15], float operand registers (10_state.md R48). -/
  f : Vector F32 Config.nf
  /-- T[0..3], matrix registers (10_state.md R49). -/
  t : Vector Mat Config.nt
  /-- FPR0 bottom-left, FPR1 top-left, FPR2 top-right (10_state.md R54). -/
  fpr : Vector Pattern 3
  /-- APX, alignment centre x (10_state.md R55). -/
  apx : F32
  /-- APY, alignment centre y (10_state.md R55). -/
  apy : F32
  /-- APS, alignment module size (10_state.md R55). -/
  aps : F32
  /-- PB, CWB, LOC, MAG, PM, BM and CAND (10_state.md R42 to R52). -/
  mem : Memory
  /-- EXP and LOG (10_state.md R56). -/
  tables : Tables
  /-- What the pixel port presents (00_scope.md R9). -/
  port : Image
  /-- The model's own: what the outside does next, in order; when it is empty the engine moves. -/
  host : List Input
  /-- The model's own: the data the last host read returned. -/
  rdata : Word
  /-- The model's own: how many free values have been read (20_memory.md R94). -/
  draws : Nat
deriving DecidableEq, Repr

/-- The zero matrix (70_reset_and_hazards.md R410: not the identity). -/
def zeroMat : Mat := ⟨0#32, 0#32, 0#32, 0#32, 0#32, 0#32, 0#32, 0#32, 0#32⟩

/-- A pattern record of zeros. -/
def zeroPattern : Pattern := ⟨0#32, 0#32, 0#32, 0#32⟩

/-- EXP and LOG before reset initialisation has built them: the spec gives them no value then.
DESIGN CHOICE (unsafe, notes/assumptions/4.md): zeros; no command can read them. -/
def emptyTables : Tables := ⟨Vector.replicate 256 0#8, Vector.replicate 256 0#8⟩

/-- STATUS during reset initialisation: BUSY alone (10_state.md R41). -/
def resetStatus : Status :=
  { busy := true, done := false, cmdovr := false, wrbusy := false, err := .ok, noerr := false, resb := false }

/-- The machine right after `rst` is released (70_reset_and_hazards.md R410): in phase RESETTING, every register and
memory word at the value the rule lists. DESIGN CHOICE (unsafe, notes/assumptions/5.md): the port and the model's own
fields. -/
def State.reset : State where
  phase := .resetting
  status := resetStatus
  ctrl := { tryh := false, pure := false, ie := false }
  ga := 0#8
  gb := 0#8
  gr := 0#8
  deg := 0#16
  degr := 0#16
  twos := 0#9
  cwlen := 0#9
  nloc := 0#9
  dimx := 0#16
  dimy := 0#16
  dim := 0#16
  npts := 0#16
  rgx := 0#16
  rgy := 0#16
  rgw := 0#16
  rgh := 0#16
  ams := 0#32
  ncand := 0#16
  resf := 0#32
  sc := Vector.replicate 5 0#32
  ccmax := 0#32
  cctot := 0#32
  cci := 0#16
  ccj := 0#16
  pblen := Vector.replicate Config.npb 1#10
  f := Vector.replicate Config.nf 0#32
  t := Vector.replicate Config.nt zeroMat
  fpr := Vector.replicate 3 zeroPattern
  apx := 0#32
  apy := 0#32
  aps := 0#32
  mem := []
  tables := emptyTables
  port := { width := 0#16, height := 0#16, rows := [] }
  host := []
  rdata := 0#32
  draws := 0

end Sys2Proof.Machine
end

