-- ==== Sys2Proof/Machine/Field.lean ====
section
/-! DEFINITION. The field GF(2^8): the tables EXP and LOG and the field operations (41_gf_field.md R150 to R154). -/

namespace Sys2Proof.Machine

/-- One doubling of the table construction: v shifted left, reduced by `PRIM` when it reaches 256
(41_gf_field.md R150). -/
def gfDouble (prim v : Nat) : Nat :=
  let v' := v <<< 1
  if 256 ≤ v' then v' ^^^ prim else v'

/-- The values v, 2v, 4v, ... of the field: `n` of them, from v on (41_gf_field.md R150). -/
def gfPowers (prim : Nat) : Nat → Nat → List Byte
  | 0, _ => []
  | n + 1, v => BitVec.ofNat 8 v :: gfPowers prim n (gfDouble prim v)

theorem gfPowers_length (prim n v : Nat) : (gfPowers prim n v).length = n := by
  induction n generalizing v with
  | zero => rfl
  | succ n ih => simp [gfPowers, ih]

/-- EXP[0..255] (41_gf_field.md R150). -/
def buildExp (prim : Nat) : Vector Byte 256 :=
  ⟨(gfPowers prim 256 1).toArray, by simp [gfPowers_length]⟩

/-- One pass of `LOG[EXP[i]] <- i` for the powers of a list, i counting up (41_gf_field.md R150). -/
def fillLog : List Byte → Nat → Vector Byte 256 → Vector Byte 256
  | [], _, log => log
  | p :: ps, i, log => fillLog ps (i + 1) (log.set p.toNat (BitVec.ofNat 8 i) p.isLt)

/-- LOG[0..255]: zeros, then LOG[EXP[i]] <- i for i in 0..254 (41_gf_field.md R150). -/
def buildLog (prim : Nat) : Vector Byte 256 :=
  fillLog (gfPowers prim 255 1) 0 (Vector.replicate 256 0#8)

/-- The tables reset initialisation and SRESET compute (41_gf_field.md R150). -/
def buildTables (prim : Nat) : Tables := ⟨buildExp prim, buildLog prim⟩

/-- EXP[a] for an 8-bit exponent (41_gf_field.md R154). -/
def expAt (g : Tables) (a : Byte) : Byte := g.exp[a.toNat]'a.isLt

/-- LOG[a] (41_gf_field.md R154); LOG[0] has no meaning (R151). -/
def logAt (g : Tables) (a : Byte) : Byte := g.log[a.toNat]'a.isLt

/-- EXP[n mod 256] for a natural number; every use has n ≤ 255 (41_gf_field.md R154). -/
def expNat (g : Tables) (n : Nat) : Byte := expAt g (BitVec.ofNat 8 n)

/-- Field addition and subtraction: exclusive or (41_gf_field.md R152). -/
def gfAdd (a b : Byte) : Byte := a ^^^ b

/-- Field multiplication (41_gf_field.md R153). -/
def gfMul (g : Tables) (a b : Byte) : Byte :=
  if a = 0#8 ∨ b = 0#8 then 0#8
  else expNat g (((logAt g a).toNat + (logAt g b).toNat) % 255)

/-- Field inverse; `inv(0)` raises ARITH (41_gf_field.md R154). -/
def gfInv (g : Tables) (a : Byte) : Except ErrCode Byte :=
  if a = 0#8 then .error .arith else .ok (expNat g (255 - (logAt g a).toNat))

/-- Field logarithm; `log(0)` raises ILLEGAL_ARG (41_gf_field.md R154). -/
def gfLog (g : Tables) (a : Byte) : Except ErrCode Byte :=
  if a = 0#8 then .error .illegalArg else .ok (logAt g a)

end Sys2Proof.Machine
end

