-- ==== Sys2Proof/Machine/Flags.lean ====
section
/-! DEFINITION. STATUS, CTRL, the error codes and the interrupt output (10_state.md, section 3; 60_exceptions.md R374,
R380). -/

namespace Sys2Proof.Machine

/-- The code an error has in STATUS.ERR (60_exceptions.md R374). -/
def errBits (e : ErrCode) : BitVec 4 :=
  match e with
  | .ok => 0#4
  | .notFound => 1#4
  | .checksum => 2#4
  | .illegalArg => 3#4
  | .arith => 4#4
  | .illegalCmd => 5#4
  | .capacity => 6#4

/-- STATUS as the host reads it: BUSY bit 0, DONE 1, CMDOVR 3, WRBUSY 4, ERR 11:8, NOERR 12, RESB 13, every other bit 0
(10_state.md, section 3). -/
def statusWord (s : Status) : Word :=
  0#18 ++ (BitVec.ofBool s.resb ++ (BitVec.ofBool s.noerr ++ (errBits s.err ++ (0#3 ++ (BitVec.ofBool s.wrbusy ++
    (BitVec.ofBool s.cmdovr ++ (0#1 ++ (BitVec.ofBool s.done ++ BitVec.ofBool s.busy))))))))

/-- CTRL as the host reads it: TRYH bit 0, PURE 1, IE 2, every other bit 0 (10_state.md R26). -/
def ctrlWord (c : Ctrl) : Word :=
  0#29 ++ (BitVec.ofBool c.ie ++ (BitVec.ofBool c.pure ++ BitVec.ofBool c.tryh))

/-- CTRL from a written word (10_state.md R26). -/
def ctrlOfWord (v : Word) : Ctrl :=
  { tryh := v.getLsbD 0, pure := v.getLsbD 1, ie := v.getLsbD 2 }

/-- A write to STATUS: a 1 in bit 1, 3 or 4 clears DONE, CMDOVR or WRBUSY (10_state.md R36, R40). -/
def statusCleared (s : Status) (v : Word) : Status :=
  { s with
    done := s.done && !v.getLsbD 1
    cmdovr := s.cmdovr && !v.getLsbD 3
    wrbusy := s.wrbusy && !v.getLsbD 4 }

/-- STATUS at the acceptance of a command (60_exceptions.md R371). -/
def statusAccepted (s : Status) : Status :=
  { s with busy := true, done := false, err := .ok, noerr := false, resb := false }

/-- STATUS at the completion of a command with an error code, NOERR and RESB (60_exceptions.md R372): both are 0 after
an error. -/
def statusCompleted (s : Status) (e : ErrCode) (noerr resb : Bool) : Status :=
  { s with
    busy := false
    done := true
    err := e
    noerr := decide (e = .ok) && noerr
    resb := decide (e = .ok) && resb }

/-- The interrupt output `irq`, the level DONE and IE (60_exceptions.md R380). -/
def State.irq (s : State) : Bool := s.status.done && s.ctrl.ie

end Sys2Proof.Machine
end

