-- ==== Sys2Proof/Machine/Ops.lean ====
section
/-! DEFINITION. The shared operations: the bytes and words of the buffer memories, the acceptance and the completion of
a command, raising an error, reset and reset initialisation. -/

namespace Sys2Proof.Machine

/-- The byte at a window offset of the buffer memories. -/
def readByte : Memory → Nat → Byte
  | [], _ => unlistedByte
  | (k, v) :: rest, a => if k = a then v else readByte rest a

/-- The listed cells of consecutive bytes from an address on: a byte equal to an unlisted one has none. -/
def cellsFrom : Nat → List Byte → Memory
  | _, [] => []
  | a, b :: bs => if b = unlistedByte then cellsFrom (a + 1) bs else (a, b) :: cellsFrom (a + 1) bs

/-- Consecutive bytes stored from an address on: every write to the buffer memories. -/
def setBytes (m : Memory) (a : Nat) (bs : List Byte) : Memory :=
  m.filter (fun c => decide (c.1 < a)) ++ cellsFrom a bs ++ m.filter (fun c => decide (a + bs.length ≤ c.1))

/-- The canonical form of the buffer memories: addresses strictly rising, no entry equal to an unlisted byte. -/
def Memory.wf : Memory → Bool
  | [] => true
  | (_, v) :: [] => v != unlistedByte
  | (a, v) :: (b, w) :: rest => v != unlistedByte && decide (a < b) && Memory.wf ((b, w) :: rest)

/-- The 32-bit word at an offset, little-endian (20_memory.md R86). -/
def readWord (m : Memory) (a : Nat) : Word :=
  wordOfBytes (readByte m a) (readByte m (a + 1)) (readByte m (a + 2)) (readByte m (a + 3))

/-- A 32-bit word stored at an offset, little-endian (20_memory.md R86). -/
def writeWord (m : Memory) (a : Nat) (w : Word) : Memory := setBytes m a (bytesOfWord w)

/-- The bytes of consecutive 32-bit words. -/
def wordBytes (ws : List Word) : List Byte := ws.flatMap bytesOfWord

/-- The 8-bit element in the word at an offset: its bits 7:0 (20_memory.md R87). -/
def readElem (m : Memory) (a : Nat) : Byte := readByte m a

/-- An 8-bit element stored in the word at an offset; bits 31:8 are 0 (20_memory.md R87). -/
def writeElem (m : Memory) (a : Nat) (b : Byte) : Memory := writeWord m a (b.setWidth 32)

/-- The elements of n consecutive words from an offset on. -/
def readElems (m : Memory) (a n : Nat) : List Byte := (List.range n).map (fun i => readElem m (a + 4 * i))

/-- Elements stored in consecutive words from an offset on. -/
def writeElems (m : Memory) (a : Nat) (l : List Byte) : Memory :=
  setBytes m a (wordBytes (l.map (fun b => b.setWidth 32)))

/-- The n consecutive words from an offset on. -/
def readWords (m : Memory) (a n : Nat) : List Word := (List.range n).map (fun i => readWord m (a + 4 * i))

/-- Words stored from an offset on. -/
def writeWords (m : Memory) (a : Nat) (ws : List Word) : Memory := setBytes m a (wordBytes ws)

/-- The offset of PB[k].c[0] (10_state.md R42). -/
def pbBase (k : Nat) : Nat := 0x1000 + 0x800 * k

/-- The offset of CWB[0] (10_state.md R45). -/
def cwbBase : Nat := 0x5000

/-- The offset of LOC[0] (10_state.md R46). -/
def locBase : Nat := 0x5400

/-- The offset of MAG[0] (10_state.md R46). -/
def magBase : Nat := 0x5800

/-- The offset of PM[0] (10_state.md R50). -/
def pmBase : Nat := 0x6000

/-- The offset of row 0 of BM (10_state.md R51). -/
def bmBase : Nat := 0x8000

/-- The offset of CAND[0] (10_state.md R52). -/
def candBase : Nat := 0xA000

/-- PFFIND and PFALIGN start from an empty candidate list (10_state.md R53). -/
def clearsCandidates (i : Instr) : Bool :=
  match i with
  | .pffind | .pfalign => true
  | .nop | .gadd | .gmul | .ginv | .gexp | .glog | .sreset
  | .pnorm .. | .padd .. | .pmul .. | .pscale .. | .pmulmono .. | .pmono .. | .pdiv .. | .peval .. | .pcoef ..
  | .rsdec | .rssyn .. | .rseuc .. | .rschien .. | .rsforney .. | .rsapply
  | .xsq2q .. | .xq2sq .. | .xq2q .. | .xadj .. | .xtimes .. | .xpts .. | .xqrgrid .. | .grid ..
  | .pfratio5 | .pfratio3 | .pforder | .pfccv | .pfcch | .pfccd | .pfccva => false

/-- NCAND at the acceptance of a command word: 0 for a legal PFFIND or PFALIGN (10_state.md R53), unchanged for any
other word, an illegal one included (60_exceptions.md R375). -/
def acceptedNcand (s : State) (w : Word) : BitVec 16 :=
  match decodeWord w with
  | .error _ => s.ncand
  | .ok i => if clearsCandidates i then 0#16 else s.ncand

/-- The acceptance of a command word (60_exceptions.md R371). -/
def State.accept (s : State) (w : Word) : State :=
  { s with phase := .running w, status := statusAccepted s.status, ncand := acceptedNcand s w }

/-- The completion of a command (60_exceptions.md R372). -/
def State.complete (s : State) (e : ErrCode) (noerr resb : Bool) : State :=
  { s with phase := .idle, status := statusCompleted s.status e noerr resb }

/-- The normal completion of a command with the given NOERR and RESB (60_exceptions.md R372). -/
def State.finish (s : State) (noerr resb : Bool) : State := s.complete .ok noerr resb

/-- Raising an error code: the command completes with it and changes nothing but STATUS (60_exceptions.md R372,
R373). This is QRDC's only exception; the engine goes on in phase IDLE (R383). -/
def State.raise (s : State) (e : ErrCode) : State := s.complete e false false

/-- The end of a command that sets neither NOERR nor RESB: its results, or the error it raises on the state it started
from (60_exceptions.md R372, R373). -/
def endCommand (s : State) (r : Except ErrCode State) : Host.Outcome State Fault Refusal :=
  match r with
  | .ok t => .next (t.finish false false)
  | .error e => .next (s.raise e)

/-- The end of a command that sets NOERR or RESB. -/
def endCommandFlags (s : State) (r : Except ErrCode (State × Bool × Bool)) : Host.Outcome State Fault Refusal :=
  match r with
  | .ok (t, noerr, resb) => .next (t.finish noerr resb)
  | .error e => .next (s.raise e)

/-- The end of a command whose word does not decode, for the operand values its rule of 30_encoding.md R112 shuts out
(DESIGN CHOICE, notes/assumptions/16.md). -/
def illegalCommand (s : State) : Host.Outcome State Fault Refusal := .next (s.raise .illegalCmd)

/-- Reset initialisation ends: the tables are built, BUSY falls, the phase becomes IDLE
(70_reset_and_hazards.md R411). -/
def State.initialised (s : State) : State :=
  { s with phase := .idle, status := { s.status with busy := false }, tables := buildTables Config.prim }

/-- `rst` is asserted and released in any phase: every piece of state takes its reset value
(70_reset_and_hazards.md R410); the port and the model's own fields are not QRDC's state
(DESIGN CHOICE, notes/assumptions/10.md). -/
def State.hardReset (s : State) : State :=
  { State.reset with port := s.port, host := s.host, rdata := s.rdata, draws := s.draws }

end Sys2Proof.Machine
end

