-- ==== Sys2Proof/Machine/Poly.lean ====
section
/-! DEFINITION. Polynomials over GF(2^8) as coefficient lists, most significant first (00_scope.md R12), and the
primitives of 42_gf_poly.md R170 to R186. -/

namespace Sys2Proof.Machine

/-- A polynomial: its coefficients, most significant first (00_scope.md R12). -/
abbrev Poly := List Byte

/-- Normalisation of a non-empty coefficient list (42_gf_poly.md R170): leading zeros dropped, and [0] when every
coefficient is 0. -/
def normalise (c : List Byte) : Poly :=
  match c.dropWhile (fun x => x == 0#8) with
  | [] => [0#8]
  | x :: xs => x :: xs

/-- Normalisation with the check of 42_gf_poly.md R170: an empty list raises ILLEGAL_ARG. -/
def normaliseChecked (c : List Byte) : Except ErrCode Poly :=
  if c.isEmpty then .error .illegalArg else .ok (normalise c)

/-- deg(p) (42_gf_poly.md R171). -/
def pdeg (p : Poly) : Nat := p.length - 1

/-- lead(p) (42_gf_poly.md R171). -/
def plead (p : Poly) : Byte := p.headD 0#8

/-- isZero(p) (42_gf_poly.md R171). -/
def pisZero (p : Poly) : Bool := plead p == 0#8

/-- coefAt(p, d), the coefficient of x^d (42_gf_poly.md R171). -/
def coefAt (p : Poly) (d : Nat) : Byte :=
  if d ≤ pdeg p then p.getD (p.length - 1 - d) 0#8 else 0#8

/-- The exclusive or of a shorter list into the last coefficients of a longer one: the loop of 42_gf_poly.md R172. -/
def xorLow (sm lg : List Byte) : List Byte :=
  let ld := lg.length - sm.length
  lg.take ld ++ List.zipWith gfAdd sm (lg.drop ld)

/-- Polynomial addition (42_gf_poly.md R172). -/
def padd (a b : Poly) : Poly :=
  if pisZero a then b
  else if pisZero b then a
  else if a.length ≤ b.length then normalise (xorLow a b)
  else normalise (xorLow b a)

/-- Every coefficient times a scalar. -/
def scaleCoefs (g : Tables) (a : List Byte) (s : Byte) : List Byte := a.map (fun c => gfMul g c s)

/-- The coefficient list of a product (the loops of 42_gf_poly.md R173), built by Horner's rule over the coefficients
of the first factor: the list so far moves up one place and takes in one more multiple of the second. -/
def productCoefs (g : Tables) (a b : Poly) : List Byte :=
  a.foldl (fun out ai => xorLow (b.map (fun bj => gfMul g ai bj)) (out ++ [0#8]))
    (List.replicate (b.length - 1) 0#8)

/-- Polynomial multiplication (42_gf_poly.md R173). -/
def pmul (g : Tables) (a b : Poly) : Poly :=
  if pisZero a || pisZero b then [0#8] else normalise (productCoefs g a b)

/-- Scalar product (42_gf_poly.md R174). -/
def pscale (g : Tables) (a : Poly) (s : Byte) : Poly :=
  if s = 0#8 then [0#8]
  else if s = 1#8 then a
  else normalise (scaleCoefs g a s)

/-- Monomial product a · s · x^d for d ≥ 0 (42_gf_poly.md R174). -/
def pmulmonoNat (g : Tables) (a : Poly) (d : Nat) (s : Byte) : Poly :=
  if s = 0#8 then [0#8] else normalise (scaleCoefs g a s ++ List.replicate d 0#8)

/-- Monomial product (42_gf_poly.md R174): a negative degree raises ILLEGAL_ARG, tested before the scalar. -/
def pmulmono (g : Tables) (a : Poly) (d : Int) (s : Byte) : Except ErrCode Poly :=
  if d < 0 then .error .illegalArg else .ok (pmulmonoNat g a d.toNat s)

/-- The monomial s · x^d for d ≥ 0 (42_gf_poly.md R174). -/
def pmonoNat (d : Nat) (s : Byte) : Poly :=
  if s = 0#8 then [0#8] else s :: List.replicate d 0#8

/-- The monomial s · x^d (42_gf_poly.md R174): a negative degree raises ILLEGAL_ARG, tested before the scalar. -/
def pmono (d : Int) (s : Byte) : Except ErrCode Poly :=
  if d < 0 then .error .illegalArg else .ok (pmonoNat d.toNat s)

/-- Evaluation by Horner's rule (42_gf_poly.md R185). -/
def peval (g : Tables) (p : Poly) (a : Byte) : Byte :=
  p.tail.foldl (fun r c => gfAdd (gfMul g a r) c) (plead p)

/-- The division loop of 42_gf_poly.md R186 and 43_reed_solomon.md R203, from the quotient q and the remainder r so
far. `fuel` bounds the passes: each lowers the degree of r (notes/assumptions/17.md). -/
def divLoop (g : Tables) (b : Poly) (dinv : Byte) : Nat → Poly → Poly → Poly × Poly
  | 0, q, r => (q, r)
  | fuel + 1, q, r =>
    if pdeg b ≤ pdeg r && !pisZero r then
      let dd := pdeg r - pdeg b
      let sc := gfMul g (plead r) dinv
      divLoop g b dinv fuel (padd q (pmonoNat dd sc)) (padd r (pmulmonoNat g b dd sc))
    else (q, r)

/-- Division (42_gf_poly.md R186): the quotient and the remainder; a zero divisor raises ILLEGAL_ARG. -/
def pdiv (g : Tables) (a b : Poly) : Except ErrCode (Poly × Poly) :=
  if pisZero b then .error .illegalArg
  else
    match gfInv g (plead b) with
    | .error e => .error e
    | .ok dinv => .ok (divLoop g b dinv a.length [0#8] a)

end Sys2Proof.Machine
end

