-- ==== Sys2Proof/Machine/Float.lean ====
section
/-! DEFINITION. binary32 arithmetic with round to nearest even, each operation rounded once (00_scope.md R13, R14).
An operation converts its operands to exact numbers, computes exactly, and rounds at the end. -/

namespace Sys2Proof.Machine

/-- The canonical quiet NaN (00_scope.md R14). -/
def f32NaN : F32 := 0x7FC00000#32

/-- What a binary32 pattern stands for: a NaN, a signed infinity, or the number (-1)^neg · m · 2^e. -/
inductive FloatValue where
  | nan
  | inf (neg : Bool)
  | fin (neg : Bool) (m : Nat) (e : Int)
deriving DecidableEq, Repr

/-- The sign bit of a pattern. -/
def f32Sign (a : F32) : Bool := a.msb

/-- The biased exponent field of a pattern. -/
def f32Exp (a : F32) : Nat := (a.extractLsb' 23 8).toNat

/-- The fraction field of a pattern. -/
def f32Frac (a : F32) : Nat := (a.extractLsb' 0 23).toNat

/-- The value of a binary32 pattern (IEEE 754, 00_scope.md R13). -/
def f32Unpack (a : F32) : FloatValue :=
  if f32Exp a = 255 then
    if f32Frac a = 0 then .inf (f32Sign a) else .nan
  else if f32Exp a = 0 then .fin (f32Sign a) (f32Frac a) (-149)
  else .fin (f32Sign a) (2 ^ 23 + f32Frac a) ((f32Exp a : Int) - 150)

/-- The pattern with the given sign and the given low 31 bits. -/
def f32WithSign (neg : Bool) (mag : Nat) : F32 := BitVec.ofNat 32 ((if neg then 2 ^ 31 else 0) + mag)

/-- The signed infinity. -/
def f32Inf (neg : Bool) : F32 := f32WithSign neg 0x7F800000

/-- The signed zero. -/
def f32Zero (neg : Bool) : F32 := f32WithSign neg 0

/-- m / 2^k rounded to the nearest integer, ties to even. The exact number is m, or something strictly between m and
m + 1 when `sticky` is true. -/
def roundShift (m k : Nat) (sticky : Bool) : Nat :=
  if k = 0 then m
  else
    let low := m % 2 ^ k
    let half := 2 ^ (k - 1)
    let q := m / 2 ^ k
    if half < low ∨ (low = half ∧ (sticky = true ∨ q % 2 = 1)) then q + 1 else q

/-- The exponent of the last place of the binary32 numbers near m · 2^e: 24 significant bits, and never below the
subnormal spacing 2^-149. -/
def f32Quantum (m : Nat) (e : Int) : Int := max ((Nat.log2 m : Int) + e - 23) (-149)

/-- The number of units of the last place of a value, rounded to nearest even. -/
def f32Units (m : Nat) (e : Int) (sticky : Bool) : Nat :=
  let q := f32Quantum m e
  if q ≤ e then m * 2 ^ (e - q).toNat else roundShift m (q - e).toNat sticky

/-- The low 31 bits of the pattern nearest to the positive value: a carry out of the fraction moves into the
exponent, and a result past the largest finite number is the infinity. -/
def f32Magnitude (m : Nat) (e : Int) (sticky : Bool) : Nat :=
  min ((f32Quantum m e + 149).toNat * 2 ^ 23 + f32Units m e sticky) 0x7F800000

/-- The binary32 pattern nearest to (-1)^neg · m · 2^e, ties to even; with `sticky` the exact magnitude lies strictly
between m · 2^e and (m + 1) · 2^e, and m then has at least 26 significant bits. -/
def f32Round (neg : Bool) (m : Nat) (e : Int) (sticky : Bool) : F32 :=
  if m = 0 then f32Zero neg else f32WithSign neg (f32Magnitude m e sticky)

/-- The signed integer a magnitude and a sign stand for. -/
def signedOf (neg : Bool) (m : Nat) : Int := if neg then -(m : Int) else m

/-- The exact sum of two finite numbers, rounded once: a zero sum is +0 unless both operands are negative. -/
def f32AddFin (na : Bool) (ma : Nat) (ea : Int) (nb : Bool) (mb : Nat) (eb : Int) : F32 :=
  let e := min ea eb
  let x := signedOf na (ma * 2 ^ (ea - e).toNat) + signedOf nb (mb * 2 ^ (eb - e).toNat)
  if x = 0 then f32Zero (na && nb) else f32Round (decide (x < 0)) x.natAbs e false

/-- a +f b (00_scope.md R13). -/
def fadd (a b : F32) : F32 :=
  match f32Unpack a, f32Unpack b with
  | .nan, _ => f32NaN
  | _, .nan => f32NaN
  | .inf na, .inf nb => if na = nb then f32Inf na else f32NaN
  | .inf na, .fin _ _ _ => f32Inf na
  | .fin _ _ _, .inf nb => f32Inf nb
  | .fin na ma ea, .fin nb mb eb => f32AddFin na ma ea nb mb eb

/-- The pattern with its sign bit inverted. -/
def fneg (a : F32) : F32 := a ^^^ 0x80000000#32

/-- a -f b, the sum of a and b with its sign inverted (00_scope.md R13). -/
def fsub (a b : F32) : F32 := fadd a (fneg b)

/-- a *f b (00_scope.md R13). -/
def fmul (a b : F32) : F32 :=
  match f32Unpack a, f32Unpack b with
  | .nan, _ => f32NaN
  | _, .nan => f32NaN
  | .inf na, .inf nb => f32Inf (na != nb)
  | .inf na, .fin nb mb _ => if mb = 0 then f32NaN else f32Inf (na != nb)
  | .fin na ma _, .inf nb => if ma = 0 then f32NaN else f32Inf (na != nb)
  | .fin na ma ea, .fin nb mb eb => f32Round (na != nb) (ma * mb) (ea + eb) false

/-- The quotient of two nonzero finite numbers: 50 more bits of the dividend give at least 26 significant bits. -/
def f32DivFin (neg : Bool) (ma : Nat) (ea : Int) (mb : Nat) (eb : Int) : F32 :=
  let n := ma * 2 ^ 50
  f32Round neg (n / mb) (ea - eb - 50) (decide (n % mb ≠ 0))

/-- a /f b (00_scope.md R13): a division by zero gives an infinity or NaN as IEEE 754 says. -/
def fdiv (a b : F32) : F32 :=
  match f32Unpack a, f32Unpack b with
  | .nan, _ => f32NaN
  | _, .nan => f32NaN
  | .inf _, .inf _ => f32NaN
  | .inf na, .fin nb _ _ => f32Inf (na != nb)
  | .fin na _ _, .inf nb => f32Zero (na != nb)
  | .fin na ma ea, .fin nb mb eb =>
    if mb = 0 then (if ma = 0 then f32NaN else f32Inf (na != nb))
    else if ma = 0 then f32Zero (na != nb)
    else f32DivFin (na != nb) ma ea mb eb

/-- The bits of the integer square root of n from bit k - 1 down, given the part r already found. -/
def isqrtFrom (n : Nat) : Nat → Nat → Nat
  | 0, r => r
  | k + 1, r => isqrtFrom n k (if (r + 2 ^ k) * (r + 2 ^ k) ≤ n then r + 2 ^ k else r)

/-- The integer square root of a number below 2^(2k). -/
def isqrt (n k : Nat) : Nat := isqrtFrom n k 0

/-- The square root of a positive finite number: the radicand is given an even exponent and at least 52 bits, so that
the root has at least 26. -/
def f32SqrtFin (m : Nat) (e : Int) : F32 :=
  let odd : Nat := (e % 2).toNat
  let n := m * 2 ^ (52 + odd)
  let r := isqrt n 39
  f32Round false r ((e - (52 + odd)) / 2) (decide (r * r ≠ n))

/-- sqrtf(a) (00_scope.md R13). -/
def fsqrt (a : F32) : F32 :=
  match f32Unpack a with
  | .nan => f32NaN
  | .inf neg => if neg then f32NaN else f32Inf false
  | .fin neg m e => if m = 0 then f32Zero neg else if neg then f32NaN else f32SqrtFin m e

/-- absf(a) clears the sign bit (00_scope.md R13). -/
def fabs (a : F32) : F32 := a &&& 0x7FFFFFFF#32

/-- f32(n), an integer converted with round to nearest even (00_scope.md R13). -/
def f32OfInt (n : Int) : F32 := f32Round (decide (n < 0)) n.natAbs 0 false

/-- f32(n) of a natural number (00_scope.md R13). -/
def f32OfNat (n : Nat) : F32 := f32OfInt n

/-- Whether a pattern is a NaN. -/
def fisNaN (a : F32) : Bool := decide (f32Exp a = 255 ∧ f32Frac a ≠ 0)

/-- Whether a pattern is a finite number. -/
def fisFinite (a : F32) : Bool := decide (f32Exp a ≠ 255)

/-- A pattern with a NaN replaced by the canonical one (00_scope.md R14, 44_transform.md R246). -/
def fcanon (a : F32) : F32 := if fisNaN a then f32NaN else a

/-- trunc(a), a finite number rounded toward zero to an integer; none for a NaN or an infinity
(00_scope.md R13). -/
def ftrunc (a : F32) : Option Int :=
  match f32Unpack a with
  | .nan => none
  | .inf _ => none
  | .fin neg m e => some (signedOf neg (if 0 ≤ e then m * 2 ^ e.toNat else m / 2 ^ (-e).toNat))

/-- An integer that orders the patterns of all numbers as their values are ordered; both zeros give 0. -/
def fkey (a : F32) : Int := signedOf (f32Sign a) (a.extractLsb' 0 31).toNat

/-- a < b, false when either is NaN (00_scope.md R13). -/
def flt (a b : F32) : Bool := !fisNaN a && !fisNaN b && decide (fkey a < fkey b)

/-- a ≤ b, false when either is NaN (00_scope.md R13). -/
def fle (a b : F32) : Bool := !fisNaN a && !fisNaN b && decide (fkey a ≤ fkey b)

/-- a = b, false when either is NaN; -0.0 = 0.0 (00_scope.md R13). -/
def feq (a b : F32) : Bool := !fisNaN a && !fisNaN b && decide (fkey a = fkey b)

/-- 0.05 as binary32 (46_finder_pattern.md R302). -/
def f005 : F32 := 0x3D4CCCCD#32

/-- 0.2 as binary32 (46_finder_pattern.md R303). -/
def f02 : F32 := 0x3E4CCCCD#32

/-- 0.5 as binary32. -/
def f05 : F32 := 0x3F000000#32

/-- 1.0 as binary32. -/
def f1 : F32 := 0x3F800000#32

/-- 2.0 as binary32. -/
def f2 : F32 := 0x40000000#32

/-- 3.0 as binary32. -/
def f3 : F32 := 0x40400000#32

/-- 3.5 as binary32, the margin of the module square (44_transform.md R248). -/
def f35 : F32 := 0x40600000#32

/-- 7.0 as binary32. -/
def f7 : F32 := 0x40E00000#32

end Sys2Proof.Machine
end

