-- ==== Sys2Proof/Machine/Projective.lean ====
section
/-! DEFINITION. Projective transforms in binary32 (44_transform.md R240 to R248), every expression in the evaluation
order the rule writes. -/

namespace Sys2Proof.Machine

/-- `PT(...)`: the matrix from its elements column by column (44_transform.md R240), every NaN element stored as the
canonical one (R246). DEDUCED (notes/assumptions/14.md): a copied element too. -/
def matPT (a11 a21 a31 a12 a22 a32 a13 a23 a33 : F32) : Mat where
  a11 := fcanon a11
  a12 := fcanon a12
  a13 := fcanon a13
  a21 := fcanon a21
  a22 := fcanon a22
  a23 := fcanon a23
  a31 := fcanon a31
  a32 := fcanon a32
  a33 := fcanon a33

/-- The four corners of a quadrilateral, (x0, y0) to (x3, y3). -/
structure Quad where
  x0 : F32
  y0 : F32
  x1 : F32
  y1 : F32
  x2 : F32
  y2 : F32
  x3 : F32
  y3 : F32
deriving DecidableEq, Repr

/-- Square to quadrilateral (44_transform.md R241). -/
def sq2q (q : Quad) : Mat :=
  let dx3 := fsub (fadd (fsub q.x0 q.x1) q.x2) q.x3
  let dy3 := fsub (fadd (fsub q.y0 q.y1) q.y2) q.y3
  if feq dx3 0#32 && feq dy3 0#32 then
    matPT (fsub q.x1 q.x0) (fsub q.x2 q.x1) q.x0 (fsub q.y1 q.y0) (fsub q.y2 q.y1) q.y0 0#32 0#32 f1
  else
    let dx1 := fsub q.x1 q.x2
    let dx2 := fsub q.x3 q.x2
    let dy1 := fsub q.y1 q.y2
    let dy2 := fsub q.y3 q.y2
    let den := fsub (fmul dx1 dy2) (fmul dx2 dy1)
    let a13 := fdiv (fsub (fmul dx3 dy2) (fmul dx2 dy3)) den
    let a23 := fdiv (fsub (fmul dx1 dy3) (fmul dx3 dy1)) den
    matPT (fadd (fsub q.x1 q.x0) (fmul a13 q.x1)) (fadd (fsub q.x3 q.x0) (fmul a23 q.x3)) q.x0
      (fadd (fsub q.y1 q.y0) (fmul a13 q.y1)) (fadd (fsub q.y3 q.y0) (fmul a23 q.y3)) q.y0
      a13 a23 f1

/-- The difference of two products, each rounded: `(a *f b) -f (c *f d)`. -/
def fdet (a b c d : F32) : F32 := fsub (fmul a b) (fmul c d)

/-- The adjoint (44_transform.md R242). -/
def adjoint (m : Mat) : Mat :=
  matPT
    (fdet m.a22 m.a33 m.a23 m.a32) (fdet m.a23 m.a31 m.a21 m.a33) (fdet m.a21 m.a32 m.a22 m.a31)
    (fdet m.a13 m.a32 m.a12 m.a33) (fdet m.a11 m.a33 m.a13 m.a31) (fdet m.a12 m.a31 m.a11 m.a32)
    (fdet m.a12 m.a23 m.a13 m.a22) (fdet m.a13 m.a21 m.a11 m.a23) (fdet m.a11 m.a22 m.a12 m.a21)

/-- `s3(p, q, r)`, a sum from left to right (44_transform.md R243). -/
def fsum3 (p q r : F32) : F32 := fadd (fadd p q) r

/-- Composition: `times(M, O)` applies O first and then M (44_transform.md R243). DEDUCED (notes/assumptions/26.md): R254
says that composing with the identity makes every -0.0 a +0.0; the formula keeps it where all three products are -0.0,
and the formula is followed. -/
def times (m o : Mat) : Mat :=
  matPT
    (fsum3 (fmul m.a11 o.a11) (fmul m.a21 o.a12) (fmul m.a31 o.a13))
    (fsum3 (fmul m.a11 o.a21) (fmul m.a21 o.a22) (fmul m.a31 o.a23))
    (fsum3 (fmul m.a11 o.a31) (fmul m.a21 o.a32) (fmul m.a31 o.a33))
    (fsum3 (fmul m.a12 o.a11) (fmul m.a22 o.a12) (fmul m.a32 o.a13))
    (fsum3 (fmul m.a12 o.a21) (fmul m.a22 o.a22) (fmul m.a32 o.a23))
    (fsum3 (fmul m.a12 o.a31) (fmul m.a22 o.a32) (fmul m.a32 o.a33))
    (fsum3 (fmul m.a13 o.a11) (fmul m.a23 o.a12) (fmul m.a33 o.a13))
    (fsum3 (fmul m.a13 o.a21) (fmul m.a23 o.a22) (fmul m.a33 o.a23))
    (fsum3 (fmul m.a13 o.a31) (fmul m.a23 o.a32) (fmul m.a33 o.a33))

/-- Quadrilateral to square (44_transform.md R244). -/
def q2sq (q : Quad) : Mat := adjoint (sq2q q)

/-- Quadrilateral to quadrilateral (44_transform.md R245). DEDUCED (notes/assumptions/27.md): R252 says that a unit-square
source gives `sq2q` of the destination exactly; the formula does not where that matrix has a NaN, an infinite or a -0.0
element, and the formula is followed. -/
def q2q (src dst : Quad) : Mat := times (sq2q dst) (q2sq src)

/-- The image of a point (44_transform.md R247). -/
def mapPoint (m : Mat) (x y : F32) : F32 × F32 :=
  let den := fsum3 (fmul m.a13 x) (fmul m.a23 y) m.a33
  (fdiv (fsum3 (fmul m.a11 x) (fmul m.a21 y) m.a31) den,
   fdiv (fsum3 (fmul m.a12 x) (fmul m.a22 y) m.a32) den)

/-- The QR grid transform (44_transform.md R248) of the corners top-left, top-right and bottom-left, the alignment
point if there is one, and the dimension N. DEDUCED (notes/assumptions/28.md): R256 says that N = 7 gives NaN or infinite
elements; without an alignment point the formula gives zeros where `sq2q` of the image corners is finite, and the
formula is followed. -/
def qrGrid (tlx tly trx try' blx bly : F32) (ap : Option (F32 × F32)) (n : Nat) : Mat :=
  let d := fsub (f32OfNat n) f35
  match ap with
  | some (apx, apy) =>
    let sb := fsub d f3
    q2q ⟨f35, f35, d, f35, sb, sb, f35, d⟩ ⟨tlx, tly, trx, try', apx, apy, blx, bly⟩
  | none =>
    let brx := fadd (fsub trx tlx) blx
    let bry := fadd (fsub try' tly) bly
    q2q ⟨f35, f35, d, f35, d, d, f35, d⟩ ⟨tlx, tly, trx, try', brx, bry, blx, bly⟩

end Sys2Proof.Machine
end

