-- ==== Sys2Proof/Machine/Operands.lean ====
section
/-! DEFINITION. Operands and results: polynomial buffers (42_gf_poly.md R187, R188), degrees, codewords and locations,
float operands, matrix registers, points and candidates. -/

namespace Sys2Proof.Machine

/-- PBLEN[k] (10_state.md R42). -/
def pblenAt (s : State) (k : BitVec 3) : Nat := (s.pblen[k.toNat]'k.isLt).toNat

/-- A polynomial operand PB[k] (42_gf_poly.md R187): length 0 raises ILLEGAL_ARG, a length above 512 CAPACITY. -/
def polyOperand (s : State) (k : BitVec 3) : Except ErrCode Poly :=
  if pblenAt s k = 0 then .error .illegalArg
  else if Config.maxLen < pblenAt s k then .error .capacity
  else normaliseChecked (readElems s.mem (pbBase k.toNat) (pblenAt s k))

/-- The store of a polynomial in PB[k]: its length and its coefficients, no word past them (42_gf_poly.md R188). -/
def putPoly (s : State) (k : BitVec 3) (p : Poly) : State :=
  { s with
    pblen := s.pblen.set k.toNat (BitVec.ofNat 10 p.length) k.isLt
    mem := writeElems s.mem (pbBase k.toNat) p }

/-- Writing a polynomial result to PB[k] (42_gf_poly.md R188): more than 512 coefficients raise CAPACITY. -/
def writePoly (s : State) (k : BitVec 3) (p : Poly) : Except ErrCode State :=
  if Config.maxLen < p.length then .error .capacity else .ok (putPoly s k p)

/-- DEGR after a command, the degree of a polynomial (42_gf_poly.md R189). -/
def degrOf (p : Poly) : BitVec 16 := BitVec.ofNat 16 (pdeg p)

/-- The end of a command with one polynomial result: PB[k] and DEGR (42_gf_poly.md R188, R189). -/
def polyResult (s : State) (k : BitVec 3) (p : Poly) : Except ErrCode State :=
  match writePoly s k p with
  | .error e => .error e
  | .ok t => .ok { t with degr := degrOf p }

/-- The end of a command with two polynomial results, both checked before either is written (42_gf_poly.md R188);
DEGR is the degree of the first. -/
def polyResults (s : State) (k1 : BitVec 3) (p1 : Poly) (k2 : BitVec 3) (p2 : Poly) : Except ErrCode State :=
  match writePoly s k1 p1 with
  | .error e => .error e
  | .ok t1 =>
    match writePoly t1 k2 p2 with
    | .error e => .error e
    | .ok t2 => .ok { t2 with degr := degrOf p1 }

/-- DEG as a signed number (10_state.md R28). -/
def degOperand (s : State) : Int := s.deg.toInt

/-- CWLEN in 1..255 (43_reed_solomon.md R201). -/
def cwlenOk (s : State) : Bool := decide (1 ≤ s.cwlen.toNat ∧ s.cwlen.toNat ≤ Config.maxCw)

/-- TWOS in 1..255 (43_reed_solomon.md R201). -/
def twosOk (s : State) : Bool := decide (1 ≤ s.twos.toNat ∧ s.twos.toNat ≤ 255)

/-- NLOC at most 255 (43_reed_solomon.md R201). -/
def nlocOk (s : State) : Bool := decide (s.nloc.toNat ≤ Config.maxCw)

/-- The received polynomial Rx (43_reed_solomon.md R200). -/
def received (s : State) : Poly := normalise (readElems s.mem cwbBase s.cwlen.toNat)

/-- LOC[0..NLOC-1] (10_state.md R46). -/
def locations (s : State) : List Byte := readElems s.mem locBase s.nloc.toNat

/-- MAG[0..NLOC-1] (10_state.md R46). -/
def magnitudes (s : State) : List Byte := readElems s.mem magBase s.nloc.toNat

/-- CWB with each magnitude exclusive-ored in at its position, in order (43_reed_solomon.md R208). -/
def applyFixes : Memory → List (Nat × Byte) → Memory
  | m, [] => m
  | m, (p, x) :: rest =>
    applyFixes (writeElem m (cwbBase + 4 * p) (gfAdd (readElem m (cwbBase + 4 * p)) x)) rest

/-- The quadrilateral F[0..7] (44_transform.md R250). -/
def quadLow (s : State) : Quad :=
  ⟨s.f[0], s.f[1], s.f[2], s.f[3], s.f[4], s.f[5], s.f[6], s.f[7]⟩

/-- The quadrilateral F[8..15] (44_transform.md R252). -/
def quadHigh (s : State) : Quad :=
  ⟨s.f[8], s.f[9], s.f[10], s.f[11], s.f[12], s.f[13], s.f[14], s.f[15]⟩

/-- T[k] for an index field; the field is at most 3 wherever a command uses it (30_encoding.md R112). -/
def matAt (s : State) (k : BitVec 3) : Mat := s.t.getD k.toNat zeroMat

/-- T[k] replaced. -/
def putMat (s : State) (k : BitVec 3) (m : Mat) : State := { s with t := s.t.setIfInBounds k.toNat m }

/-- The points of PM mapped through a matrix, two words a point (44_transform.md R255). -/
def mapPoints (m : Mat) : List Word → List Word
  | x :: y :: rest => (mapPoint m x y).1 :: (mapPoint m x y).2 :: mapPoints m rest
  | l => l

/-- The four words of a candidate entry (10_state.md R52). -/
def candidateWords (c : Pattern) : List Word := [c.x, c.y, c.size, c.count]

/-- CAND[0..] and NCAND holding a candidate list; entries past it keep their words (10_state.md R52). -/
def putCandidates (s : State) (cands : List Pattern) : State :=
  { s with
    mem := writeWords s.mem candBase (cands.flatMap candidateWords)
    ncand := BitVec.ofNat 16 cands.length }

/-- CCI and CCJ name a pixel of the image (46_finder_pattern.md R323). -/
def crossStartOk (s : State) : Bool :=
  decide (s.cci.toNat < s.port.height.toNat ∧ s.ccj.toNat < s.port.width.toNat)

end Sys2Proof.Machine
end

