-- ==== Sys2Proof/Machine/PatternSearch.lean ====
section
/-! DEFINITION. The pixel port and the pattern searches as functions of values: run counts, ratio tests, cross-checks,
candidates, the row automata, selection and ordering (46_finder_pattern.md R290 to R305, 47_alignment_pattern.md R340
to R348). -/

namespace Sys2Proof.Machine

/-- `img(x, y)`: true means black (20_memory.md R90). No command reads outside the image; the function answers white
there (notes/assumptions/12.md). -/
def Image.black (im : Image) (x y : Int) : Bool :=
  decide (0 ≤ x ∧ x < (im.width.toNat : Int) ∧ 0 ≤ y ∧ y < (im.height.toNat : Int)) &&
    (im.rows.getD y.toNat 0).testBit x.toNat

/-- The image size a pixel command accepts (20_memory.md R92). -/
def Image.sizeOk (im : Image) : Bool :=
  decide (1 ≤ im.width.toNat ∧ im.width.toNat ≤ Config.imgMax ∧
    1 ≤ im.height.toNat ∧ im.height.toNat ≤ Config.imgMax)

/-- Five run lengths, black, white, black, white, black (46_finder_pattern.md R291). -/
structure Runs5 where
  s0 : Nat
  s1 : Nat
  s2 : Nat
  s3 : Nat
  s4 : Nat
deriving DecidableEq, Repr

/-- No pixel counted yet. -/
def Runs5.zero : Runs5 := ⟨0, 0, 0, 0, 0⟩

/-- The total of the runs. -/
def Runs5.total (s : Runs5) : Nat := s.s0 + s.s1 + s.s2 + s.s3 + s.s4

/-- One more pixel in run k. -/
def Runs5.bump (s : Runs5) (k : Nat) : Runs5 :=
  match k with
  | 0 => { s with s0 := s.s0 + 1 }
  | 1 => { s with s1 := s.s1 + 1 }
  | 2 => { s with s2 := s.s2 + 1 }
  | 3 => { s with s3 := s.s3 + 1 }
  | _ => { s with s4 := s.s4 + 1 }

/-- `cfe5`, the centre of the middle run (46_finder_pattern.md R291). -/
def centre5 (s : Runs5) (stop : Int) : F32 :=
  fsub (f32OfInt (stop - s.s4 - s.s3)) (fdiv (f32OfNat s.s2) f2)

/-- `ratio5`, the finder ratio test (46_finder_pattern.md R292). -/
def ratio5 (s : Runs5) : Bool :=
  if s.s0 = 0 ∨ s.s1 = 0 ∨ s.s2 = 0 ∨ s.s3 = 0 ∨ s.s4 = 0 then false
  else if s.total < 7 then false
  else
    let ms := fdiv (f32OfNat s.total) f7
    let mv := fdiv ms f2
    flt (fabs (fsub ms (f32OfNat s.s0))) mv &&
    flt (fabs (fsub ms (f32OfNat s.s1))) mv &&
    flt (fabs (fsub (fmul f3 ms) (f32OfNat s.s2))) (fmul f3 mv) &&
    flt (fabs (fsub ms (f32OfNat s.s3))) mv &&
    flt (fabs (fsub ms (f32OfNat s.s4))) mv

/-- Three run lengths, white, black, white (47_alignment_pattern.md R340). -/
structure Runs3 where
  s0 : Nat
  s1 : Nat
  s2 : Nat
deriving DecidableEq, Repr

/-- No pixel counted yet. -/
def Runs3.zero : Runs3 := ⟨0, 0, 0⟩

/-- The total of the runs. -/
def Runs3.total (s : Runs3) : Nat := s.s0 + s.s1 + s.s2

/-- One more pixel in run k. -/
def Runs3.bump (s : Runs3) (k : Nat) : Runs3 :=
  match k with
  | 0 => { s with s0 := s.s0 + 1 }
  | 1 => { s with s1 := s.s1 + 1 }
  | _ => { s with s2 := s.s2 + 1 }

/-- `cfe3`, the centre of the middle run (47_alignment_pattern.md R342). -/
def centre3 (s : Runs3) (stop : Int) : F32 :=
  fsub (f32OfInt (stop - s.s2)) (fdiv (f32OfNat s.s1) f2)

/-- `ratio3`, the alignment ratio test against the module size AMS (47_alignment_pattern.md R341). -/
def ratio3 (ams : F32) (s : Runs3) : Bool :=
  let mv := fdiv ams f2
  flt (fabs (fsub ams (f32OfNat s.s0))) mv &&
  flt (fabs (fsub ams (f32OfNat s.s1))) mv &&
  flt (fabs (fsub ams (f32OfNat s.s2))) mv

/-- A half line of pixels from a starting point outwards: pixel k is inside the image while `inside k`. -/
structure Ray where
  inside : Nat → Bool
  black : Nat → Bool

/-- One `while` loop of a cross-check (46_finder_pattern.md R297 to R299): from pixel k on, count pixels of one colour
while they lie inside the image and the count so far passes `more`. It answers the new k and the new count. `fuel`
bounds the passes by the image size (notes/assumptions/17.md). -/
def walk (ray : Ray) (colour : Bool) (more : Nat → Bool) : Nat → Nat → Nat → Nat × Nat
  | 0, k, n => (k, n)
  | fuel + 1, k, n =>
    if ray.inside k && (ray.black k == colour) && more n then walk ray colour more fuel (k + 1) (n + 1)
    else (k, n)

/-- The walks of a finder cross-check in both directions (46_finder_pattern.md R297, R299): the five runs and the k at
which the forward ray ended, or none where a test on the way fails. The backward ray starts at k = 0 with the centre,
the forward ray at k = 1. Backward runs are bounded with ≤, forward runs with <. -/
def crossWalk5 (back forth : Ray) (fuel maxc : Nat) : Option (Runs5 × Nat) :=
  let w2 := walk back true (fun _ => true) fuel 0 0
  if !back.inside w2.1 then none
  else
    let w1 := walk back false (fun n => decide (n ≤ maxc)) fuel w2.1 0
    if !back.inside w1.1 || decide (maxc < w1.2) then none
    else
      let w0 := walk back true (fun n => decide (n ≤ maxc)) fuel w1.1 0
      if maxc < w0.2 then none
      else
        let v2 := walk forth true (fun _ => true) fuel 1 w2.2
        if !forth.inside v2.1 then none
        else
          let v3 := walk forth false (fun n => decide (n < maxc)) fuel v2.1 0
          if !forth.inside v3.1 || decide (maxc ≤ v3.2) then none
          else
            let v4 := walk forth true (fun n => decide (n < maxc)) fuel v3.1 0
            if maxc ≤ v4.2 then none
            else some (⟨w0.2, w1.2, v2.2, v3.2, v4.2⟩, v4.1)

/-- The absolute difference of two totals. -/
def absDiff (t orig : Nat) : Nat := ((t : Int) - (orig : Int)).natAbs

/-- "Within 40%" (46_finder_pattern.md R297, R299). -/
def within40 (t orig : Nat) : Bool := decide (5 * absDiff t orig < 2 * orig)

/-- "Within 20%" (46_finder_pattern.md R298). -/
def within20 (t orig : Nat) : Bool := decide (5 * absDiff t orig < orig)

/-- The pixels of column x upwards from row i. -/
def rayUp (im : Image) (x i : Int) : Ray :=
  ⟨fun k => decide (0 ≤ i - k), fun k => im.black x (i - k)⟩

/-- The pixels of column x downwards from row i. -/
def rayDown (im : Image) (x i : Int) : Ray :=
  ⟨fun k => decide (i + k < (im.height.toNat : Int)), fun k => im.black x (i + k)⟩

/-- The pixels of row y leftwards from column j. -/
def rayLeft (im : Image) (y j : Int) : Ray :=
  ⟨fun k => decide (0 ≤ j - k), fun k => im.black (j - k) y⟩

/-- The pixels of row y rightwards from column j. -/
def rayRight (im : Image) (y j : Int) : Ray :=
  ⟨fun k => decide (j + k < (im.width.toNat : Int)), fun k => im.black (j + k) y⟩

/-- The pixels of the diagonal through (j, i) towards the top-left. -/
def rayUpLeft (im : Image) (i j : Int) : Ray :=
  ⟨fun k => decide ((k : Int) ≤ i ∧ (k : Int) ≤ j), fun k => im.black (j - k) (i - k)⟩

/-- The pixels of the diagonal through (j, i) towards the bottom-right. -/
def rayDownRight (im : Image) (i j : Int) : Ray :=
  ⟨fun k => decide (i + k < (im.height.toNat : Int) ∧ j + k < (im.width.toNat : Int)),
   fun k => im.black (j + k) (i + k)⟩

/-- The vertical cross-check `ccv` (46_finder_pattern.md R297): the centre row, or none for its NaN. -/
def crossVertical (im : Image) (startI cj : Int) (maxc orig : Nat) : Option F32 :=
  match crossWalk5 (rayUp im cj startI) (rayDown im cj startI) (im.height.toNat + 1) maxc with
  | none => none
  | some (s, k) => if within40 s.total orig && ratio5 s then some (centre5 s (startI + k)) else none

/-- The horizontal cross-check `cch` (46_finder_pattern.md R298): the centre column, or none for its NaN. -/
def crossHorizontal (im : Image) (startJ ci : Int) (maxc orig : Nat) : Option F32 :=
  match crossWalk5 (rayLeft im ci startJ) (rayRight im ci startJ) (im.width.toNat + 1) maxc with
  | none => none
  | some (s, k) => if within20 s.total orig && ratio5 s then some (centre5 s (startJ + k)) else none

/-- The diagonal cross-check `ccd` (46_finder_pattern.md R299). -/
def crossDiagonal (im : Image) (ci cj : Int) (maxc orig : Nat) : Bool :=
  match crossWalk5 (rayUpLeft im ci cj) (rayDownRight im ci cj) (im.height.toNat + 1) maxc with
  | none => false
  | some (s, _) => within40 s.total orig && ratio5 s

/-- The walks of the alignment cross-check (47_alignment_pattern.md R347), every run bounded with ≤. DEDUCED:
a white start is walked as the pseudocode writes it (notes/assumptions/21.md). -/
def crossWalk3 (back forth : Ray) (fuel maxc : Nat) : Option (Runs3 × Nat) :=
  let more := fun n => decide (n ≤ maxc)
  let w1 := walk back true more fuel 0 0
  if !back.inside w1.1 || decide (maxc < w1.2) then none
  else
    let w0 := walk back false more fuel w1.1 0
    if maxc < w0.2 then none
    else
      let v1 := walk forth true more fuel 1 w1.2
      if !forth.inside v1.1 || decide (maxc < v1.2) then none
      else
        let v2 := walk forth false more fuel v1.1 0
        if maxc < v2.2 then none
        else some (⟨w0.2, v1.2, v2.2⟩, v2.1)

/-- The alignment vertical cross-check `ccva` (47_alignment_pattern.md R347): the centre row, or none for its NaN. -/
def crossVertical3 (im : Image) (ams : F32) (startI cj : Int) (maxc orig : Nat) : Option F32 :=
  match crossWalk3 (rayUp im cj startI) (rayDown im cj startI) (im.height.toNat + 1) maxc with
  | none => none
  | some (s, k) => if within40 s.total orig && ratio3 ams s then some (centre3 s (startI + k)) else none

/-- About-equal: a candidate against a new observation (46_finder_pattern.md R300). -/
def aboutEqual (c : Pattern) (ms ci cj : F32) : Bool :=
  fle (fabs (fsub ci c.y)) ms && fle (fabs (fsub cj c.x)) ms &&
    (fle (fabs (fsub ms c.size)) f1 || fle (fabs (fsub ms c.size)) c.size)

/-- The count-weighted average of a candidate and a new observation (46_finder_pattern.md R301). -/
def combine (c : Pattern) (ms ci cj : F32) : Pattern :=
  let n := c.count.toNat
  let m := f32OfNat (n + 1)
  { x := fdiv (fadd (fmul (f32OfNat n) c.x) cj) m
    y := fdiv (fadd (fmul (f32OfNat n) c.y) ci) m
    size := fdiv (fadd (fmul (f32OfNat n) c.size) ms) m
    count := BitVec.ofNat 32 (n + 1) }

/-- Merge into the first about-equal candidate in index order; none when there is none (46_finder_pattern.md R301). -/
def mergeFirst (ms ci cj : F32) : List Pattern → Option (List Pattern)
  | [] => none
  | c :: cs =>
    if aboutEqual c ms ci cj then some (combine c ms ci cj :: cs)
    else (mergeFirst ms ci cj cs).map (fun cs' => c :: cs')

/-- `record` (46_finder_pattern.md R301): the candidates after a confirmed cross, or none when a new candidate finds
the memory full (CAPACITY). -/
def recordCandidate (cands : List Pattern) (ms ci cj : F32) : Option (List Pattern) :=
  match mergeFirst ms ci cj cands with
  | some cs => some cs
  | none => if Config.maxCand ≤ cands.length then none else some (cands ++ [⟨cj, ci, ms, 1#32⟩])

/-- What a confirmation answers: the cross is not confirmed; it is, with the candidates after it; or the candidate
memory is full. -/
inductive Confirmed where
  | no
  | yes (cands : List Pattern)
  | full
deriving DecidableEq, Repr

/-- `confirm` (46_finder_pattern.md R296). -/
def confirm5 (im : Image) (pure : Bool) (s : Runs5) (i j : Nat) (cands : List Pattern) : Confirmed :=
  match ftrunc (centre5 s j) with
  | none => .no
  | some tj =>
    match crossVertical im i tj s.s2 s.total with
    | none => .no
    | some ci =>
      match ftrunc ci with
      | none => .no
      | some ti =>
        match crossHorizontal im tj ti s.s2 s.total with
        | none => .no
        | some cj =>
          match ftrunc cj with
          | none => .no
          | some tj' =>
            if pure && !crossDiagonal im ti tj' s.s2 s.total then .no
            else
              match recordCandidate cands (fdiv (f32OfNat s.total) f7) ci cj with
              | none => .full
              | some cs => .yes cs

/-- The sum of a list of binary32 values, from left to right, starting at 0.0. -/
def fsum (l : List F32) : F32 := l.foldl fadd 0#32

/-- The early stop (46_finder_pattern.md R302). -/
def earlyStop (cands : List Pattern) : Bool :=
  let sizes := (cands.filter (fun c => decide (2 ≤ c.count.toNat))).map (fun c => c.size)
  if sizes.length < 3 then false
  else
    let tot := fsum sizes
    let mean := fdiv tot (f32OfNat sizes.length)
    let dev := fsum (sizes.map (fun s => fabs (fsub s mean)))
    fle dev (fmul f005 tot)

/-- How far a finder search has come: it goes on, it has ended early, or the candidate memory is full. -/
inductive Progress where
  | scanning
  | stopped
  | full
deriving DecidableEq, Repr

/-- The finder search between two pixels: the runs counted, the run being counted, the candidates, the progress. -/
structure Scan5 where
  runs : Runs5
  cs : Nat
  cands : List Pattern
  progress : Progress
deriving DecidableEq, Repr

/-- One pixel of the finder row automaton (46_finder_pattern.md R294). -/
def scan5Pixel (im : Image) (pure : Bool) (i j : Nat) (z : Scan5) : Scan5 :=
  if im.black j i then
    let cs := if z.cs % 2 = 1 then z.cs + 1 else z.cs
    { z with runs := z.runs.bump cs, cs := cs }
  else if z.cs % 2 = 1 then { z with runs := z.runs.bump z.cs }
  else if z.cs < 4 then { z with runs := z.runs.bump (z.cs + 1), cs := z.cs + 1 }
  else
    let shifted : Scan5 := { z with runs := ⟨z.runs.s2, z.runs.s3, z.runs.s4, 1, 0⟩, cs := 3 }
    if ratio5 z.runs then
      match confirm5 im pure z.runs i j z.cands with
      | .no => shifted
      | .full => { z with progress := .full }
      | .yes cands =>
        { runs := Runs5.zero, cs := 0, cands := cands,
          progress := if earlyStop cands then .stopped else .scanning }
    else shifted

/-- The pixels of a row from column j on, `left` of them, while the search goes on (46_finder_pattern.md R294). -/
def scan5Pixels (im : Image) (pure : Bool) (i : Nat) : Nat → Nat → Scan5 → Scan5
  | 0, _, z => z
  | left + 1, j, z =>
    if z.progress = .scanning then scan5Pixels im pure i left (j + 1) (scan5Pixel im pure i j z) else z

/-- The end-of-row step (46_finder_pattern.md R295). -/
def scan5RowEnd (im : Image) (pure : Bool) (i : Nat) (z : Scan5) : Scan5 :=
  if z.progress = .scanning && ratio5 z.runs then
    match confirm5 im pure z.runs i im.width.toNat z.cands with
    | .no => z
    | .full => { z with progress := .full }
    | .yes cands => { z with cands := cands, progress := if earlyStop cands then .stopped else .scanning }
  else z

/-- One row of the finder search (46_finder_pattern.md R294, R295). -/
def scan5Row (im : Image) (pure : Bool) (i : Nat) (cands : List Pattern) : Scan5 :=
  scan5RowEnd im pure i (scan5Pixels im pure i im.width.toNat 0 ⟨Runs5.zero, 0, cands, .scanning⟩)

/-- The row stride (46_finder_pattern.md R293). -/
def rowStride (height : Nat) (tryh : Bool) : Nat :=
  let k := 3 * height / (4 * 57)
  if k < 3 || tryh then 3 else k

/-- The rows i, i + stride, ... below the image height, while the search goes on (46_finder_pattern.md R293, R320).
`fuel` bounds the rows by the image height. -/
def scan5Rows (im : Image) (pure : Bool) (stride : Nat) : Nat → Nat → List Pattern → List Pattern × Progress
  | 0, _, cands => (cands, .scanning)
  | fuel + 1, i, cands =>
    if i < im.height.toNat then
      let z := scan5Row im pure i cands
      if z.progress = .scanning then scan5Rows im pure stride fuel (i + stride) z.cands
      else (z.cands, z.progress)
    else (cands, .scanning)

/-- The finder scan of an image (46_finder_pattern.md R320): the candidates recorded, and how it ended. -/
def scan5 (im : Image) (tryh pure : Bool) : List Pattern × Progress :=
  let stride := rowStride im.height.toNat tryh
  scan5Rows im pure stride (im.height.toNat + 1) (stride - 1) []

/-- Insertion of x before the first element that must come after it, so behind every equal one. -/
def insertStable (before : Pattern → Pattern → Bool) (x : Pattern) : List Pattern → List Pattern
  | [] => [x]
  | y :: ys => if before x y then x :: y :: ys else y :: insertStable before x ys

/-- A stable sort: an element moves before another only if it must come before it. -/
def sortStable (before : Pattern → Pattern → Bool) (l : List Pattern) : List Pattern :=
  l.foldl (fun acc x => insertStable before x acc) []

/-- The removal loop of the outlier drop (46_finder_pattern.md R303): `kept` are the candidates already passed, `size`
is how many candidates there are now. -/
def dropOutliers (avg lim : F32) : Nat → List Pattern → List Pattern
  | _, [] => []
  | size, p :: ps =>
    if 3 < size && flt lim (fabs (fsub p.size avg)) then dropOutliers avg lim (size - 1) ps
    else p :: dropOutliers avg lim size ps

/-- The larger of two binary32 values. -/
def fmax (a b : F32) : F32 := if flt a b then b else a

/-- The outlier drop of 46_finder_pattern.md R303, for more than three candidates. -/
def withoutOutliers (l : List Pattern) : List Pattern :=
  let n := f32OfNat l.length
  let avg := fdiv (fsum (l.map (fun p => p.size))) n
  let var := fsub (fdiv (fsum (l.map (fun p => fmul p.size p.size))) n) (fmul avg avg)
  let sd := if flt 0#32 var then fsqrt var else 0#32
  let sorted := sortStable (fun p q => flt (fabs (fsub q.size avg)) (fabs (fsub p.size avg))) l
  dropOutliers avg (fmax (fmul f02 avg) sd) l.length sorted

/-- The three candidates of highest count (46_finder_pattern.md R303), for more than three candidates. -/
def threeBest (l : List Pattern) : List Pattern :=
  let avg := fdiv (fsum (l.map (fun p => p.size))) (f32OfNat l.length)
  let before (p q : Pattern) : Bool :=
    decide (q.count.toNat < p.count.toNat) ||
      (decide (p.count = q.count) && flt (fabs (fsub p.size avg)) (fabs (fsub q.size avg)))
  (sortStable before l).take 3

/-- Selection (46_finder_pattern.md R303): three candidates, or none when fewer than three formed (NOT_FOUND). -/
def select (cands : List Pattern) : Option (Pattern × Pattern × Pattern) :=
  let l1 := if 3 < cands.length then withoutOutliers cands else cands
  let l2 := if 3 < l1.length then threeBest l1 else l1
  match l2 with
  | [a, b, c] => some (a, b, c)
  | _ => none

/-- The distance of two centres (46_finder_pattern.md R304). -/
def distance (a b : Pattern) : F32 :=
  fsqrt (fadd (fmul (fsub a.x b.x) (fsub a.x b.x)) (fmul (fsub a.y b.y) (fsub a.y b.y)))

/-- The cross product of 46_finder_pattern.md R304. -/
def crossZ (a b c : Pattern) : F32 :=
  fsub (fmul (fsub c.x b.x) (fsub a.y b.y)) (fmul (fsub c.y b.y) (fsub a.x b.x))

/-- Ordering into bottom-left, top-left, top-right (46_finder_pattern.md R305). -/
def orderPatterns (p0 p1 p2 : Pattern) : Pattern × Pattern × Pattern :=
  let d01 := distance p0 p1
  let d12 := distance p1 p2
  let d02 := distance p0 p2
  let bac : Pattern × Pattern × Pattern :=
    if fle d01 d12 && fle d02 d12 then (p0, p1, p2)
    else if fle d12 d02 && fle d01 d02 then (p1, p0, p2)
    else (p2, p0, p1)
  let b := bac.1
  let a := bac.2.1
  let c := bac.2.2
  if flt (crossZ a b c) 0#32 then (c, b, a) else (a, b, c)

/-- An alignment pattern: centre and module size (10_state.md R55). -/
structure Alignment where
  x : F32
  y : F32
  size : F32
deriving DecidableEq, Repr

/-- What an alignment confirmation answers (47_alignment_pattern.md R346): no pattern, with the candidates after it; a
combined pattern; or a full candidate memory. -/
inductive Handled where
  | none (cands : List Pattern)
  | pattern (p : Alignment)
  | full
deriving DecidableEq, Repr

/-- The plain average of a candidate and a new observation (47_alignment_pattern.md R346). -/
def plainAverage (c : Pattern) (ms ci cj : F32) : Alignment :=
  { x := fdiv (fadd c.x cj) f2, y := fdiv (fadd c.y ci) f2, size := fdiv (fadd c.size ms) f2 }

/-- `handle3` (47_alignment_pattern.md R346). -/
def handle3 (im : Image) (ams : F32) (s : Runs3) (i j : Nat) (cands : List Pattern) : Handled :=
  match ftrunc (centre3 s j) with
  | none => .none cands
  | some tj =>
    match crossVertical3 im ams i tj (2 * s.s1) s.total with
    | none => .none cands
    | some ci =>
      let cj := centre3 s j
      let ms := fdiv (f32OfNat s.total) f3
      match cands.find? (fun c => aboutEqual c ms ci cj) with
      | some c => .pattern (plainAverage c ms ci cj)
      | none =>
        if Config.maxCand ≤ cands.length then .full else .none (cands ++ [⟨cj, ci, ms, 1#32⟩])

/-- How far an alignment search has come: it goes on, a combined pattern ended it, or the candidate memory is full. -/
inductive Progress3 where
  | scanning
  | found (p : Alignment)
  | full
deriving DecidableEq, Repr

/-- The alignment search between two pixels. -/
structure Scan3 where
  runs : Runs3
  cs : Nat
  cands : List Pattern
  progress : Progress3
deriving DecidableEq, Repr

/-- The effect of a completed triple on the candidates and the progress (47_alignment_pattern.md R344, R345). -/
def scan3Triple (im : Image) (ams : F32) (i j : Nat) (z : Scan3) : Scan3 :=
  if ratio3 ams z.runs then
    match handle3 im ams z.runs i j z.cands with
    | .none cands => { z with cands := cands }
    | .pattern p => { z with progress := .found p }
    | .full => { z with progress := .full }
  else z

/-- One pixel of the alignment row automaton (47_alignment_pattern.md R344). -/
def scan3Pixel (im : Image) (ams : F32) (i j : Nat) (z : Scan3) : Scan3 :=
  if im.black j i then
    if z.cs = 1 then { z with runs := z.runs.bump 1 }
    else if z.cs = 2 then
      let z' := scan3Triple im ams i j z
      { z' with runs := ⟨z.runs.s2, 1, 0⟩, cs := 1 }
    else { z with runs := z.runs.bump 1, cs := 1 }
  else
    let cs := if z.cs = 1 then 2 else z.cs
    { z with runs := z.runs.bump cs, cs := cs }

/-- The pixels of a row from column j on, `left` of them, while the search goes on (47_alignment_pattern.md R344). -/
def scan3Pixels (im : Image) (ams : F32) (i : Nat) : Nat → Nat → Scan3 → Scan3
  | 0, _, z => z
  | left + 1, j, z =>
    if z.progress = .scanning then scan3Pixels im ams i left (j + 1) (scan3Pixel im ams i j z) else z

/-- How many of the next `left` pixels of row i are white, up to the first black one: the leading white of a row is not
counted (47_alignment_pattern.md R344). -/
def leadingWhite (im : Image) (i : Nat) : Nat → Nat → Nat
  | 0, _ => 0
  | left + 1, j => if im.black j i then 0 else leadingWhite im i left (j + 1) + 1

/-- One row of the alignment search over the columns x to x + w - 1 (47_alignment_pattern.md R344, R345). -/
def scan3Row (im : Image) (ams : F32) (x w i : Nat) (cands : List Pattern) : Scan3 :=
  let skip := leadingWhite im i w x
  let z := scan3Pixels im ams i (w - skip) (x + skip) ⟨Runs3.zero, 0, cands, .scanning⟩
  if z.progress = .scanning then scan3Triple im ams i (x + w) z else z

/-- Row g of the middle-out order of a region (47_alignment_pattern.md R343). -/
def middleOut (y h g : Nat) : Nat :=
  let mid := y + h / 2
  if g % 2 = 0 then mid + (g + 1) / 2 else mid - (g + 1) / 2

/-- The rows g, g + 1, ... of the middle-out order, `left` of them, while the search goes on
(47_alignment_pattern.md R343, R350). -/
def scan3Rows (im : Image) (ams : F32) (x y w h : Nat) : Nat → Nat → List Pattern → List Pattern × Progress3
  | 0, _, cands => (cands, .scanning)
  | left + 1, g, cands =>
    let z := scan3Row im ams x w (middleOut y h g) cands
    if z.progress = .scanning then scan3Rows im ams x y w h left (g + 1) z.cands
    else (z.cands, z.progress)

/-- The alignment scan of a region (47_alignment_pattern.md R350): the candidates recorded, and how it ended. -/
def scan3 (im : Image) (ams : F32) (x y w h : Nat) : List Pattern × Progress3 :=
  scan3Rows im ams x y w h h 0 []

end Sys2Proof.Machine
end

