-- ==== Sys2Proof/Machine/Finder.lean ====
section
/-! DEFINITION. The finder-pattern commands (46_finder_pattern.md R320 to R325). -/

namespace Sys2Proof.Machine

/-- FPR0, FPR1 and FPR2 from an ordered triple (10_state.md R54). -/
def putFinders (s : State) (o : Pattern × Pattern × Pattern) : State :=
  { s with fpr := #v[o.1, o.2.1, o.2.2] }

/-- PFFIND (46_finder_pattern.md R320). Its errors keep the candidates recorded so far, and ILLEGAL_ARG leaves
NCAND = 0 (60_exceptions.md R373). -/
def execPffind (s : State) : Host.Outcome State Fault Refusal :=
  if !s.port.sizeOk then .next (({ s with ncand := 0#16 } : State).raise .illegalArg)
  else
    let r := scan5 s.port s.ctrl.tryh s.ctrl.pure
    let t := putCandidates s r.1
    if r.2 = .full then .next (t.raise .capacity)
    else
      match select r.1 with
      | none => .next (t.raise .notFound)
      | some (p0, p1, p2) => .next ((putFinders t (orderPatterns p0 p1 p2)).finish false false)

/-- PFRATIO5 (46_finder_pattern.md R321). -/
def execPfratio5 (s : State) : Host.Outcome State Fault Refusal :=
  endCommandFlags s
    (.ok (s, false, ratio5 ⟨s.sc[0].toNat, s.sc[1].toNat, s.sc[2].toNat, s.sc[3].toNat, s.sc[4].toNat⟩))

/-- PFORDER (46_finder_pattern.md R322). -/
def execPforder (s : State) : Host.Outcome State Fault Refusal :=
  endCommand s (.ok (putFinders s (orderPatterns s.fpr[0] s.fpr[1] s.fpr[2])))

/-- The checks of the cross-check commands: the image size, then the start pixel (46_finder_pattern.md R323). -/
def crossChecked (s : State) (r : State × Bool × Bool) : Except ErrCode (State × Bool × Bool) :=
  if s.port.sizeOk && crossStartOk s then .ok r else .error .illegalArg

/-- RESF and RESB of a cross-check with a centre: the canonical NaN and 0 when it failed (46_finder_pattern.md R323). -/
def centreResult (s : State) (r : Option F32) : State × Bool × Bool :=
  ({ s with resf := r.getD f32NaN }, false, r.isSome)

/-- PFCCV (46_finder_pattern.md R323). -/
def execPfccv (s : State) : Host.Outcome State Fault Refusal :=
  endCommandFlags s (crossChecked s (centreResult s
    (crossVertical s.port s.cci.toNat s.ccj.toNat s.ccmax.toNat s.cctot.toNat)))

/-- PFCCH (46_finder_pattern.md R324). -/
def execPfcch (s : State) : Host.Outcome State Fault Refusal :=
  endCommandFlags s (crossChecked s (centreResult s
    (crossHorizontal s.port s.ccj.toNat s.cci.toNat s.ccmax.toNat s.cctot.toNat)))

/-- PFCCD (46_finder_pattern.md R325): RESF is not written. -/
def execPfccd (s : State) : Host.Outcome State Fault Refusal :=
  endCommandFlags s (crossChecked s
    (s, false, crossDiagonal s.port s.cci.toNat s.ccj.toNat s.ccmax.toNat s.cctot.toNat))

end Sys2Proof.Machine
end

