-- ==== Sys2Proof/Machine/AlignmentCommands.lean ====
section
/-! DEFINITION. The alignment-pattern commands (47_alignment_pattern.md R350 to R352). -/

namespace Sys2Proof.Machine

/-- The region lies in the image and is not empty (47_alignment_pattern.md R349). -/
def regionOk (s : State) : Bool :=
  decide (1 ≤ s.rgw.toNat ∧ 1 ≤ s.rgh.toNat ∧
    s.rgx.toNat + s.rgw.toNat ≤ s.port.width.toNat ∧ s.rgy.toNat + s.rgh.toNat ≤ s.port.height.toNat)

/-- The result of an alignment search: the combined pattern, or else the first candidate; CAPACITY or NOT_FOUND where
there is neither (47_alignment_pattern.md R348, R350). -/
def alignmentResult (r : List Pattern × Progress3) : Except ErrCode Alignment :=
  match r.2 with
  | .full => .error .capacity
  | .found p => .ok p
  | .scanning =>
    match r.1 with
    | [] => .error .notFound
    | c :: _ => .ok { x := c.x, y := c.y, size := c.size }

/-- APX, APY and APS (10_state.md R55). -/
def putAlignment (s : State) (p : Alignment) : State := { s with apx := p.x, apy := p.y, aps := p.size }

/-- PFALIGN (47_alignment_pattern.md R350). Its errors keep the candidates recorded so far, and ILLEGAL_ARG leaves
NCAND = 0 (60_exceptions.md R373). -/
def execPfalign (s : State) : Host.Outcome State Fault Refusal :=
  if !(s.port.sizeOk && regionOk s) then .next (({ s with ncand := 0#16 } : State).raise .illegalArg)
  else
    let r := scan3 s.port s.ams s.rgx.toNat s.rgy.toNat s.rgw.toNat s.rgh.toNat
    let t := putCandidates s r.1
    match alignmentResult r with
    | .error e => .next (t.raise e)
    | .ok p => .next ((putAlignment t p).finish false false)

/-- PFRATIO3 (47_alignment_pattern.md R351). -/
def execPfratio3 (s : State) : Host.Outcome State Fault Refusal :=
  endCommandFlags s (.ok (s, false, ratio3 s.ams ⟨s.sc[0].toNat, s.sc[1].toNat, s.sc[2].toNat⟩))

/-- PFCCVA (47_alignment_pattern.md R352). -/
def execPfccva (s : State) : Host.Outcome State Fault Refusal :=
  endCommandFlags s (crossChecked s (centreResult s
    (crossVertical3 s.port s.ams s.cci.toNat s.ccj.toNat s.ccmax.toNat s.cctot.toNat)))

end Sys2Proof.Machine
end

