-- ==== Sys2Proof/Machine/Control.lean ====
section
/-! DEFINITION. The control commands NOP and SRESET (40_control.md). -/

namespace Sys2Proof.Machine

/-- NOP (40_control.md R140): it changes no register and no memory. -/
def execNop (s : State) : Host.Outcome State Fault Refusal := endCommand s (.ok s)

/-- The state SRESET writes (40_control.md R141): every register and memory word at its reset value, the tables built
again, CMDOVR and WRBUSY cleared. The port and the model's own fields are not QRDC's state. -/
def softReset (s : State) : State :=
  { State.reset with
    phase := s.phase
    status := { s.status with cmdovr := false, wrbusy := false }
    tables := buildTables Config.prim
    port := s.port
    host := s.host
    rdata := s.rdata
    draws := s.draws }

/-- SRESET (40_control.md R141). -/
def execSreset (s : State) : Host.Outcome State Fault Refusal := endCommand s (.ok (softReset s))

end Sys2Proof.Machine
end

