-- ==== Sys2Proof/Machine/FieldCommands.lean ====
section
/-! DEFINITION. The field commands (41_gf_field.md R155 to R159): operands GA and GB, result GR. -/

namespace Sys2Proof.Machine

/-- GR written with a field element, or the error that kept it from being computed. -/
def grResult (s : State) (r : Except ErrCode Byte) : Except ErrCode State :=
  match r with
  | .error e => .error e
  | .ok x => .ok { s with gr := x }

/-- GADD (41_gf_field.md R155). -/
def execGadd (s : State) : Host.Outcome State Fault Refusal :=
  endCommand s (grResult s (.ok (gfAdd s.ga s.gb)))

/-- GMUL (41_gf_field.md R156). -/
def execGmul (s : State) : Host.Outcome State Fault Refusal :=
  endCommand s (grResult s (.ok (gfMul s.tables s.ga s.gb)))

/-- GINV (41_gf_field.md R157): ARITH when GA = 0. -/
def execGinv (s : State) : Host.Outcome State Fault Refusal :=
  endCommand s (grResult s (gfInv s.tables s.ga))

/-- GEXP (41_gf_field.md R158). -/
def execGexp (s : State) : Host.Outcome State Fault Refusal :=
  endCommand s (grResult s (.ok (expAt s.tables s.ga)))

/-- GLOG (41_gf_field.md R159): ILLEGAL_ARG when GA = 0. -/
def execGlog (s : State) : Host.Outcome State Fault Refusal :=
  endCommand s (grResult s (gfLog s.tables s.ga))

end Sys2Proof.Machine
end

