-- ==== Sys2Proof/Machine/Grid.lean ====
section
/-! DEFINITION. The grid sampler (45_grid_sampler.md R270 to R275). -/

namespace Sys2Proof.Machine

/-- An index one pixel outside 0..n-1 is nudged back onto the image (45_grid_sampler.md R272). -/
def nudge (i : Int) (n : Nat) : Int :=
  if i = -1 then 0 else if i = (n : Int) then (n : Int) - 1 else i

/-- The pixel under a mapped point, or none where the point is rejected (45_grid_sampler.md R271, R272). -/
def samplePixel (im : Image) (p : F32 × F32) : Option Bool :=
  match ftrunc p.1, ftrunc p.2 with
  | some xi, some yi =>
    if xi < -1 ∨ (im.width.toNat : Int) < xi ∨ yi < -1 ∨ (im.height.toNat : Int) < yi then none
    else some (im.black (nudge xi im.width.toNat) (nudge yi im.height.toNat))
  | _, _ => none

/-- The sample of module (x, y), at the centre of the module square (45_grid_sampler.md R270). -/
def sampleModule (im : Image) (m : Mat) (x y : Nat) : Option Bool :=
  samplePixel im (mapPoint m (fadd (f32OfNat x) f05) (fadd (f32OfNat y) f05))

/-- The samples of one row from column x on, `left` of them; none at the first rejected point
(45_grid_sampler.md R273). -/
def sampleRow (im : Image) (m : Mat) (y : Nat) : Nat → Nat → Option (List Bool)
  | 0, _ => some []
  | left + 1, x =>
    match sampleModule im m x y with
    | none => none
    | some b =>
      match sampleRow im m y left (x + 1) with
      | none => none
      | some bs => some (b :: bs)

/-- The rows from row y on, `left` of them, each of w modules (45_grid_sampler.md R273). -/
def sampleRows (im : Image) (m : Mat) (w : Nat) : Nat → Nat → Option (List (List Bool))
  | 0, _ => some []
  | left + 1, y =>
    match sampleRow im m y w 0 with
    | none => none
    | some row =>
      match sampleRows im m w left (y + 1) with
      | none => none
      | some rows => some (row :: rows)

/-- The number whose bit i is the i-th bit of a list. -/
def natOfBits : List Bool → Nat
  | [] => 0
  | b :: bs => (if b then 1 else 0) + 2 * natOfBits bs

/-- The 32 bytes of a BM row: bit x of the row is bit x mod 32 of word x / 32 (10_state.md R51); bits past the list
are 0. -/
def rowBytes (row : List Bool) : List Byte :=
  (List.range (4 * Config.bmRowWords)).map (fun k => BitVec.ofNat 8 (natOfBits row >>> (8 * k)))

/-- The bytes of the whole of BM: the sampled rows, and 0 in every bit outside them (45_grid_sampler.md R273). -/
def gridBytes (rows : List (List Bool)) : List Byte :=
  (List.range Config.maxDim).flatMap (fun y => rowBytes (rows.getD y []))

/-- GRID (45_grid_sampler.md R275): image size, then a zero dimension, then a dimension above 256, then the points. -/
def execGrid (a : BitVec 3) (s : State) : Host.Outcome State Fault Refusal :=
  if matrixIndexOk a then
    endCommand s
      (if !s.port.sizeOk then .error .illegalArg
       else if s.dimx = 0#16 ∨ s.dimy = 0#16 then .error .notFound
       else if Config.maxDim < s.dimx.toNat ∨ Config.maxDim < s.dimy.toNat then .error .capacity
       else
        match sampleRows s.port (matAt s a) s.dimx.toNat s.dimy.toNat 0 with
        | none => .error .notFound
        | some rows => .ok { s with mem := setBytes s.mem bmBase (gridBytes rows) })
  else illegalCommand s

end Sys2Proof.Machine
end

