-- ==== Sys2Proof/Machine/PolyCommands.lean ====
section
/-! DEFINITION. The polynomial commands (42_gf_poly.md R175 to R183). -/

namespace Sys2Proof.Machine

/-- The end of a command whose polynomial result may be an error (42_gf_poly.md R188, R189). -/
def polyResultOf (s : State) (k : BitVec 3) (r : Except ErrCode Poly) : Except ErrCode State :=
  match r with
  | .error e => .error e
  | .ok p => polyResult s k p

/-- A computation on the operand PB[a] (42_gf_poly.md R187). -/
def withOperand (s : State) (a : BitVec 3) (f : Poly → Except ErrCode State) : Except ErrCode State :=
  match polyOperand s a with
  | .error e => .error e
  | .ok p => f p

/-- A computation on the operands PB[a] and PB[b], A checked before B (42_gf_poly.md R176). -/
def withOperands (s : State) (a b : BitVec 3) (f : Poly → Poly → Except ErrCode State) : Except ErrCode State :=
  withOperand s a (fun p => withOperand s b (fun q => f p q))

/-- PNORM (42_gf_poly.md R175). -/
def execPnorm (d a : BitVec 3) (s : State) : Host.Outcome State Fault Refusal :=
  endCommand s (withOperand s a (fun p => polyResult s d p))

/-- PADD (42_gf_poly.md R176). -/
def execPadd (d a b : BitVec 3) (s : State) : Host.Outcome State Fault Refusal :=
  endCommand s (withOperands s a b (fun p q => polyResult s d (padd p q)))

/-- PMUL (42_gf_poly.md R177). -/
def execPmul (d a b : BitVec 3) (s : State) : Host.Outcome State Fault Refusal :=
  endCommand s (withOperands s a b (fun p q => polyResult s d (pmul s.tables p q)))

/-- PSCALE (42_gf_poly.md R178). -/
def execPscale (d a : BitVec 3) (s : State) : Host.Outcome State Fault Refusal :=
  endCommand s (withOperand s a (fun p => polyResult s d (pscale s.tables p s.ga)))

/-- PMULMONO (42_gf_poly.md R179). -/
def execPmulmono (d a : BitVec 3) (s : State) : Host.Outcome State Fault Refusal :=
  endCommand s (withOperand s a (fun p => polyResultOf s d (pmulmono s.tables p (degOperand s) s.ga)))

/-- PMONO (42_gf_poly.md R180). -/
def execPmono (d : BitVec 3) (s : State) : Host.Outcome State Fault Refusal :=
  endCommand s (polyResultOf s d (pmono (degOperand s) s.ga))

/-- The quotient and the remainder written to PB[d] and PB[q], or the error of the division (42_gf_poly.md R181). -/
def divResult (s : State) (d q : BitVec 3) (r : Except ErrCode (Poly × Poly)) : Except ErrCode State :=
  match r with
  | .error e => .error e
  | .ok (quotient, remainder) => polyResults s d quotient q remainder

/-- PDIV (42_gf_poly.md R181). -/
def execPdiv (d q a b : BitVec 3) (s : State) : Host.Outcome State Fault Refusal :=
  if d = q then illegalCommand s
  else endCommand s (withOperands s a b (fun x y => divResult s d q (pdiv s.tables x y)))

/-- PEVAL (42_gf_poly.md R182). -/
def execPeval (a : BitVec 3) (s : State) : Host.Outcome State Fault Refusal :=
  endCommand s (withOperand s a (fun p => .ok { s with gr := peval s.tables p s.ga, degr := degrOf p }))

/-- PCOEF (42_gf_poly.md R183): a negative index raises ILLEGAL_ARG. -/
def execPcoef (a : BitVec 3) (s : State) : Host.Outcome State Fault Refusal :=
  endCommand s (withOperand s a (fun p =>
    if degOperand s < 0 then .error .illegalArg
    else .ok { s with gr := coefAt p (degOperand s).toNat, degr := degrOf p }))

end Sys2Proof.Machine
end

