-- ==== Sys2Proof/Machine/RsAlgorithms.lean ====
section
/-! DEFINITION. The stages of the Reed-Solomon decoder as functions of values (43_reed_solomon.md R200 to R208). -/

namespace Sys2Proof.Machine

/-- The syndromes S_(n-1), ..., S_0 of a received polynomial, S_i its value at the generator power i + GBASE
(43_reed_solomon.md R202). -/
def syndromes (g : Tables) (gbase : Nat) (rx : Poly) : Nat → List Byte
  | 0 => []
  | n + 1 => peval g rx (expNat g (n + gbase)) :: syndromes g gbase rx n

/-- The syndrome polynomial Sx (43_reed_solomon.md R202). -/
def syndromePoly (g : Tables) (gbase : Nat) (rx : Poly) (twos : Nat) : Poly :=
  normalise (syndromes g gbase rx twos)

/-- The loop of the extended Euclidean algorithm (43_reed_solomon.md R203), from the last two remainders and
cofactors. `fuel` bounds the passes: each lowers the degree of r (notes/assumptions/17.md). -/
def euclidLoop (g : Tables) (twos : Nat) :
    Nat → Poly → Poly → Poly → Poly → Except ErrCode (Poly × Poly)
  | 0, _, r, _, t => .ok (t, r)
  | fuel + 1, rLast, r, tLast, t =>
    if twos ≤ 2 * pdeg r then
      if pisZero r then .error .checksum
      else
        match gfInv g (plead r) with
        | .error e => .error e
        | .ok dinv =>
          let qr := divLoop g r dinv rLast.length [0#8] rLast
          let t' := padd (pmul g qr.1 t) tLast
          if pdeg r ≤ pdeg qr.2 then .error .checksum
          else euclidLoop g twos fuel r qr.2 t t'
    else .ok (t, r)

/-- The normalisation of σ and ω so that σ(0) = 1 (43_reed_solomon.md R203). -/
def euclidFinish (g : Tables) (t r : Poly) : Except ErrCode (Poly × Poly) :=
  let s0 := coefAt t 0
  if s0 = 0#8 then .error .checksum
  else
    match gfInv g s0 with
    | .error e => .error e
    | .ok iv => .ok (pscale g t iv, pscale g r iv)

/-- `euclid(a, b, R)` (43_reed_solomon.md R203): σ and ω. -/
def euclid (g : Tables) (a b : Poly) (twos : Nat) : Except ErrCode (Poly × Poly) :=
  let ab := if pdeg a < pdeg b then (b, a) else (a, b)
  match euclidLoop g twos (ab.2.length + 1) ab.1 ab.2 [0#8] [1#8] with
  | .error e => .error e
  | .ok (t, r) => euclidFinish g t r

/-- The search of 43_reed_solomon.md R206 over the `left` elements from `e` on: the inverses of the roots of σ, until n
of them are found. -/
def chienSearch (g : Tables) (sigma : Poly) (n : Nat) : Nat → Nat → List Byte → Except ErrCode (List Byte)
  | 0, _, found => .ok found
  | left + 1, e, found =>
    if found.length = n then .ok found
    else if peval g sigma (BitVec.ofNat 8 e) = 0#8 then
      match gfInv g (BitVec.ofNat 8 e) with
      | .error err => .error err
      | .ok l => chienSearch g sigma n left (e + 1) (found ++ [l])
    else chienSearch g sigma n left (e + 1) found

/-- The Chien search (43_reed_solomon.md R206): the locations, or CHECKSUM when the number of roots is not deg(σ). -/
def chien (g : Tables) (sigma : Poly) : Except ErrCode (List Byte) :=
  match chienSearch g sigma (pdeg sigma) 255 1 [] with
  | .error e => .error e
  | .ok found => if found.length = pdeg sigma then .ok found else .error .checksum

/-- The denominator of Forney's formula for location i: the product over every other location
(43_reed_solomon.md R207). -/
def forneyDen (g : Tables) (xi : Byte) (i : Nat) : Nat → List Byte → Byte → Byte
  | _, [], den => den
  | j, l :: ls, den =>
    forneyDen g xi i (j + 1) ls (if j = i then den else gfMul g den (gfAdd (gfMul g l xi) 1#8))

/-- The magnitude at location i (43_reed_solomon.md R207): a zero location or a zero denominator raises ARITH. -/
def forneyAt (g : Tables) (gbase : Nat) (omega : Poly) (loc : List Byte) (i : Nat) (li : Byte) :
    Except ErrCode Byte :=
  match gfInv g li with
  | .error e => .error e
  | .ok xi =>
    match gfInv g (forneyDen g xi i 0 loc 1#8) with
    | .error e => .error e
    | .ok dinv =>
      let m := gfMul g (peval g omega xi) dinv
      .ok (if gbase ≠ 0 then gfMul g m xi else m)

/-- The magnitudes of the locations of a list from index i on, in index order (43_reed_solomon.md R207). -/
def forneyFrom (g : Tables) (gbase : Nat) (omega : Poly) (loc : List Byte) :
    Nat → List Byte → Except ErrCode (List Byte)
  | _, [] => .ok []
  | i, li :: rest =>
    match forneyAt g gbase omega loc i li with
    | .error e => .error e
    | .ok m =>
      match forneyFrom g gbase omega loc (i + 1) rest with
      | .error e => .error e
      | .ok ms => .ok (m :: ms)

/-- Forney's formula for every location (43_reed_solomon.md R207). -/
def forney (g : Tables) (gbase : Nat) (omega : Poly) (loc : List Byte) : Except ErrCode (List Byte) :=
  forneyFrom g gbase omega loc 0 loc

/-- The buffer position of a location in a block of n codewords (43_reed_solomon.md R200, R208): a zero location
raises ILLEGAL_ARG, one past the block CHECKSUM. -/
def position (g : Tables) (n : Nat) (l : Byte) : Except ErrCode Nat :=
  match gfLog g l with
  | .error e => .error e
  | .ok d => if n - 1 < d.toNat then .error .checksum else .ok (n - 1 - d.toNat)

/-- The positions of all locations; the first failing one decides the error (43_reed_solomon.md R208). -/
def positions (g : Tables) (n : Nat) : List Byte → Except ErrCode (List Nat)
  | [] => .ok []
  | l :: ls =>
    match position g n l with
    | .error e => .error e
    | .ok p =>
      match positions g n ls with
      | .error e => .error e
      | .ok ps => .ok (p :: ps)

end Sys2Proof.Machine
end

