-- ==== Sys2Proof/Machine/ReedSolomon.lean ====
section
/-! DEFINITION. The Reed-Solomon commands (43_reed_solomon.md R204 to R210). -/

namespace Sys2Proof.Machine

/-- The syndrome polynomial of the received word (43_reed_solomon.md R202). -/
def receivedSyndromes (s : State) : Poly :=
  syndromePoly s.tables Config.gbase (received s) s.twos.toNat

/-- RSSYN (43_reed_solomon.md R204). -/
def execRssyn (d : BitVec 3) (s : State) : Host.Outcome State Fault Refusal :=
  endCommandFlags s
    (if cwlenOk s && twosOk s then
      match polyResult s d (receivedSyndromes s) with
      | .error e => .error e
      | .ok t => .ok (t, decide (receivedSyndromes s = [0#8]), false)
    else .error .illegalArg)

/-- RSEUC (43_reed_solomon.md R205). -/
def execRseuc (d q a b : BitVec 3) (s : State) : Host.Outcome State Fault Refusal :=
  if d = q then illegalCommand s
  else
    endCommand s
      (if twosOk s then
        withOperands s a b (fun x y => divResult s d q (euclid s.tables x y s.twos.toNat))
      else .error .illegalArg)

/-- The locations written to LOC, with NLOC and DEGR (43_reed_solomon.md R206). -/
def putLocations (s : State) (found : List Byte) : State :=
  { s with
    mem := writeElems s.mem locBase found
    nloc := BitVec.ofNat 9 found.length
    degr := BitVec.ofNat 16 found.length }

/-- RSCHIEN (43_reed_solomon.md R206). -/
def execRschien (a : BitVec 3) (s : State) : Host.Outcome State Fault Refusal :=
  endCommand s (withOperand s a (fun sigma =>
    match chien s.tables sigma with
    | .error e => .error e
    | .ok found => .ok (putLocations s found)))

/-- RSFORNEY (43_reed_solomon.md R207). -/
def execRsforney (a : BitVec 3) (s : State) : Host.Outcome State Fault Refusal :=
  endCommand s
    (if nlocOk s then
      withOperand s a (fun omega =>
        match forney s.tables Config.gbase omega (locations s) with
        | .error e => .error e
        | .ok mags => .ok { s with mem := writeElems s.mem magBase mags, degr := degrOf omega })
    else .error .illegalArg)

/-- RSAPPLY (43_reed_solomon.md R208): every position is checked before any codeword changes. -/
def execRsapply (s : State) : Host.Outcome State Fault Refusal :=
  endCommand s
    (if cwlenOk s && nlocOk s then
      match positions s.tables s.cwlen.toNat (locations s) with
      | .error e => .error e
      | .ok ps => .ok { s with mem := applyFixes s.mem (ps.zip (magnitudes s)) }
    else .error .illegalArg)

/-- What RSDEC finds in a block with a nonzero syndrome: the locations, the magnitudes and the positions, in the order
Euclid, Chien, Forney, positions (43_reed_solomon.md R210). -/
def decodeErrors (s : State) : Except ErrCode (List Byte × List Byte × List Nat) :=
  match euclid s.tables (pmonoNat s.twos.toNat 1#8) (receivedSyndromes s) s.twos.toNat with
  | .error e => .error e
  | .ok (sigma, omega) =>
    match chien s.tables sigma with
    | .error e => .error e
    | .ok found =>
      match forney s.tables Config.gbase omega found with
      | .error e => .error e
      | .ok mags =>
        match positions s.tables s.cwlen.toNat found with
        | .error e => .error e
        | .ok ps => .ok (found, mags, ps)

/-- The results of RSDEC (43_reed_solomon.md R210): LOC, MAG, NLOC, DEGR and the corrected codewords. -/
def putDecoded (s : State) (found mags : List Byte) (ps : List Nat) : State :=
  { s with
    mem := applyFixes (writeElems (writeElems s.mem locBase found) magBase mags) (ps.zip mags)
    nloc := BitVec.ofNat 9 found.length
    degr := BitVec.ofNat 16 found.length }

/-- RSDEC (43_reed_solomon.md R210). -/
def execRsdec (s : State) : Host.Outcome State Fault Refusal :=
  endCommandFlags s
    (if cwlenOk s && twosOk s then
      if receivedSyndromes s = [0#8] then .ok ({ s with nloc := 0#9, degr := 0#16 }, true, false)
      else
        match decodeErrors s with
        | .error e => .error e
        | .ok (found, mags, ps) => .ok (putDecoded s found mags ps, false, false)
    else .error .illegalArg)

end Sys2Proof.Machine
end

