-- ==== Sys2Proof/Machine/Transform.lean ====
section
/-! DEFINITION. The transform commands (44_transform.md R250 to R256). A matrix index above 3, or an XQRGRID flag above
1, is ILLEGAL_CMD (30_encoding.md R112). -/

namespace Sys2Proof.Machine

/-- The end of a command that writes one matrix register (44_transform.md, section 2). -/
def matResult (s : State) (ok : Bool) (d : BitVec 3) (m : Mat) : Host.Outcome State Fault Refusal :=
  if ok then endCommand s (.ok (putMat s d m)) else illegalCommand s

/-- XSQ2Q (44_transform.md R250). -/
def execXsq2q (d : BitVec 3) (s : State) : Host.Outcome State Fault Refusal :=
  matResult s (matrixIndexOk d) d (sq2q (quadLow s))

/-- XQ2SQ (44_transform.md R251). -/
def execXq2sq (d : BitVec 3) (s : State) : Host.Outcome State Fault Refusal :=
  matResult s (matrixIndexOk d) d (q2sq (quadLow s))

/-- XQ2Q (44_transform.md R252). -/
def execXq2q (d : BitVec 3) (s : State) : Host.Outcome State Fault Refusal :=
  matResult s (matrixIndexOk d) d (q2q (quadLow s) (quadHigh s))

/-- XADJ (44_transform.md R253). -/
def execXadj (d a : BitVec 3) (s : State) : Host.Outcome State Fault Refusal :=
  matResult s (matrixIndexOk d && matrixIndexOk a) d (adjoint (matAt s a))

/-- XTIMES (44_transform.md R254): a point is mapped first by T[b], then by T[a]. -/
def execXtimes (d a b : BitVec 3) (s : State) : Host.Outcome State Fault Refusal :=
  matResult s (matrixIndexOk d && matrixIndexOk a && matrixIndexOk b) d (times (matAt s a) (matAt s b))

/-- XPTS (44_transform.md R255): more than 256 points raise CAPACITY. -/
def execXpts (a : BitVec 3) (s : State) : Host.Outcome State Fault Refusal :=
  if matrixIndexOk a then
    endCommand s
      (if Config.maxPts < s.npts.toNat then .error .capacity
       else .ok { s with
        mem := writeWords s.mem pmBase (mapPoints (matAt s a) (readWords s.mem pmBase (2 * s.npts.toNat))) })
  else illegalCommand s

/-- XQRGRID (44_transform.md R256): FPR1 is top-left, FPR2 top-right, FPR0 bottom-left; the flag takes in the
alignment point. -/
def execXqrgrid (d b : BitVec 3) (s : State) : Host.Outcome State Fault Refusal :=
  matResult s (matrixIndexOk d && flagOk b) d
    (qrGrid s.fpr[1].x s.fpr[1].y s.fpr[2].x s.fpr[2].y s.fpr[0].x s.fpr[0].y
      (if b = 1#3 then some (s.apx, s.apy) else none) s.dim.toNat)

end Sys2Proof.Machine
end

