-- ==== Sys2Proof/Machine/Dispatch.lean ====
section
/-! DEFINITION. The meaning of each command: one arm per constructor of Instr. -/

namespace Sys2Proof.Machine

def exec (i : Instr) (s : State) : Host.Outcome State Fault Refusal :=
  match i with
  | .nop => Sys2Proof.Machine.execNop s
  | .gadd => Sys2Proof.Machine.execGadd s
  | .gmul => Sys2Proof.Machine.execGmul s
  | .ginv => Sys2Proof.Machine.execGinv s
  | .gexp => Sys2Proof.Machine.execGexp s
  | .glog => Sys2Proof.Machine.execGlog s
  | .sreset => Sys2Proof.Machine.execSreset s
  | .pnorm d a => Sys2Proof.Machine.execPnorm d a s
  | .padd d a b => Sys2Proof.Machine.execPadd d a b s
  | .pmul d a b => Sys2Proof.Machine.execPmul d a b s
  | .pscale d a => Sys2Proof.Machine.execPscale d a s
  | .pmulmono d a => Sys2Proof.Machine.execPmulmono d a s
  | .pmono d => Sys2Proof.Machine.execPmono d s
  | .pdiv d q a b => Sys2Proof.Machine.execPdiv d q a b s
  | .peval a => Sys2Proof.Machine.execPeval a s
  | .pcoef a => Sys2Proof.Machine.execPcoef a s
  | .rsdec => Sys2Proof.Machine.execRsdec s
  | .rssyn d => Sys2Proof.Machine.execRssyn d s
  | .rseuc d q a b => Sys2Proof.Machine.execRseuc d q a b s
  | .rschien a => Sys2Proof.Machine.execRschien a s
  | .rsforney a => Sys2Proof.Machine.execRsforney a s
  | .rsapply => Sys2Proof.Machine.execRsapply s
  | .xsq2q d => Sys2Proof.Machine.execXsq2q d s
  | .xq2sq d => Sys2Proof.Machine.execXq2sq d s
  | .xq2q d => Sys2Proof.Machine.execXq2q d s
  | .xadj d a => Sys2Proof.Machine.execXadj d a s
  | .xtimes d a b => Sys2Proof.Machine.execXtimes d a b s
  | .xpts a => Sys2Proof.Machine.execXpts a s
  | .xqrgrid d b => Sys2Proof.Machine.execXqrgrid d b s
  | .grid a => Sys2Proof.Machine.execGrid a s
  | .pffind => Sys2Proof.Machine.execPffind s
  | .pfalign => Sys2Proof.Machine.execPfalign s
  | .pfratio5 => Sys2Proof.Machine.execPfratio5 s
  | .pfratio3 => Sys2Proof.Machine.execPfratio3 s
  | .pforder => Sys2Proof.Machine.execPforder s
  | .pfccv => Sys2Proof.Machine.execPfccv s
  | .pfcch => Sys2Proof.Machine.execPfcch s
  | .pfccd => Sys2Proof.Machine.execPfccd s
  | .pfccva => Sys2Proof.Machine.execPfccva s

end Sys2Proof.Machine
end

