-- ==== Sys2Proof/Machine/RegisterMap.lean ====
section
/-! DEFINITION. The register window: which word an offset names, what the host reads there and what a host write stores
(10_state.md, 20_memory.md R81, R82, R87). -/

namespace Sys2Proof.Machine

/-- What a 32-bit word of the register window holds (20_memory.md R81). -/
inductive Loc where
  | id
  | fieldcfg
  | cmd
  | status
  | ctrl
  | ga
  | gb
  | gr
  | deg
  | degr
  | twos
  | cwlen
  | nloc
  | imgw
  | imgh
  | dimx
  | dimy
  | dim
  | npts
  | rgx
  | rgy
  | rgw
  | rgh
  | ams
  | ncand
  | resf
  | sc (k : Fin 5)
  | ccmax
  | cctot
  | cci
  | ccj
  | pblen (k : Fin Config.npb)
  | f (k : Fin Config.nf)
  | t (k : Fin Config.nt) (e : Fin 9)
  | fpr (k : Fin 3) (e : Fin 4)
  | apx
  | apy
  | aps
  | pb (k : Fin Config.npb) (e : Fin Config.maxLen)
  | cwb (i : Fin Config.cwSlots)
  | loc (i : Fin Config.cwSlots)
  | mag (i : Fin Config.cwSlots)
  | pm (i : Fin Config.pmWords)
  | bm (i : Fin Config.bmWords)
  | cand (i : Fin Config.candWords)
  | reserved
deriving DecidableEq, Repr

/-- The offsets of the scalar registers (10_state.md, section 2). -/
def scalarOffsets : List (Nat × Loc) :=
  [(0x000, .id), (0x004, .fieldcfg), (0x008, .cmd), (0x00C, .status), (0x010, .ctrl),
   (0x014, .ga), (0x018, .gb), (0x01C, .gr), (0x020, .deg), (0x024, .degr),
   (0x028, .twos), (0x02C, .cwlen), (0x030, .nloc), (0x034, .imgw), (0x038, .imgh)] ++
  [(0x03C, .dimx), (0x040, .dimy), (0x044, .dim), (0x048, .npts),
   (0x04C, .rgx), (0x050, .rgy), (0x054, .rgw), (0x058, .rgh), (0x05C, .ams),
   (0x060, .ncand), (0x064, .resf)] ++
  [(0x068, .sc 0), (0x06C, .sc 1), (0x070, .sc 2), (0x074, .sc 3), (0x078, .sc 4),
   (0x07C, .ccmax), (0x080, .cctot), (0x084, .cci), (0x088, .ccj)]

/-- The word an aligned offset of the register window names (20_memory.md R81); every offset not listed there is
reserved. -/
def locate (off : Nat) : Loc :=
  if off < 0x08C then (scalarOffsets.lookup off).getD .reserved
  else if off < 0x0C0 then .reserved
  else if off < 0x0E0 then .pblen (Fin.ofNat Config.npb ((off - 0x0C0) / 4))
  else if off < 0x100 then .reserved
  else if off < 0x140 then .f (Fin.ofNat Config.nf ((off - 0x100) / 4))
  else if off < 0x1D0 then .t (Fin.ofNat Config.nt ((off - 0x140) / 0x24)) (Fin.ofNat 9 ((off - 0x140) % 0x24 / 4))
  else if off < 0x200 then .reserved
  else if off < 0x230 then .fpr (Fin.ofNat 3 ((off - 0x200) / 16)) (Fin.ofNat 4 ((off - 0x200) % 16 / 4))
  else if off = 0x230 then .apx
  else if off = 0x234 then .apy
  else if off = 0x238 then .aps
  else if off < 0x1000 then .reserved
  else if off < 0x5000 then
    .pb (Fin.ofNat Config.npb ((off - 0x1000) / 0x800)) (Fin.ofNat Config.maxLen ((off - 0x1000) % 0x800 / 4))
  else if off < 0x5400 then .cwb (Fin.ofNat Config.cwSlots ((off - 0x5000) / 4))
  else if off < 0x5800 then .loc (Fin.ofNat Config.cwSlots ((off - 0x5400) / 4))
  else if off < 0x5C00 then .mag (Fin.ofNat Config.cwSlots ((off - 0x5800) / 4))
  else if off < 0x6000 then .reserved
  else if off < 0x6800 then .pm (Fin.ofNat Config.pmWords ((off - 0x6000) / 4))
  else if off < 0x8000 then .reserved
  else if off < 0xA000 then .bm (Fin.ofNat Config.bmWords ((off - 0x8000) / 4))
  else if off < 0xB000 then .cand (Fin.ofNat Config.candWords ((off - 0xA000) / 4))
  else .reserved

/-- Element e of a matrix register, in the order a11, a12, a13, a21, a22, a23, a31, a32, a33 (10_state.md R49). -/
def matElem (m : Mat) (e : Fin 9) : F32 :=
  match e with
  | 0 => m.a11
  | 1 => m.a12
  | 2 => m.a13
  | 3 => m.a21
  | 4 => m.a22
  | 5 => m.a23
  | 6 => m.a31
  | 7 => m.a32
  | 8 => m.a33

/-- Element e of a matrix register replaced (10_state.md R49). -/
def matSetElem (m : Mat) (e : Fin 9) (v : F32) : Mat :=
  match e with
  | 0 => { m with a11 := v }
  | 1 => { m with a12 := v }
  | 2 => { m with a13 := v }
  | 3 => { m with a21 := v }
  | 4 => { m with a22 := v }
  | 5 => { m with a23 := v }
  | 6 => { m with a31 := v }
  | 7 => { m with a32 := v }
  | 8 => { m with a33 := v }

/-- Word e of a pattern record: X, Y, S, N (10_state.md, section 8). -/
def patternWord (p : Pattern) (e : Fin 4) : Word :=
  match e with
  | 0 => p.x
  | 1 => p.y
  | 2 => p.size
  | 3 => p.count

/-- Word e of a pattern record replaced (10_state.md, section 8). -/
def patternSetWord (p : Pattern) (e : Fin 4) (v : Word) : Pattern :=
  match e with
  | 0 => { p with x := v }
  | 1 => { p with y := v }
  | 2 => { p with size := v }
  | 3 => { p with count := v }

/-- FIELDCFG: PRIM in bits 8:0 and GBASE in bit 16 (10_state.md R24). -/
def fieldcfgWord : Word := BitVec.ofNat 32 (Config.prim + Config.gbase * 2 ^ 16)

/-- What a host read returns for a word of the window, its unused bits 0 (10_state.md R22, 20_memory.md R87). -/
def readLoc (s : State) (l : Loc) : Word :=
  match l with
  | .id => Config.idWord
  | .fieldcfg => fieldcfgWord
  | .cmd => 0#32
  | .status => statusWord s.status
  | .ctrl => ctrlWord s.ctrl
  | .ga => s.ga.setWidth 32
  | .gb => s.gb.setWidth 32
  | .gr => s.gr.setWidth 32
  | .deg => s.deg.setWidth 32
  | .degr => s.degr.setWidth 32
  | .twos => s.twos.setWidth 32
  | .cwlen => s.cwlen.setWidth 32
  | .nloc => s.nloc.setWidth 32
  | .imgw => s.port.width.setWidth 32
  | .imgh => s.port.height.setWidth 32
  | .dimx => s.dimx.setWidth 32
  | .dimy => s.dimy.setWidth 32
  | .dim => s.dim.setWidth 32
  | .npts => s.npts.setWidth 32
  | .rgx => s.rgx.setWidth 32
  | .rgy => s.rgy.setWidth 32
  | .rgw => s.rgw.setWidth 32
  | .rgh => s.rgh.setWidth 32
  | .ams => s.ams
  | .ncand => s.ncand.setWidth 32
  | .resf => s.resf
  | .sc k => s.sc[k]
  | .ccmax => s.ccmax
  | .cctot => s.cctot
  | .cci => s.cci.setWidth 32
  | .ccj => s.ccj.setWidth 32
  | .pblen k => s.pblen[k].setWidth 32
  | .f k => s.f[k]
  | .t k e => matElem s.t[k] e
  | .fpr k e => patternWord s.fpr[k] e
  | .apx => s.apx
  | .apy => s.apy
  | .aps => s.aps
  | .pb k e => (readElem s.mem (pbBase k + 4 * e)).setWidth 32
  | .cwb i => (readElem s.mem (cwbBase + 4 * i)).setWidth 32
  | .loc i => (readElem s.mem (locBase + 4 * i)).setWidth 32
  | .mag i => (readElem s.mem (magBase + 4 * i)).setWidth 32
  | .pm i => readWord s.mem (pmBase + 4 * i)
  | .bm i => readWord s.mem (bmBase + 4 * i)
  | .cand i => readWord s.mem (candBase + 4 * i)
  | .reserved => 0#32

/-- What a host write stores while QRDC is idle (20_memory.md R87, R89): CMD starts a command, STATUS clears bits, a
read-only or reserved word ignores the write (10_state.md R22). -/
def writeLoc (s : State) (l : Loc) (v : Word) : State :=
  match l with
  | .cmd => s.accept v
  | .status => { s with status := statusCleared s.status v }
  | .ctrl => { s with ctrl := ctrlOfWord v }
  | .ga => { s with ga := v.setWidth 8 }
  | .gb => { s with gb := v.setWidth 8 }
  | .deg => { s with deg := v.setWidth 16 }
  | .twos => { s with twos := v.setWidth 9 }
  | .cwlen => { s with cwlen := v.setWidth 9 }
  | .nloc => { s with nloc := v.setWidth 9 }
  | .dimx => { s with dimx := v.setWidth 16 }
  | .dimy => { s with dimy := v.setWidth 16 }
  | .dim => { s with dim := v.setWidth 16 }
  | .npts => { s with npts := v.setWidth 16 }
  | .rgx => { s with rgx := v.setWidth 16 }
  | .rgy => { s with rgy := v.setWidth 16 }
  | .rgw => { s with rgw := v.setWidth 16 }
  | .rgh => { s with rgh := v.setWidth 16 }
  | .ams => { s with ams := v }
  | .sc k => { s with sc := s.sc.set k v }
  | .ccmax => { s with ccmax := v }
  | .cctot => { s with cctot := v }
  | .cci => { s with cci := v.setWidth 16 }
  | .ccj => { s with ccj := v.setWidth 16 }
  | .pblen k => { s with pblen := s.pblen.set k (v.setWidth 10) }
  | .f k => { s with f := s.f.set k v }
  | .t k e => { s with t := s.t.set k (matSetElem s.t[k] e v) }
  | .fpr k e => { s with fpr := s.fpr.set k (patternSetWord s.fpr[k] e v) }
  | .pb k e => { s with mem := writeElem s.mem (pbBase k + 4 * e) (v.setWidth 8) }
  | .cwb i => { s with mem := writeElem s.mem (cwbBase + 4 * i) (v.setWidth 8) }
  | .loc i => { s with mem := writeElem s.mem (locBase + 4 * i) (v.setWidth 8) }
  | .mag i => { s with mem := writeElem s.mem (magBase + 4 * i) (v.setWidth 8) }
  | .pm i => { s with mem := writeWord s.mem (pmBase + 4 * i) v }
  | .id | .fieldcfg | .gr | .degr | .imgw | .imgh | .ncand | .resf | .apx | .apy | .aps
  | .bm _ | .cand _ | .reserved => s

end Sys2Proof.Machine
end

