-- ==== Sys2Proof/Machine/HostPort.lean ====
section
/-! DEFINITION. The host port, the pixel port and `rst`: what each thing the outside does makes of the state in each
phase (70_reset_and_hazards.md R411, R420 to R425). -/

namespace Sys2Proof.Machine

/-- A host access is one the spec defines: 4 bytes, naturally aligned (20_memory.md R83). -/
def accessDefined (off size : Nat) : Bool := decide (size = 4 ∧ off % 4 = 0)

/-- The command of a command word, if it decodes. -/
def commandOf (w : Word) : Option Instr := (decodeWord w).toOption

/-- How many words of a buffer, from its first, a command may write on the operands latched at acceptance: as many as its
result has where it completes with one, else the `whole` buffer its rule lists (20_memory.md R94 says "may write"). -/
def resultCount (s : State) (i : Instr) (whole : Nat) (count : State → Nat) : Nat :=
  match exec i s with
  | .next t => if t.status.err = .ok ∧ 0 < count t then count t else whole
  | .fault _ => whole
  | .refused _ => whole

/-- How many words of LOC the Chien search on PB[a] may write: the degree of its operand, whether or not it finds as many
roots, and the whole buffer where PB[a] is no operand (43_reed_solomon.md R206). -/
def chienCount (s : State) (a : BitVec 3) : Nat :=
  match polyOperand s a with
  | .ok p => pdeg p
  | .error _ => Config.maxCw

/-- The words a running command may write (20_memory.md R94, 70_reset_and_hazards.md R422): the words its rule lists as
results, in the range the rule gives them. A range that the operands give is taken from the latched operands: MAG to
NLOC - 1 (43_reed_solomon.md R207), LOC to deg(PB[a]) - 1 for RSCHIEN (R206), CWB to CWLEN - 1 (R208, R210), PM to
2 NPTS - 1 (44_transform.md R255), and never slot 255 of CWB, LOC and MAG (00_scope.md R6). A range that the result gives
is that of the result: the coefficients of PB[d] (42_gf_poly.md R188), the locations and magnitudes of RSDEC
(43_reed_solomon.md R210); it is the whole buffer where the command will end with an error, or RSDEC with no location.
For SRESET it is every word but those 40_control.md R141 excepts. DEDUCED (notes/assumptions/6.md). -/
def resultLoc (s : State) (i : Instr) (l : Loc) : Bool :=
  let found : Nat := resultCount s i Config.maxCw (fun t => t.nloc.toNat)
  let poly (d : BitVec 3) : Bool :=
    match l with
    | .pblen k => decide ((k : Nat) = d.toNat)
    | .pb k e => decide ((k : Nat) = d.toNat ∧ (e : Nat) < resultCount s i Config.maxLen (fun t => pblenAt t d))
    | .degr => true
    | _ => false
  let matrix (d : BitVec 3) : Bool :=
    match l with
    | .t k _ => decide ((k : Nat) = d.toNat)
    | _ => false
  let isGr : Bool := decide (l = .gr)
  let isDegr : Bool := decide (l = .degr)
  let isCwb : Bool := match l with | .cwb k => decide ((k : Nat) < s.cwlen.toNat ∧ (k : Nat) < Config.maxCw) | _ => false
  let isLoc (n : Nat) : Bool := match l with | .loc k => decide ((k : Nat) < n ∧ (k : Nat) < Config.maxCw) | _ => false
  let isMag (n : Nat) : Bool := match l with | .mag k => decide ((k : Nat) < n ∧ (k : Nat) < Config.maxCw) | _ => false
  let isFpr : Bool := match l with | .fpr _ _ => true | _ => false
  let isCandidate : Bool := match l with | .cand _ | .ncand => true | _ => false
  match i with
  | .nop => false
  | .gadd => isGr
  | .gmul => isGr
  | .ginv => isGr
  | .gexp => isGr
  | .glog => isGr
  | .sreset =>
    decide (l ≠ .status ∧ l ≠ .imgw ∧ l ≠ .imgh ∧ l ≠ .id ∧ l ≠ .fieldcfg ∧ l ≠ .reserved)
  | .pnorm d _ => poly d
  | .padd d _ _ => poly d
  | .pmul d _ _ => poly d
  | .pscale d _ => poly d
  | .pmulmono d _ => poly d
  | .pmono d => poly d
  | .pdiv d q _ _ => poly d || poly q
  | .peval _ => isGr || isDegr
  | .pcoef _ => isGr || isDegr
  | .rsdec => isCwb || isLoc found || isMag found || isDegr || decide (l = .nloc)
  | .rssyn d => poly d
  | .rseuc d q _ _ => poly d || poly q
  | .rschien a => isLoc (chienCount s a) || isDegr || decide (l = .nloc)
  | .rsforney _ => isMag s.nloc.toNat || isDegr
  | .rsapply => isCwb
  | .xsq2q d => matrix d
  | .xq2sq d => matrix d
  | .xq2q d => matrix d
  | .xadj d _ => matrix d
  | .xtimes d _ _ => matrix d
  | .xpts _ => match l with | .pm k => decide ((k : Nat) < 2 * s.npts.toNat) | _ => false
  | .xqrgrid d _ => matrix d
  | .grid _ => match l with | .bm _ => true | _ => false
  | .pffind => isCandidate || isFpr
  | .pfalign => isCandidate || decide (l = .apx ∨ l = .apy ∨ l = .aps)
  | .pfratio5 => false
  | .pfratio3 => false
  | .pforder => isFpr
  | .pfccv => decide (l = .resf)
  | .pfcch => decide (l = .resf)
  | .pfccd => false
  | .pfccva => decide (l = .resf)

/-- A host read of a word is unspecified: a command runs and may write the word (20_memory.md R94). -/
def readUnspecified (s : State) (l : Loc) : Bool :=
  match s.phase with
  | .running w =>
    match commandOf w with
    | some i => resultLoc s i l
    | none => false
  | .idle => false
  | .resetting => false

/-- A host read of a word of the window (20_memory.md R89, R94): its value, or a free value where it is unspecified.
Nothing else changes. -/
def hostReadLoc (s : State) (l : Loc) : State :=
  if readUnspecified s l then { s with rdata := Config.freeRead s.draws, draws := s.draws + 1 }
  else { s with rdata := readLoc s l }

/-- A host write to a word of the window: stored in IDLE; discarded in RUNNING, where CMD sets CMDOVR and any other
word WRBUSY (70_reset_and_hazards.md R421); discarded in RESETTING (R411). -/
def hostWriteLoc (s : State) (l : Loc) (v : Word) : State :=
  match s.phase with
  | .idle => writeLoc s l v
  | .running _ =>
    if l = .cmd then { s with status := { s.status with cmdovr := true } }
    else { s with status := { s.status with wrbusy := true } }
  | .resetting => s

/-- A host access: refused where the spec defines none, a fault outside the window, else the given effect. -/
def hostAccess (off size : Nat) (effect : Loc → State) : Host.Outcome State Fault Refusal :=
  if !accessDefined off size then .refused .undefinedAccess
  else if 0x10000 ≤ off then .fault .outsideWindow
  else .next (effect (locate off))

/-- A host read (20_memory.md R83). -/
def hostRead (s : State) (off size : Nat) : Host.Outcome State Fault Refusal :=
  hostAccess off size (hostReadLoc s)

/-- A host write (20_memory.md R83). -/
def hostWrite (s : State) (off size : Nat) (v : Word) : Host.Outcome State Fault Refusal :=
  hostAccess off size (fun l => hostWriteLoc s l v)

/-- The commands that read pixels (70_reset_and_hazards.md R420). -/
def readsPixels (i : Instr) : Bool :=
  match i with
  | .grid _ | .pffind | .pfalign | .pfccv | .pfcch | .pfccd | .pfccva => true
  | .nop | .gadd | .gmul | .ginv | .gexp | .glog | .sreset
  | .pnorm .. | .padd .. | .pmul .. | .pscale .. | .pmulmono .. | .pmono .. | .pdiv .. | .peval .. | .pcoef ..
  | .rsdec | .rssyn .. | .rseuc .. | .rschien .. | .rsforney .. | .rsapply
  | .xsq2q .. | .xq2sq .. | .xq2q .. | .xadj .. | .xtimes .. | .xpts .. | .xqrgrid ..
  | .pfratio5 | .pfratio3 | .pforder => false

/-- A command that reads pixels is running (70_reset_and_hazards.md R420). -/
def pixelCommandRuns (s : State) : Bool :=
  match s.phase with
  | .running w =>
    match commandOf w with
    | some i => readsPixels i
    | none => false
  | .idle => false
  | .resetting => false

/-- The pixel port presents another image: refused while a pixel command runs (70_reset_and_hazards.md R420). -/
def changeImage (s : State) (im : Image) : Host.Outcome State Fault Refusal :=
  if pixelCommandRuns s then .refused .imageChanged else .next { s with port := im }

end Sys2Proof.Machine
end

