-- ==== Sys2Proof/Machine/Step.lean ====
section
/-! DEFINITION. One step: the next thing the outside does, or, where it leaves the engine to move, the end of reset
initialisation or of the running command (60_exceptions.md R370, 70_reset_and_hazards.md R430). -/

namespace Sys2Proof.Machine

/-- The engine moves: it ends reset initialisation, runs and completes the accepted command, or rests
(60_exceptions.md R370). A word that does not decode completes with ILLEGAL_CMD (R375).
DEDUCED (notes/assumptions/2.md): a command computes and completes in one step. -/
def engineStep (s : State) : Host.Outcome State Fault Refusal :=
  match s.phase with
  | .resetting => .next s.initialised
  | .idle => .next s
  | .running w =>
    match decodeWord w with
    | .error _ => illegalCommand s
    | .ok i => exec i s

/-- One step of the machine. -/
def step (s : State) : Host.Outcome State Fault Refusal :=
  match s.host with
  | [] => engineStep s
  | .tick :: rest => engineStep { s with host := rest }
  | .read off size :: rest => hostRead { s with host := rest } off size
  | .write off size v :: rest => hostWrite { s with host := rest } off size v
  | .image im :: rest => changeImage { s with host := rest } im
  | .rst :: rest => .next (State.hardReset { s with host := rest })

/-- The launch premise of a host program (70_reset_and_hazards.md R415): phase IDLE, so no command in flight, BUSY,
CMDOVR and WRBUSY 0, and the field tables those reset initialisation builds. -/
def State.cleanEntry (s : State) : Prop :=
  s.phase = .idle ∧ s.status.busy = false ∧ s.status.cmdovr = false ∧ s.status.wrbusy = false ∧
    s.tables = buildTables Config.prim

/-- A start state that meets the launch premise, every other register as `s` names it (70_reset_and_hazards.md R415). -/
def State.launch (s : State) : State :=
  { s with
    phase := .idle
    status := { s.status with busy := false, cmdovr := false, wrbusy := false }
    tables := buildTables Config.prim }

/-- The start state that names no value: every register has its reset value (70_reset_and_hazards.md R415), an image is
at the port, and the host runs its program. -/
def programStart (im : Image) (program : List Input) : State :=
  { State.reset.launch with port := im, host := program }

/-- The state in which the very next step runs the command word: launched (70_reset_and_hazards.md R415), the word
accepted in phase IDLE, and the outside leaves the engine to move (notes/assumptions/1.md). -/
def State.withFetchWord (s : State) (nbits w : Nat) : State :=
  State.accept { s.launch with host := [] } (tableWord nbits w)

end Sys2Proof.Machine
end

