-- ==== Sys2Proof/Safety.lean ====
section
/-! DEFINITION. The terms of the claims: what a safe run is, the invariant of the machine, and what the spec's rules say
about results, written without the machine's own operations where the rules allow it. -/

namespace Sys2Proof.Machine

/-! ## Completion -/

/-- The state `s` after a command has completed with an error code, NOERR and RESB (60_exceptions.md R372): BUSY = 0,
DONE = 1, phase IDLE, CMDOVR and WRBUSY as they were, and nothing else changed. -/
def State.ended (s : State) (e : ErrCode) (noerr resb : Bool) : State :=
  { s with
    phase := .idle
    status :=
      { busy := false, done := true, cmdovr := s.status.cmdovr, wrbusy := s.status.wrbusy,
        err := e, noerr := noerr, resb := resb } }

/-- The state `s` after a normal completion that sets neither NOERR nor RESB. -/
def State.done (s : State) : State := s.ended .ok false false

/-- The state `s` after a command that raised an error (60_exceptions.md R373): only STATUS and the phase differ. -/
def State.failed (s : State) (e : ErrCode) : State := s.ended e false false

/-! ## What the outside may do -/

/-- The next thing the outside does is one the spec defines (20_memory.md R80, R83; 70_reset_and_hazards.md R420): an
aligned access of four bytes in the window, and no image change while a pixel command runs. -/
def State.dutiful (s : State) : Bool :=
  match s.host with
  | .read off size :: _ => decide (size = 4 ∧ off % 4 = 0 ∧ off < 0x10000)
  | .write off size _ :: _ => decide (size = 4 ∧ off % 4 = 0 ∧ off < 0x10000)
  | .image _ :: _ => !pixelCommandRuns s
  | .rst :: _ => true
  | .tick :: _ => true
  | [] => true

/-- A step is safe when it gives a next state. -/
def Safe (o : Host.Outcome State Fault Refusal) : Prop := ∃ t, o = .next t

/-- The rest of what the outside does, after its next item. -/
def State.afterInput (s : State) : State := { s with host := s.host.tail }

/-! ## The invariant -/

/-- A byte of the window that a buffer can make other than 0: the low byte of an element word of PB, CWB, LOC and MAG
(20_memory.md R87), and every byte of PM, BM and CAND (20_memory.md R81). -/
def bufferByte (x : Nat) : Bool :=
  decide ((0x1000 ≤ x ∧ x < 0x5C00 ∧ x % 4 = 0) ∨ (0x6000 ≤ x ∧ x < 0x6800) ∨ (0x8000 ≤ x ∧ x < 0xB000))

/-- The phase is RESETTING and every register and memory word is at its reset value, STATUS included
(70_reset_and_hazards.md R410); EXP and LOG, which have no value then, are left free. -/
def State.atReset (s : State) : Prop :=
  s = { State.reset with tables := s.tables, port := s.port, host := s.host, rdata := s.rdata, draws := s.draws }

/-- The invariant of QRDC. -/
structure State.Inv (s : State) : Prop where
  /-- BUSY is 1 exactly outside phase IDLE (10_state.md R35, R57). -/
  busy_iff : s.status.busy = true ↔ s.phase ≠ .idle
  /-- While BUSY, no result bit is set (10_state.md R36 to R39, R41). -/
  busy_clear : s.status.busy = true →
    s.status.done = false ∧ s.status.err = .ok ∧ s.status.noerr = false ∧ s.status.resb = false
  /-- A failed command leaves NOERR and RESB 0 (60_exceptions.md R372). -/
  err_clear : s.status.err ≠ .ok → s.status.noerr = false ∧ s.status.resb = false
  /-- The buffer memories are in canonical form. -/
  mem_wf : Memory.wf s.mem = true
  /-- Only buffer bytes hold anything but 0 (20_memory.md R81, R87). -/
  mem_buffers : ∀ x, bufferByte x = false → readByte s.mem x = 0#8
  /-- The field tables are those of 41_gf_field.md R150 from the end of reset initialisation on (10_state.md R56). -/
  tables_built : s.phase ≠ .resetting → s.tables = buildTables Config.prim
  /-- NCAND never exceeds the candidate memory (46_finder_pattern.md R301). -/
  ncand_le : s.ncand.toNat ≤ 256
  /-- During reset initialisation everything is at its reset value (70_reset_and_hazards.md R411). -/
  resetting : s.phase = .resetting → s.atReset

/-! ## Coefficients, values and products, from the field operations alone -/

/-- The field tables are those reset initialisation builds (41_gf_field.md R150). -/
def State.fieldReady (s : State) : Prop := s.tables = buildTables Config.prim

/-- The exclusive or of the values of a function below n. -/
def xorBelow (n : Nat) (f : Nat → Byte) : Byte := (List.range n).foldl (fun acc i => acc ^^^ f i) 0#8

/-- The coefficient of x^d of a coefficient list, most significant first; leading zeros do not matter
(42_gf_poly.md R171). -/
def coefOf (l : List Byte) (d : Nat) : Byte := if d < l.length then l.getD (l.length - 1 - d) 0#8 else 0#8

/-- A normalised list (42_gf_poly.md R170): [0], or a list whose first coefficient is nonzero. -/
def Normal (l : List Byte) : Prop := l = [0#8] ∨ (l ≠ [] ∧ l.headD 0#8 ≠ 0#8)

/-- Every coefficient is 0. -/
def AllZero (l : List Byte) : Prop := ∀ d, coefOf l d = 0#8

/-- The power a^n of a field element. -/
def fieldPow (g : Tables) (a : Byte) : Nat → Byte
  | 0 => 1#8
  | n + 1 => gfMul g (fieldPow g a n) a

/-- The value of a polynomial at a point: the sum of c_n · x^n. -/
def polyValue (g : Tables) (l : List Byte) (x : Byte) : Byte :=
  xorBelow l.length (fun n => gfMul g (coefOf l n) (fieldPow g x n))

/-- The coefficient of x^n of a product: the sum of a_i · b_(n-i). -/
def productCoef (g : Tables) (a b : List Byte) (n : Nat) : Byte :=
  xorBelow (n + 1) (fun i => gfMul g (coefOf a i) (coefOf b (n - i)))

/-- The product of two bytes as polynomials over GF(2), reduced modulo `PRIM` (41_gf_field.md R153), by shifting and
adding: no table. -/
def shiftAddMul (prim : Nat) (a b : Byte) : Byte :=
  xorBelow 8 (fun k => if b.getLsbD k then BitVec.ofNat 8 ((gfDouble prim)^[k] a.toNat) else 0#8)

/-! ## Polynomial buffers and memory frames -/

/-- The coefficients a polynomial buffer holds, as they stand (10_state.md R42). -/
def rawPoly (s : State) (k : BitVec 3) : List Byte := readElems s.mem (pbBase k.toNat) (pblenAt s k)

/-- PB[k] has a length a command accepts (42_gf_poly.md R187). -/
def operandOk (s : State) (k : BitVec 3) : Prop := 1 ≤ pblenAt s k ∧ pblenAt s k ≤ 512

/-- The error a polynomial operand of a length no command accepts raises (42_gf_poly.md R187). -/
def operandError (s : State) (k : BitVec 3) : ErrCode := if pblenAt s k = 0 then .illegalArg else .capacity

/-- The degree of the polynomial of a coefficient list. -/
def degreeOf (l : List Byte) : Nat := (normalise l).length - 1

/-- `m'` is `m` with 8-bit elements stored in the consecutive words from `base` on, and no other byte changed. -/
def Stores (m m' : Memory) (base : Nat) (l : List Byte) : Prop :=
  ∀ x, readByte m' x =
    if base ≤ x ∧ x < base + 4 * l.length then
      if (x - base) % 4 = 0 then l.getD ((x - base) / 4) 0#8 else 0#8
    else readByte m x

/-- `m'` is `m` with 32-bit words stored from `base` on, and no other byte changed. -/
def StoresWords (m m' : Memory) (base : Nat) (ws : List Word) : Prop :=
  ∀ x, readByte m' x =
    if base ≤ x ∧ x < base + 4 * ws.length then byteOfWord (ws.getD ((x - base) / 4) 0#32) ((x - base) % 4)
    else readByte m x

/-- `t` is `s` after a normal completion that wrote the polynomial `r` to PB[d], its length to PBLEN[d] and its degree
to DEGR, and NOERR; every other register, flag and byte is that of `s` (42_gf_poly.md R188, R189). -/
def PolyResult (s : State) (d : BitVec 3) (r : List Byte) (noerr : Bool) (t : State) : Prop :=
  ∃ m, Stores s.mem m (pbBase d.toNat) r ∧
    t = { s.ended .ok noerr false with
      mem := m
      pblen := s.pblen.set d.toNat (BitVec.ofNat 10 r.length) d.isLt
      degr := BitVec.ofNat 16 (r.length - 1) }

/-- `t` is `s` after a normal completion that wrote `r` to PB[d] and `r'` to PB[q]; DEGR is the degree of `r`. -/
def PolyResults (s : State) (d : BitVec 3) (r : List Byte) (q : BitVec 3) (r' : List Byte) (t : State) : Prop :=
  ∃ m₁ m₂, Stores s.mem m₁ (pbBase d.toNat) r ∧ Stores m₁ m₂ (pbBase q.toNat) r' ∧
    t = { s.done with
      mem := m₂
      pblen := (s.pblen.set d.toNat (BitVec.ofNat 10 r.length) d.isLt).set q.toNat (BitVec.ofNat 10 r'.length) q.isLt
      degr := BitVec.ofNat 16 (r.length - 1) }

/-! ## Reed-Solomon -/

/-- CWB[0..CWLEN-1] (10_state.md R45). -/
def codewords (s : State) : List Byte := readElems s.mem cwbBase s.cwlen.toNat

/-- Syndrome S_i of the codewords (43_reed_solomon.md R202), for the GBASE of the configuration. -/
def syndromeOf (s : State) (i : Nat) : Byte :=
  polyValue s.tables (codewords s) (fieldPow s.tables 2#8 (i + Config.gbase))

/-- CWLEN and TWOS are in range (43_reed_solomon.md R201). -/
def rangesOk (s : State) : Prop :=
  1 ≤ s.cwlen.toNat ∧ s.cwlen.toNat ≤ 255 ∧ 1 ≤ s.twos.toNat ∧ s.twos.toNat ≤ 255

/-- The elements of the field at which a polynomial is 0, in ascending order (43_reed_solomon.md R206). -/
def rootsOf (g : Tables) (l : List Byte) : List Byte :=
  ((List.range 256).map (BitVec.ofNat 8)).filter (fun e => e != 0#8 && polyValue g l e == 0#8)

/-- The product over every location but the i-th of 1 + X_j · x (43_reed_solomon.md R207). -/
def locatorProduct (g : Tables) (locs : List Byte) (i : Nat) (x : Byte) : Byte :=
  (List.range locs.length).foldl
    (fun acc j => if j = i then acc else gfMul g acc (gfMul g (locs.getD j 0#8) x ^^^ 1#8)) 1#8

/-- How many places two lists of one length differ in. -/
def distanceOf (a b : List Byte) : Nat := ((a.zip b).filter (fun p => p.1 != p.2)).length

/-- A command run from a state, as a host sees it: the state after it, or its error code. -/
def runCommand (i : Instr) (s : State) : Except ErrCode State :=
  match exec i s with
  | .next t => if t.status.err = .ok then .ok t else .error t.status.err
  | .fault _ => .error .illegalCmd
  | .refused _ => .error .illegalCmd

/-- The stages of the decoder one after another (43_reed_solomon.md R213), for a block with a nonzero syndrome: RSSYN
p0, PMONO p1 with DEG = TWOS and GA = 1, RSEUC p2 p3 p1 p0, RSCHIEN p2, RSFORNEY p3, RSAPPLY. -/
def decoderStages (s : State) : Except ErrCode State := do
  let s1 ← runCommand (.rssyn 0#3) s
  let s2 ← runCommand (.pmono 1#3) { s1 with deg := s1.twos.setWidth 16, ga := 1#8 }
  let s3 ← runCommand (.rseuc 2#3 3#3 1#3 0#3) s2
  let s4 ← runCommand (.rschien 2#3) s3
  let s5 ← runCommand (.rsforney 3#3) s4
  runCommand .rsapply s5

/-! ## Floats and pixels -/

/-- The exact value of a finite binary32 pattern. -/
def f32Value (a : F32) : ℚ :=
  let m : ℚ := if f32Exp a = 0 then f32Frac a else 2 ^ 23 + f32Frac a
  let e : ℤ := if f32Exp a = 0 then -149 else (f32Exp a : ℤ) - 150
  (if f32Sign a then -1 else 1) * m * (2 : ℚ) ^ e

/-- `r` is the binary32 pattern nearest to `x`, ties to the even fraction; from the midpoint past the largest finite
number on it is the infinity of the sign of `x` (IEEE 754 round to nearest even, 00_scope.md R13). -/
def NearestEven (x : ℝ) (r : F32) : Prop :=
  (2 ^ 128 - 2 ^ 103 ≤ x → r = f32Inf false) ∧
  (x ≤ -(2 ^ 128 - 2 ^ 103) → r = f32Inf true) ∧
  (|x| < 2 ^ 128 - 2 ^ 103 → fisFinite r = true ∧ ∀ c, fisFinite c = true →
    |x - f32Value r| < |x - f32Value c| ∨
      (|x - f32Value r| = |x - f32Value c| ∧ (f32Value c = f32Value r ∨ f32Frac r % 2 = 0)))

/-- Every pixel of rows `top` to `top + n - 1` of column `x` has the colour. -/
def ColumnRun (im : Image) (x top n : Nat) (colour : Bool) : Prop :=
  ∀ k, k < n → im.black (x : Int) ((top + k : Nat) : Int) = colour

/-- The identity matrix. -/
def identityMat : Mat := ⟨f1, 0#32, 0#32, 0#32, f1, 0#32, 0#32, 0#32, f1⟩

/-- Bit (x, y) of BM (10_state.md R51). -/
def gridBit (m : Memory) (x y : Nat) : Bool := (readWord m (bmBase + 32 * y + 4 * (x / 32))).getLsbD (x % 32)

/-- The words of points 0 to n - 1 of PM, each mapped through a matrix (44_transform.md R247, R255). -/
def mappedWords (mem : Memory) (m : Mat) (n : Nat) : List Word :=
  (List.range (2 * n)).map (fun j =>
    let p := mapPoint m (readWord mem (pmBase + 8 * (j / 2))) (readWord mem (pmBase + 8 * (j / 2) + 4))
    if j % 2 = 0 then p.1 else p.2)

/-- The image size a pixel command accepts, and a cross-check start inside the image (20_memory.md R92;
46_finder_pattern.md R323). -/
def crossArgsOk (s : State) : Prop :=
  1 ≤ s.port.width.toNat ∧ s.port.width.toNat ≤ 32767 ∧ 1 ≤ s.port.height.toNat ∧ s.port.height.toNat ≤ 32767 ∧
    s.cci.toNat < s.port.height.toNat ∧ s.ccj.toNat < s.port.width.toNat

/-- The image size a pixel command accepts (20_memory.md R92). -/
def imageOk (s : State) : Prop :=
  1 ≤ s.port.width.toNat ∧ s.port.width.toNat ≤ 32767 ∧ 1 ≤ s.port.height.toNat ∧ s.port.height.toNat ≤ 32767

/-- The alignment region is not empty and lies in the image (47_alignment_pattern.md R349). -/
def regionInside (s : State) : Prop :=
  1 ≤ s.rgw.toNat ∧ 1 ≤ s.rgh.toNat ∧ s.rgx.toNat + s.rgw.toNat ≤ s.port.width.toNat ∧
    s.rgy.toNat + s.rgh.toNat ≤ s.port.height.toNat

/-! ## The register window -/

/-- What the word at an aligned offset reads as after reset, with an image at the pixel port
(70_reset_and_hazards.md R410). -/
def resetWord (im : Image) (off : Nat) : Word :=
  if off = 0x000 then 0x51524443#32
  else if off = 0x004 then 0x0000011D#32
  else if off = 0x00C then 0x00000001#32
  else if off = 0x034 then im.width.setWidth 32
  else if off = 0x038 then im.height.setWidth 32
  else if 0x0C0 ≤ off ∧ off < 0x0E0 then 1#32
  else 0#32

/-- The bits a word of the window stores when the host writes it: all 0 where it stores nothing (10_state.md, sections
2 to 9; 20_memory.md R87). CMD and STATUS have their own rules. -/
def Loc.writable (l : Loc) : Word :=
  match l with
  | .ga | .gb | .pb _ _ | .cwb _ | .loc _ | .mag _ => 0xFF#32
  | .deg | .dimx | .dimy | .dim | .npts | .rgx | .rgy | .rgw | .rgh | .cci | .ccj => 0xFFFF#32
  | .twos | .cwlen | .nloc => 0x1FF#32
  | .pblen _ => 0x3FF#32
  | .ctrl => 0x7#32
  | .ams | .sc _ | .ccmax | .cctot | .f _ | .t _ _ | .fpr _ _ | .pm _ => 0xFFFFFFFF#32
  | .id | .fieldcfg | .cmd | .status | .gr | .degr | .imgw | .imgh | .ncand | .resf | .apx | .apy | .aps
  | .bm _ | .cand _ | .reserved => 0#32

end Sys2Proof.Machine
end

