-- ==== Sys2Proof/Certificates/Slice0/Obligations.lean ====
section
/-! DEFINITION. The statements for the provers: what the numbered rules of the spec say QRDC does. -/

open Sys2Proof Sys2Proof.Machine

/-! ## Command words -/

/-- 30_encoding.md R112, R116: decoding the encoding of a well-formed command gives that command back, for every
command and every operand. -/
def Obligations.DecodeOfEncode : Prop :=
  ∀ i : Instr, i.wellFormed = true → decodeWord (encode i) = .ok i

/-- 30_encoding.md R110, R112, R116: a word that decodes is the encoding of the command it decodes to, and that command
is well-formed: every command has one word. -/
def Obligations.EncodeOfDecode : Prop :=
  ∀ (w : Word) (i : Instr), decodeWord w = .ok i → i.wellFormed = true ∧ encode i = w

/-- 30_encoding.md R114, R116 and the examples of the command rules: words written out in the spec decode to the
commands they stand for, one or more of every family. -/
def Obligations.SampleWordsDecode : Prop :=
  decodeWord 0x00000000#32 = .ok .nop ∧ decodeWord 0x0000000F#32 = .ok .sreset ∧
  decodeWord 0x00000002#32 = .ok .gmul ∧ decodeWord 0x00000003#32 = .ok .ginv ∧
  decodeWord 0x00004211#32 = .ok (.padd 2#3 0#3 1#3) ∧ decodeWord 0x000A4416#32 = .ok (.pdiv 4#3 5#3 0#3 1#3) ∧
  decodeWord 0x00000020#32 = .ok .rsdec ∧ decodeWord 0x00000025#32 = .ok .rsapply ∧
  decodeWord 0x00004036#32 = .ok (.xqrgrid 0#3 1#3) ∧ decodeWord 0x00000037#32 = .ok (.grid 0#3) ∧
  decodeWord 0x00000040#32 = .ok .pffind ∧ decodeWord 0x00000041#32 = .ok .pfalign ∧
  decodeWord 0x00000048#32 = .ok .pfccva

/-- 30_encoding.md R112, R113, 60_exceptions.md R375: an accepted word that no well-formed command encodes to completes
with ILLEGAL_CMD and changes nothing but STATUS; the words with a reserved opcode or a nonzero RSV field are such
words. -/
def Obligations.IllegalWordCompletes : Prop :=
  (∀ (s : State) (w : Word), s.phase = .running w → (¬∃ i : Instr, i.wellFormed = true ∧ encode i = w) →
    engineStep s = .next (s.failed .illegalCmd)) ∧
  (∀ w : Word,
    ((0x06 ≤ (opField w).toNat ∧ (opField w).toNat ≤ 0x0E) ∨ (0x19 ≤ (opField w).toNat ∧ (opField w).toNat ≤ 0x1F) ∨
      (0x26 ≤ (opField w).toNat ∧ (opField w).toNat ≤ 0x2F) ∨ (0x38 ≤ (opField w).toNat ∧ (opField w).toNat ≤ 0x3F) ∨
      0x49 ≤ (opField w).toNat ∨ rsvField w ≠ 0#12) →
    ¬∃ i : Instr, i.wellFormed = true ∧ encode i = w)

/-! ## Reset, acceptance, completion -/

/-- 70_reset_and_hazards.md R410: `rst`, in any state, leaves phase RESETTING, STATUS = BUSY alone, irq = 0, and every
word of the window at the value the rule lists, the live IMGW and IMGH apart; State.reset reads the same. That
`rst` is one step and that the port and the outside's moves stay is the model's choice (log entry 10). -/
def Obligations.ResetValues : Prop :=
  (∀ (s : State) (rest : List Input), s.host = .rst :: rest →
    ∃ t, step s = .next t ∧ t.phase = .resetting ∧ t.status = ⟨true, false, false, false, .ok, false, false⟩ ∧
      t.irq = false ∧ t.port = s.port ∧ t.host = rest ∧
      ∀ off, off % 4 = 0 → off < 0x10000 → readLoc t (locate off) = resetWord s.port off) ∧
  (State.reset.phase = .resetting ∧
    ∀ off, off % 4 = 0 → off < 0x10000 → readLoc State.reset (locate off) = resetWord State.reset.port off)

/-- 70_reset_and_hazards.md R411: from the state reset leaves, the engine builds the tables, clears BUSY and goes to
phase IDLE, and changes nothing else; until then a host write is discarded and sets no bit, and a host read returns the
reset value. The state it leaves meets the launch premise of a host program (R415). That the initialisation is one step
is the model's reading (log entry 2). -/
def Obligations.ResetInitialisation : Prop :=
  ∀ s : State, s.atReset →
    ((s.host = [] ∨ ∃ rest, s.host = .tick :: rest) →
      step s = .next { s.afterInput with
        phase := .idle
        status := ⟨false, false, false, false, .ok, false, false⟩
        tables := buildTables Config.prim } ∧
      ∀ t, step s = .next t → t.cleanEntry) ∧
    (∀ off v rest, s.host = .write off 4 v :: rest → off % 4 = 0 → off < 0x10000 → step s = .next s.afterInput) ∧
    (∀ off rest, s.host = .read off 4 :: rest → off % 4 = 0 → off < 0x10000 →
      step s = .next { s.afterInput with rdata := resetWord s.port off })

/-- 60_exceptions.md R371, 10_state.md R53: a write of a word to CMD in phase IDLE is accepted: BUSY = 1, DONE, ERR, NOERR
and RESB cleared, CMDOVR and WRBUSY kept, the phase RUNNING with the word, NCAND cleared for PFFIND and PFALIGN, and
nothing else changed. -/
def Obligations.CommandAcceptance : Prop :=
  ∀ (s : State) (w : Word) (rest : List Input), s.phase = .idle → s.host = .write 0x008 4 w :: rest →
    step s = .next { s.afterInput with
      phase := .running w
      status := { s.status with busy := true, done := false, err := .ok, noerr := false, resb := false }
      ncand := if w = 0x00000040#32 ∨ w = 0x00000041#32 then 0#16 else s.ncand }

/-- 70_reset_and_hazards.md R421: a host write while a command runs is discarded; at CMD it sets CMDOVR, at every other
offset, STATUS and the reserved offsets included, WRBUSY. -/
def Obligations.WritesWhileRunning : Prop :=
  ∀ (s : State) (w : Word) (off : Nat) (v : Word) (rest : List Input),
    s.phase = .running w → s.host = .write off 4 v :: rest → off % 4 = 0 → off < 0x10000 →
    step s = .next
      (if off = 0x008 then { s.afterInput with status := { s.status with cmdovr := true } }
       else { s.afterInput with status := { s.status with wrbusy := true } })

/-- 20_memory.md R89, R94, 70_reset_and_hazards.md R422: a host read changes only the returned data (and, where the
value is free, the model's draw counter): the stored value in phase IDLE, and for STATUS and every word the running
command may not write; a free value for a word it may write (log entry 6 says which
words those are: the model's reading). -/
def Obligations.HostReads : Prop :=
  ∀ (s : State) (off : Nat) (rest : List Input),
    s.host = .read off 4 :: rest → off % 4 = 0 → off < 0x10000 →
    (s.phase = .idle → step s = .next { s.afterInput with rdata := readLoc s (locate off) }) ∧
    (off = 0x00C → step s = .next { s.afterInput with rdata := statusWord s.status }) ∧
    (∀ w i, s.phase = .running w → decodeWord w = .ok i →
      step s = .next
        (if resultLoc s.afterInput i (locate off) = true then
          { s.afterInput with rdata := Config.freeRead s.draws, draws := s.draws + 1 }
         else { s.afterInput with rdata := readLoc s (locate off) }))

/-- 60_exceptions.md R370, R371: when the accepted word decodes to a command and the outside leaves the engine to move,
the step is that command's meaning, on the state without the item of the outside that let it move; nothing is added
around it. From a state that meets the launch premise (70_reset_and_hazards.md R415), which every launched state does, a
write to CMD and then a turn of the engine run the command. That a command completes in one step, and how the outside
lets it, is the model's choice (log entries 1, 2). -/
def Obligations.StepRunsDecodedCommand : Prop :=
  (∀ (s : State) (w : Word) (i : Instr), s.phase = .running w → decodeWord w = .ok i →
    (s.host = [] ∨ ∃ rest, s.host = .tick :: rest) → step s = exec i s.afterInput) ∧
  (∀ s : State, s.launch.cleanEntry) ∧
  (∀ (s : State) (w : Word) (i : Instr) (rest : List Input), s.cleanEntry → decodeWord w = .ok i →
    s.host = .write 0x008 4 w :: .tick :: rest →
    ∃ u, step s = .next u ∧ u.phase = .running w ∧ u.host = .tick :: rest ∧ u.tables = buildTables Config.prim ∧
      step u = exec i u.afterInput)

/-- 60_exceptions.md R372, 10_state.md R40: every command completes, in every state: phase IDLE, BUSY = 0, DONE = 1,
NOERR = RESB = 0 after an error, and CMDOVR and WRBUSY as they were (SRESET apart, which clears them). That the terms no
word encodes complete as ILLEGAL_CMD is the model's choice (log entry 16). -/
def Obligations.EveryCommandCompletes : Prop :=
  ∀ (i : Instr) (s : State), ∃ t, exec i s = .next t ∧ t.phase = .idle ∧ t.status.busy = false ∧ t.status.done = true ∧
    (t.status.err ≠ .ok → t.status.noerr = false ∧ t.status.resb = false) ∧
    (i ≠ .sreset → t.status.cmdovr = s.status.cmdovr ∧ t.status.wrbusy = s.status.wrbusy)

/-- 60_exceptions.md R373, R382: a command that ends with an error has changed nothing but STATUS and the phase; PFFIND
and PFALIGN may also have changed NCAND and bytes of CAND, and after their ILLEGAL_ARG NCAND is 0 and no byte differs. -/
def Obligations.ErrorsChangeNothing : Prop :=
  ∀ (i : Instr) (s t : State), exec i s = .next t → t.status.err ≠ .ok →
    (i ≠ .pffind → i ≠ .pfalign → t = s.failed t.status.err) ∧
    (i = .pffind ∨ i = .pfalign →
      (∃ m n, t = { s.failed t.status.err with mem := m, ncand := n } ∧
        ∀ x, (x < 0xA000 ∨ 0xB000 ≤ x) → readByte m x = readByte s.mem x) ∧
      (t.status.err = .illegalArg → t = { s.failed .illegalArg with ncand := 0#16 }))

/-- 20_memory.md R94, 70_reset_and_hazards.md R422: whatever command completes, a word other than STATUS that the host
may read reliably while the command runs holds after completion what it held before: a command writes only its
results (log entry 6 says which words those are: the model's reading). -/
def Obligations.CommandsWriteOnlyResults : Prop :=
  ∀ (s t : State) (w : Word) (i : Instr) (l : Loc), s.phase = .running w → decodeWord w = .ok i → exec i s = .next t →
    l ≠ .status → resultLoc s i l = false → readLoc t l = readLoc s l

/-- 10_state.md R38: NOERR is cleared at acceptance, and after a completion it is 1 exactly when the command is RSSYN or
RSDEC, its ranges are legal and every syndrome is 0. -/
def Obligations.NoerrBit : Prop :=
  (∀ (s : State) (w : Word), (s.accept w).status.noerr = false) ∧
  (∀ (i : Instr) (s t : State), s.fieldReady → exec i s = .next t →
    (t.status.noerr = true ↔
      ((∃ d, i = .rssyn d) ∨ i = .rsdec) ∧ rangesOk s ∧ ∀ k, k < s.twos.toNat → syndromeOf s k = 0#8))

/-- 10_state.md R39: RESB is cleared at acceptance and left 0 by every command but the six tests. -/
def Obligations.ResbBit : Prop :=
  (∀ (s : State) (w : Word), (s.accept w).status.resb = false) ∧
  (∀ (i : Instr) (s t : State), exec i s = .next t → t.status.resb = true →
    t.status.err = .ok ∧
      (i = .pfratio5 ∨ i = .pfratio3 ∨ i = .pfccv ∨ i = .pfcch ∨ i = .pfccd ∨ i = .pfccva))

/-- 60_exceptions.md R370: the only changes of phase are RESETTING to IDLE when the engine moves, IDLE to RUNNING when
the host writes CMD, RUNNING to IDLE when the engine moves, and any phase to RESETTING on `rst`. -/
def Obligations.PhaseTransitions : Prop :=
  ∀ s t : State, step s = .next t →
    t.phase = s.phase ∨
    (s.phase = .resetting ∧ t.phase = .idle ∧ (s.host = [] ∨ ∃ rest, s.host = .tick :: rest)) ∨
    (s.phase = .idle ∧ ∃ w rest, t.phase = .running w ∧ s.host = .write 0x008 4 w :: rest) ∨
    ((∃ w, s.phase = .running w) ∧ t.phase = .idle ∧ t.status.done = true ∧
      (s.host = [] ∨ ∃ rest, s.host = .tick :: rest)) ∨
    (t.phase = .resetting ∧ ∃ rest, s.host = .rst :: rest)

/-- 60_exceptions.md R380: `irq` is DONE AND IE; a completion asserts it when IE = 1, with or without an error; a 1 in
bit 1 of STATUS, a 0 in IE, the next acceptance and `rst` remove it; setting IE while DONE = 1 asserts it. -/
def Obligations.InterruptLevel : Prop :=
  (∀ s : State, s.irq = (s.status.done && s.ctrl.ie)) ∧
  (∀ (i : Instr) (s t : State), exec i s = .next t → i ≠ .sreset → t.irq = s.ctrl.ie) ∧
  (∀ (s : State) (v : Word), v.getLsbD 1 = true → (writeLoc s .status v).irq = false) ∧
  (∀ (s : State) (v : Word), v.getLsbD 2 = false → (writeLoc s .ctrl v).irq = false) ∧
  (∀ (s : State) (v : Word), v.getLsbD 2 = true → s.status.done = true → (writeLoc s .ctrl v).irq = true) ∧
  (∀ (s : State) (w : Word), (s.accept w).irq = false) ∧
  (∀ s : State, s.hardReset.irq = false)

/-- 10_state.md R36, R40: a host write to STATUS in phase IDLE clears DONE, CMDOVR and WRBUSY where its bits 1, 3 and 4 are
1, and changes nothing else; in particular BUSY, ERR, NOERR and RESB cannot be written. -/
def Obligations.StatusWriteClears : Prop :=
  ∀ (s : State) (v : Word) (rest : List Input), s.phase = .idle → s.host = .write 0x00C 4 v :: rest →
    step s = .next { s.afterInput with
      status := { s.status with
        done := s.status.done && !v.getLsbD 1
        cmdovr := s.status.cmdovr && !v.getLsbD 3
        wrbusy := s.status.wrbusy && !v.getLsbD 4 } }

/-- 20_memory.md R80, R83, 70_reset_and_hazards.md R420 (the stops themselves are the model's choice, log entries 7, 8 and
9): a step gives a next state exactly when the next thing the outside does is one the spec defines; otherwise a narrow
or misaligned access is refused, an access past the window faults, and an image change under a pixel command is
refused. No command ever stops the machine. -/
def Obligations.StopsAreTheHosts : Prop :=
  ∀ s : State,
    (Safe (step s) ↔ s.dutiful = true) ∧
    (∀ off size rest, s.host = .read off size :: rest ∨ (∃ v, s.host = .write off size v :: rest) →
      (size ≠ 4 ∨ off % 4 ≠ 0 → step s = .refused .undefinedAccess) ∧
      (size = 4 → off % 4 = 0 → 0x10000 ≤ off → step s = .fault .outsideWindow)) ∧
    (∀ im rest, s.host = .image im :: rest →
      step s = if pixelCommandRuns s then .refused .imageChanged else .next { s.afterInput with port := im })

/-! ## The register window -/

/-- 20_memory.md R81, R82, 10_state.md sections 2, 3 and 8, R42 to R52: where the scalar registers, the arrays and the
pattern results of the window lie, and that the offsets between them are reserved. -/
def Obligations.WindowMap : Prop :=
  (List.range 35).map (fun k => locate (4 * k)) =
    [.id, .fieldcfg, .cmd, .status, .ctrl, .ga, .gb, .gr, .deg, .degr, .twos, .cwlen, .nloc, .imgw, .imgh, .dimx, .dimy,
     .dim, .npts, .rgx, .rgy, .rgw, .rgh, .ams, .ncand, .resf, .sc 0, .sc 1, .sc 2, .sc 3, .sc 4, .ccmax, .cctot, .cci,
     .ccj] ∧
  locate 0x230 = .apx ∧ locate 0x234 = .apy ∧ locate 0x238 = .aps ∧
  (∀ k : Fin 8, locate (0x0C0 + 4 * k) = .pblen k) ∧
  (∀ k : Fin 16, locate (0x100 + 4 * k) = .f k) ∧
  (∀ (k : Fin 4) (e : Fin 9), locate (0x140 + 0x24 * k + 4 * e) = .t k e) ∧
  (∀ (k : Fin 3) (e : Fin 4), locate (0x200 + 16 * k + 4 * e) = .fpr k e) ∧
  (∀ (k : Fin 8) (e : Fin 512), locate (0x1000 + 0x800 * k + 4 * e) = .pb k e) ∧
  (∀ i : Fin 256, locate (0x5000 + 4 * i) = .cwb i) ∧
  (∀ i : Fin 256, locate (0x5400 + 4 * i) = .loc i) ∧
  (∀ i : Fin 256, locate (0x5800 + 4 * i) = .mag i) ∧
  (∀ i : Fin 512, locate (0x6000 + 4 * i) = .pm i) ∧
  (∀ i : Fin 2048, locate (0x8000 + 4 * i) = .bm i) ∧
  (∀ i : Fin 1024, locate (0xA000 + 4 * i) = .cand i) ∧
  (∀ off, (0x08C ≤ off ∧ off < 0x0C0) ∨ (0x0E0 ≤ off ∧ off < 0x100) ∨ (0x1D0 ≤ off ∧ off < 0x200) ∨
    (0x23C ≤ off ∧ off < 0x1000) ∨ (0x5C00 ≤ off ∧ off < 0x6000) ∨ (0x6800 ≤ off ∧ off < 0x8000) ∨
    (0xB000 ≤ off ∧ off < 0x10000) → locate off = .reserved)

/-- 20_memory.md R82, R87, R89, 10_state.md R22: a host write of a word in phase IDLE is a write to the word its offset
names; the word, read back, holds the written bits in its field, and what it held before in every other bit: 0 in unused
bits, and the old value of a read-only or reserved word. -/
def Obligations.WriteReadBack : Prop :=
  (∀ (s : State) (off : Nat) (v : Word) (rest : List Input),
    s.phase = .idle → s.host = .write off 4 v :: rest → off % 4 = 0 → off < 0x10000 →
    step s = .next (writeLoc s.afterInput (locate off) v)) ∧
  (∀ (s : State) (l : Loc) (v : Word), l ≠ .cmd → l ≠ .status →
    readLoc (writeLoc s l v) l = (readLoc s l &&& ~~~l.writable) ||| (v &&& l.writable))

/-- 20_memory.md R86, R89: a host write in phase IDLE to a word other than CMD and STATUS changes no other word of the
window, nor the phase, the tables, the port or anything of the model's own. -/
def Obligations.WritesTouchOneWord : Prop :=
  ∀ (s : State) (l l' : Loc) (v : Word), l ≠ .cmd → l ≠ .status → l' ≠ l →
    readLoc (writeLoc s l v) l' = readLoc s l' ∧
    (writeLoc s l v).phase = s.phase ∧ (writeLoc s l v).tables = s.tables ∧ (writeLoc s l v).port = s.port ∧
    (writeLoc s l v).host = s.host ∧ (writeLoc s l v).rdata = s.rdata ∧ (writeLoc s l v).draws = s.draws

/-! ## The invariant -/

/-- 10_state.md R35, R37, R56, R57, 20_memory.md R87, 46_finder_pattern.md R301, 60_exceptions.md R372,
70_reset_and_hazards.md R411: every step keeps the invariant: BUSY exactly outside IDLE, no result bits while BUSY or
after an error, the memories canonical and 0 outside the buffers, the tables built, NCAND at most 256, and everything at
its reset value during reset initialisation. -/
def Obligations.StepKeepsInvariant : Prop :=
  ∀ s t : State, s.Inv → step s = .next t → t.Inv

/-- 70_reset_and_hazards.md R410: the state after reset meets the invariant. -/
def Obligations.ResetMeetsInvariant : Prop := State.reset.Inv

/-! ## Control -/

/-- 40_control.md R140: NOP is the word 0, no other word with its opcode decodes, and it changes nothing: after it STATUS
is DONE alone where CMDOVR and WRBUSY were 0. -/
def Obligations.NopEffect : Prop :=
  encode .nop = 0x00000000#32 ∧
  (∀ w : Word, opField w = 0x00#8 → w ≠ 0#32 → ∃ e, decodeWord w = .error e) ∧
  (∀ s : State, exec .nop s = .next s.done) ∧
  (∀ s : State, s.status.cmdovr = false → s.status.wrbusy = false → statusWord s.done.status = 0x00000002#32)

/-- 40_control.md R141, 70_reset_and_hazards.md R413: SRESET is the word 0x0F and completes with STATUS = DONE only and
irq = 0; every word but STATUS reads its reset value, IMGW and IMGH live, and the tables are built again. That the
port and the model's own fields stay is the model's choice (log entry 10). -/
def Obligations.SresetEffect : Prop :=
  encode .sreset = 0x0000000F#32 ∧
  ∀ s : State,
    exec .sreset s = .next { State.reset with
      phase := .idle
      status := ⟨false, true, false, false, .ok, false, false⟩
      tables := buildTables Config.prim
      port := s.port
      host := s.host
      rdata := s.rdata
      draws := s.draws } ∧
    ∀ t, exec .sreset s = .next t → statusWord t.status = 0x00000002#32 ∧ t.irq = false ∧
      ∀ off, off % 4 = 0 → off < 0x10000 → off ≠ 0x00C → readLoc t (locate off) = resetWord s.port off

/-! ## The field -/

/-- 41_gf_field.md R150: the tables reset initialisation builds: each power twice the one before, reduced by PRIM; LOG the
inverse of EXP on 0..254; LOG[0] = 0; EXP[0..254] a permutation of 1..255, EXP[255] = 1, LOG[1] = 0; and the values the
rule lists. -/
def Obligations.FieldTables : Prop :=
  let g := buildTables Config.prim
  expNat g 0 = 1#8 ∧
  (∀ k, k < 255 → (expNat g (k + 1)).toNat =
    if 256 ≤ 2 * (expNat g k).toNat then (2 * (expNat g k).toNat) ^^^ Config.prim else 2 * (expNat g k).toNat) ∧
  (∀ k, k < 255 → (logAt g (expNat g k)).toNat = k) ∧
  logAt g 0#8 = 0#8 ∧
  (∀ a : Byte, a ≠ 0#8 → ∃ k, k < 255 ∧ expNat g k = a) ∧
  expNat g 255 = 1#8 ∧ logAt g 1#8 = 0#8 ∧
  (List.range 16).map (expNat g) =
    [0x01#8, 0x02#8, 0x04#8, 0x08#8, 0x10#8, 0x20#8, 0x40#8, 0x80#8,
     0x1D#8, 0x3A#8, 0x74#8, 0xE8#8, 0xCD#8, 0x87#8, 0x13#8, 0x26#8] ∧
  expNat g 254 = 0x8E#8 ∧ logAt g 2#8 = 1#8 ∧ logAt g 3#8 = 25#8

/-- 41_gf_field.md R160: multiply(a, inverse(a)) = 1 and exp(log(a)) = a for all nonzero a; multiplication commutes and
distributes over addition. It also associates. -/
def Obligations.FieldLaws : Prop :=
  let g := buildTables Config.prim
  (∀ a : Byte, a ≠ 0#8 → ∃ b, gfInv g a = .ok b ∧ gfMul g a b = 1#8) ∧
  (∀ a : Byte, a ≠ 0#8 → ∃ k, gfLog g a = .ok k ∧ expAt g k = a) ∧
  (∀ a b : Byte, gfMul g a b = gfMul g b a) ∧
  (∀ a b c : Byte, gfMul g a (gfAdd b c) = gfAdd (gfMul g a b) (gfMul g a c)) ∧
  (∀ a b c : Byte, gfMul g (gfMul g a b) c = gfMul g a (gfMul g b c))

/-- 41_gf_field.md R153: multiplication is 0 when a factor is 0 and EXP[(LOG[a] + LOG[b]) mod 255] otherwise, and it
equals the product of the factors as polynomials over GF(2) reduced modulo PRIM. -/
def Obligations.ProductModuloPrim : Prop :=
  let g := buildTables Config.prim
  ∀ a b : Byte,
    gfMul g a b = (if a = 0#8 ∨ b = 0#8 then 0#8
      else expNat g (((logAt g a).toNat + (logAt g b).toNat) % 255)) ∧
    gfMul g a b = shiftAddMul Config.prim a b

/-- 41_gf_field.md R155, R156, R158: GADD, GMUL and GEXP write GR and change nothing else but STATUS; their words, corner
cases and examples. -/
def Obligations.GaddGmulGexp : Prop :=
  encode .gadd = 0x00000001#32 ∧ encode .gmul = 0x00000002#32 ∧ encode .gexp = 0x00000004#32 ∧
  (∀ s : State,
    exec .gadd s = .next { s.done with gr := s.ga ^^^ s.gb } ∧
    exec .gmul s = .next { s.done with
      gr := (if s.ga = 0#8 ∨ s.gb = 0#8 then 0#8
        else expNat s.tables (((logAt s.tables s.ga).toNat + (logAt s.tables s.gb).toNat) % 255)) } ∧
    exec .gexp s = .next { s.done with gr := s.tables.exp[s.ga.toNat]'s.ga.isLt }) ∧
  (∀ s : State, s.ga = s.gb → exec .gadd s = .next { s.done with gr := 0#8 }) ∧
  (∀ (s : State) (x : Byte), s.ga = x ^^^ s.gb → exec .gadd s = .next { s.done with gr := x }) ∧
  (∀ s : State, s.ga = 0x53#8 → s.gb = 0xCA#8 → exec .gadd s = .next { s.done with gr := 0x99#8 }) ∧
  (∀ s : State, s.fieldReady → s.ga = 1#8 → exec .gmul s = .next { s.done with gr := s.gb }) ∧
  (∀ s : State, s.fieldReady → s.ga = 0x80#8 → s.gb = 0x02#8 → exec .gmul s = .next { s.done with gr := 0x1D#8 }) ∧
  (∀ s : State, s.fieldReady → s.ga = 0#8 ∨ s.ga = 255#8 → exec .gexp s = .next { s.done with gr := 1#8 }) ∧
  (∀ s : State, s.fieldReady → s.ga = 8#8 → exec .gexp s = .next { s.done with gr := 0x1D#8 })

/-- 41_gf_field.md R157, R159: GINV and GLOG write GR; GA = 0 ends them with ARITH and ILLEGAL_ARG and changes nothing but
STATUS; their words, corner cases and examples. -/
def Obligations.GinvGlog : Prop :=
  encode .ginv = 0x00000003#32 ∧ encode .glog = 0x00000005#32 ∧
  (∀ s : State, s.ga = 0#8 → exec .ginv s = .next (s.failed .arith) ∧ exec .glog s = .next (s.failed .illegalArg)) ∧
  (∀ s : State, s.ga ≠ 0#8 →
    exec .ginv s = .next { s.done with gr := expNat s.tables (255 - (logAt s.tables s.ga).toNat) } ∧
    exec .glog s = .next { s.done with gr := logAt s.tables s.ga }) ∧
  (∀ s : State, s.fieldReady → s.ga = 1#8 →
    exec .ginv s = .next { s.done with gr := 1#8 } ∧ exec .glog s = .next { s.done with gr := 0#8 }) ∧
  (∀ s : State, s.fieldReady → s.ga = 2#8 → exec .ginv s = .next { s.done with gr := 0x8E#8 }) ∧
  (∀ s : State, s.fieldReady → s.ga = 3#8 → exec .glog s = .next { s.done with gr := 25#8 }) ∧
  (∀ s : State, s.fieldReady → s.ga ≠ 0#8 → ∃ k, k ≠ 255#8 ∧ exec .glog s = .next { s.done with gr := k })

/-! ## Polynomials -/

/-- 42_gf_poly.md R187, R176, 60_exceptions.md R377: every command that reads a polynomial ends with ILLEGAL_ARG on a
length 0 and CAPACITY on a length above 512, operand A before operand B, and changes nothing but STATUS. -/
def Obligations.PolyOperandErrors : Prop :=
  ∀ (s : State) (d q a b : BitVec 3),
    (¬operandOk s a →
      exec (.pnorm d a) s = .next (s.failed (operandError s a)) ∧
      exec (.padd d a b) s = .next (s.failed (operandError s a)) ∧
      exec (.pmul d a b) s = .next (s.failed (operandError s a)) ∧
      exec (.pscale d a) s = .next (s.failed (operandError s a)) ∧
      exec (.pmulmono d a) s = .next (s.failed (operandError s a)) ∧
      (d ≠ q → exec (.pdiv d q a b) s = .next (s.failed (operandError s a))) ∧
      exec (.peval a) s = .next (s.failed (operandError s a)) ∧
      exec (.pcoef a) s = .next (s.failed (operandError s a)) ∧
      (d ≠ q → 1 ≤ s.twos.toNat → s.twos.toNat ≤ 255 →
        exec (.rseuc d q a b) s = .next (s.failed (operandError s a))) ∧
      exec (.rschien a) s = .next (s.failed (operandError s a)) ∧
      (s.nloc.toNat ≤ 255 → exec (.rsforney a) s = .next (s.failed (operandError s a)))) ∧
    (operandOk s a → ¬operandOk s b →
      exec (.padd d a b) s = .next (s.failed (operandError s b)) ∧
      exec (.pmul d a b) s = .next (s.failed (operandError s b)) ∧
      (d ≠ q → exec (.pdiv d q a b) s = .next (s.failed (operandError s b))) ∧
      (d ≠ q → 1 ≤ s.twos.toNat → s.twos.toNat ≤ 255 →
        exec (.rseuc d q a b) s = .next (s.failed (operandError s b))))

/-- 42_gf_poly.md R170, R175, R188, R189: PNORM writes the normalised polynomial of its operand: no leading zero, every
coefficient the same; nothing else changes but STATUS and DEGR. -/
def Obligations.PnormResult : Prop :=
  ∀ (s : State) (d a : BitVec 3), operandOk s a →
    ∃ r t, exec (.pnorm d a) s = .next t ∧ PolyResult s d r false t ∧ Normal r ∧
      ∀ n, coefOf r n = coefOf (rawPoly s a) n

/-- 42_gf_poly.md R172, R176, R188, R189: PADD writes the normalised polynomial whose coefficients are the exclusive or of
its operands'; nothing else changes but STATUS and DEGR. -/
def Obligations.PaddResult : Prop :=
  ∀ (s : State) (d a b : BitVec 3), operandOk s a → operandOk s b →
    ∃ r t, exec (.padd d a b) s = .next t ∧ PolyResult s d r false t ∧ Normal r ∧
      ∀ n, coefOf r n = coefOf (rawPoly s a) n ^^^ coefOf (rawPoly s b) n

/-- 42_gf_poly.md R173, R177, R188, R189: PMUL writes the normalised product of its operands, or ends with CAPACITY when
both are nonzero and the product has more than 512 coefficients; nothing else changes but STATUS and DEGR. -/
def Obligations.PmulResult : Prop :=
  ∀ (s : State) (d a b : BitVec 3), s.fieldReady → operandOk s a → operandOk s b →
    (AllZero (rawPoly s a) ∨ AllZero (rawPoly s b) ∨ degreeOf (rawPoly s a) + degreeOf (rawPoly s b) ≤ 511 →
      ∃ r t, exec (.pmul d a b) s = .next t ∧ PolyResult s d r false t ∧ Normal r ∧
        ∀ n, coefOf r n = productCoef s.tables (rawPoly s a) (rawPoly s b) n) ∧
    (¬AllZero (rawPoly s a) → ¬AllZero (rawPoly s b) → 511 < degreeOf (rawPoly s a) + degreeOf (rawPoly s b) →
      exec (.pmul d a b) s = .next (s.failed .capacity))

/-- 42_gf_poly.md R174, R178, R179, R188, R189: PSCALE multiplies every coefficient by GA; PMULMONO also raises every
degree by DEG, ends with ILLEGAL_ARG when DEG is negative, and with CAPACITY when the result is too long; nothing else
changes but STATUS and DEGR. -/
def Obligations.PscalePmulmonoResult : Prop :=
  ∀ (s : State) (d a : BitVec 3), s.fieldReady → operandOk s a →
    (∃ r t, exec (.pscale d a) s = .next t ∧ PolyResult s d r false t ∧ Normal r ∧
      ∀ n, coefOf r n = gfMul s.tables (coefOf (rawPoly s a) n) s.ga) ∧
    (s.deg.toInt < 0 → exec (.pmulmono d a) s = .next (s.failed .illegalArg)) ∧
    (0 ≤ s.deg.toInt → s.ga = 0#8 ∨ AllZero (rawPoly s a) ∨ degreeOf (rawPoly s a) + s.deg.toNat ≤ 511 →
      ∃ r t, exec (.pmulmono d a) s = .next t ∧ PolyResult s d r false t ∧ Normal r ∧
        ∀ n, coefOf r n =
          if n < s.deg.toNat then 0#8 else gfMul s.tables (coefOf (rawPoly s a) (n - s.deg.toNat)) s.ga) ∧
    (0 ≤ s.deg.toInt → s.ga ≠ 0#8 → ¬AllZero (rawPoly s a) → 511 < degreeOf (rawPoly s a) + s.deg.toNat →
      exec (.pmulmono d a) s = .next (s.failed .capacity))

/-- 42_gf_poly.md R180: PMONO writes the monomial GA · x^DEG, [0] when GA = 0; a negative DEG is ILLEGAL_ARG, and a DEG
above 511 with GA nonzero CAPACITY; its word and its example. -/
def Obligations.PmonoResult : Prop :=
  (∀ d : BitVec 3, encode (.pmono d) = BitVec.ofNat 32 (0x15 + 256 * d.toNat)) ∧
  (∀ (s : State) (d : BitVec 3),
    (s.deg.toInt < 0 → exec (.pmono d) s = .next (s.failed .illegalArg)) ∧
    (0 ≤ s.deg.toInt → s.ga = 0#8 → ∃ t, exec (.pmono d) s = .next t ∧ PolyResult s d [0#8] false t) ∧
    (s.deg.toNat ≤ 511 → s.ga ≠ 0#8 →
      ∃ t, exec (.pmono d) s = .next t ∧ PolyResult s d (s.ga :: List.replicate s.deg.toNat 0#8) false t) ∧
    (0 ≤ s.deg.toInt → 511 < s.deg.toNat → s.ga ≠ 0#8 → exec (.pmono d) s = .next (s.failed .capacity))) ∧
  (∀ s : State, s.deg = 3#16 → s.ga = 7#8 →
    ∃ t, exec (.pmono 4#3) s = .next t ∧ PolyResult s 4#3 [7#8, 0#8, 0#8, 0#8] false t ∧ t.degr = 3#16)

/-- 42_gf_poly.md R171, R182, R183, R185, R189: PEVAL writes the value of its operand at GA, the sum of c_n · GA^n, to GR,
and PCOEF the coefficient of x^DEG, or ends with ILLEGAL_ARG for a negative DEG; both write the degree to DEGR, and
nothing else changes but STATUS. -/
def Obligations.PevalPcoefResult : Prop :=
  ∀ (s : State) (a : BitVec 3), operandOk s a →
    (s.fieldReady → exec (.peval a) s = .next { s.done with
      gr := polyValue s.tables (rawPoly s a) s.ga
      degr := BitVec.ofNat 16 (degreeOf (rawPoly s a)) }) ∧
    (s.deg.toInt < 0 → exec (.pcoef a) s = .next (s.failed .illegalArg)) ∧
    (0 ≤ s.deg.toInt → exec (.pcoef a) s = .next { s.done with
      gr := coefOf (rawPoly s a) s.deg.toNat
      degr := BitVec.ofNat 16 (degreeOf (rawPoly s a)) })

/-- 42_gf_poly.md R181, R184, R186: PDIV writes a quotient and a remainder with dividend = divisor · quotient + remainder
and the remainder zero or of lower degree than the divisor; a zero divisor is ILLEGAL_ARG; nothing else changes but
STATUS and DEGR. -/
def Obligations.DivisionLaw : Prop :=
  ∀ (s : State) (d q a b : BitVec 3), s.fieldReady → operandOk s a → operandOk s b → d ≠ q →
    (AllZero (rawPoly s b) → exec (.pdiv d q a b) s = .next (s.failed .illegalArg)) ∧
    (¬AllZero (rawPoly s b) →
      ∃ quo rem t, exec (.pdiv d q a b) s = .next t ∧ PolyResults s d quo q rem t ∧ Normal quo ∧ Normal rem ∧
        (∀ n, coefOf (rawPoly s a) n = productCoef s.tables (rawPoly s b) quo n ^^^ coefOf rem n) ∧
        (degreeOf rem < degreeOf (rawPoly s b) ∨ rem = [0#8]))

/-! ## Reed-Solomon -/

/-- 43_reed_solomon.md R201: each Reed-Solomon command ends with ILLEGAL_ARG, and changes nothing but STATUS, when a count
it uses is out of range: CWLEN or TWOS for RSSYN and RSDEC, TWOS for RSEUC, NLOC for RSFORNEY, CWLEN or NLOC for
RSAPPLY. -/
def Obligations.RangeErrors : Prop :=
  ∀ (s : State) (d q a b : BitVec 3),
    (¬rangesOk s → exec (.rssyn d) s = .next (s.failed .illegalArg) ∧ exec .rsdec s = .next (s.failed .illegalArg)) ∧
    (s.twos.toNat = 0 ∨ 255 < s.twos.toNat → d ≠ q → exec (.rseuc d q a b) s = .next (s.failed .illegalArg)) ∧
    (255 < s.nloc.toNat → exec (.rsforney a) s = .next (s.failed .illegalArg)) ∧
    (s.cwlen.toNat = 0 ∨ 255 < s.cwlen.toNat ∨ 255 < s.nloc.toNat →
      exec .rsapply s = .next (s.failed .illegalArg))

/-- 43_reed_solomon.md R202, R204: RSSYN writes the normalised polynomial whose coefficient of x^i is syndrome S_i, the
value of the received polynomial at α^(i + GBASE), its degree to DEGR, and NOERR = 1 exactly when every syndrome is 0;
nothing else changes but STATUS. -/
def Obligations.RssynResult : Prop :=
  ∀ (s : State) (d : BitVec 3), s.fieldReady → rangesOk s →
    ∃ r t noerr, exec (.rssyn d) s = .next t ∧ PolyResult s d r noerr t ∧ Normal r ∧
      (∀ n, coefOf r n = if n < s.twos.toNat then syndromeOf s n else 0#8) ∧
      (noerr = true ↔ ∀ n, n < s.twos.toNat → syndromeOf s n = 0#8)

/-- 43_reed_solomon.md R203, R205: where the operand of lower degree already has degree below TWOS/2, RSEUC does not enter
the loop and writes σ = [1] and ω = that operand; nothing else changes but STATUS and DEGR. -/
def Obligations.RseucShortcut : Prop :=
  ∀ (s : State) (d q a b : BitVec 3), s.fieldReady → operandOk s a → operandOk s b → d ≠ q →
    1 ≤ s.twos.toNat → s.twos.toNat ≤ 255 →
    (degreeOf (rawPoly s b) ≤ degreeOf (rawPoly s a) → 2 * degreeOf (rawPoly s b) < s.twos.toNat →
      ∃ r t, exec (.rseuc d q a b) s = .next t ∧ PolyResults s d [1#8] q r t ∧ Normal r ∧
        ∀ n, coefOf r n = coefOf (rawPoly s b) n) ∧
    (degreeOf (rawPoly s a) < degreeOf (rawPoly s b) → 2 * degreeOf (rawPoly s a) < s.twos.toNat →
      ∃ r t, exec (.rseuc d q a b) s = .next t ∧ PolyResults s d [1#8] q r t ∧ Normal r ∧
        ∀ n, coefOf r n = coefOf (rawPoly s a) n)

/-- 43_reed_solomon.md R203, R205: with deg(a) ≥ deg(b), RSEUC ends with CHECKSUM, or writes σ and ω with σ(0) = 1,
deg(ω) < TWOS/2 and ω = σ · b + u · a for some polynomial u: the key equation. -/
def Obligations.KeyEquation : Prop :=
  ∀ (s : State) (d q a b : BitVec 3), s.fieldReady → operandOk s a → operandOk s b → d ≠ q →
    1 ≤ s.twos.toNat → s.twos.toNat ≤ 255 → degreeOf (rawPoly s b) ≤ degreeOf (rawPoly s a) →
    exec (.rseuc d q a b) s = .next (s.failed .checksum) ∨
    ∃ sigma omega u t, exec (.rseuc d q a b) s = .next t ∧ PolyResults s d sigma q omega t ∧
      Normal sigma ∧ Normal omega ∧ coefOf sigma 0 = 1#8 ∧ 2 * degreeOf omega < s.twos.toNat ∧
      ∀ n, coefOf omega n =
        productCoef s.tables sigma (rawPoly s b) n ^^^ productCoef s.tables u (rawPoly s a) n

/-- 43_reed_solomon.md R206: RSCHIEN writes the inverses of the first deg(σ) roots of σ, in ascending order of the roots,
to LOC, and their number to NLOC and DEGR; with fewer roots it ends with CHECKSUM; nothing else changes but STATUS. -/
def Obligations.ChienResult : Prop :=
  ∀ (s : State) (a : BitVec 3), s.fieldReady → operandOk s a →
    ((rootsOf s.tables (rawPoly s a)).length < degreeOf (rawPoly s a) →
      exec (.rschien a) s = .next (s.failed .checksum)) ∧
    (degreeOf (rawPoly s a) ≤ (rootsOf s.tables (rawPoly s a)).length →
      ∃ locs m, locs.length = degreeOf (rawPoly s a) ∧
        (∀ k, k < locs.length →
          gfMul s.tables (locs.getD k 0#8) ((rootsOf s.tables (rawPoly s a)).getD k 0#8) = 1#8) ∧
        Stores s.mem m locBase locs ∧
        exec (.rschien a) s = .next { s.done with
          mem := m
          nloc := BitVec.ofNat 9 locs.length
          degr := BitVec.ofNat 16 locs.length })

/-- 43_reed_solomon.md R207: RSFORNEY ends with ARITH when a location is 0 or two are equal; otherwise it writes to each
MAG[i] the m with m · ∏_(j ≠ i) (1 + X_j · X_i^-1) = ω(X_i^-1), and the degree of ω to DEGR; nothing else changes but
STATUS. (GBASE is 0.) -/
def Obligations.ForneyResult : Prop :=
  ∀ (s : State) (a : BitVec 3), s.fieldReady → operandOk s a → s.nloc.toNat ≤ 255 →
    let locs := readElems s.mem locBase s.nloc.toNat
    (¬(locs.Nodup ∧ 0#8 ∉ locs) → exec (.rsforney a) s = .next (s.failed .arith)) ∧
    (locs.Nodup → 0#8 ∉ locs →
      ∃ mags m, mags.length = locs.length ∧ Stores s.mem m magBase mags ∧
        (∀ i x, i < locs.length → gfMul s.tables (locs.getD i 0#8) x = 1#8 →
          gfMul s.tables (mags.getD i 0#8) (locatorProduct s.tables locs i x) =
            polyValue s.tables (rawPoly s a) x) ∧
        exec (.rsforney a) s = .next { s.done with
          mem := m
          degr := BitVec.ofNat 16 (degreeOf (rawPoly s a)) })

/-- 43_reed_solomon.md R208: RSAPPLY ends with the error of the first location that is 0 (ILLEGAL_ARG) or whose position
is past the block (CHECKSUM); with none it exclusive-ors each magnitude into the codeword at position
CWLEN - 1 - log(LOC[k]), whose word then holds nothing but the codeword, and changes no other byte, and nothing else but
STATUS. -/
def Obligations.ApplyResult : Prop :=
  ∀ s : State, 1 ≤ s.cwlen.toNat → s.cwlen.toNat ≤ 255 → s.nloc.toNat ≤ 255 →
    let n := s.nloc.toNat
    let loc := fun k => readElem s.mem (locBase + 4 * k)
    let good := fun k => loc k ≠ 0#8 ∧ (logAt s.tables (loc k)).toNat < s.cwlen.toNat
    let pos := fun k => s.cwlen.toNat - 1 - (logAt s.tables (loc k)).toNat
    (∀ k, k < n → (∀ j, j < k → good j) → loc k = 0#8 → exec .rsapply s = .next (s.failed .illegalArg)) ∧
    (∀ k, k < n → (∀ j, j < k → good j) → loc k ≠ 0#8 → s.cwlen.toNat ≤ (logAt s.tables (loc k)).toNat →
      exec .rsapply s = .next (s.failed .checksum)) ∧
    ((∀ k, k < n → good k) →
      ∃ m, exec .rsapply s = .next { s.done with mem := m } ∧
        (∀ i, i < s.cwlen.toNat → readElem m (cwbBase + 4 * i) =
          readElem s.mem (cwbBase + 4 * i) ^^^
            xorBelow n (fun k => if pos k = i then readElem s.mem (magBase + 4 * k) else 0#8)) ∧
        (∀ k, k < n → readWord m (cwbBase + 4 * pos k) = (readElem m (cwbBase + 4 * pos k)).setWidth 32) ∧
        (∀ x, (∀ k, k < n → x < cwbBase + 4 * pos k ∨ cwbBase + 4 * pos k + 4 ≤ x) →
          readByte m x = readByte s.mem x))

/-- 43_reed_solomon.md R210: when every syndrome is 0, RSDEC sets NOERR, NLOC = 0 and DEGR = 0 and changes nothing else
but STATUS: no correction is needed. -/
def Obligations.DecodeCleanBlock : Prop :=
  ∀ s : State, s.fieldReady → rangesOk s → (∀ n, n < s.twos.toNat → syndromeOf s n = 0#8) →
    exec .rsdec s = .next { s.ended .ok true false with nloc := 0#9, degr := 0#16 }

/-- 43_reed_solomon.md R213: on a block with a nonzero syndrome the five stages and RSDEC agree: either both complete, with
the same CWB, the same NLOC, and the same LOC and MAG below it, or both end with the same error code. -/
def Obligations.StagesAgree : Prop :=
  ∀ s : State, s.fieldReady → rangesOk s → (∃ n, n < s.twos.toNat ∧ syndromeOf s n ≠ 0#8) →
    match decoderStages s with
    | .ok u => ∃ t, exec .rsdec s = .next t ∧ t.status.err = .ok ∧ t.status.noerr = false ∧ t.nloc = u.nloc ∧
        (∀ i, i < 256 → readElem t.mem (cwbBase + 4 * i) = readElem u.mem (cwbBase + 4 * i)) ∧
        (∀ i, i < t.nloc.toNat → readElem t.mem (locBase + 4 * i) = readElem u.mem (locBase + 4 * i) ∧
          readElem t.mem (magBase + 4 * i) = readElem u.mem (magBase + 4 * i))
    | .error e => exec .rsdec s = .next (s.failed e)

/-- 43_reed_solomon.md R211: RSDEC corrects: if CWB holds a codeword (a word divisible by every x - α^i, i < TWOS) changed
in at most ⌊TWOS/2⌋ places, RSDEC completes without error and CWB holds the codeword. -/
def Obligations.DecoderCorrects : Prop :=
  ∀ (s : State) (c : List Byte), s.fieldReady → rangesOk s → c.length = s.cwlen.toNat →
    (∀ i, i < s.twos.toNat → polyValue s.tables c (fieldPow s.tables 2#8 i) = 0#8) →
    distanceOf (codewords s) c ≤ s.twos.toNat / 2 →
    ∃ t, exec .rsdec s = .next t ∧ t.status.err = .ok ∧ codewords t = c

/-! ## Transforms and the grid -/

/-- 44_transform.md R241 to R246, R250 to R254, R256: each matrix command writes T[D] with its formula and changes nothing
else but STATUS; XQRGRID reads FPR1, FPR2 and FPR0 as top-left, top-right and bottom-left, and APX, APY with the flag
only; a NaN element is stored as 0x7FC00000. That an element which a formula only copies is made canonical too is the
model's reading (log entry 14), and so is that the formulas hold where the corner-case sentences of three commands say
otherwise: XTIMES with the identity on -0.0 (log entry 26), XQ2Q from the unit square on elements that are not finite or
-0.0 (log entry 27), XQRGRID with DIM = 7 and no alignment point (log entry 28). -/
def Obligations.MatrixCommands : Prop :=
  (∀ (s : State) (d a b : Fin 4),
    let ix := fun k : Fin 4 => BitVec.ofNat 3 k
    let low : Quad := ⟨s.f[0], s.f[1], s.f[2], s.f[3], s.f[4], s.f[5], s.f[6], s.f[7]⟩
    let high : Quad := ⟨s.f[8], s.f[9], s.f[10], s.f[11], s.f[12], s.f[13], s.f[14], s.f[15]⟩
    let far := fsub (f32OfNat s.dim.toNat) f35
    let tl := s.fpr[1]
    let tr := s.fpr[2]
    let bl := s.fpr[0]
    exec (.xsq2q (ix d)) s = .next { s.done with t := s.t.set d (sq2q low) } ∧
    exec (.xq2sq (ix d)) s = .next { s.done with t := s.t.set d (adjoint (sq2q low)) } ∧
    exec (.xq2q (ix d)) s = .next { s.done with t := s.t.set d (times (sq2q high) (adjoint (sq2q low))) } ∧
    exec (.xadj (ix d) (ix a)) s = .next { s.done with t := s.t.set d (adjoint s.t[a]) } ∧
    exec (.xtimes (ix d) (ix a) (ix b)) s = .next { s.done with t := s.t.set d (times s.t[a] s.t[b]) } ∧
    exec (.xqrgrid (ix d) 0#3) s = .next { s.done with t := s.t.set d (times
      (sq2q ⟨tl.x, tl.y, tr.x, tr.y, fadd (fsub tr.x tl.x) bl.x, fadd (fsub tr.y tl.y) bl.y, bl.x, bl.y⟩)
      (adjoint (sq2q ⟨f35, f35, far, f35, far, far, f35, far⟩))) } ∧
    exec (.xqrgrid (ix d) 1#3) s = .next { s.done with t := s.t.set d (times
      (sq2q ⟨tl.x, tl.y, tr.x, tr.y, s.apx, s.apy, bl.x, bl.y⟩)
      (adjoint (sq2q ⟨f35, f35, far, f35, fsub far f3, fsub far f3, f35, far⟩))) }) ∧
  (∀ (q : Quad) (m o : Mat) (e : Fin 9),
    (fisNaN (matElem (sq2q q) e) = true → matElem (sq2q q) e = 0x7FC00000#32) ∧
    (fisNaN (matElem (adjoint m) e) = true → matElem (adjoint m) e = 0x7FC00000#32) ∧
    (fisNaN (matElem (times m o) e) = true → matElem (times m o) e = 0x7FC00000#32))

/-- 44_transform.md R247, R255: XPTS maps points 0 to NPTS - 1 of PM through T[A] and changes no other byte and nothing
else but STATUS; more than 256 points end it with CAPACITY. -/
def Obligations.XptsResult : Prop :=
  ∀ (s : State) (a : Fin 4),
    (256 < s.npts.toNat → exec (.xpts (BitVec.ofNat 3 a)) s = .next (s.failed .capacity)) ∧
    (s.npts.toNat ≤ 256 → ∃ m, StoresWords s.mem m pmBase (mappedWords s.mem s.t[a] s.npts.toNat) ∧
      exec (.xpts (BitVec.ofNat 3 a)) s = .next { s.done with mem := m })

/-- 00_scope.md R13: addition, subtraction, multiplication, division, the square root and conversion from an integer each
give the binary32 number nearest to the exact result, ties to even; the square root of a negative number is the canonical
NaN (R14). -/
def Obligations.FloatRounding : Prop :=
  (∀ a b : F32, fisFinite a = true → fisFinite b = true →
    NearestEven (f32Value a + f32Value b : ℚ) (fadd a b) ∧
    NearestEven (f32Value a - f32Value b : ℚ) (fsub a b) ∧
    NearestEven (f32Value a * f32Value b : ℚ) (fmul a b) ∧
    (f32Value b ≠ 0 → NearestEven (f32Value a / f32Value b : ℚ) (fdiv a b))) ∧
  (∀ a : F32, fisFinite a = true →
    (0 ≤ f32Value a → NearestEven (Real.sqrt (f32Value a)) (fsqrt a)) ∧
    (f32Value a < 0 → fsqrt a = 0x7FC00000#32)) ∧
  (∀ n : ℤ, NearestEven n (f32OfInt n))

/-- 45_grid_sampler.md R270 to R273, R275: GRID checks the image size, then a zero dimension, then a dimension above 256;
it ends with NOT_FOUND if a sample point is rejected, and otherwise writes each module's sample to its bit of BM and 0 to
every other bit, and changes no other byte and nothing else but STATUS. -/
def Obligations.GridResult : Prop :=
  ∀ (s : State) (a : Fin 4),
    (¬imageOk s → exec (.grid (BitVec.ofNat 3 a)) s = .next (s.failed .illegalArg)) ∧
    (imageOk s → s.dimx.toNat = 0 ∨ s.dimy.toNat = 0 →
      exec (.grid (BitVec.ofNat 3 a)) s = .next (s.failed .notFound)) ∧
    (imageOk s → 1 ≤ s.dimx.toNat → 1 ≤ s.dimy.toNat → 256 < s.dimx.toNat ∨ 256 < s.dimy.toNat →
      exec (.grid (BitVec.ofNat 3 a)) s = .next (s.failed .capacity)) ∧
    (imageOk s → 1 ≤ s.dimx.toNat → s.dimx.toNat ≤ 256 → 1 ≤ s.dimy.toNat → s.dimy.toNat ≤ 256 →
      ((∃ x y, x < s.dimx.toNat ∧ y < s.dimy.toNat ∧ sampleModule s.port s.t[a] x y = none) →
        exec (.grid (BitVec.ofNat 3 a)) s = .next (s.failed .notFound)) ∧
      ((∀ x y, x < s.dimx.toNat → y < s.dimy.toNat → sampleModule s.port s.t[a] x y ≠ none) →
        ∃ m, exec (.grid (BitVec.ofNat 3 a)) s = .next { s.done with mem := m } ∧
          (∀ x y, x < 256 → y < 256 → gridBit m x y =
            if x < s.dimx.toNat ∧ y < s.dimy.toNat then (sampleModule s.port s.t[a] x y).getD false else false) ∧
          (∀ x, x < 0x8000 ∨ 0xA000 ≤ x → readByte m x = readByte s.mem x)))

/-- 45_grid_sampler.md R270 to R273, R276: through the identity matrix, with the grid as large as the image, GRID copies
the image into BM. -/
def Obligations.IdentityGridCopies : Prop :=
  ∀ (s : State) (a : Fin 4), s.t[a] = identityMat →
    1 ≤ s.port.width.toNat → s.port.width.toNat ≤ 256 → 1 ≤ s.port.height.toNat → s.port.height.toNat ≤ 256 →
    s.dimx = s.port.width → s.dimy = s.port.height →
    ∃ m, exec (.grid (BitVec.ofNat 3 a)) s = .next { s.done with mem := m } ∧
      (∀ x y, x < 256 → y < 256 → gridBit m x y = s.port.black x y) ∧
      (∀ x, x < 0x8000 ∨ 0xA000 ≤ x → readByte m x = readByte s.mem x)

/-! ## Patterns -/

/-- 46_finder_pattern.md R320, R303, 60_exceptions.md R373: PFFIND on a bad image ends with ILLEGAL_ARG and NCAND = 0;
otherwise CAND and NCAND hold the candidates its scan recorded, at most 256; a full memory ends it with CAPACITY, fewer
than three candidates with NOT_FOUND, and otherwise it selects three of the candidates and writes them, ordered, to FPR0,
FPR1 and FPR2; nothing else changes but STATUS. That the words of CAND past NCAND keep their values is the model's reading
(log entry 15). -/
def Obligations.PffindResult : Prop :=
  ∀ s : State,
    (¬imageOk s → exec .pffind s = .next { s.failed .illegalArg with ncand := 0#16 }) ∧
    (imageOk s →
      let r := scan5 s.port s.ctrl.tryh s.ctrl.pure
      ∃ m, StoresWords s.mem m candBase (r.1.flatMap (fun c => [c.x, c.y, c.size, c.count])) ∧ r.1.length ≤ 256 ∧
        (r.2 = .full ∨ r.1.length < 3 →
          exec .pffind s = .next { s.failed (if r.2 = .full then .capacity else .notFound) with
            mem := m
            ncand := BitVec.ofNat 16 r.1.length }) ∧
        (r.2 ≠ .full → 3 ≤ r.1.length →
          ∃ p0 p1 p2, select r.1 = some (p0, p1, p2) ∧ List.Subperm [p0, p1, p2] r.1 ∧
            exec .pffind s = .next { s.done with
              mem := m
              ncand := BitVec.ofNat 16 r.1.length
              fpr := #v[(orderPatterns p0 p1 p2).1, (orderPatterns p0 p1 p2).2.1, (orderPatterns p0 p1 p2).2.2] }))

/-- 46_finder_pattern.md R304, R305, R322: PFORDER permutes the three records whole; the cross product of the result
(bottom-left, top-left, top-right) is not negative, and, where the distances are numbers, bottom-left and top-right are
farthest apart; nothing else changes but STATUS. -/
def Obligations.PforderResult : Prop :=
  ∀ s : State, ∃ bl tl tr, exec .pforder s = .next { s.done with fpr := #v[bl, tl, tr] } ∧
    List.Perm [bl, tl, tr] [s.fpr[0], s.fpr[1], s.fpr[2]] ∧
    flt (crossZ bl tl tr) 0#32 = false ∧
    (fisNaN (distance s.fpr[0] s.fpr[1]) = false → fisNaN (distance s.fpr[1] s.fpr[2]) = false →
      fisNaN (distance s.fpr[0] s.fpr[2]) = false →
      fle (distance bl tl) (distance bl tr) = true ∧ fle (distance tl tr) (distance bl tr) = true)

/-- 46_finder_pattern.md R292, R321, 47_alignment_pattern.md R341, R351: PFRATIO5 and PFRATIO3 set RESB to their ratio test
and change nothing else; a zero count or a total below 7 fails the finder test, and the runs n, n, 3n, n, n pass it as
long as 7n is at most 2^24; AMS = 0 or NaN fails the alignment test, and n, n, n passes it for AMS = n. -/
def Obligations.RatioTests : Prop :=
  ∀ s : State,
    let c := fun k : Fin 5 => s.sc[k].toNat
    exec .pfratio5 s = .next (s.ended .ok false (ratio5 ⟨c 0, c 1, c 2, c 3, c 4⟩)) ∧
    exec .pfratio3 s = .next (s.ended .ok false (ratio3 s.ams ⟨c 0, c 1, c 2⟩)) ∧
    ((∃ k, c k = 0) ∨ c 0 + c 1 + c 2 + c 3 + c 4 < 7 → exec .pfratio5 s = .next (s.ended .ok false false)) ∧
    (∀ n, 1 ≤ n → 7 * n ≤ 2 ^ 24 → c 0 = n → c 1 = n → c 2 = 3 * n → c 3 = n → c 4 = n →
      exec .pfratio5 s = .next (s.ended .ok false true)) ∧
    (s.ams = 0#32 ∨ fisNaN s.ams = true → exec .pfratio3 s = .next (s.ended .ok false false)) ∧
    (∀ n, 1 ≤ n → n ≤ 2 ^ 24 → s.ams = f32OfNat n → c 0 = n → c 1 = n → c 2 = n →
      exec .pfratio3 s = .next (s.ended .ok false true))

/-- 46_finder_pattern.md R297 to R299, R323 to R325, 47_alignment_pattern.md R347, R352: the cross-check commands end with
ILLEGAL_ARG for a bad image size or a start outside the image; otherwise RESB says whether a centre was found and RESF,
which PFCCD does not write, holds it or the canonical NaN; nothing else changes. With CCMAX = 0 every check fails. That
PFCCVA from a white start pixel follows the pseudocode, where a corner-case sentence says that the check fails, is the
model's reading (log entry 21). -/
def Obligations.CrossChecks : Prop :=
  ∀ s : State,
    (¬crossArgsOk s →
      exec .pfccv s = .next (s.failed .illegalArg) ∧ exec .pfcch s = .next (s.failed .illegalArg) ∧
      exec .pfccd s = .next (s.failed .illegalArg) ∧ exec .pfccva s = .next (s.failed .illegalArg)) ∧
    (crossArgsOk s →
      let i := s.cci.toNat
      let j := s.ccj.toNat
      let v := crossVertical s.port i j s.ccmax.toNat s.cctot.toNat
      let h := crossHorizontal s.port j i s.ccmax.toNat s.cctot.toNat
      let a := crossVertical3 s.port s.ams i j s.ccmax.toNat s.cctot.toNat
      exec .pfccv s = .next { s.ended .ok false v.isSome with resf := v.getD 0x7FC00000#32 } ∧
      exec .pfcch s = .next { s.ended .ok false h.isSome with resf := h.getD 0x7FC00000#32 } ∧
      exec .pfccd s = .next (s.ended .ok false (crossDiagonal s.port i j s.ccmax.toNat s.cctot.toNat)) ∧
      exec .pfccva s = .next { s.ended .ok false a.isSome with resf := a.getD 0x7FC00000#32 } ∧
      (s.ccmax = 0#32 →
        exec .pfccv s = .next { s.done with resf := 0x7FC00000#32 } ∧
        exec .pfcch s = .next { s.done with resf := 0x7FC00000#32 } ∧
        exec .pfccd s = .next s.done ∧
        exec .pfccva s = .next { s.done with resf := 0x7FC00000#32 }))

/-- 46_finder_pattern.md R291, R297, R323: when PFCCV finds a centre, column CCJ really holds five consecutive runs black,
white, black, white, black around row CCI, the white and outer runs within CCMAX, their total within 40% of CCTOT, their
ratio accepted, and RESF is the centre of the middle run. -/
def Obligations.VerticalCheckSound : Prop :=
  ∀ s t : State, exec .pfccv s = .next t → t.status.resb = true →
    ∃ (top : Nat) (r : Runs5),
      ColumnRun s.port s.ccj.toNat top r.s0 true ∧
      ColumnRun s.port s.ccj.toNat (top + r.s0) r.s1 false ∧
      ColumnRun s.port s.ccj.toNat (top + r.s0 + r.s1) r.s2 true ∧
      ColumnRun s.port s.ccj.toNat (top + r.s0 + r.s1 + r.s2) r.s3 false ∧
      ColumnRun s.port s.ccj.toNat (top + r.s0 + r.s1 + r.s2 + r.s3) r.s4 true ∧
      top ≤ s.cci.toNat ∧ s.cci.toNat < top + r.total ∧ top + r.total ≤ s.port.height.toNat ∧
      r.s0 ≤ s.ccmax.toNat ∧ r.s1 ≤ s.ccmax.toNat ∧ r.s3 < s.ccmax.toNat ∧ r.s4 < s.ccmax.toNat ∧
      5 * ((r.total : ℤ) - s.cctot.toNat).natAbs < 2 * s.cctot.toNat ∧ ratio5 r = true ∧
      t.resf = centre5 r ((top + r.total : Nat) : ℤ)

/-- 47_alignment_pattern.md R346, R348 to R350, 60_exceptions.md R373: PFALIGN on a bad image or region ends with
ILLEGAL_ARG and NCAND = 0; otherwise CAND and NCAND hold the candidates its scan recorded, at most 256, each with count 1;
a combined pattern, or else the first candidate, is written to APX, APY and APS; a full memory ends it with CAPACITY and
no candidate with NOT_FOUND; nothing else changes but STATUS. That the words of CAND past NCAND keep their values is the
model's reading (log entry 15). -/
def Obligations.PfalignResult : Prop :=
  ∀ s : State,
    (¬(imageOk s ∧ regionInside s) → exec .pfalign s = .next { s.failed .illegalArg with ncand := 0#16 }) ∧
    (imageOk s → regionInside s →
      let r := scan3 s.port s.ams s.rgx.toNat s.rgy.toNat s.rgw.toNat s.rgh.toNat
      ∃ m, StoresWords s.mem m candBase (r.1.flatMap (fun c => [c.x, c.y, c.size, c.count])) ∧ r.1.length ≤ 256 ∧
        (∀ c ∈ r.1, c.count = 1#32) ∧
        (r.2 = .full ∨ (r.2 = .scanning ∧ r.1 = []) →
          exec .pfalign s = .next { s.failed (if r.2 = .full then .capacity else .notFound) with
            mem := m
            ncand := BitVec.ofNat 16 r.1.length }) ∧
        (∀ p, r.2 = .found p →
          exec .pfalign s = .next { s.done with
            mem := m
            ncand := BitVec.ofNat 16 r.1.length
            apx := p.x
            apy := p.y
            aps := p.size }) ∧
        (∀ c cs, r.2 = .scanning → r.1 = c :: cs →
          exec .pfalign s = .next { s.done with
            mem := m
            ncand := BitVec.ofNat 16 r.1.length
            apx := c.x
            apy := c.y
            aps := c.size }))
end

