-- ==== Sys2Proof/Laws/Memory.lean ====
section
/-! SUPPORT. The laws of the buffer memories: what reading after a write gives, and the canonical form. -/

namespace Sys2Proof.Machine

/-! ## The canonical form -/

/-- The canonical form as two properties of the list: addresses strictly rising, and no unlisted value. -/
theorem Memory.wf_iff (m : Memory) :
    Memory.wf m = true ↔ m.Pairwise (fun c d => c.1 < d.1) ∧ ∀ c ∈ m, c.2 ≠ unlistedByte := by
  induction m with
  | nil => simp [Memory.wf]
  | cons c rest ih =>
    obtain ⟨a, v⟩ := c
    cases rest with
    | nil => simp [Memory.wf]
    | cons d rest =>
      obtain ⟨b, w⟩ := d
      simp only [Memory.wf, Bool.and_eq_true, decide_eq_true_eq, ih, bne_iff_ne]
      constructor
      · rintro ⟨⟨hv, hab⟩, hp, hm⟩
        refine ⟨List.Pairwise.cons ?_ hp, ?_⟩
        · intro e he
          rcases List.mem_cons.1 he with rfl | he
          · exact hab
          · exact lt_trans hab ((List.pairwise_cons.1 hp).1 e he)
        · intro e he
          rcases List.mem_cons.1 he with rfl | he
          · exact hv
          · exact hm e he
      · rintro ⟨hp, hm⟩
        obtain ⟨h1, h2⟩ := List.pairwise_cons.1 hp
        exact ⟨⟨hm (a, v) (by simp), h1 (b, w) (by simp)⟩, h2, fun e he => hm e (by simp [he])⟩

theorem cellsFrom_mem {a : Nat} {bs : List Byte} {c : Host.Cell} (h : c ∈ cellsFrom a bs) :
    a ≤ c.1 ∧ c.1 < a + bs.length ∧ c.2 ≠ unlistedByte := by
  induction bs generalizing a with
  | nil => simp [cellsFrom] at h
  | cons b bs ih =>
    simp only [cellsFrom] at h
    split at h
    · have := ih h; simp only [List.length_cons]; exact ⟨by omega, by omega, this.2.2⟩
    · rcases List.mem_cons.1 h with rfl | h
      · simp only [List.length_cons]; exact ⟨le_refl _, by omega, ‹_›⟩
      · have := ih h; simp only [List.length_cons]; exact ⟨by omega, by omega, this.2.2⟩

theorem cellsFrom_pairwise (a : Nat) (bs : List Byte) :
    (cellsFrom a bs).Pairwise (fun c d => c.1 < d.1) := by
  induction bs generalizing a with
  | nil => simp [cellsFrom]
  | cons b bs ih =>
    simp only [cellsFrom]
    split
    · exact ih _
    · exact List.Pairwise.cons (fun c hc => by have := cellsFrom_mem hc; simp only; omega) (ih _)

/-- Every write keeps the canonical form. -/
theorem setBytes_wf {m : Memory} (h : Memory.wf m = true) (a : Nat) (bs : List Byte) :
    Memory.wf (setBytes m a bs) = true := by
  rw [Memory.wf_iff] at h ⊢
  obtain ⟨hp, hv⟩ := h
  constructor
  · simp only [setBytes, List.pairwise_append, List.mem_filter, decide_eq_true_eq, List.mem_append]
    refine ⟨⟨hp.filter _, cellsFrom_pairwise a bs, ?_⟩, hp.filter _, ?_⟩
    · rintro c ⟨_, hc⟩ d hd
      have := cellsFrom_mem hd; omega
    · rintro c (⟨_, hc⟩ | hc) d ⟨_, hd⟩
      · omega
      · have := cellsFrom_mem hc; omega
  · intro c hc
    simp only [setBytes, List.mem_append, List.mem_filter] at hc
    rcases hc with (⟨hc, _⟩ | hc) | ⟨hc, _⟩
    · exact hv c hc
    · exact (cellsFrom_mem hc).2.2
    · exact hv c hc

theorem writeWord_wf {m : Memory} (h : Memory.wf m = true) (a : Nat) (w : Word) :
    Memory.wf (writeWord m a w) = true := setBytes_wf h _ _

theorem writeElem_wf {m : Memory} (h : Memory.wf m = true) (a : Nat) (b : Byte) :
    Memory.wf (writeElem m a b) = true := setBytes_wf h _ _

theorem writeElems_wf {m : Memory} (h : Memory.wf m = true) (a : Nat) (l : List Byte) :
    Memory.wf (writeElems m a l) = true := setBytes_wf h _ _

theorem writeWords_wf {m : Memory} (h : Memory.wf m = true) (a : Nat) (l : List Word) :
    Memory.wf (writeWords m a l) = true := setBytes_wf h _ _

theorem applyFixes_wf {m : Memory} (h : Memory.wf m = true) (l : List (Nat × Byte)) :
    Memory.wf (applyFixes m l) = true := by
  induction l generalizing m with
  | nil => exact h
  | cons p l ih => exact ih (writeElem_wf h _ _)

theorem reset_mem_wf : Memory.wf State.reset.mem = true := rfl

/-! ## Reading -/

@[simp] theorem readByte_nil (x : Nat) : readByte [] x = unlistedByte := rfl

/-- A byte that no entry names reads as an unlisted one. -/
theorem readByte_of_not_mem {m : Memory} {x : Nat} (h : ∀ c ∈ m, c.1 ≠ x) : readByte m x = unlistedByte := by
  induction m with
  | nil => rfl
  | cons c m ih =>
    obtain ⟨k, v⟩ := c
    simp only [readByte]
    rw [if_neg (h (k, v) (by simp)), ih (fun d hd => h d (by simp [hd]))]

theorem readByte_append (m m' : Memory) (x : Nat) :
    readByte (m ++ m') x = if ∃ c ∈ m, c.1 = x then readByte m x else readByte m' x := by
  induction m with
  | nil => simp
  | cons c m ih =>
    obtain ⟨k, v⟩ := c
    simp only [List.cons_append, readByte]
    by_cases hk : k = x
    · rw [if_pos hk, if_pos hk, if_pos ⟨(k, v), by simp, hk⟩]
    · rw [if_neg hk, if_neg hk, ih]
      have : (∃ c ∈ m, c.1 = x) ↔ ∃ c ∈ (k, v) :: m, c.1 = x := by simp [hk]
      simp only [this]

theorem readByte_filter (m : Memory) (q : Nat → Bool) (x : Nat) (h : q x = true) :
    readByte (m.filter (fun c => q c.1)) x = readByte m x := by
  induction m with
  | nil => rfl
  | cons c m ih =>
    obtain ⟨k, v⟩ := c
    simp only [List.filter_cons]
    by_cases hk : k = x
    · subst hk; simp [h, readByte]
    · by_cases hq : q k = true
      · simp [hq, readByte, hk, ih]
      · simp [hq, readByte, hk, ih]

theorem readByte_cellsFrom (a : Nat) (bs : List Byte) (x : Nat) :
    readByte (cellsFrom a bs) x =
      if a ≤ x ∧ x < a + bs.length then bs.getD (x - a) unlistedByte else unlistedByte := by
  induction bs generalizing a with
  | nil => simp [cellsFrom]
  | cons b bs ih =>
    by_cases hx : a = x
    · subst hx
      simp only [cellsFrom]
      split
      · rename_i hb
        rw [ih, if_neg (by omega), if_pos (by simp)]; simp [hb]
      · simp [readByte]
    · have hstep : readByte (cellsFrom a (b :: bs)) x = readByte (cellsFrom (a + 1) bs) x := by
        simp only [cellsFrom]
        split
        · rfl
        · simp [readByte, hx]
      rw [hstep, ih]
      by_cases hr : a + 1 ≤ x ∧ x < a + 1 + bs.length
      · rw [if_pos hr, if_pos (by simp only [List.length_cons]; omega)]
        have : x - a = (x - (a + 1)) + 1 := by omega
        rw [this, List.getD_cons_succ]
      · rw [if_neg hr, if_neg (by simp only [List.length_cons]; omega)]

/-- A memory read where a part of it has no entry. -/
theorem readByte_append_of_unlisted {m m' : Memory} {x : Nat} (h : readByte m x = unlistedByte)
    (h' : ∀ c ∈ m', c.1 ≠ x) : readByte (m ++ m') x = unlistedByte := by
  rw [readByte_append]
  by_cases hc : ∃ c ∈ m, c.1 = x
  · rw [if_pos hc, h]
  · rw [if_neg hc, readByte_of_not_mem h']

/-- Reading after a write, everywhere: the written bytes where they lie, and the old byte everywhere else. -/
theorem readByte_setBytes (m : Memory) (a : Nat) (bs : List Byte) (x : Nat) :
    readByte (setBytes m a bs) x =
      if a ≤ x ∧ x < a + bs.length then bs.getD (x - a) unlistedByte else readByte m x := by
  have hlow : ∀ c ∈ m.filter (fun c => decide (c.1 < a)), c.1 < a := fun c hc => by
    simpa using (List.mem_filter.1 hc).2
  have hhigh : ∀ c ∈ m.filter (fun c => decide (a + bs.length ≤ c.1)), a + bs.length ≤ c.1 := fun c hc => by
    simpa using (List.mem_filter.1 hc).2
  simp only [setBytes]
  rw [List.append_assoc, readByte_append]
  rcases Nat.lt_or_ge x a with hx | hx
  · rw [if_neg (show ¬(a ≤ x ∧ x < a + bs.length) by omega)]
    have hf := readByte_filter m (fun k => decide (k < a)) x (by simpa using hx)
    by_cases hc : ∃ c ∈ m.filter (fun c => decide (c.1 < a)), c.1 = x
    · rw [if_pos hc]; exact hf
    · rw [if_neg hc, ← hf, readByte_of_not_mem (m := m.filter _) (fun c h he => hc ⟨c, h, he⟩)]
      apply readByte_of_not_mem
      intro c h
      rcases List.mem_append.1 h with h | h
      · have := cellsFrom_mem h; omega
      · have := hhigh c h; omega
  · rw [if_neg (show ¬∃ c ∈ m.filter (fun c => decide (c.1 < a)), c.1 = x by
      rintro ⟨c, h, he⟩; have := hlow c h; omega)]
    by_cases hr : x < a + bs.length
    · have hb : a ≤ x ∧ x < a + bs.length := ⟨hx, hr⟩
      have hcells := readByte_cellsFrom a bs x
      rw [if_pos hb] at hcells ⊢
      rw [readByte_append]
      by_cases hc : ∃ c ∈ cellsFrom a bs, c.1 = x
      · rw [if_pos hc, hcells]
      · rw [if_neg hc, ← hcells, readByte_of_not_mem (m := cellsFrom a bs) (fun c h he => hc ⟨c, h, he⟩)]
        exact readByte_of_not_mem (fun c h he => by have := hhigh c h; omega)
    · rw [if_neg (show ¬(a ≤ x ∧ x < a + bs.length) by omega), readByte_append,
        if_neg (show ¬∃ c ∈ cellsFrom a bs, c.1 = x by
          rintro ⟨c, h, he⟩; have := cellsFrom_mem h; omega)]
      exact readByte_filter m (fun k => decide (a + bs.length ≤ k)) x (by simp; omega)

/-- Two memories in canonical form that read alike everywhere are equal. -/
theorem Memory.eq_of_readByte {m m' : Memory} (h : Memory.wf m = true) (h' : Memory.wf m' = true)
    (he : ∀ x, readByte m x = readByte m' x) : m = m' := by
  rw [Memory.wf_iff] at h h'
  induction m generalizing m' with
  | nil =>
    cases m' with
    | nil => rfl
    | cons c m' =>
      obtain ⟨k, v⟩ := c
      have := he k
      simp only [readByte, if_true] at this
      exact absurd this.symm (h'.2 (k, v) (by simp))
  | cons c m ih =>
    obtain ⟨k, v⟩ := c
    cases m' with
    | nil =>
      have := he k
      simp only [readByte, if_true] at this
      exact absurd this (h.2 (k, v) (by simp))
    | cons d m' =>
      obtain ⟨l, w⟩ := d
      obtain ⟨hp, hv⟩ := h
      obtain ⟨hp', hv'⟩ := h'
      rw [List.pairwise_cons] at hp hp'
      have hk : readByte ((k, v) :: m) k = v := by rw [readByte, if_pos rfl]
      have hl : readByte ((l, w) :: m') l = w := by rw [readByte, if_pos rfl]
      have hkl : k = l := by
        rcases Nat.lt_trichotomy k l with hlt | heq | hlt
        · have hz : readByte ((l, w) :: m') k = unlistedByte := by
            apply readByte_of_not_mem
            intro c hc
            rcases List.mem_cons.1 hc with rfl | hc
            · simp only; omega
            · have := hp'.1 c hc; simp only at this; omega
          rw [← he, hk] at hz
          exact absurd hz (hv (k, v) (by simp))
        · exact heq
        · have hz : readByte ((k, v) :: m) l = unlistedByte := by
            apply readByte_of_not_mem
            intro c hc
            rcases List.mem_cons.1 hc with rfl | hc
            · simp only; omega
            · have := hp.1 c hc; simp only at this; omega
          rw [he, hl] at hz
          exact absurd hz (hv' (l, w) (by simp))
      subst hkl
      have hvw : v = w := by rw [← hk, he, hl]
      subst hvw
      congr 1
      refine ih ⟨hp.2, fun c hc => hv c (by simp [hc])⟩ ⟨hp'.2, fun c hc => hv' c (by simp [hc])⟩ ?_
      intro x
      by_cases hx : k = x
      · subst hx
        rw [readByte_of_not_mem (m := m) (fun c hc => by have := hp.1 c hc; simp only at this; omega),
          readByte_of_not_mem (m := m') (fun c hc => by have := hp'.1 c hc; simp only at this; omega)]
      · have := he x
        rwa [readByte, readByte, if_neg hx, if_neg hx] at this

/-! ## Elements and words -/

@[simp] theorem bytesOfWord_length (w : Word) : (bytesOfWord w).length = 4 := rfl

@[simp] theorem wordBytes_length (ws : List Word) : (wordBytes ws).length = 4 * ws.length := by
  induction ws with
  | nil => rfl
  | cons w ws ih => simp only [wordBytes, List.flatMap_cons, List.length_append, bytesOfWord_length] at ih ⊢
                    rw [ih, List.length_cons]; omega

theorem bytesOfWord_getD (w : Word) {k : Nat} (h : k < 4) (d : Byte) : (bytesOfWord w).getD k d = byteOfWord w k := by
  match k, h with
  | 0, _ => rfl
  | 1, _ => rfl
  | 2, _ => rfl
  | 3, _ => rfl

/-- Byte k of consecutive words. -/
theorem wordBytes_getD (ws : List Word) (k : Nat) (d : Byte) (h : k < 4 * ws.length) :
    (wordBytes ws).getD k d = byteOfWord (ws.getD (k / 4) 0#32) (k % 4) := by
  induction ws generalizing k with
  | nil => simp at h
  | cons w ws ih =>
    have hc : wordBytes (w :: ws) = bytesOfWord w ++ wordBytes ws := rfl
    rw [hc]
    rcases Nat.lt_or_ge k 4 with hk | hk
    · rw [List.getD_append _ _ _ _ (by simpa using hk), bytesOfWord_getD _ hk]
      have h0 : k / 4 = 0 := by omega
      have h1 : k % 4 = k := by omega
      rw [h0, h1]; rfl
    · rw [List.getD_append_right _ _ _ _ (by simpa using hk), bytesOfWord_length, ih _ (by simp at h; omega)]
      have h0 : k / 4 = (k - 4) / 4 + 1 := by omega
      have h1 : k % 4 = (k - 4) % 4 := by omega
      rw [h0, h1, List.getD_cons_succ]

/-- Reading after a store of words. -/
theorem storesWords_writeWords (m : Memory) (a : Nat) (ws : List Word) : StoresWords m (writeWords m a ws) a ws := by
  intro x
  rw [writeWords, readByte_setBytes, wordBytes_length]
  split
  · rw [wordBytes_getD _ _ _ (by omega)]
  · rfl

theorem byteOfWord_setWidth (b : Byte) {k : Nat} (h : k < 4) :
    byteOfWord (b.setWidth 32) k = if k = 0 then b else 0#8 := by
  ext i hi
  rw [byteOfWord, BitVec.getElem_extractLsb', BitVec.getLsbD_setWidth]
  by_cases hk : k = 0
  · subst hk
    rw [if_pos rfl, decide_eq_true (by omega), Bool.true_and, Nat.mul_zero, Nat.zero_add,
      BitVec.getLsbD_eq_getElem hi]
  · rw [if_neg hk, BitVec.getLsbD_of_ge _ _ (by omega), Bool.and_false, BitVec.getElem_zero]

/-- Reading after a store of 8-bit elements: each in the low byte of its word, 0 in the other bytes of the word. -/
theorem stores_writeElems (m : Memory) (a : Nat) (l : List Byte) : Stores m (writeElems m a l) a l := by
  intro x
  have h := storesWords_writeWords m a (l.map (fun b => b.setWidth 32)) x
  rw [writeWords] at h
  rw [writeElems, h, List.length_map]
  split
  · rename_i hx
    have hlt : (x - a) / 4 < l.length := by omega
    rw [List.getD_eq_getElem _ _ (by simpa using hlt), List.getElem_map, byteOfWord_setWidth _ (by omega),
      List.getD_eq_getElem _ _ hlt]
  · rfl

@[simp] theorem readElems_length (m : Memory) (a n : Nat) : (readElems m a n).length = n := by
  simp [readElems]

@[simp] theorem readWords_length (m : Memory) (a n : Nat) : (readWords m a n).length = n := by
  simp [readWords]

/-- Elements read back where they were stored. -/
theorem readElems_of_stores {m m' : Memory} {a : Nat} {l : List Byte} (h : Stores m m' a l) :
    readElems m' a l.length = l := by
  apply List.ext_getElem (by simp)
  intro i h1 h2
  simp only [readElems, List.getElem_map, List.getElem_range, readElem]
  rw [h, if_pos (by omega), if_pos (by omega), List.getD_eq_getElem _ _ (by omega)]
  congr 1; omega

/-- A store changes no byte outside it. -/
theorem readByte_of_stores {m m' : Memory} {a : Nat} {l : List Byte} (h : Stores m m' a l) {x : Nat}
    (hx : x < a ∨ a + 4 * l.length ≤ x) : readByte m' x = readByte m x := by
  rw [h, if_neg (by omega)]

/-- A word is its four bytes. -/
theorem wordOfBytes_byteOfWord (w : Word) :
    wordOfBytes (byteOfWord w 0) (byteOfWord w 1) (byteOfWord w 2) (byteOfWord w 3) = w := by
  simp only [wordOfBytes, byteOfWord]
  ext i hi
  simp only [BitVec.getElem_append, BitVec.getElem_extractLsb']
  split <;> (try split) <;> (try split) <;> rw [BitVec.getLsbD_eq_getElem (by omega)] <;> congr 1 <;> omega

/-- A word read back where it was stored. -/
theorem readWord_writeWord (m : Memory) (a : Nat) (w : Word) : readWord (writeWord m a w) a = w := by
  have h : ∀ k, k < 4 → readByte (writeWord m a w) (a + k) = byteOfWord w k := fun k hk => by
    rw [writeWord, readByte_setBytes, if_pos ⟨by omega, by simp only [bytesOfWord_length]; omega⟩,
      Nat.add_sub_cancel_left, bytesOfWord_getD _ hk]
  have h0 := h 0 (by omega)
  rw [Nat.add_zero] at h0
  rw [readWord, h0, h 1 (by omega), h 2 (by omega), h 3 (by omega)]
  exact wordOfBytes_byteOfWord w

end Sys2Proof.Machine
end

