-- ==== Sys2Proof/Laws/State.lean ====
section
/-! SUPPORT. One lemma per field and named update of State, true by rfl. -/

namespace Sys2Proof.Machine

/-! The acceptance of a command (`State.accept`). -/

@[simp] theorem State.accept_phase (s : State) (w : Word) : (s.accept w).phase = .running w := rfl
@[simp] theorem State.accept_status (s : State) (w : Word) : (s.accept w).status = statusAccepted s.status := rfl
@[simp] theorem State.accept_ctrl (s : State) (w : Word) : (s.accept w).ctrl = s.ctrl := rfl
@[simp] theorem State.accept_ga (s : State) (w : Word) : (s.accept w).ga = s.ga := rfl
@[simp] theorem State.accept_gb (s : State) (w : Word) : (s.accept w).gb = s.gb := rfl
@[simp] theorem State.accept_gr (s : State) (w : Word) : (s.accept w).gr = s.gr := rfl
@[simp] theorem State.accept_deg (s : State) (w : Word) : (s.accept w).deg = s.deg := rfl
@[simp] theorem State.accept_degr (s : State) (w : Word) : (s.accept w).degr = s.degr := rfl
@[simp] theorem State.accept_twos (s : State) (w : Word) : (s.accept w).twos = s.twos := rfl
@[simp] theorem State.accept_cwlen (s : State) (w : Word) : (s.accept w).cwlen = s.cwlen := rfl
@[simp] theorem State.accept_nloc (s : State) (w : Word) : (s.accept w).nloc = s.nloc := rfl
@[simp] theorem State.accept_dimx (s : State) (w : Word) : (s.accept w).dimx = s.dimx := rfl
@[simp] theorem State.accept_dimy (s : State) (w : Word) : (s.accept w).dimy = s.dimy := rfl
@[simp] theorem State.accept_dim (s : State) (w : Word) : (s.accept w).dim = s.dim := rfl
@[simp] theorem State.accept_npts (s : State) (w : Word) : (s.accept w).npts = s.npts := rfl
@[simp] theorem State.accept_rgx (s : State) (w : Word) : (s.accept w).rgx = s.rgx := rfl
@[simp] theorem State.accept_rgy (s : State) (w : Word) : (s.accept w).rgy = s.rgy := rfl
@[simp] theorem State.accept_rgw (s : State) (w : Word) : (s.accept w).rgw = s.rgw := rfl
@[simp] theorem State.accept_rgh (s : State) (w : Word) : (s.accept w).rgh = s.rgh := rfl
@[simp] theorem State.accept_ams (s : State) (w : Word) : (s.accept w).ams = s.ams := rfl
@[simp] theorem State.accept_ncand (s : State) (w : Word) : (s.accept w).ncand = acceptedNcand s w := rfl
@[simp] theorem State.accept_resf (s : State) (w : Word) : (s.accept w).resf = s.resf := rfl
@[simp] theorem State.accept_sc (s : State) (w : Word) : (s.accept w).sc = s.sc := rfl
@[simp] theorem State.accept_ccmax (s : State) (w : Word) : (s.accept w).ccmax = s.ccmax := rfl
@[simp] theorem State.accept_cctot (s : State) (w : Word) : (s.accept w).cctot = s.cctot := rfl
@[simp] theorem State.accept_cci (s : State) (w : Word) : (s.accept w).cci = s.cci := rfl
@[simp] theorem State.accept_ccj (s : State) (w : Word) : (s.accept w).ccj = s.ccj := rfl
@[simp] theorem State.accept_pblen (s : State) (w : Word) : (s.accept w).pblen = s.pblen := rfl
@[simp] theorem State.accept_f (s : State) (w : Word) : (s.accept w).f = s.f := rfl
@[simp] theorem State.accept_t (s : State) (w : Word) : (s.accept w).t = s.t := rfl
@[simp] theorem State.accept_fpr (s : State) (w : Word) : (s.accept w).fpr = s.fpr := rfl
@[simp] theorem State.accept_apx (s : State) (w : Word) : (s.accept w).apx = s.apx := rfl
@[simp] theorem State.accept_apy (s : State) (w : Word) : (s.accept w).apy = s.apy := rfl
@[simp] theorem State.accept_aps (s : State) (w : Word) : (s.accept w).aps = s.aps := rfl
@[simp] theorem State.accept_mem (s : State) (w : Word) : (s.accept w).mem = s.mem := rfl
@[simp] theorem State.accept_tables (s : State) (w : Word) : (s.accept w).tables = s.tables := rfl
@[simp] theorem State.accept_port (s : State) (w : Word) : (s.accept w).port = s.port := rfl
@[simp] theorem State.accept_host (s : State) (w : Word) : (s.accept w).host = s.host := rfl
@[simp] theorem State.accept_rdata (s : State) (w : Word) : (s.accept w).rdata = s.rdata := rfl
@[simp] theorem State.accept_draws (s : State) (w : Word) : (s.accept w).draws = s.draws := rfl

/-! The completion of a command (`State.complete`, and `State.finish` and `State.raise` over it). -/

@[simp] theorem State.finish_eq (s : State) (n r : Bool) : s.finish n r = s.complete .ok n r := rfl

@[simp] theorem State.raise_eq (s : State) (e : ErrCode) : s.raise e = s.complete e false false := rfl

@[simp] theorem State.complete_phase (s : State) (e : ErrCode) (n r : Bool) : (s.complete e n r).phase = .idle := rfl
@[simp] theorem State.complete_status (s : State) (e : ErrCode) (n r : Bool) : (s.complete e n r).status = statusCompleted s.status e n r := rfl
@[simp] theorem State.complete_ctrl (s : State) (e : ErrCode) (n r : Bool) : (s.complete e n r).ctrl = s.ctrl := rfl
@[simp] theorem State.complete_ga (s : State) (e : ErrCode) (n r : Bool) : (s.complete e n r).ga = s.ga := rfl
@[simp] theorem State.complete_gb (s : State) (e : ErrCode) (n r : Bool) : (s.complete e n r).gb = s.gb := rfl
@[simp] theorem State.complete_gr (s : State) (e : ErrCode) (n r : Bool) : (s.complete e n r).gr = s.gr := rfl
@[simp] theorem State.complete_deg (s : State) (e : ErrCode) (n r : Bool) : (s.complete e n r).deg = s.deg := rfl
@[simp] theorem State.complete_degr (s : State) (e : ErrCode) (n r : Bool) : (s.complete e n r).degr = s.degr := rfl
@[simp] theorem State.complete_twos (s : State) (e : ErrCode) (n r : Bool) : (s.complete e n r).twos = s.twos := rfl
@[simp] theorem State.complete_cwlen (s : State) (e : ErrCode) (n r : Bool) : (s.complete e n r).cwlen = s.cwlen := rfl
@[simp] theorem State.complete_nloc (s : State) (e : ErrCode) (n r : Bool) : (s.complete e n r).nloc = s.nloc := rfl
@[simp] theorem State.complete_dimx (s : State) (e : ErrCode) (n r : Bool) : (s.complete e n r).dimx = s.dimx := rfl
@[simp] theorem State.complete_dimy (s : State) (e : ErrCode) (n r : Bool) : (s.complete e n r).dimy = s.dimy := rfl
@[simp] theorem State.complete_dim (s : State) (e : ErrCode) (n r : Bool) : (s.complete e n r).dim = s.dim := rfl
@[simp] theorem State.complete_npts (s : State) (e : ErrCode) (n r : Bool) : (s.complete e n r).npts = s.npts := rfl
@[simp] theorem State.complete_rgx (s : State) (e : ErrCode) (n r : Bool) : (s.complete e n r).rgx = s.rgx := rfl
@[simp] theorem State.complete_rgy (s : State) (e : ErrCode) (n r : Bool) : (s.complete e n r).rgy = s.rgy := rfl
@[simp] theorem State.complete_rgw (s : State) (e : ErrCode) (n r : Bool) : (s.complete e n r).rgw = s.rgw := rfl
@[simp] theorem State.complete_rgh (s : State) (e : ErrCode) (n r : Bool) : (s.complete e n r).rgh = s.rgh := rfl
@[simp] theorem State.complete_ams (s : State) (e : ErrCode) (n r : Bool) : (s.complete e n r).ams = s.ams := rfl
@[simp] theorem State.complete_ncand (s : State) (e : ErrCode) (n r : Bool) : (s.complete e n r).ncand = s.ncand := rfl
@[simp] theorem State.complete_resf (s : State) (e : ErrCode) (n r : Bool) : (s.complete e n r).resf = s.resf := rfl
@[simp] theorem State.complete_sc (s : State) (e : ErrCode) (n r : Bool) : (s.complete e n r).sc = s.sc := rfl
@[simp] theorem State.complete_ccmax (s : State) (e : ErrCode) (n r : Bool) : (s.complete e n r).ccmax = s.ccmax := rfl
@[simp] theorem State.complete_cctot (s : State) (e : ErrCode) (n r : Bool) : (s.complete e n r).cctot = s.cctot := rfl
@[simp] theorem State.complete_cci (s : State) (e : ErrCode) (n r : Bool) : (s.complete e n r).cci = s.cci := rfl
@[simp] theorem State.complete_ccj (s : State) (e : ErrCode) (n r : Bool) : (s.complete e n r).ccj = s.ccj := rfl
@[simp] theorem State.complete_pblen (s : State) (e : ErrCode) (n r : Bool) : (s.complete e n r).pblen = s.pblen := rfl
@[simp] theorem State.complete_f (s : State) (e : ErrCode) (n r : Bool) : (s.complete e n r).f = s.f := rfl
@[simp] theorem State.complete_t (s : State) (e : ErrCode) (n r : Bool) : (s.complete e n r).t = s.t := rfl
@[simp] theorem State.complete_fpr (s : State) (e : ErrCode) (n r : Bool) : (s.complete e n r).fpr = s.fpr := rfl
@[simp] theorem State.complete_apx (s : State) (e : ErrCode) (n r : Bool) : (s.complete e n r).apx = s.apx := rfl
@[simp] theorem State.complete_apy (s : State) (e : ErrCode) (n r : Bool) : (s.complete e n r).apy = s.apy := rfl
@[simp] theorem State.complete_aps (s : State) (e : ErrCode) (n r : Bool) : (s.complete e n r).aps = s.aps := rfl
@[simp] theorem State.complete_mem (s : State) (e : ErrCode) (n r : Bool) : (s.complete e n r).mem = s.mem := rfl
@[simp] theorem State.complete_tables (s : State) (e : ErrCode) (n r : Bool) : (s.complete e n r).tables = s.tables := rfl
@[simp] theorem State.complete_port (s : State) (e : ErrCode) (n r : Bool) : (s.complete e n r).port = s.port := rfl
@[simp] theorem State.complete_host (s : State) (e : ErrCode) (n r : Bool) : (s.complete e n r).host = s.host := rfl
@[simp] theorem State.complete_rdata (s : State) (e : ErrCode) (n r : Bool) : (s.complete e n r).rdata = s.rdata := rfl
@[simp] theorem State.complete_draws (s : State) (e : ErrCode) (n r : Bool) : (s.complete e n r).draws = s.draws := rfl

/-! The end of reset initialisation (`State.initialised`). -/

@[simp] theorem State.initialised_phase (s : State) : (s.initialised).phase = .idle := rfl
@[simp] theorem State.initialised_status (s : State) : (s.initialised).status = { s.status with busy := false } := rfl
@[simp] theorem State.initialised_ctrl (s : State) : (s.initialised).ctrl = s.ctrl := rfl
@[simp] theorem State.initialised_ga (s : State) : (s.initialised).ga = s.ga := rfl
@[simp] theorem State.initialised_gb (s : State) : (s.initialised).gb = s.gb := rfl
@[simp] theorem State.initialised_gr (s : State) : (s.initialised).gr = s.gr := rfl
@[simp] theorem State.initialised_deg (s : State) : (s.initialised).deg = s.deg := rfl
@[simp] theorem State.initialised_degr (s : State) : (s.initialised).degr = s.degr := rfl
@[simp] theorem State.initialised_twos (s : State) : (s.initialised).twos = s.twos := rfl
@[simp] theorem State.initialised_cwlen (s : State) : (s.initialised).cwlen = s.cwlen := rfl
@[simp] theorem State.initialised_nloc (s : State) : (s.initialised).nloc = s.nloc := rfl
@[simp] theorem State.initialised_dimx (s : State) : (s.initialised).dimx = s.dimx := rfl
@[simp] theorem State.initialised_dimy (s : State) : (s.initialised).dimy = s.dimy := rfl
@[simp] theorem State.initialised_dim (s : State) : (s.initialised).dim = s.dim := rfl
@[simp] theorem State.initialised_npts (s : State) : (s.initialised).npts = s.npts := rfl
@[simp] theorem State.initialised_rgx (s : State) : (s.initialised).rgx = s.rgx := rfl
@[simp] theorem State.initialised_rgy (s : State) : (s.initialised).rgy = s.rgy := rfl
@[simp] theorem State.initialised_rgw (s : State) : (s.initialised).rgw = s.rgw := rfl
@[simp] theorem State.initialised_rgh (s : State) : (s.initialised).rgh = s.rgh := rfl
@[simp] theorem State.initialised_ams (s : State) : (s.initialised).ams = s.ams := rfl
@[simp] theorem State.initialised_ncand (s : State) : (s.initialised).ncand = s.ncand := rfl
@[simp] theorem State.initialised_resf (s : State) : (s.initialised).resf = s.resf := rfl
@[simp] theorem State.initialised_sc (s : State) : (s.initialised).sc = s.sc := rfl
@[simp] theorem State.initialised_ccmax (s : State) : (s.initialised).ccmax = s.ccmax := rfl
@[simp] theorem State.initialised_cctot (s : State) : (s.initialised).cctot = s.cctot := rfl
@[simp] theorem State.initialised_cci (s : State) : (s.initialised).cci = s.cci := rfl
@[simp] theorem State.initialised_ccj (s : State) : (s.initialised).ccj = s.ccj := rfl
@[simp] theorem State.initialised_pblen (s : State) : (s.initialised).pblen = s.pblen := rfl
@[simp] theorem State.initialised_f (s : State) : (s.initialised).f = s.f := rfl
@[simp] theorem State.initialised_t (s : State) : (s.initialised).t = s.t := rfl
@[simp] theorem State.initialised_fpr (s : State) : (s.initialised).fpr = s.fpr := rfl
@[simp] theorem State.initialised_apx (s : State) : (s.initialised).apx = s.apx := rfl
@[simp] theorem State.initialised_apy (s : State) : (s.initialised).apy = s.apy := rfl
@[simp] theorem State.initialised_aps (s : State) : (s.initialised).aps = s.aps := rfl
@[simp] theorem State.initialised_mem (s : State) : (s.initialised).mem = s.mem := rfl
@[simp] theorem State.initialised_tables (s : State) : (s.initialised).tables = buildTables Config.prim := rfl
@[simp] theorem State.initialised_port (s : State) : (s.initialised).port = s.port := rfl
@[simp] theorem State.initialised_host (s : State) : (s.initialised).host = s.host := rfl
@[simp] theorem State.initialised_rdata (s : State) : (s.initialised).rdata = s.rdata := rfl
@[simp] theorem State.initialised_draws (s : State) : (s.initialised).draws = s.draws := rfl

/-! `rst` (`State.hardReset`). -/

@[simp] theorem State.hardReset_phase (s : State) : (s.hardReset).phase = State.reset.phase := rfl
@[simp] theorem State.hardReset_status (s : State) : (s.hardReset).status = State.reset.status := rfl
@[simp] theorem State.hardReset_ctrl (s : State) : (s.hardReset).ctrl = State.reset.ctrl := rfl
@[simp] theorem State.hardReset_ga (s : State) : (s.hardReset).ga = State.reset.ga := rfl
@[simp] theorem State.hardReset_gb (s : State) : (s.hardReset).gb = State.reset.gb := rfl
@[simp] theorem State.hardReset_gr (s : State) : (s.hardReset).gr = State.reset.gr := rfl
@[simp] theorem State.hardReset_deg (s : State) : (s.hardReset).deg = State.reset.deg := rfl
@[simp] theorem State.hardReset_degr (s : State) : (s.hardReset).degr = State.reset.degr := rfl
@[simp] theorem State.hardReset_twos (s : State) : (s.hardReset).twos = State.reset.twos := rfl
@[simp] theorem State.hardReset_cwlen (s : State) : (s.hardReset).cwlen = State.reset.cwlen := rfl
@[simp] theorem State.hardReset_nloc (s : State) : (s.hardReset).nloc = State.reset.nloc := rfl
@[simp] theorem State.hardReset_dimx (s : State) : (s.hardReset).dimx = State.reset.dimx := rfl
@[simp] theorem State.hardReset_dimy (s : State) : (s.hardReset).dimy = State.reset.dimy := rfl
@[simp] theorem State.hardReset_dim (s : State) : (s.hardReset).dim = State.reset.dim := rfl
@[simp] theorem State.hardReset_npts (s : State) : (s.hardReset).npts = State.reset.npts := rfl
@[simp] theorem State.hardReset_rgx (s : State) : (s.hardReset).rgx = State.reset.rgx := rfl
@[simp] theorem State.hardReset_rgy (s : State) : (s.hardReset).rgy = State.reset.rgy := rfl
@[simp] theorem State.hardReset_rgw (s : State) : (s.hardReset).rgw = State.reset.rgw := rfl
@[simp] theorem State.hardReset_rgh (s : State) : (s.hardReset).rgh = State.reset.rgh := rfl
@[simp] theorem State.hardReset_ams (s : State) : (s.hardReset).ams = State.reset.ams := rfl
@[simp] theorem State.hardReset_ncand (s : State) : (s.hardReset).ncand = State.reset.ncand := rfl
@[simp] theorem State.hardReset_resf (s : State) : (s.hardReset).resf = State.reset.resf := rfl
@[simp] theorem State.hardReset_sc (s : State) : (s.hardReset).sc = State.reset.sc := rfl
@[simp] theorem State.hardReset_ccmax (s : State) : (s.hardReset).ccmax = State.reset.ccmax := rfl
@[simp] theorem State.hardReset_cctot (s : State) : (s.hardReset).cctot = State.reset.cctot := rfl
@[simp] theorem State.hardReset_cci (s : State) : (s.hardReset).cci = State.reset.cci := rfl
@[simp] theorem State.hardReset_ccj (s : State) : (s.hardReset).ccj = State.reset.ccj := rfl
@[simp] theorem State.hardReset_pblen (s : State) : (s.hardReset).pblen = State.reset.pblen := rfl
@[simp] theorem State.hardReset_f (s : State) : (s.hardReset).f = State.reset.f := rfl
@[simp] theorem State.hardReset_t (s : State) : (s.hardReset).t = State.reset.t := rfl
@[simp] theorem State.hardReset_fpr (s : State) : (s.hardReset).fpr = State.reset.fpr := rfl
@[simp] theorem State.hardReset_apx (s : State) : (s.hardReset).apx = State.reset.apx := rfl
@[simp] theorem State.hardReset_apy (s : State) : (s.hardReset).apy = State.reset.apy := rfl
@[simp] theorem State.hardReset_aps (s : State) : (s.hardReset).aps = State.reset.aps := rfl
@[simp] theorem State.hardReset_mem (s : State) : (s.hardReset).mem = State.reset.mem := rfl
@[simp] theorem State.hardReset_tables (s : State) : (s.hardReset).tables = State.reset.tables := rfl
@[simp] theorem State.hardReset_port (s : State) : (s.hardReset).port = s.port := rfl
@[simp] theorem State.hardReset_host (s : State) : (s.hardReset).host = s.host := rfl
@[simp] theorem State.hardReset_rdata (s : State) : (s.hardReset).rdata = s.rdata := rfl
@[simp] theorem State.hardReset_draws (s : State) : (s.hardReset).draws = s.draws := rfl

/-! The state SRESET writes (`softReset`). -/

@[simp] theorem softReset_phase (s : State) : (softReset s).phase = s.phase := rfl
@[simp] theorem softReset_status (s : State) : (softReset s).status = { s.status with cmdovr := false, wrbusy := false } := rfl
@[simp] theorem softReset_ctrl (s : State) : (softReset s).ctrl = State.reset.ctrl := rfl
@[simp] theorem softReset_ga (s : State) : (softReset s).ga = State.reset.ga := rfl
@[simp] theorem softReset_gb (s : State) : (softReset s).gb = State.reset.gb := rfl
@[simp] theorem softReset_gr (s : State) : (softReset s).gr = State.reset.gr := rfl
@[simp] theorem softReset_deg (s : State) : (softReset s).deg = State.reset.deg := rfl
@[simp] theorem softReset_degr (s : State) : (softReset s).degr = State.reset.degr := rfl
@[simp] theorem softReset_twos (s : State) : (softReset s).twos = State.reset.twos := rfl
@[simp] theorem softReset_cwlen (s : State) : (softReset s).cwlen = State.reset.cwlen := rfl
@[simp] theorem softReset_nloc (s : State) : (softReset s).nloc = State.reset.nloc := rfl
@[simp] theorem softReset_dimx (s : State) : (softReset s).dimx = State.reset.dimx := rfl
@[simp] theorem softReset_dimy (s : State) : (softReset s).dimy = State.reset.dimy := rfl
@[simp] theorem softReset_dim (s : State) : (softReset s).dim = State.reset.dim := rfl
@[simp] theorem softReset_npts (s : State) : (softReset s).npts = State.reset.npts := rfl
@[simp] theorem softReset_rgx (s : State) : (softReset s).rgx = State.reset.rgx := rfl
@[simp] theorem softReset_rgy (s : State) : (softReset s).rgy = State.reset.rgy := rfl
@[simp] theorem softReset_rgw (s : State) : (softReset s).rgw = State.reset.rgw := rfl
@[simp] theorem softReset_rgh (s : State) : (softReset s).rgh = State.reset.rgh := rfl
@[simp] theorem softReset_ams (s : State) : (softReset s).ams = State.reset.ams := rfl
@[simp] theorem softReset_ncand (s : State) : (softReset s).ncand = State.reset.ncand := rfl
@[simp] theorem softReset_resf (s : State) : (softReset s).resf = State.reset.resf := rfl
@[simp] theorem softReset_sc (s : State) : (softReset s).sc = State.reset.sc := rfl
@[simp] theorem softReset_ccmax (s : State) : (softReset s).ccmax = State.reset.ccmax := rfl
@[simp] theorem softReset_cctot (s : State) : (softReset s).cctot = State.reset.cctot := rfl
@[simp] theorem softReset_cci (s : State) : (softReset s).cci = State.reset.cci := rfl
@[simp] theorem softReset_ccj (s : State) : (softReset s).ccj = State.reset.ccj := rfl
@[simp] theorem softReset_pblen (s : State) : (softReset s).pblen = State.reset.pblen := rfl
@[simp] theorem softReset_f (s : State) : (softReset s).f = State.reset.f := rfl
@[simp] theorem softReset_t (s : State) : (softReset s).t = State.reset.t := rfl
@[simp] theorem softReset_fpr (s : State) : (softReset s).fpr = State.reset.fpr := rfl
@[simp] theorem softReset_apx (s : State) : (softReset s).apx = State.reset.apx := rfl
@[simp] theorem softReset_apy (s : State) : (softReset s).apy = State.reset.apy := rfl
@[simp] theorem softReset_aps (s : State) : (softReset s).aps = State.reset.aps := rfl
@[simp] theorem softReset_mem (s : State) : (softReset s).mem = State.reset.mem := rfl
@[simp] theorem softReset_tables (s : State) : (softReset s).tables = buildTables Config.prim := rfl
@[simp] theorem softReset_port (s : State) : (softReset s).port = s.port := rfl
@[simp] theorem softReset_host (s : State) : (softReset s).host = s.host := rfl
@[simp] theorem softReset_rdata (s : State) : (softReset s).rdata = s.rdata := rfl
@[simp] theorem softReset_draws (s : State) : (softReset s).draws = s.draws := rfl

/-! A polynomial buffer written (`putPoly`). -/

@[simp] theorem putPoly_phase (s : State) (k : BitVec 3) (p : Poly) : (putPoly s k p).phase = s.phase := rfl
@[simp] theorem putPoly_status (s : State) (k : BitVec 3) (p : Poly) : (putPoly s k p).status = s.status := rfl
@[simp] theorem putPoly_ctrl (s : State) (k : BitVec 3) (p : Poly) : (putPoly s k p).ctrl = s.ctrl := rfl
@[simp] theorem putPoly_ga (s : State) (k : BitVec 3) (p : Poly) : (putPoly s k p).ga = s.ga := rfl
@[simp] theorem putPoly_gb (s : State) (k : BitVec 3) (p : Poly) : (putPoly s k p).gb = s.gb := rfl
@[simp] theorem putPoly_gr (s : State) (k : BitVec 3) (p : Poly) : (putPoly s k p).gr = s.gr := rfl
@[simp] theorem putPoly_deg (s : State) (k : BitVec 3) (p : Poly) : (putPoly s k p).deg = s.deg := rfl
@[simp] theorem putPoly_degr (s : State) (k : BitVec 3) (p : Poly) : (putPoly s k p).degr = s.degr := rfl
@[simp] theorem putPoly_twos (s : State) (k : BitVec 3) (p : Poly) : (putPoly s k p).twos = s.twos := rfl
@[simp] theorem putPoly_cwlen (s : State) (k : BitVec 3) (p : Poly) : (putPoly s k p).cwlen = s.cwlen := rfl
@[simp] theorem putPoly_nloc (s : State) (k : BitVec 3) (p : Poly) : (putPoly s k p).nloc = s.nloc := rfl
@[simp] theorem putPoly_dimx (s : State) (k : BitVec 3) (p : Poly) : (putPoly s k p).dimx = s.dimx := rfl
@[simp] theorem putPoly_dimy (s : State) (k : BitVec 3) (p : Poly) : (putPoly s k p).dimy = s.dimy := rfl
@[simp] theorem putPoly_dim (s : State) (k : BitVec 3) (p : Poly) : (putPoly s k p).dim = s.dim := rfl
@[simp] theorem putPoly_npts (s : State) (k : BitVec 3) (p : Poly) : (putPoly s k p).npts = s.npts := rfl
@[simp] theorem putPoly_rgx (s : State) (k : BitVec 3) (p : Poly) : (putPoly s k p).rgx = s.rgx := rfl
@[simp] theorem putPoly_rgy (s : State) (k : BitVec 3) (p : Poly) : (putPoly s k p).rgy = s.rgy := rfl
@[simp] theorem putPoly_rgw (s : State) (k : BitVec 3) (p : Poly) : (putPoly s k p).rgw = s.rgw := rfl
@[simp] theorem putPoly_rgh (s : State) (k : BitVec 3) (p : Poly) : (putPoly s k p).rgh = s.rgh := rfl
@[simp] theorem putPoly_ams (s : State) (k : BitVec 3) (p : Poly) : (putPoly s k p).ams = s.ams := rfl
@[simp] theorem putPoly_ncand (s : State) (k : BitVec 3) (p : Poly) : (putPoly s k p).ncand = s.ncand := rfl
@[simp] theorem putPoly_resf (s : State) (k : BitVec 3) (p : Poly) : (putPoly s k p).resf = s.resf := rfl
@[simp] theorem putPoly_sc (s : State) (k : BitVec 3) (p : Poly) : (putPoly s k p).sc = s.sc := rfl
@[simp] theorem putPoly_ccmax (s : State) (k : BitVec 3) (p : Poly) : (putPoly s k p).ccmax = s.ccmax := rfl
@[simp] theorem putPoly_cctot (s : State) (k : BitVec 3) (p : Poly) : (putPoly s k p).cctot = s.cctot := rfl
@[simp] theorem putPoly_cci (s : State) (k : BitVec 3) (p : Poly) : (putPoly s k p).cci = s.cci := rfl
@[simp] theorem putPoly_ccj (s : State) (k : BitVec 3) (p : Poly) : (putPoly s k p).ccj = s.ccj := rfl
@[simp] theorem putPoly_pblen (s : State) (k : BitVec 3) (p : Poly) : (putPoly s k p).pblen = s.pblen.set k.toNat (BitVec.ofNat 10 p.length) k.isLt := rfl
@[simp] theorem putPoly_f (s : State) (k : BitVec 3) (p : Poly) : (putPoly s k p).f = s.f := rfl
@[simp] theorem putPoly_t (s : State) (k : BitVec 3) (p : Poly) : (putPoly s k p).t = s.t := rfl
@[simp] theorem putPoly_fpr (s : State) (k : BitVec 3) (p : Poly) : (putPoly s k p).fpr = s.fpr := rfl
@[simp] theorem putPoly_apx (s : State) (k : BitVec 3) (p : Poly) : (putPoly s k p).apx = s.apx := rfl
@[simp] theorem putPoly_apy (s : State) (k : BitVec 3) (p : Poly) : (putPoly s k p).apy = s.apy := rfl
@[simp] theorem putPoly_aps (s : State) (k : BitVec 3) (p : Poly) : (putPoly s k p).aps = s.aps := rfl
@[simp] theorem putPoly_mem (s : State) (k : BitVec 3) (p : Poly) : (putPoly s k p).mem = writeElems s.mem (pbBase k.toNat) p := rfl
@[simp] theorem putPoly_tables (s : State) (k : BitVec 3) (p : Poly) : (putPoly s k p).tables = s.tables := rfl
@[simp] theorem putPoly_port (s : State) (k : BitVec 3) (p : Poly) : (putPoly s k p).port = s.port := rfl
@[simp] theorem putPoly_host (s : State) (k : BitVec 3) (p : Poly) : (putPoly s k p).host = s.host := rfl
@[simp] theorem putPoly_rdata (s : State) (k : BitVec 3) (p : Poly) : (putPoly s k p).rdata = s.rdata := rfl
@[simp] theorem putPoly_draws (s : State) (k : BitVec 3) (p : Poly) : (putPoly s k p).draws = s.draws := rfl

/-! A matrix register written (`putMat`). -/

@[simp] theorem putMat_phase (s : State) (k : BitVec 3) (m : Mat) : (putMat s k m).phase = s.phase := rfl
@[simp] theorem putMat_status (s : State) (k : BitVec 3) (m : Mat) : (putMat s k m).status = s.status := rfl
@[simp] theorem putMat_ctrl (s : State) (k : BitVec 3) (m : Mat) : (putMat s k m).ctrl = s.ctrl := rfl
@[simp] theorem putMat_ga (s : State) (k : BitVec 3) (m : Mat) : (putMat s k m).ga = s.ga := rfl
@[simp] theorem putMat_gb (s : State) (k : BitVec 3) (m : Mat) : (putMat s k m).gb = s.gb := rfl
@[simp] theorem putMat_gr (s : State) (k : BitVec 3) (m : Mat) : (putMat s k m).gr = s.gr := rfl
@[simp] theorem putMat_deg (s : State) (k : BitVec 3) (m : Mat) : (putMat s k m).deg = s.deg := rfl
@[simp] theorem putMat_degr (s : State) (k : BitVec 3) (m : Mat) : (putMat s k m).degr = s.degr := rfl
@[simp] theorem putMat_twos (s : State) (k : BitVec 3) (m : Mat) : (putMat s k m).twos = s.twos := rfl
@[simp] theorem putMat_cwlen (s : State) (k : BitVec 3) (m : Mat) : (putMat s k m).cwlen = s.cwlen := rfl
@[simp] theorem putMat_nloc (s : State) (k : BitVec 3) (m : Mat) : (putMat s k m).nloc = s.nloc := rfl
@[simp] theorem putMat_dimx (s : State) (k : BitVec 3) (m : Mat) : (putMat s k m).dimx = s.dimx := rfl
@[simp] theorem putMat_dimy (s : State) (k : BitVec 3) (m : Mat) : (putMat s k m).dimy = s.dimy := rfl
@[simp] theorem putMat_dim (s : State) (k : BitVec 3) (m : Mat) : (putMat s k m).dim = s.dim := rfl
@[simp] theorem putMat_npts (s : State) (k : BitVec 3) (m : Mat) : (putMat s k m).npts = s.npts := rfl
@[simp] theorem putMat_rgx (s : State) (k : BitVec 3) (m : Mat) : (putMat s k m).rgx = s.rgx := rfl
@[simp] theorem putMat_rgy (s : State) (k : BitVec 3) (m : Mat) : (putMat s k m).rgy = s.rgy := rfl
@[simp] theorem putMat_rgw (s : State) (k : BitVec 3) (m : Mat) : (putMat s k m).rgw = s.rgw := rfl
@[simp] theorem putMat_rgh (s : State) (k : BitVec 3) (m : Mat) : (putMat s k m).rgh = s.rgh := rfl
@[simp] theorem putMat_ams (s : State) (k : BitVec 3) (m : Mat) : (putMat s k m).ams = s.ams := rfl
@[simp] theorem putMat_ncand (s : State) (k : BitVec 3) (m : Mat) : (putMat s k m).ncand = s.ncand := rfl
@[simp] theorem putMat_resf (s : State) (k : BitVec 3) (m : Mat) : (putMat s k m).resf = s.resf := rfl
@[simp] theorem putMat_sc (s : State) (k : BitVec 3) (m : Mat) : (putMat s k m).sc = s.sc := rfl
@[simp] theorem putMat_ccmax (s : State) (k : BitVec 3) (m : Mat) : (putMat s k m).ccmax = s.ccmax := rfl
@[simp] theorem putMat_cctot (s : State) (k : BitVec 3) (m : Mat) : (putMat s k m).cctot = s.cctot := rfl
@[simp] theorem putMat_cci (s : State) (k : BitVec 3) (m : Mat) : (putMat s k m).cci = s.cci := rfl
@[simp] theorem putMat_ccj (s : State) (k : BitVec 3) (m : Mat) : (putMat s k m).ccj = s.ccj := rfl
@[simp] theorem putMat_pblen (s : State) (k : BitVec 3) (m : Mat) : (putMat s k m).pblen = s.pblen := rfl
@[simp] theorem putMat_f (s : State) (k : BitVec 3) (m : Mat) : (putMat s k m).f = s.f := rfl
@[simp] theorem putMat_t (s : State) (k : BitVec 3) (m : Mat) : (putMat s k m).t = s.t.setIfInBounds k.toNat m := rfl
@[simp] theorem putMat_fpr (s : State) (k : BitVec 3) (m : Mat) : (putMat s k m).fpr = s.fpr := rfl
@[simp] theorem putMat_apx (s : State) (k : BitVec 3) (m : Mat) : (putMat s k m).apx = s.apx := rfl
@[simp] theorem putMat_apy (s : State) (k : BitVec 3) (m : Mat) : (putMat s k m).apy = s.apy := rfl
@[simp] theorem putMat_aps (s : State) (k : BitVec 3) (m : Mat) : (putMat s k m).aps = s.aps := rfl
@[simp] theorem putMat_mem (s : State) (k : BitVec 3) (m : Mat) : (putMat s k m).mem = s.mem := rfl
@[simp] theorem putMat_tables (s : State) (k : BitVec 3) (m : Mat) : (putMat s k m).tables = s.tables := rfl
@[simp] theorem putMat_port (s : State) (k : BitVec 3) (m : Mat) : (putMat s k m).port = s.port := rfl
@[simp] theorem putMat_host (s : State) (k : BitVec 3) (m : Mat) : (putMat s k m).host = s.host := rfl
@[simp] theorem putMat_rdata (s : State) (k : BitVec 3) (m : Mat) : (putMat s k m).rdata = s.rdata := rfl
@[simp] theorem putMat_draws (s : State) (k : BitVec 3) (m : Mat) : (putMat s k m).draws = s.draws := rfl

/-! LOC, NLOC and DEGR written (`putLocations`). -/

@[simp] theorem putLocations_phase (s : State) (l : List Byte) : (putLocations s l).phase = s.phase := rfl
@[simp] theorem putLocations_status (s : State) (l : List Byte) : (putLocations s l).status = s.status := rfl
@[simp] theorem putLocations_ctrl (s : State) (l : List Byte) : (putLocations s l).ctrl = s.ctrl := rfl
@[simp] theorem putLocations_ga (s : State) (l : List Byte) : (putLocations s l).ga = s.ga := rfl
@[simp] theorem putLocations_gb (s : State) (l : List Byte) : (putLocations s l).gb = s.gb := rfl
@[simp] theorem putLocations_gr (s : State) (l : List Byte) : (putLocations s l).gr = s.gr := rfl
@[simp] theorem putLocations_deg (s : State) (l : List Byte) : (putLocations s l).deg = s.deg := rfl
@[simp] theorem putLocations_degr (s : State) (l : List Byte) : (putLocations s l).degr = BitVec.ofNat 16 l.length := rfl
@[simp] theorem putLocations_twos (s : State) (l : List Byte) : (putLocations s l).twos = s.twos := rfl
@[simp] theorem putLocations_cwlen (s : State) (l : List Byte) : (putLocations s l).cwlen = s.cwlen := rfl
@[simp] theorem putLocations_nloc (s : State) (l : List Byte) : (putLocations s l).nloc = BitVec.ofNat 9 l.length := rfl
@[simp] theorem putLocations_dimx (s : State) (l : List Byte) : (putLocations s l).dimx = s.dimx := rfl
@[simp] theorem putLocations_dimy (s : State) (l : List Byte) : (putLocations s l).dimy = s.dimy := rfl
@[simp] theorem putLocations_dim (s : State) (l : List Byte) : (putLocations s l).dim = s.dim := rfl
@[simp] theorem putLocations_npts (s : State) (l : List Byte) : (putLocations s l).npts = s.npts := rfl
@[simp] theorem putLocations_rgx (s : State) (l : List Byte) : (putLocations s l).rgx = s.rgx := rfl
@[simp] theorem putLocations_rgy (s : State) (l : List Byte) : (putLocations s l).rgy = s.rgy := rfl
@[simp] theorem putLocations_rgw (s : State) (l : List Byte) : (putLocations s l).rgw = s.rgw := rfl
@[simp] theorem putLocations_rgh (s : State) (l : List Byte) : (putLocations s l).rgh = s.rgh := rfl
@[simp] theorem putLocations_ams (s : State) (l : List Byte) : (putLocations s l).ams = s.ams := rfl
@[simp] theorem putLocations_ncand (s : State) (l : List Byte) : (putLocations s l).ncand = s.ncand := rfl
@[simp] theorem putLocations_resf (s : State) (l : List Byte) : (putLocations s l).resf = s.resf := rfl
@[simp] theorem putLocations_sc (s : State) (l : List Byte) : (putLocations s l).sc = s.sc := rfl
@[simp] theorem putLocations_ccmax (s : State) (l : List Byte) : (putLocations s l).ccmax = s.ccmax := rfl
@[simp] theorem putLocations_cctot (s : State) (l : List Byte) : (putLocations s l).cctot = s.cctot := rfl
@[simp] theorem putLocations_cci (s : State) (l : List Byte) : (putLocations s l).cci = s.cci := rfl
@[simp] theorem putLocations_ccj (s : State) (l : List Byte) : (putLocations s l).ccj = s.ccj := rfl
@[simp] theorem putLocations_pblen (s : State) (l : List Byte) : (putLocations s l).pblen = s.pblen := rfl
@[simp] theorem putLocations_f (s : State) (l : List Byte) : (putLocations s l).f = s.f := rfl
@[simp] theorem putLocations_t (s : State) (l : List Byte) : (putLocations s l).t = s.t := rfl
@[simp] theorem putLocations_fpr (s : State) (l : List Byte) : (putLocations s l).fpr = s.fpr := rfl
@[simp] theorem putLocations_apx (s : State) (l : List Byte) : (putLocations s l).apx = s.apx := rfl
@[simp] theorem putLocations_apy (s : State) (l : List Byte) : (putLocations s l).apy = s.apy := rfl
@[simp] theorem putLocations_aps (s : State) (l : List Byte) : (putLocations s l).aps = s.aps := rfl
@[simp] theorem putLocations_mem (s : State) (l : List Byte) : (putLocations s l).mem = writeElems s.mem locBase l := rfl
@[simp] theorem putLocations_tables (s : State) (l : List Byte) : (putLocations s l).tables = s.tables := rfl
@[simp] theorem putLocations_port (s : State) (l : List Byte) : (putLocations s l).port = s.port := rfl
@[simp] theorem putLocations_host (s : State) (l : List Byte) : (putLocations s l).host = s.host := rfl
@[simp] theorem putLocations_rdata (s : State) (l : List Byte) : (putLocations s l).rdata = s.rdata := rfl
@[simp] theorem putLocations_draws (s : State) (l : List Byte) : (putLocations s l).draws = s.draws := rfl

/-! The results of RSDEC written (`putDecoded`). -/

@[simp] theorem putDecoded_phase (s : State) (l g : List Byte) (ps : List Nat) : (putDecoded s l g ps).phase = s.phase := rfl
@[simp] theorem putDecoded_status (s : State) (l g : List Byte) (ps : List Nat) : (putDecoded s l g ps).status = s.status := rfl
@[simp] theorem putDecoded_ctrl (s : State) (l g : List Byte) (ps : List Nat) : (putDecoded s l g ps).ctrl = s.ctrl := rfl
@[simp] theorem putDecoded_ga (s : State) (l g : List Byte) (ps : List Nat) : (putDecoded s l g ps).ga = s.ga := rfl
@[simp] theorem putDecoded_gb (s : State) (l g : List Byte) (ps : List Nat) : (putDecoded s l g ps).gb = s.gb := rfl
@[simp] theorem putDecoded_gr (s : State) (l g : List Byte) (ps : List Nat) : (putDecoded s l g ps).gr = s.gr := rfl
@[simp] theorem putDecoded_deg (s : State) (l g : List Byte) (ps : List Nat) : (putDecoded s l g ps).deg = s.deg := rfl
@[simp] theorem putDecoded_degr (s : State) (l g : List Byte) (ps : List Nat) : (putDecoded s l g ps).degr = BitVec.ofNat 16 l.length := rfl
@[simp] theorem putDecoded_twos (s : State) (l g : List Byte) (ps : List Nat) : (putDecoded s l g ps).twos = s.twos := rfl
@[simp] theorem putDecoded_cwlen (s : State) (l g : List Byte) (ps : List Nat) : (putDecoded s l g ps).cwlen = s.cwlen := rfl
@[simp] theorem putDecoded_nloc (s : State) (l g : List Byte) (ps : List Nat) : (putDecoded s l g ps).nloc = BitVec.ofNat 9 l.length := rfl
@[simp] theorem putDecoded_dimx (s : State) (l g : List Byte) (ps : List Nat) : (putDecoded s l g ps).dimx = s.dimx := rfl
@[simp] theorem putDecoded_dimy (s : State) (l g : List Byte) (ps : List Nat) : (putDecoded s l g ps).dimy = s.dimy := rfl
@[simp] theorem putDecoded_dim (s : State) (l g : List Byte) (ps : List Nat) : (putDecoded s l g ps).dim = s.dim := rfl
@[simp] theorem putDecoded_npts (s : State) (l g : List Byte) (ps : List Nat) : (putDecoded s l g ps).npts = s.npts := rfl
@[simp] theorem putDecoded_rgx (s : State) (l g : List Byte) (ps : List Nat) : (putDecoded s l g ps).rgx = s.rgx := rfl
@[simp] theorem putDecoded_rgy (s : State) (l g : List Byte) (ps : List Nat) : (putDecoded s l g ps).rgy = s.rgy := rfl
@[simp] theorem putDecoded_rgw (s : State) (l g : List Byte) (ps : List Nat) : (putDecoded s l g ps).rgw = s.rgw := rfl
@[simp] theorem putDecoded_rgh (s : State) (l g : List Byte) (ps : List Nat) : (putDecoded s l g ps).rgh = s.rgh := rfl
@[simp] theorem putDecoded_ams (s : State) (l g : List Byte) (ps : List Nat) : (putDecoded s l g ps).ams = s.ams := rfl
@[simp] theorem putDecoded_ncand (s : State) (l g : List Byte) (ps : List Nat) : (putDecoded s l g ps).ncand = s.ncand := rfl
@[simp] theorem putDecoded_resf (s : State) (l g : List Byte) (ps : List Nat) : (putDecoded s l g ps).resf = s.resf := rfl
@[simp] theorem putDecoded_sc (s : State) (l g : List Byte) (ps : List Nat) : (putDecoded s l g ps).sc = s.sc := rfl
@[simp] theorem putDecoded_ccmax (s : State) (l g : List Byte) (ps : List Nat) : (putDecoded s l g ps).ccmax = s.ccmax := rfl
@[simp] theorem putDecoded_cctot (s : State) (l g : List Byte) (ps : List Nat) : (putDecoded s l g ps).cctot = s.cctot := rfl
@[simp] theorem putDecoded_cci (s : State) (l g : List Byte) (ps : List Nat) : (putDecoded s l g ps).cci = s.cci := rfl
@[simp] theorem putDecoded_ccj (s : State) (l g : List Byte) (ps : List Nat) : (putDecoded s l g ps).ccj = s.ccj := rfl
@[simp] theorem putDecoded_pblen (s : State) (l g : List Byte) (ps : List Nat) : (putDecoded s l g ps).pblen = s.pblen := rfl
@[simp] theorem putDecoded_f (s : State) (l g : List Byte) (ps : List Nat) : (putDecoded s l g ps).f = s.f := rfl
@[simp] theorem putDecoded_t (s : State) (l g : List Byte) (ps : List Nat) : (putDecoded s l g ps).t = s.t := rfl
@[simp] theorem putDecoded_fpr (s : State) (l g : List Byte) (ps : List Nat) : (putDecoded s l g ps).fpr = s.fpr := rfl
@[simp] theorem putDecoded_apx (s : State) (l g : List Byte) (ps : List Nat) : (putDecoded s l g ps).apx = s.apx := rfl
@[simp] theorem putDecoded_apy (s : State) (l g : List Byte) (ps : List Nat) : (putDecoded s l g ps).apy = s.apy := rfl
@[simp] theorem putDecoded_aps (s : State) (l g : List Byte) (ps : List Nat) : (putDecoded s l g ps).aps = s.aps := rfl
@[simp] theorem putDecoded_mem (s : State) (l g : List Byte) (ps : List Nat) : (putDecoded s l g ps).mem = applyFixes (writeElems (writeElems s.mem locBase l) magBase g) (ps.zip g) := rfl
@[simp] theorem putDecoded_tables (s : State) (l g : List Byte) (ps : List Nat) : (putDecoded s l g ps).tables = s.tables := rfl
@[simp] theorem putDecoded_port (s : State) (l g : List Byte) (ps : List Nat) : (putDecoded s l g ps).port = s.port := rfl
@[simp] theorem putDecoded_host (s : State) (l g : List Byte) (ps : List Nat) : (putDecoded s l g ps).host = s.host := rfl
@[simp] theorem putDecoded_rdata (s : State) (l g : List Byte) (ps : List Nat) : (putDecoded s l g ps).rdata = s.rdata := rfl
@[simp] theorem putDecoded_draws (s : State) (l g : List Byte) (ps : List Nat) : (putDecoded s l g ps).draws = s.draws := rfl

/-! CAND and NCAND written (`putCandidates`). -/

@[simp] theorem putCandidates_phase (s : State) (l : List Pattern) : (putCandidates s l).phase = s.phase := rfl
@[simp] theorem putCandidates_status (s : State) (l : List Pattern) : (putCandidates s l).status = s.status := rfl
@[simp] theorem putCandidates_ctrl (s : State) (l : List Pattern) : (putCandidates s l).ctrl = s.ctrl := rfl
@[simp] theorem putCandidates_ga (s : State) (l : List Pattern) : (putCandidates s l).ga = s.ga := rfl
@[simp] theorem putCandidates_gb (s : State) (l : List Pattern) : (putCandidates s l).gb = s.gb := rfl
@[simp] theorem putCandidates_gr (s : State) (l : List Pattern) : (putCandidates s l).gr = s.gr := rfl
@[simp] theorem putCandidates_deg (s : State) (l : List Pattern) : (putCandidates s l).deg = s.deg := rfl
@[simp] theorem putCandidates_degr (s : State) (l : List Pattern) : (putCandidates s l).degr = s.degr := rfl
@[simp] theorem putCandidates_twos (s : State) (l : List Pattern) : (putCandidates s l).twos = s.twos := rfl
@[simp] theorem putCandidates_cwlen (s : State) (l : List Pattern) : (putCandidates s l).cwlen = s.cwlen := rfl
@[simp] theorem putCandidates_nloc (s : State) (l : List Pattern) : (putCandidates s l).nloc = s.nloc := rfl
@[simp] theorem putCandidates_dimx (s : State) (l : List Pattern) : (putCandidates s l).dimx = s.dimx := rfl
@[simp] theorem putCandidates_dimy (s : State) (l : List Pattern) : (putCandidates s l).dimy = s.dimy := rfl
@[simp] theorem putCandidates_dim (s : State) (l : List Pattern) : (putCandidates s l).dim = s.dim := rfl
@[simp] theorem putCandidates_npts (s : State) (l : List Pattern) : (putCandidates s l).npts = s.npts := rfl
@[simp] theorem putCandidates_rgx (s : State) (l : List Pattern) : (putCandidates s l).rgx = s.rgx := rfl
@[simp] theorem putCandidates_rgy (s : State) (l : List Pattern) : (putCandidates s l).rgy = s.rgy := rfl
@[simp] theorem putCandidates_rgw (s : State) (l : List Pattern) : (putCandidates s l).rgw = s.rgw := rfl
@[simp] theorem putCandidates_rgh (s : State) (l : List Pattern) : (putCandidates s l).rgh = s.rgh := rfl
@[simp] theorem putCandidates_ams (s : State) (l : List Pattern) : (putCandidates s l).ams = s.ams := rfl
@[simp] theorem putCandidates_ncand (s : State) (l : List Pattern) : (putCandidates s l).ncand = BitVec.ofNat 16 l.length := rfl
@[simp] theorem putCandidates_resf (s : State) (l : List Pattern) : (putCandidates s l).resf = s.resf := rfl
@[simp] theorem putCandidates_sc (s : State) (l : List Pattern) : (putCandidates s l).sc = s.sc := rfl
@[simp] theorem putCandidates_ccmax (s : State) (l : List Pattern) : (putCandidates s l).ccmax = s.ccmax := rfl
@[simp] theorem putCandidates_cctot (s : State) (l : List Pattern) : (putCandidates s l).cctot = s.cctot := rfl
@[simp] theorem putCandidates_cci (s : State) (l : List Pattern) : (putCandidates s l).cci = s.cci := rfl
@[simp] theorem putCandidates_ccj (s : State) (l : List Pattern) : (putCandidates s l).ccj = s.ccj := rfl
@[simp] theorem putCandidates_pblen (s : State) (l : List Pattern) : (putCandidates s l).pblen = s.pblen := rfl
@[simp] theorem putCandidates_f (s : State) (l : List Pattern) : (putCandidates s l).f = s.f := rfl
@[simp] theorem putCandidates_t (s : State) (l : List Pattern) : (putCandidates s l).t = s.t := rfl
@[simp] theorem putCandidates_fpr (s : State) (l : List Pattern) : (putCandidates s l).fpr = s.fpr := rfl
@[simp] theorem putCandidates_apx (s : State) (l : List Pattern) : (putCandidates s l).apx = s.apx := rfl
@[simp] theorem putCandidates_apy (s : State) (l : List Pattern) : (putCandidates s l).apy = s.apy := rfl
@[simp] theorem putCandidates_aps (s : State) (l : List Pattern) : (putCandidates s l).aps = s.aps := rfl
@[simp] theorem putCandidates_mem (s : State) (l : List Pattern) : (putCandidates s l).mem = writeWords s.mem candBase (l.flatMap candidateWords) := rfl
@[simp] theorem putCandidates_tables (s : State) (l : List Pattern) : (putCandidates s l).tables = s.tables := rfl
@[simp] theorem putCandidates_port (s : State) (l : List Pattern) : (putCandidates s l).port = s.port := rfl
@[simp] theorem putCandidates_host (s : State) (l : List Pattern) : (putCandidates s l).host = s.host := rfl
@[simp] theorem putCandidates_rdata (s : State) (l : List Pattern) : (putCandidates s l).rdata = s.rdata := rfl
@[simp] theorem putCandidates_draws (s : State) (l : List Pattern) : (putCandidates s l).draws = s.draws := rfl

/-! FPR0 to FPR2 written (`putFinders`). -/

@[simp] theorem putFinders_phase (s : State) (o : Pattern × Pattern × Pattern) : (putFinders s o).phase = s.phase := rfl
@[simp] theorem putFinders_status (s : State) (o : Pattern × Pattern × Pattern) : (putFinders s o).status = s.status := rfl
@[simp] theorem putFinders_ctrl (s : State) (o : Pattern × Pattern × Pattern) : (putFinders s o).ctrl = s.ctrl := rfl
@[simp] theorem putFinders_ga (s : State) (o : Pattern × Pattern × Pattern) : (putFinders s o).ga = s.ga := rfl
@[simp] theorem putFinders_gb (s : State) (o : Pattern × Pattern × Pattern) : (putFinders s o).gb = s.gb := rfl
@[simp] theorem putFinders_gr (s : State) (o : Pattern × Pattern × Pattern) : (putFinders s o).gr = s.gr := rfl
@[simp] theorem putFinders_deg (s : State) (o : Pattern × Pattern × Pattern) : (putFinders s o).deg = s.deg := rfl
@[simp] theorem putFinders_degr (s : State) (o : Pattern × Pattern × Pattern) : (putFinders s o).degr = s.degr := rfl
@[simp] theorem putFinders_twos (s : State) (o : Pattern × Pattern × Pattern) : (putFinders s o).twos = s.twos := rfl
@[simp] theorem putFinders_cwlen (s : State) (o : Pattern × Pattern × Pattern) : (putFinders s o).cwlen = s.cwlen := rfl
@[simp] theorem putFinders_nloc (s : State) (o : Pattern × Pattern × Pattern) : (putFinders s o).nloc = s.nloc := rfl
@[simp] theorem putFinders_dimx (s : State) (o : Pattern × Pattern × Pattern) : (putFinders s o).dimx = s.dimx := rfl
@[simp] theorem putFinders_dimy (s : State) (o : Pattern × Pattern × Pattern) : (putFinders s o).dimy = s.dimy := rfl
@[simp] theorem putFinders_dim (s : State) (o : Pattern × Pattern × Pattern) : (putFinders s o).dim = s.dim := rfl
@[simp] theorem putFinders_npts (s : State) (o : Pattern × Pattern × Pattern) : (putFinders s o).npts = s.npts := rfl
@[simp] theorem putFinders_rgx (s : State) (o : Pattern × Pattern × Pattern) : (putFinders s o).rgx = s.rgx := rfl
@[simp] theorem putFinders_rgy (s : State) (o : Pattern × Pattern × Pattern) : (putFinders s o).rgy = s.rgy := rfl
@[simp] theorem putFinders_rgw (s : State) (o : Pattern × Pattern × Pattern) : (putFinders s o).rgw = s.rgw := rfl
@[simp] theorem putFinders_rgh (s : State) (o : Pattern × Pattern × Pattern) : (putFinders s o).rgh = s.rgh := rfl
@[simp] theorem putFinders_ams (s : State) (o : Pattern × Pattern × Pattern) : (putFinders s o).ams = s.ams := rfl
@[simp] theorem putFinders_ncand (s : State) (o : Pattern × Pattern × Pattern) : (putFinders s o).ncand = s.ncand := rfl
@[simp] theorem putFinders_resf (s : State) (o : Pattern × Pattern × Pattern) : (putFinders s o).resf = s.resf := rfl
@[simp] theorem putFinders_sc (s : State) (o : Pattern × Pattern × Pattern) : (putFinders s o).sc = s.sc := rfl
@[simp] theorem putFinders_ccmax (s : State) (o : Pattern × Pattern × Pattern) : (putFinders s o).ccmax = s.ccmax := rfl
@[simp] theorem putFinders_cctot (s : State) (o : Pattern × Pattern × Pattern) : (putFinders s o).cctot = s.cctot := rfl
@[simp] theorem putFinders_cci (s : State) (o : Pattern × Pattern × Pattern) : (putFinders s o).cci = s.cci := rfl
@[simp] theorem putFinders_ccj (s : State) (o : Pattern × Pattern × Pattern) : (putFinders s o).ccj = s.ccj := rfl
@[simp] theorem putFinders_pblen (s : State) (o : Pattern × Pattern × Pattern) : (putFinders s o).pblen = s.pblen := rfl
@[simp] theorem putFinders_f (s : State) (o : Pattern × Pattern × Pattern) : (putFinders s o).f = s.f := rfl
@[simp] theorem putFinders_t (s : State) (o : Pattern × Pattern × Pattern) : (putFinders s o).t = s.t := rfl
@[simp] theorem putFinders_fpr (s : State) (o : Pattern × Pattern × Pattern) : (putFinders s o).fpr = #v[o.1, o.2.1, o.2.2] := rfl
@[simp] theorem putFinders_apx (s : State) (o : Pattern × Pattern × Pattern) : (putFinders s o).apx = s.apx := rfl
@[simp] theorem putFinders_apy (s : State) (o : Pattern × Pattern × Pattern) : (putFinders s o).apy = s.apy := rfl
@[simp] theorem putFinders_aps (s : State) (o : Pattern × Pattern × Pattern) : (putFinders s o).aps = s.aps := rfl
@[simp] theorem putFinders_mem (s : State) (o : Pattern × Pattern × Pattern) : (putFinders s o).mem = s.mem := rfl
@[simp] theorem putFinders_tables (s : State) (o : Pattern × Pattern × Pattern) : (putFinders s o).tables = s.tables := rfl
@[simp] theorem putFinders_port (s : State) (o : Pattern × Pattern × Pattern) : (putFinders s o).port = s.port := rfl
@[simp] theorem putFinders_host (s : State) (o : Pattern × Pattern × Pattern) : (putFinders s o).host = s.host := rfl
@[simp] theorem putFinders_rdata (s : State) (o : Pattern × Pattern × Pattern) : (putFinders s o).rdata = s.rdata := rfl
@[simp] theorem putFinders_draws (s : State) (o : Pattern × Pattern × Pattern) : (putFinders s o).draws = s.draws := rfl

/-! APX, APY and APS written (`putAlignment`). -/

@[simp] theorem putAlignment_phase (s : State) (p : Alignment) : (putAlignment s p).phase = s.phase := rfl
@[simp] theorem putAlignment_status (s : State) (p : Alignment) : (putAlignment s p).status = s.status := rfl
@[simp] theorem putAlignment_ctrl (s : State) (p : Alignment) : (putAlignment s p).ctrl = s.ctrl := rfl
@[simp] theorem putAlignment_ga (s : State) (p : Alignment) : (putAlignment s p).ga = s.ga := rfl
@[simp] theorem putAlignment_gb (s : State) (p : Alignment) : (putAlignment s p).gb = s.gb := rfl
@[simp] theorem putAlignment_gr (s : State) (p : Alignment) : (putAlignment s p).gr = s.gr := rfl
@[simp] theorem putAlignment_deg (s : State) (p : Alignment) : (putAlignment s p).deg = s.deg := rfl
@[simp] theorem putAlignment_degr (s : State) (p : Alignment) : (putAlignment s p).degr = s.degr := rfl
@[simp] theorem putAlignment_twos (s : State) (p : Alignment) : (putAlignment s p).twos = s.twos := rfl
@[simp] theorem putAlignment_cwlen (s : State) (p : Alignment) : (putAlignment s p).cwlen = s.cwlen := rfl
@[simp] theorem putAlignment_nloc (s : State) (p : Alignment) : (putAlignment s p).nloc = s.nloc := rfl
@[simp] theorem putAlignment_dimx (s : State) (p : Alignment) : (putAlignment s p).dimx = s.dimx := rfl
@[simp] theorem putAlignment_dimy (s : State) (p : Alignment) : (putAlignment s p).dimy = s.dimy := rfl
@[simp] theorem putAlignment_dim (s : State) (p : Alignment) : (putAlignment s p).dim = s.dim := rfl
@[simp] theorem putAlignment_npts (s : State) (p : Alignment) : (putAlignment s p).npts = s.npts := rfl
@[simp] theorem putAlignment_rgx (s : State) (p : Alignment) : (putAlignment s p).rgx = s.rgx := rfl
@[simp] theorem putAlignment_rgy (s : State) (p : Alignment) : (putAlignment s p).rgy = s.rgy := rfl
@[simp] theorem putAlignment_rgw (s : State) (p : Alignment) : (putAlignment s p).rgw = s.rgw := rfl
@[simp] theorem putAlignment_rgh (s : State) (p : Alignment) : (putAlignment s p).rgh = s.rgh := rfl
@[simp] theorem putAlignment_ams (s : State) (p : Alignment) : (putAlignment s p).ams = s.ams := rfl
@[simp] theorem putAlignment_ncand (s : State) (p : Alignment) : (putAlignment s p).ncand = s.ncand := rfl
@[simp] theorem putAlignment_resf (s : State) (p : Alignment) : (putAlignment s p).resf = s.resf := rfl
@[simp] theorem putAlignment_sc (s : State) (p : Alignment) : (putAlignment s p).sc = s.sc := rfl
@[simp] theorem putAlignment_ccmax (s : State) (p : Alignment) : (putAlignment s p).ccmax = s.ccmax := rfl
@[simp] theorem putAlignment_cctot (s : State) (p : Alignment) : (putAlignment s p).cctot = s.cctot := rfl
@[simp] theorem putAlignment_cci (s : State) (p : Alignment) : (putAlignment s p).cci = s.cci := rfl
@[simp] theorem putAlignment_ccj (s : State) (p : Alignment) : (putAlignment s p).ccj = s.ccj := rfl
@[simp] theorem putAlignment_pblen (s : State) (p : Alignment) : (putAlignment s p).pblen = s.pblen := rfl
@[simp] theorem putAlignment_f (s : State) (p : Alignment) : (putAlignment s p).f = s.f := rfl
@[simp] theorem putAlignment_t (s : State) (p : Alignment) : (putAlignment s p).t = s.t := rfl
@[simp] theorem putAlignment_fpr (s : State) (p : Alignment) : (putAlignment s p).fpr = s.fpr := rfl
@[simp] theorem putAlignment_apx (s : State) (p : Alignment) : (putAlignment s p).apx = p.x := rfl
@[simp] theorem putAlignment_apy (s : State) (p : Alignment) : (putAlignment s p).apy = p.y := rfl
@[simp] theorem putAlignment_aps (s : State) (p : Alignment) : (putAlignment s p).aps = p.size := rfl
@[simp] theorem putAlignment_mem (s : State) (p : Alignment) : (putAlignment s p).mem = s.mem := rfl
@[simp] theorem putAlignment_tables (s : State) (p : Alignment) : (putAlignment s p).tables = s.tables := rfl
@[simp] theorem putAlignment_port (s : State) (p : Alignment) : (putAlignment s p).port = s.port := rfl
@[simp] theorem putAlignment_host (s : State) (p : Alignment) : (putAlignment s p).host = s.host := rfl
@[simp] theorem putAlignment_rdata (s : State) (p : Alignment) : (putAlignment s p).rdata = s.rdata := rfl
@[simp] theorem putAlignment_draws (s : State) (p : Alignment) : (putAlignment s p).draws = s.draws := rfl

/-! The completed state of the claims (`State.ended`, and `State.done` and `State.failed` over it). -/

@[simp] theorem State.done_eq (s : State) : s.done = s.ended .ok false false := rfl

@[simp] theorem State.failed_eq (s : State) (e : ErrCode) : s.failed e = s.ended e false false := rfl

@[simp] theorem State.ended_phase (s : State) (e : ErrCode) (n r : Bool) : (s.ended e n r).phase = .idle := rfl
@[simp] theorem State.ended_status (s : State) (e : ErrCode) (n r : Bool) : (s.ended e n r).status = ⟨false, true, s.status.cmdovr, s.status.wrbusy, e, n, r⟩ := rfl
@[simp] theorem State.ended_ctrl (s : State) (e : ErrCode) (n r : Bool) : (s.ended e n r).ctrl = s.ctrl := rfl
@[simp] theorem State.ended_ga (s : State) (e : ErrCode) (n r : Bool) : (s.ended e n r).ga = s.ga := rfl
@[simp] theorem State.ended_gb (s : State) (e : ErrCode) (n r : Bool) : (s.ended e n r).gb = s.gb := rfl
@[simp] theorem State.ended_gr (s : State) (e : ErrCode) (n r : Bool) : (s.ended e n r).gr = s.gr := rfl
@[simp] theorem State.ended_deg (s : State) (e : ErrCode) (n r : Bool) : (s.ended e n r).deg = s.deg := rfl
@[simp] theorem State.ended_degr (s : State) (e : ErrCode) (n r : Bool) : (s.ended e n r).degr = s.degr := rfl
@[simp] theorem State.ended_twos (s : State) (e : ErrCode) (n r : Bool) : (s.ended e n r).twos = s.twos := rfl
@[simp] theorem State.ended_cwlen (s : State) (e : ErrCode) (n r : Bool) : (s.ended e n r).cwlen = s.cwlen := rfl
@[simp] theorem State.ended_nloc (s : State) (e : ErrCode) (n r : Bool) : (s.ended e n r).nloc = s.nloc := rfl
@[simp] theorem State.ended_dimx (s : State) (e : ErrCode) (n r : Bool) : (s.ended e n r).dimx = s.dimx := rfl
@[simp] theorem State.ended_dimy (s : State) (e : ErrCode) (n r : Bool) : (s.ended e n r).dimy = s.dimy := rfl
@[simp] theorem State.ended_dim (s : State) (e : ErrCode) (n r : Bool) : (s.ended e n r).dim = s.dim := rfl
@[simp] theorem State.ended_npts (s : State) (e : ErrCode) (n r : Bool) : (s.ended e n r).npts = s.npts := rfl
@[simp] theorem State.ended_rgx (s : State) (e : ErrCode) (n r : Bool) : (s.ended e n r).rgx = s.rgx := rfl
@[simp] theorem State.ended_rgy (s : State) (e : ErrCode) (n r : Bool) : (s.ended e n r).rgy = s.rgy := rfl
@[simp] theorem State.ended_rgw (s : State) (e : ErrCode) (n r : Bool) : (s.ended e n r).rgw = s.rgw := rfl
@[simp] theorem State.ended_rgh (s : State) (e : ErrCode) (n r : Bool) : (s.ended e n r).rgh = s.rgh := rfl
@[simp] theorem State.ended_ams (s : State) (e : ErrCode) (n r : Bool) : (s.ended e n r).ams = s.ams := rfl
@[simp] theorem State.ended_ncand (s : State) (e : ErrCode) (n r : Bool) : (s.ended e n r).ncand = s.ncand := rfl
@[simp] theorem State.ended_resf (s : State) (e : ErrCode) (n r : Bool) : (s.ended e n r).resf = s.resf := rfl
@[simp] theorem State.ended_sc (s : State) (e : ErrCode) (n r : Bool) : (s.ended e n r).sc = s.sc := rfl
@[simp] theorem State.ended_ccmax (s : State) (e : ErrCode) (n r : Bool) : (s.ended e n r).ccmax = s.ccmax := rfl
@[simp] theorem State.ended_cctot (s : State) (e : ErrCode) (n r : Bool) : (s.ended e n r).cctot = s.cctot := rfl
@[simp] theorem State.ended_cci (s : State) (e : ErrCode) (n r : Bool) : (s.ended e n r).cci = s.cci := rfl
@[simp] theorem State.ended_ccj (s : State) (e : ErrCode) (n r : Bool) : (s.ended e n r).ccj = s.ccj := rfl
@[simp] theorem State.ended_pblen (s : State) (e : ErrCode) (n r : Bool) : (s.ended e n r).pblen = s.pblen := rfl
@[simp] theorem State.ended_f (s : State) (e : ErrCode) (n r : Bool) : (s.ended e n r).f = s.f := rfl
@[simp] theorem State.ended_t (s : State) (e : ErrCode) (n r : Bool) : (s.ended e n r).t = s.t := rfl
@[simp] theorem State.ended_fpr (s : State) (e : ErrCode) (n r : Bool) : (s.ended e n r).fpr = s.fpr := rfl
@[simp] theorem State.ended_apx (s : State) (e : ErrCode) (n r : Bool) : (s.ended e n r).apx = s.apx := rfl
@[simp] theorem State.ended_apy (s : State) (e : ErrCode) (n r : Bool) : (s.ended e n r).apy = s.apy := rfl
@[simp] theorem State.ended_aps (s : State) (e : ErrCode) (n r : Bool) : (s.ended e n r).aps = s.aps := rfl
@[simp] theorem State.ended_mem (s : State) (e : ErrCode) (n r : Bool) : (s.ended e n r).mem = s.mem := rfl
@[simp] theorem State.ended_tables (s : State) (e : ErrCode) (n r : Bool) : (s.ended e n r).tables = s.tables := rfl
@[simp] theorem State.ended_port (s : State) (e : ErrCode) (n r : Bool) : (s.ended e n r).port = s.port := rfl
@[simp] theorem State.ended_host (s : State) (e : ErrCode) (n r : Bool) : (s.ended e n r).host = s.host := rfl
@[simp] theorem State.ended_rdata (s : State) (e : ErrCode) (n r : Bool) : (s.ended e n r).rdata = s.rdata := rfl
@[simp] theorem State.ended_draws (s : State) (e : ErrCode) (n r : Bool) : (s.ended e n r).draws = s.draws := rfl

/-! A launched state (`State.launch`). -/

@[simp] theorem State.launch_phase (s : State) : s.launch.phase = .idle := rfl
@[simp] theorem State.launch_status (s : State) : s.launch.status = { s.status with busy := false, cmdovr := false, wrbusy := false } := rfl
@[simp] theorem State.launch_ctrl (s : State) : s.launch.ctrl = s.ctrl := rfl
@[simp] theorem State.launch_ga (s : State) : s.launch.ga = s.ga := rfl
@[simp] theorem State.launch_gb (s : State) : s.launch.gb = s.gb := rfl
@[simp] theorem State.launch_gr (s : State) : s.launch.gr = s.gr := rfl
@[simp] theorem State.launch_deg (s : State) : s.launch.deg = s.deg := rfl
@[simp] theorem State.launch_degr (s : State) : s.launch.degr = s.degr := rfl
@[simp] theorem State.launch_twos (s : State) : s.launch.twos = s.twos := rfl
@[simp] theorem State.launch_cwlen (s : State) : s.launch.cwlen = s.cwlen := rfl
@[simp] theorem State.launch_nloc (s : State) : s.launch.nloc = s.nloc := rfl
@[simp] theorem State.launch_dimx (s : State) : s.launch.dimx = s.dimx := rfl
@[simp] theorem State.launch_dimy (s : State) : s.launch.dimy = s.dimy := rfl
@[simp] theorem State.launch_dim (s : State) : s.launch.dim = s.dim := rfl
@[simp] theorem State.launch_npts (s : State) : s.launch.npts = s.npts := rfl
@[simp] theorem State.launch_rgx (s : State) : s.launch.rgx = s.rgx := rfl
@[simp] theorem State.launch_rgy (s : State) : s.launch.rgy = s.rgy := rfl
@[simp] theorem State.launch_rgw (s : State) : s.launch.rgw = s.rgw := rfl
@[simp] theorem State.launch_rgh (s : State) : s.launch.rgh = s.rgh := rfl
@[simp] theorem State.launch_ams (s : State) : s.launch.ams = s.ams := rfl
@[simp] theorem State.launch_ncand (s : State) : s.launch.ncand = s.ncand := rfl
@[simp] theorem State.launch_resf (s : State) : s.launch.resf = s.resf := rfl
@[simp] theorem State.launch_sc (s : State) : s.launch.sc = s.sc := rfl
@[simp] theorem State.launch_ccmax (s : State) : s.launch.ccmax = s.ccmax := rfl
@[simp] theorem State.launch_cctot (s : State) : s.launch.cctot = s.cctot := rfl
@[simp] theorem State.launch_cci (s : State) : s.launch.cci = s.cci := rfl
@[simp] theorem State.launch_ccj (s : State) : s.launch.ccj = s.ccj := rfl
@[simp] theorem State.launch_pblen (s : State) : s.launch.pblen = s.pblen := rfl
@[simp] theorem State.launch_f (s : State) : s.launch.f = s.f := rfl
@[simp] theorem State.launch_t (s : State) : s.launch.t = s.t := rfl
@[simp] theorem State.launch_fpr (s : State) : s.launch.fpr = s.fpr := rfl
@[simp] theorem State.launch_apx (s : State) : s.launch.apx = s.apx := rfl
@[simp] theorem State.launch_apy (s : State) : s.launch.apy = s.apy := rfl
@[simp] theorem State.launch_aps (s : State) : s.launch.aps = s.aps := rfl
@[simp] theorem State.launch_mem (s : State) : s.launch.mem = s.mem := rfl
@[simp] theorem State.launch_tables (s : State) : s.launch.tables = buildTables Config.prim := rfl
@[simp] theorem State.launch_port (s : State) : s.launch.port = s.port := rfl
@[simp] theorem State.launch_host (s : State) : s.launch.host = s.host := rfl
@[simp] theorem State.launch_rdata (s : State) : s.launch.rdata = s.rdata := rfl
@[simp] theorem State.launch_draws (s : State) : s.launch.draws = s.draws := rfl

/-! STATUS under its named updates. -/

@[simp] theorem statusAccepted_busy (c : Status) : (statusAccepted c).busy = true := rfl
@[simp] theorem statusAccepted_done (c : Status) : (statusAccepted c).done = false := rfl
@[simp] theorem statusAccepted_cmdovr (c : Status) : (statusAccepted c).cmdovr = c.cmdovr := rfl
@[simp] theorem statusAccepted_wrbusy (c : Status) : (statusAccepted c).wrbusy = c.wrbusy := rfl
@[simp] theorem statusAccepted_err (c : Status) : (statusAccepted c).err = .ok := rfl
@[simp] theorem statusAccepted_noerr (c : Status) : (statusAccepted c).noerr = false := rfl
@[simp] theorem statusAccepted_resb (c : Status) : (statusAccepted c).resb = false := rfl

@[simp] theorem statusCompleted_busy (c : Status) (e : ErrCode) (n r : Bool) : (statusCompleted c e n r).busy = false := rfl
@[simp] theorem statusCompleted_done (c : Status) (e : ErrCode) (n r : Bool) : (statusCompleted c e n r).done = true := rfl
@[simp] theorem statusCompleted_cmdovr (c : Status) (e : ErrCode) (n r : Bool) : (statusCompleted c e n r).cmdovr = c.cmdovr := rfl
@[simp] theorem statusCompleted_wrbusy (c : Status) (e : ErrCode) (n r : Bool) : (statusCompleted c e n r).wrbusy = c.wrbusy := rfl
@[simp] theorem statusCompleted_err (c : Status) (e : ErrCode) (n r : Bool) : (statusCompleted c e n r).err = e := rfl
@[simp] theorem statusCompleted_noerr (c : Status) (e : ErrCode) (n r : Bool) : (statusCompleted c e n r).noerr = (decide (e = .ok) && n) := rfl
@[simp] theorem statusCompleted_resb (c : Status) (e : ErrCode) (n r : Bool) : (statusCompleted c e n r).resb = (decide (e = .ok) && r) := rfl

@[simp] theorem statusCleared_busy (c : Status) (v : Word) : (statusCleared c v).busy = c.busy := rfl
@[simp] theorem statusCleared_done (c : Status) (v : Word) : (statusCleared c v).done = (c.done && !v.getLsbD 1) := rfl
@[simp] theorem statusCleared_cmdovr (c : Status) (v : Word) : (statusCleared c v).cmdovr = (c.cmdovr && !v.getLsbD 3) := rfl
@[simp] theorem statusCleared_wrbusy (c : Status) (v : Word) : (statusCleared c v).wrbusy = (c.wrbusy && !v.getLsbD 4) := rfl
@[simp] theorem statusCleared_err (c : Status) (v : Word) : (statusCleared c v).err = c.err := rfl
@[simp] theorem statusCleared_noerr (c : Status) (v : Word) : (statusCleared c v).noerr = c.noerr := rfl
@[simp] theorem statusCleared_resb (c : Status) (v : Word) : (statusCleared c v).resb = c.resb := rfl

/-- A normal completion is the completed state of the claims. -/
theorem State.complete_ok (s : State) (n r : Bool) : s.complete .ok n r = s.ended .ok n r := rfl

/-- An error is the failed state of the claims. -/
theorem State.complete_error (s : State) (e : ErrCode) : s.complete e false false = s.ended e false false := by
  simp only [State.complete, State.ended, statusCompleted, Bool.and_false]

end Sys2Proof.Machine
end

