-- ==== Sys2Proof/Laws/Commands.lean ====
section
/-! SUPPORT. What each shared operation can do, said once: the ends of a command, polynomial operands and results, host
accesses and the step. -/

namespace Sys2Proof.Machine

/-! ## The end of a command -/

/-- A command that sets no flag ends with its result, or with its error on the state it started from. -/
theorem endCommand_eq (s : State) (r : Except ErrCode State) :
    endCommand s r = .next (match r with | .ok t => t.done | .error e => s.failed e) := by
  cases r with
  | ok t => rfl
  | error e => simp only [endCommand, State.raise_eq, State.complete_error, State.failed_eq]

/-- A command that sets NOERR or RESB ends with its result, or with its error on the state it started from. -/
theorem endCommandFlags_eq (s : State) (r : Except ErrCode (State × Bool × Bool)) :
    endCommandFlags s r =
      .next (match r with | .ok (t, n, b) => t.ended .ok n b | .error e => s.failed e) := by
  cases r with
  | ok t => rfl
  | error e => simp only [endCommandFlags, State.raise_eq, State.complete_error, State.failed_eq]

theorem illegalCommand_eq (s : State) : illegalCommand s = .next (s.failed .illegalCmd) := by
  simp only [illegalCommand, State.raise_eq, State.complete_error, State.failed_eq]

/-! ## Normalisation -/

theorem normalise_cons_zero (l : List Byte) (h : l ≠ []) : normalise (0#8 :: l) = normalise l := by
  cases l with
  | nil => exact absurd rfl h
  | cons x xs => simp [normalise, List.dropWhile_cons]

theorem normalise_cons_nonzero (x : Byte) (l : List Byte) (h : x ≠ 0#8) : normalise (x :: l) = x :: l := by
  simp [normalise, h]

/-- A normalised list is normalised, is no longer than the list, and has the same coefficients. -/
theorem normalise_spec (l : List Byte) :
    Normal (normalise l) ∧ (l ≠ [] → (normalise l).length ≤ l.length) ∧ ∀ d, coefOf (normalise l) d = coefOf l d := by
  induction l with
  | nil =>
    refine ⟨Or.inl rfl, fun h => absurd rfl h, fun d => ?_⟩
    cases d <;> simp [normalise, coefOf]
  | cons x l ih =>
    by_cases hx : x = 0#8
    · subst hx
      by_cases hl : l = []
      · subst hl; exact ⟨Or.inl rfl, fun _ => le_refl _, fun d => rfl⟩
      · rw [normalise_cons_zero l hl]
        refine ⟨ih.1, fun _ => ?_, fun d => ?_⟩
        · have := ih.2.1 hl; simp only [List.length_cons]; omega
        · rw [ih.2.2 d]
          simp only [coefOf, List.length_cons]
          by_cases hd : d < l.length
          · rw [if_pos hd, if_pos (by omega)]
            have : l.length + 1 - 1 - d = (l.length - 1 - d) + 1 := by omega
            rw [this, List.getD_cons_succ]
          · rw [if_neg hd]
            by_cases hd' : d < l.length + 1
            · rw [if_pos hd']
              have : l.length + 1 - 1 - d = 0 := by omega
              rw [this]; rfl
            · rw [if_neg hd']
    · rw [normalise_cons_nonzero x l hx]
      exact ⟨Or.inr ⟨by simp, by simpa using hx⟩, fun _ => le_refl _, fun _ => rfl⟩

theorem normalise_normal (l : List Byte) : Normal (normalise l) := (normalise_spec l).1

theorem coefOf_normalise (l : List Byte) (d : Nat) : coefOf (normalise l) d = coefOf l d := (normalise_spec l).2.2 d

theorem Normal.ne_nil {l : List Byte} (h : Normal l) : l ≠ [] := by
  rcases h with rfl | h
  · simp
  · exact h.1

theorem Normal.normalise_eq {l : List Byte} (h : Normal l) : normalise l = l := by
  rcases h with rfl | ⟨h1, h2⟩
  · rfl
  · cases l with
    | nil => exact absurd rfl h1
    | cons x l => exact normalise_cons_nonzero x l (by simpa using h2)

/-! ## Polynomial operands and results -/

theorem rawPoly_length (s : State) (k : BitVec 3) : (rawPoly s k).length = pblenAt s k := readElems_length _ _ _

/-- A polynomial operand: its normalised coefficients, or the error of its length (42_gf_poly.md R187). -/
theorem polyOperand_eq (s : State) (k : BitVec 3) :
    polyOperand s k =
      if pblenAt s k = 0 then .error .illegalArg
      else if 512 < pblenAt s k then .error .capacity
      else .ok (normalise (rawPoly s k)) := by
  rw [polyOperand]
  by_cases h0 : pblenAt s k = 0
  · rw [if_pos h0, if_pos h0]
  · rw [if_neg h0, if_neg h0, show Config.maxLen = 512 from rfl]
    by_cases h1 : 512 < pblenAt s k
    · rw [if_pos h1, if_pos h1]
    · rw [if_neg h1, if_neg h1]
      have hr := rawPoly_length s k
      cases hl : rawPoly s k with
      | nil => rw [hl] at hr; exact absurd hr.symm h0
      | cons x xs =>
        rw [rawPoly] at hl
        rw [normaliseChecked, hl, List.isEmpty_cons, if_neg (by simp)]

theorem polyOperand_ok {s : State} {k : BitVec 3} (h : operandOk s k) :
    polyOperand s k = .ok (normalise (rawPoly s k)) := by
  obtain ⟨h1, h2⟩ := h
  rw [polyOperand_eq, if_neg (by omega), if_neg (by omega)]

/-- A polynomial result that fits is written; one that does not raises CAPACITY (42_gf_poly.md R188). -/
theorem polyResult_eq (s : State) (k : BitVec 3) (p : Poly) :
    polyResult s k p =
      if 512 < p.length then .error .capacity else .ok { putPoly s k p with degr := degrOf p } := by
  rw [polyResult, writePoly, show Config.maxLen = 512 from rfl]
  by_cases h : 512 < p.length
  · rw [if_pos h, if_pos h]
  · rw [if_neg h, if_neg h]

theorem polyResults_eq (s : State) (k : BitVec 3) (p : Poly) (k' : BitVec 3) (p' : Poly) :
    polyResults s k p k' p' =
      if 512 < p.length ∨ 512 < p'.length then .error .capacity
      else .ok { putPoly (putPoly s k p) k' p' with degr := degrOf p } := by
  rw [polyResults, writePoly, show Config.maxLen = 512 from rfl]
  by_cases h : 512 < p.length
  · rw [if_pos h, if_pos (Or.inl h)]
  · rw [if_neg h]
    simp only [writePoly, show Config.maxLen = 512 from rfl]
    by_cases h' : 512 < p'.length
    · rw [if_pos h', if_pos (Or.inr h')]
    · rw [if_neg h', if_neg (by omega)]

/-- A command that ends with a polynomial result that fits leaves the state the claims name. -/
theorem polyResult_done (s : State) (k : BitVec 3) (p : Poly) (noerr : Bool) :
    PolyResult s k p noerr (({ putPoly s k p with degr := degrOf p } : State).ended .ok noerr false) :=
  ⟨writeElems s.mem (pbBase k.toNat) p, stores_writeElems _ _ _, rfl⟩

theorem polyResults_done (s : State) (k : BitVec 3) (p : Poly) (k' : BitVec 3) (p' : Poly) :
    PolyResults s k p k' p' (({ putPoly (putPoly s k p) k' p' with degr := degrOf p } : State).done) :=
  ⟨writeElems s.mem (pbBase k.toNat) p, writeElems (writeElems s.mem (pbBase k.toNat) p) (pbBase k'.toNat) p',
    stores_writeElems _ _ _, stores_writeElems _ _ _, rfl⟩

/-! ## The outside and the step -/

/-- A host access is refused, faults, or has its effect at the word its offset names. -/
theorem hostAccess_next {off size : Nat} {effect : Loc → State} {t : State}
    (h : hostAccess off size effect = .next t) :
    size = 4 ∧ off % 4 = 0 ∧ off < 0x10000 ∧ t = effect (locate off) := by
  rw [hostAccess] at h
  split at h
  · cases h
  · rename_i h1
    split at h
    · cases h
    · rename_i h2
      simp only [accessDefined, Bool.not_eq_true', decide_eq_false_iff_not, not_not] at h1
      cases h
      exact ⟨h1.1, h1.2, by omega, rfl⟩

theorem hostAccess_defined (off : Nat) (effect : Loc → State) (h : off % 4 = 0) (h' : off < 0x10000) :
    hostAccess off 4 effect = .next (effect (locate off)) := by
  rw [hostAccess, if_neg (by simp [accessDefined, h]), if_neg (by omega)]

/-- What a step that gives a next state did. -/
theorem step_next {s t : State} (h : step s = .next t) :
    ((s.host = [] ∨ ∃ rest, s.host = .tick :: rest) ∧ engineStep s.afterInput = .next t) ∨
    (∃ off rest, s.host = .read off 4 :: rest ∧ off % 4 = 0 ∧ off < 0x10000 ∧
      t = hostReadLoc s.afterInput (locate off)) ∨
    (∃ off v rest, s.host = .write off 4 v :: rest ∧ off % 4 = 0 ∧ off < 0x10000 ∧
      t = hostWriteLoc s.afterInput (locate off) v) ∨
    (∃ im rest, s.host = .image im :: rest ∧ pixelCommandRuns s.afterInput = false ∧
      t = { s.afterInput with port := im }) ∨
    (∃ rest, s.host = .rst :: rest ∧ t = s.afterInput.hardReset) := by
  rw [step] at h
  cases hh : s.host with
  | nil =>
    rw [hh] at h
    have hs : s.afterInput = s := by simp only [State.afterInput, hh, List.tail_nil]; rw [← hh]
    exact Or.inl ⟨Or.inl rfl, by rw [hs]; exact h⟩
  | cons i rest =>
    rw [hh] at h
    have ha : s.afterInput = { s with host := rest } := by rw [State.afterInput, hh, List.tail_cons]
    rw [ha]
    cases i with
    | tick => exact Or.inl ⟨Or.inr ⟨rest, rfl⟩, h⟩
    | read off size =>
      obtain ⟨rfl, h1, h2, h3⟩ := hostAccess_next h
      exact Or.inr (Or.inl ⟨off, rest, rfl, h1, h2, h3⟩)
    | write off size v =>
      obtain ⟨rfl, h1, h2, h3⟩ := hostAccess_next h
      exact Or.inr (Or.inr (Or.inl ⟨off, v, rest, rfl, h1, h2, h3⟩))
    | image im =>
      simp only [changeImage] at h
      split at h
      · cases h
      · rename_i hp
        cases h
        exact Or.inr (Or.inr (Or.inr (Or.inl ⟨im, rest, rfl, by simpa using hp, rfl⟩)))
    | rst => cases h; exact Or.inr (Or.inr (Or.inr (Or.inr ⟨rest, rfl, rfl⟩)))

/-- How many words of a buffer a command may write: what the state it leaves counts, or the whole buffer where it ends
with an error or counts none. -/
theorem resultCount_next {s t : State} {i : Instr} (whole : Nat) (count : State → Nat) (h : exec i s = .next t) :
    resultCount s i whole count = if t.status.err = .ok ∧ 0 < count t then count t else whole := by
  rw [resultCount, h]

/-- A command that completes writes no word past that count. -/
theorem le_resultCount {s t : State} {i : Instr} (whole : Nat) (count : State → Nat) (h : exec i s = .next t)
    (ht : t.status.err = .ok) : count t ≤ resultCount s i whole count := by
  rw [resultCount_next whole count h]
  split
  · exact Nat.le_refl _
  · rename_i hn
    exact Nat.le_of_not_lt (fun hw => hn ⟨ht, Nat.lt_of_le_of_lt (Nat.zero_le _) hw⟩)

end Sys2Proof.Machine
end

