-- ==== Sys2Proof/Laws/PerInstr.lean ====
section
/-! SUPPORT. Statements about every command as syntax, one lemma for each constructor of Instr. -/

/-- The bits of a packed word, field by field (30_encoding.md R110). -/
theorem Sys2Proof.Laws.packFields_getLsbD (op : BitVec 8) (d a b q : BitVec 3) (i : Nat) :
    (Sys2Proof.packFields op d a b q).getLsbD i =
      if i < 8 then op.getLsbD i
      else if i < 11 then d.getLsbD (i - 8)
      else if i < 14 then a.getLsbD (i - 11)
      else if i < 17 then b.getLsbD (i - 14)
      else if i < 20 then q.getLsbD (i - 17)
      else false := by
  have h1 : (Sys2Proof.packFields op d a b q).getLsbD i = _ :=
    BitVec.getLsbD_append (n := 12) (m := 20) (x := 0#12) (y := q ++ (b ++ (a ++ (d ++ op))))
  have h2 : BitVec.getLsbD (w := 20) (q ++ (b ++ (a ++ (d ++ op)))) i = _ :=
    BitVec.getLsbD_append (n := 3) (m := 17)
  have h3 : BitVec.getLsbD (w := 17) (b ++ (a ++ (d ++ op))) i = _ := BitVec.getLsbD_append (n := 3) (m := 14)
  have h4 : BitVec.getLsbD (w := 14) (a ++ (d ++ op)) i = _ := BitVec.getLsbD_append (n := 3) (m := 11)
  have h5 : BitVec.getLsbD (w := 11) (d ++ op) i = _ := BitVec.getLsbD_append (n := 3) (m := 8)
  rw [h1, h2, h3, h4, h5, BitVec.getLsbD_zero]
  split_ifs <;> first | rfl | omega

/-- Packing fields keeps the opcode in bits 7:0 and leaves RSV 0 (30_encoding.md R110). -/
theorem Sys2Proof.Laws.packFields_op_rsv (op : BitVec 8) (d a b q : BitVec 3) :
    Sys2Proof.opField (Sys2Proof.packFields op d a b q) = op ∧
      Sys2Proof.rsvField (Sys2Proof.packFields op d a b q) = 0#12 := by
  constructor
  · apply BitVec.eq_of_getLsbD_eq
    intro i hi
    rw [Sys2Proof.opField, BitVec.getLsbD_extractLsb', Sys2Proof.Laws.packFields_getLsbD, Nat.zero_add, if_pos hi,
      decide_eq_true hi, Bool.true_and]
  · apply BitVec.eq_of_getLsbD_eq
    intro i hi
    rw [Sys2Proof.rsvField, BitVec.getLsbD_extractLsb', Sys2Proof.Laws.packFields_getLsbD, if_neg (by omega),
      if_neg (by omega), if_neg (by omega), if_neg (by omega), if_neg (by omega), Bool.and_false,
      BitVec.getLsbD_zero]

/-- The encoding of a command has its opcode in bits 7:0 and RSV = 0 (30_encoding.md R110, R116). -/
def Sys2Proof.Laws.OpcodeField.Statement (i : Sys2Proof.Instr) : Prop :=
  Sys2Proof.opField (Sys2Proof.encode i) = i.opcode ∧ Sys2Proof.rsvField (Sys2Proof.encode i) = 0#12

theorem Sys2Proof.Laws.OpcodeField.nop : Sys2Proof.Laws.OpcodeField.Statement .nop :=
  Sys2Proof.Laws.packFields_op_rsv _ _ _ _ _

theorem Sys2Proof.Laws.OpcodeField.gadd : Sys2Proof.Laws.OpcodeField.Statement .gadd :=
  Sys2Proof.Laws.packFields_op_rsv _ _ _ _ _

theorem Sys2Proof.Laws.OpcodeField.gmul : Sys2Proof.Laws.OpcodeField.Statement .gmul :=
  Sys2Proof.Laws.packFields_op_rsv _ _ _ _ _

theorem Sys2Proof.Laws.OpcodeField.ginv : Sys2Proof.Laws.OpcodeField.Statement .ginv :=
  Sys2Proof.Laws.packFields_op_rsv _ _ _ _ _

theorem Sys2Proof.Laws.OpcodeField.gexp : Sys2Proof.Laws.OpcodeField.Statement .gexp :=
  Sys2Proof.Laws.packFields_op_rsv _ _ _ _ _

theorem Sys2Proof.Laws.OpcodeField.glog : Sys2Proof.Laws.OpcodeField.Statement .glog :=
  Sys2Proof.Laws.packFields_op_rsv _ _ _ _ _

theorem Sys2Proof.Laws.OpcodeField.sreset : Sys2Proof.Laws.OpcodeField.Statement .sreset :=
  Sys2Proof.Laws.packFields_op_rsv _ _ _ _ _

theorem Sys2Proof.Laws.OpcodeField.pnorm (d a : BitVec 3) : Sys2Proof.Laws.OpcodeField.Statement (.pnorm d a) :=
  Sys2Proof.Laws.packFields_op_rsv _ _ _ _ _

theorem Sys2Proof.Laws.OpcodeField.padd (d a b : BitVec 3) : Sys2Proof.Laws.OpcodeField.Statement (.padd d a b) :=
  Sys2Proof.Laws.packFields_op_rsv _ _ _ _ _

theorem Sys2Proof.Laws.OpcodeField.pmul (d a b : BitVec 3) : Sys2Proof.Laws.OpcodeField.Statement (.pmul d a b) :=
  Sys2Proof.Laws.packFields_op_rsv _ _ _ _ _

theorem Sys2Proof.Laws.OpcodeField.pscale (d a : BitVec 3) : Sys2Proof.Laws.OpcodeField.Statement (.pscale d a) :=
  Sys2Proof.Laws.packFields_op_rsv _ _ _ _ _

theorem Sys2Proof.Laws.OpcodeField.pmulmono (d a : BitVec 3) : Sys2Proof.Laws.OpcodeField.Statement (.pmulmono d a) :=
  Sys2Proof.Laws.packFields_op_rsv _ _ _ _ _

theorem Sys2Proof.Laws.OpcodeField.pmono (d : BitVec 3) : Sys2Proof.Laws.OpcodeField.Statement (.pmono d) :=
  Sys2Proof.Laws.packFields_op_rsv _ _ _ _ _

theorem Sys2Proof.Laws.OpcodeField.pdiv (d q a b : BitVec 3) : Sys2Proof.Laws.OpcodeField.Statement (.pdiv d q a b) :=
  Sys2Proof.Laws.packFields_op_rsv _ _ _ _ _

theorem Sys2Proof.Laws.OpcodeField.peval (a : BitVec 3) : Sys2Proof.Laws.OpcodeField.Statement (.peval a) :=
  Sys2Proof.Laws.packFields_op_rsv _ _ _ _ _

theorem Sys2Proof.Laws.OpcodeField.pcoef (a : BitVec 3) : Sys2Proof.Laws.OpcodeField.Statement (.pcoef a) :=
  Sys2Proof.Laws.packFields_op_rsv _ _ _ _ _

theorem Sys2Proof.Laws.OpcodeField.rsdec : Sys2Proof.Laws.OpcodeField.Statement .rsdec :=
  Sys2Proof.Laws.packFields_op_rsv _ _ _ _ _

theorem Sys2Proof.Laws.OpcodeField.rssyn (d : BitVec 3) : Sys2Proof.Laws.OpcodeField.Statement (.rssyn d) :=
  Sys2Proof.Laws.packFields_op_rsv _ _ _ _ _

theorem Sys2Proof.Laws.OpcodeField.rseuc (d q a b : BitVec 3) : Sys2Proof.Laws.OpcodeField.Statement (.rseuc d q a b) :=
  Sys2Proof.Laws.packFields_op_rsv _ _ _ _ _

theorem Sys2Proof.Laws.OpcodeField.rschien (a : BitVec 3) : Sys2Proof.Laws.OpcodeField.Statement (.rschien a) :=
  Sys2Proof.Laws.packFields_op_rsv _ _ _ _ _

theorem Sys2Proof.Laws.OpcodeField.rsforney (a : BitVec 3) : Sys2Proof.Laws.OpcodeField.Statement (.rsforney a) :=
  Sys2Proof.Laws.packFields_op_rsv _ _ _ _ _

theorem Sys2Proof.Laws.OpcodeField.rsapply : Sys2Proof.Laws.OpcodeField.Statement .rsapply :=
  Sys2Proof.Laws.packFields_op_rsv _ _ _ _ _

theorem Sys2Proof.Laws.OpcodeField.xsq2q (d : BitVec 3) : Sys2Proof.Laws.OpcodeField.Statement (.xsq2q d) :=
  Sys2Proof.Laws.packFields_op_rsv _ _ _ _ _

theorem Sys2Proof.Laws.OpcodeField.xq2sq (d : BitVec 3) : Sys2Proof.Laws.OpcodeField.Statement (.xq2sq d) :=
  Sys2Proof.Laws.packFields_op_rsv _ _ _ _ _

theorem Sys2Proof.Laws.OpcodeField.xq2q (d : BitVec 3) : Sys2Proof.Laws.OpcodeField.Statement (.xq2q d) :=
  Sys2Proof.Laws.packFields_op_rsv _ _ _ _ _

theorem Sys2Proof.Laws.OpcodeField.xadj (d a : BitVec 3) : Sys2Proof.Laws.OpcodeField.Statement (.xadj d a) :=
  Sys2Proof.Laws.packFields_op_rsv _ _ _ _ _

theorem Sys2Proof.Laws.OpcodeField.xtimes (d a b : BitVec 3) : Sys2Proof.Laws.OpcodeField.Statement (.xtimes d a b) :=
  Sys2Proof.Laws.packFields_op_rsv _ _ _ _ _

theorem Sys2Proof.Laws.OpcodeField.xpts (a : BitVec 3) : Sys2Proof.Laws.OpcodeField.Statement (.xpts a) :=
  Sys2Proof.Laws.packFields_op_rsv _ _ _ _ _

theorem Sys2Proof.Laws.OpcodeField.xqrgrid (d b : BitVec 3) : Sys2Proof.Laws.OpcodeField.Statement (.xqrgrid d b) :=
  Sys2Proof.Laws.packFields_op_rsv _ _ _ _ _

theorem Sys2Proof.Laws.OpcodeField.grid (a : BitVec 3) : Sys2Proof.Laws.OpcodeField.Statement (.grid a) :=
  Sys2Proof.Laws.packFields_op_rsv _ _ _ _ _

theorem Sys2Proof.Laws.OpcodeField.pffind : Sys2Proof.Laws.OpcodeField.Statement .pffind :=
  Sys2Proof.Laws.packFields_op_rsv _ _ _ _ _

theorem Sys2Proof.Laws.OpcodeField.pfalign : Sys2Proof.Laws.OpcodeField.Statement .pfalign :=
  Sys2Proof.Laws.packFields_op_rsv _ _ _ _ _

theorem Sys2Proof.Laws.OpcodeField.pfratio5 : Sys2Proof.Laws.OpcodeField.Statement .pfratio5 :=
  Sys2Proof.Laws.packFields_op_rsv _ _ _ _ _

theorem Sys2Proof.Laws.OpcodeField.pfratio3 : Sys2Proof.Laws.OpcodeField.Statement .pfratio3 :=
  Sys2Proof.Laws.packFields_op_rsv _ _ _ _ _

theorem Sys2Proof.Laws.OpcodeField.pforder : Sys2Proof.Laws.OpcodeField.Statement .pforder :=
  Sys2Proof.Laws.packFields_op_rsv _ _ _ _ _

theorem Sys2Proof.Laws.OpcodeField.pfccv : Sys2Proof.Laws.OpcodeField.Statement .pfccv :=
  Sys2Proof.Laws.packFields_op_rsv _ _ _ _ _

theorem Sys2Proof.Laws.OpcodeField.pfcch : Sys2Proof.Laws.OpcodeField.Statement .pfcch :=
  Sys2Proof.Laws.packFields_op_rsv _ _ _ _ _

theorem Sys2Proof.Laws.OpcodeField.pfccd : Sys2Proof.Laws.OpcodeField.Statement .pfccd :=
  Sys2Proof.Laws.packFields_op_rsv _ _ _ _ _

theorem Sys2Proof.Laws.OpcodeField.pfccva : Sys2Proof.Laws.OpcodeField.Statement .pfccva :=
  Sys2Proof.Laws.packFields_op_rsv _ _ _ _ _
end

