-- ==== Sys2Proof/Machine/HostProgram.lean ====
section
/-! DEFINITION. The assembler syntax (30_encoding.md R114) and the host's pseudo-instructions (R115), which are sequences
of host accesses and no commands. -/

namespace Sys2Proof.Machine

/-- The text of a polynomial operand, p0 to p7 (30_encoding.md R114). -/
def polyName (k : BitVec 3) : String := "p" ++ toString k.toNat

/-- The text of a matrix operand, t0 to t3 (30_encoding.md R114). -/
def matName (k : BitVec 3) : String := "t" ++ toString k.toNat

/-- The text of the XQRGRID flag (30_encoding.md R114). -/
def flagName (b : BitVec 3) : String := if b = 0#3 then "noap" else "ap"

/-- The mnemonic of a command (30_encoding.md, opcode map). -/
def mnemonic (i : Instr) : String :=
  match i with
  | .nop => "NOP"
  | .gadd => "GADD"
  | .gmul => "GMUL"
  | .ginv => "GINV"
  | .gexp => "GEXP"
  | .glog => "GLOG"
  | .sreset => "SRESET"
  | .pnorm .. => "PNORM"
  | .padd .. => "PADD"
  | .pmul .. => "PMUL"
  | .pscale .. => "PSCALE"
  | .pmulmono .. => "PMULMONO"
  | .pmono .. => "PMONO"
  | .pdiv .. => "PDIV"
  | .peval .. => "PEVAL"
  | .pcoef .. => "PCOEF"
  | .rsdec => "RSDEC"
  | .rssyn .. => "RSSYN"
  | .rseuc .. => "RSEUC"
  | .rschien .. => "RSCHIEN"
  | .rsforney .. => "RSFORNEY"
  | .rsapply => "RSAPPLY"
  | .xsq2q .. => "XSQ2Q"
  | .xq2sq .. => "XQ2SQ"
  | .xq2q .. => "XQ2Q"
  | .xadj .. => "XADJ"
  | .xtimes .. => "XTIMES"
  | .xpts .. => "XPTS"
  | .xqrgrid .. => "XQRGRID"
  | .grid .. => "GRID"
  | .pffind => "PFFIND"
  | .pfalign => "PFALIGN"
  | .pfratio5 => "PFRATIO5"
  | .pfratio3 => "PFRATIO3"
  | .pforder => "PFORDER"
  | .pfccv => "PFCCV"
  | .pfcch => "PFCCH"
  | .pfccd => "PFCCD"
  | .pfccva => "PFCCVA"

/-- The operands of a command in the order D, Q, A, B (30_encoding.md R114). -/
def operandNames (i : Instr) : List String :=
  match i with
  | .nop | .gadd | .gmul | .ginv | .gexp | .glog | .sreset | .rsdec | .rsapply
  | .pffind | .pfalign | .pfratio5 | .pfratio3 | .pforder | .pfccv | .pfcch | .pfccd | .pfccva => []
  | .pnorm d a | .pscale d a | .pmulmono d a => [polyName d, polyName a]
  | .padd d a b | .pmul d a b => [polyName d, polyName a, polyName b]
  | .pmono d | .rssyn d => [polyName d]
  | .pdiv d q a b | .rseuc d q a b => [polyName d, polyName q, polyName a, polyName b]
  | .peval a | .pcoef a | .rschien a | .rsforney a => [polyName a]
  | .xsq2q d | .xq2sq d | .xq2q d => [matName d]
  | .xadj d a => [matName d, matName a]
  | .xtimes d a b => [matName d, matName a, matName b]
  | .xpts a | .grid a => [matName a]
  | .xqrgrid d b => [matName d, flagName b]

/-- The assembler text of a command (30_encoding.md R114). -/
def assemblerText (i : Instr) : String :=
  match operandNames i with
  | [] => mnemonic i
  | l => mnemonic i ++ " " ++ String.intercalate ", " l

/-- `WR NAME, v` at the offset of a name (30_encoding.md R115). -/
def hostWR (off : Nat) (v : Word) : List Input := [.write off 4 v]

/-- `RD NAME` at the offset of a name (30_encoding.md R115). -/
def hostRD (off : Nat) : List Input := [.read off 4]

/-- `WAIT` (30_encoding.md R115): the host polls STATUS until BUSY is 0. The number of polls is the command's latency,
which no rule fixes; the outside world here lets the engine move and then reads STATUS once. -/
def hostWAIT : List Input := [.tick, .read 0x00C 4]

/-- `RUN cmd` (30_encoding.md R115). -/
def hostRUN (i : Instr) : List Input := hostWR 0x008 (encode i) ++ hostWAIT

/-- Writes of consecutive words. -/
def hostWords : Nat → List Word → List Input
  | _, [] => []
  | off, v :: vs => hostWR off v ++ hostWords (off + 4) vs

/-- `LDPOLY pK, [c0, ...]` (30_encoding.md R115). -/
def hostLDPOLY (k : BitVec 3) (c : List Byte) : List Input :=
  hostWR (0x0C0 + 4 * k.toNat) (BitVec.ofNat 32 c.length) ++
    hostWords (pbBase k.toNat) (c.map (fun b => b.setWidth 32))

/-- `LDCW [c0, ...]` (30_encoding.md R115). -/
def hostLDCW (c : List Byte) : List Input :=
  hostWR 0x02C (BitVec.ofNat 32 c.length) ++ hostWords cwbBase (c.map (fun b => b.setWidth 32))

/-- `LDF k, f` (30_encoding.md R115). -/
def hostLDF (k : BitVec 4) (v : F32) : List Input := hostWR (0x100 + 4 * k.toNat) v

end Sys2Proof.Machine
end

