-- ==== Sys2Proof/Tests/Capacity.lean ====
section
/-! SUPPORT. Images on which PFFIND and PFALIGN fill the candidate memory: witnesses for the CAPACITY clauses of the
statements about them. The scans are followed row by row, not evaluated. -/

namespace Sys2Proof.Tests

open Sys2Proof Sys2Proof.Machine

set_option Elab.async false

/-! ## Candidates on a grid -/

/-- The candidate at grid place (a, b), of module size 1 and confirmed once. -/
def gridPattern (x y : Nat → F32) (p : Nat × Nat) : Pattern := ⟨x p.1, y p.2, f1, 1#32⟩

/-- No two of the first n coordinates of a grid are within one pixel. -/
def spaced (x : Nat → F32) (n : Nat) : Prop := ∀ a < n, ∀ b < n, a ≠ b → fle (fabs (fsub (x a) (x b))) f1 = false

/-- A place of the grid that no candidate has is about-equal to none. -/
theorem fresh_place {x y : Nat → F32} {n m : Nat} (hx : spaced x n) (hy : spaced y m) {l : List (Nat × Nat)}
    (hl : ∀ p ∈ l, p.1 < n ∧ p.2 < m) {a b : Nat} (ha : a < n) (hb : b < m) (hab : (a, b) ∉ l) :
    ∀ c ∈ l.map (gridPattern x y), aboutEqual c f1 (y b) (x a) = false := by
  intro c hc
  obtain ⟨p, hp, rfl⟩ := List.mem_map.1 hc
  obtain ⟨h1, h2⟩ := hl p hp
  by_cases hpb : b = p.2
  · have hpa : a ≠ p.1 := fun h => hab (by rw [h, hpb]; exact hp)
    simp [aboutEqual, gridPattern, hx a ha p.1 h1 hpa]
  · simp [aboutEqual, gridPattern, hy b hb p.2 h2 hpb]

/-- The places of row b with column below n. -/
def rowPlaces (b n : Nat) : List (Nat × Nat) := (List.range n).map (fun a => (a, b))

theorem rowPlaces_succ (b n : Nat) : rowPlaces b (n + 1) = rowPlaces b n ++ [(n, b)] := by
  simp [rowPlaces, List.range_succ]

theorem mem_rowPlaces {b n : Nat} {p : Nat × Nat} : p ∈ rowPlaces b n ↔ p.1 < n ∧ p.2 = b := by
  obtain ⟨a, c⟩ := p
  simp [rowPlaces, eq_comm]

/-! ## PFFIND -/

/-- The nine rows of a finder pattern of 1-pixel modules, drawn as a cross, with the white around it. -/
def crossRow (r : Nat) : Nat := [8, 0, 93, 93, 8, 0, 8, 0, 0].getD r 0

/-- 16 × 17 crosses, one every 8 columns and every 9 rows. -/
def finderGrid : Image :=
  ⟨128#16, 153#16, (List.range 153).map (fun y => crossRow (y % 9) * ((2 ^ 128 - 1) / 255))⟩

theorem crossRow_repeated : ∀ r < 9, ∀ a < 16, ∀ k < 8,
    (crossRow r * ((2 ^ 128 - 1) / 255)).testBit (8 * a + k) = (crossRow r).testBit k := by decide +kernel

theorem finderGrid_black {a k y : Nat} (ha : a < 16) (hk : k < 8) (hy : y < 153) :
    finderGrid.black ((8 * a + k : Nat) : Int) (y : Int) = (crossRow (y % 9)).testBit k := by
  have h1 : finderGrid.rows.getD y 0 = crossRow (y % 9) * ((2 ^ 128 - 1) / 255) := by
    simp [finderGrid, List.getD, hy]
  have h2 : (0 : Int) ≤ ((8 * a + k : Nat) : Int) ∧ ((8 * a + k : Nat) : Int) < (finderGrid.width.toNat : Int) ∧
      (0 : Int) ≤ (y : Int) ∧ (y : Int) < (finderGrid.height.toNat : Int) := by
    rw [show finderGrid.width.toNat = 128 from rfl, show finderGrid.height.toNat = 153 from rfl]; omega
  rw [Image.black, decide_eq_true h2, Int.toNat_natCast, Int.toNat_natCast, h1, Bool.true_and,
    crossRow_repeated _ (Nat.mod_lt _ (by decide)) a ha k hk]

/-- Outside the image a pixel is white. -/
theorem black_outside {im : Image} {x y : Int}
    (h : ¬(0 ≤ x ∧ x < (im.width.toNat : Int) ∧ 0 ≤ y ∧ y < (im.height.toNat : Int))) : im.black x y = false := by
  rw [Image.black, decide_eq_false h, Bool.false_and]

theorem finderGrid_column {a : Nat} (ha : a < 16) (y : Int) :
    finderGrid.black ((8 * a + 3 : Nat) : Int) y = finderGrid.black 3 y := by
  by_cases h : 0 ≤ y ∧ y < 153
  · obtain ⟨n, rfl⟩ := Int.eq_ofNat_of_zero_le h.1
    have hn : n < 153 := by omega
    exact (finderGrid_black ha (by decide) hn).trans (finderGrid_black (a := 0) (k := 3) (by decide) (by decide) hn).symm
  · have hh : (finderGrid.height.toNat : Int) = 153 := rfl
    rw [black_outside (by rw [hh]; omega), black_outside (by rw [hh]; omega)]

theorem finderGrid_row {b : Nat} (hb : b < 17) (x : Int) :
    finderGrid.black x ((9 * b + 3 : Nat) : Int) = finderGrid.black x 3 := by
  by_cases h : 0 ≤ x ∧ x < 128
  · obtain ⟨n, rfl⟩ := Int.eq_ofNat_of_zero_le h.1
    have hn : 8 * (n / 8) + n % 8 = n := Nat.div_add_mod n 8
    have h1 := finderGrid_black (a := n / 8) (k := n % 8) (y := 9 * b + 3) (by omega) (by omega) (by omega)
    have h2 := finderGrid_black (a := n / 8) (k := n % 8) (y := 3) (by omega) (by omega) (by omega)
    rw [hn] at h1 h2
    rw [h1, show (9 * b + 3) % 9 = 3 % 9 by omega]
    exact h2.symm
  · have hh : (finderGrid.width.toNat : Int) = 128 := rfl
    rw [black_outside (by rw [hh]; omega), black_outside (by rw [hh]; omega)]

/-- The centre column of the a-th cross of a row. -/
def finderX (a : Nat) : F32 := fdiv (f32OfNat (16 * a + 7)) f2

/-- The centre row of the b-th cross of a column. -/
def finderY (b : Nat) : F32 := fdiv (f32OfNat (18 * b + 7)) f2

theorem finderX_spaced : spaced finderX 16 := by unfold spaced; decide +kernel
theorem finderY_spaced : spaced finderY 17 := by unfold spaced; decide +kernel

theorem finderGrid_vertical {a b : Nat} (ha : a < 16) (hb : b < 17) :
    crossVertical finderGrid ((9 * b + 2 : Nat) : Int) ((8 * a + 3 : Nat) : Int) 3 7 = some (finderY b) := by
  have h0 : ∀ b < 17, crossVertical finderGrid ((9 * b + 2 : Nat) : Int) 3 3 7 = some (finderY b) := by decide +kernel
  rw [← h0 b hb]
  simp only [crossVertical, rayUp, rayDown, finderGrid_column ha]

theorem finderGrid_horizontal {a b : Nat} (ha : a < 16) (hb : b < 17) :
    crossHorizontal finderGrid ((8 * a + 3 : Nat) : Int) ((9 * b + 3 : Nat) : Int) 3 7 = some (finderX a) := by
  have h0 : ∀ a < 16, crossHorizontal finderGrid ((8 * a + 3 : Nat) : Int) 3 3 7 = some (finderX a) := by decide +kernel
  rw [← h0 a ha]
  simp only [crossHorizontal, rayLeft, rayRight, finderGrid_row hb]

theorem finderCentres : (∀ a < 16, ftrunc (centre5 ⟨1, 1, 3, 1, 1⟩ ((8 * a + 7 : Nat) : Int)) = some ((8 * a + 3 : Nat) : Int)) ∧
    (∀ a < 16, ftrunc (finderX a) = some ((8 * a + 3 : Nat) : Int)) ∧
    (∀ b < 17, ftrunc (finderY b) = some ((9 * b + 3 : Nat) : Int)) := by decide +kernel

/-- Where no candidate is about-equal, nothing is merged. -/
theorem mergeFirst_none {ms ci cj : F32} : ∀ {cs : List Pattern}, (∀ c ∈ cs, aboutEqual c ms ci cj = false) →
    mergeFirst ms ci cj cs = none
  | [], _ => rfl
  | c :: cs, h => by
    rw [mergeFirst, h c (by simp), mergeFirst_none (cs := cs) (fun d hd => h d (by simp [hd]))]
    rfl

theorem cross_size : fdiv (f32OfNat 7) f7 = f1 := by decide +kernel

/-- A cross whose checks answer a centre that no candidate is at is recorded, or finds the memory full. -/
theorem confirm5_fresh {im : Image} {s : Runs5} {i j : Nat} {cs : List Pattern} {tj ti tk : Int} {ci cj ms : F32}
    (h1 : ftrunc (centre5 s j) = some tj) (h2 : crossVertical im i tj s.s2 s.total = some ci)
    (h3 : ftrunc ci = some ti) (h4 : crossHorizontal im tj ti s.s2 s.total = some cj) (h5 : ftrunc cj = some tk)
    (h6 : fdiv (f32OfNat s.total) f7 = ms) (h7 : ∀ c ∈ cs, aboutEqual c ms ci cj = false) :
    confirm5 im false s i j cs = if 256 ≤ cs.length then .full else .yes (cs ++ [⟨cj, ci, ms, 1#32⟩]) := by
  simp only [confirm5, h1, h2, h3, h4, h5, h6, Bool.false_and, Bool.false_eq_true, if_false, recordCandidate,
    mergeFirst_none h7]
  by_cases h : 256 ≤ cs.length
  · rw [if_pos (show Config.maxCand ≤ cs.length from h), if_pos h]
  · rw [if_neg (show ¬Config.maxCand ≤ cs.length from h), if_neg h]

theorem finderGrid_confirm {l : List (Nat × Nat)} (hl : ∀ p ∈ l, p.1 < 16 ∧ p.2 < 17) {a b : Nat} (ha : a < 16)
    (hb : b < 17) (hab : (a, b) ∉ l) :
    confirm5 finderGrid false ⟨1, 1, 3, 1, 1⟩ (9 * b + 2) (8 * a + 7) (l.map (gridPattern finderX finderY)) =
      if 256 ≤ l.length then .full else .yes ((l ++ [(a, b)]).map (gridPattern finderX finderY)) := by
  rw [confirm5_fresh (finderCentres.1 a ha) (finderGrid_vertical ha hb) (finderCentres.2.2 b hb)
    (finderGrid_horizontal ha hb) (finderCentres.2.1 a ha) cross_size
    (fresh_place finderX_spaced finderY_spaced hl ha hb hab), List.length_map, List.map_append]
  rfl

/-- The candidates are all confirmed once, so no search ends early on them. -/
theorem earlyStop_grid (x y : Nat → F32) (l : List (Nat × Nat)) : earlyStop (l.map (gridPattern x y)) = false := by
  have h : (l.map (gridPattern x y)).filter (fun c => decide (2 ≤ c.count.toNat)) = [] := by
    rw [List.filter_eq_nil_iff]
    intro c hc
    obtain ⟨p, -, rfl⟩ := List.mem_map.1 hc
    exact (by decide : ¬decide (2 ≤ (1#32).toNat) = true)
  rw [earlyStop, h]
  rfl

/-- The row automaton over one cross. -/
theorem scan5Pixels_cross {im : Image} {i j left : Nat} {cs : List Pattern}
    (h : ∀ k < 8, im.black ((j + k : Nat) : Int) (i : Int) = Nat.testBit 93 k) :
    scan5Pixels im false i (left + 8) j ⟨Runs5.zero, 0, cs, .scanning⟩ =
      scan5Pixels im false i left (j + 8)
        (match confirm5 im false ⟨1, 1, 3, 1, 1⟩ i (j + 7) cs with
          | .no => ⟨⟨3, 1, 1, 1, 0⟩, 3, cs, .scanning⟩
          | .full => ⟨⟨1, 1, 3, 1, 1⟩, 4, cs, .full⟩
          | .yes cands => ⟨Runs5.zero, 0, cands, if earlyStop cands then .stopped else .scanning⟩) := by
  have hr : ratio5 ⟨1, 1, 3, 1, 1⟩ = true := by decide +kernel
  have h0 := h 0 (by decide)
  have h1 := h 1 (by decide)
  have h2 := h 2 (by decide)
  have h3 := h 3 (by decide)
  have h4 := h 4 (by decide)
  have h5 := h 5 (by decide)
  have h6 := h 6 (by decide)
  have h7 := h 7 (by decide)
  rw [show Nat.testBit 93 0 = true from rfl] at h0
  rw [show Nat.testBit 93 1 = false from rfl] at h1
  rw [show Nat.testBit 93 2 = true from rfl] at h2
  rw [show Nat.testBit 93 3 = true from rfl] at h3
  rw [show Nat.testBit 93 4 = true from rfl] at h4
  rw [show Nat.testBit 93 5 = false from rfl] at h5
  rw [show Nat.testBit 93 6 = true from rfl] at h6
  rw [show Nat.testBit 93 7 = false from rfl] at h7
  have e1 : scan5Pixel im false i j ⟨Runs5.zero, 0, cs, .scanning⟩ = ⟨⟨1, 0, 0, 0, 0⟩, 0, cs, .scanning⟩ := by
    rw [scan5Pixel, if_pos (c := im.black (j : Int) (i : Int) = true) h0]; simp [Runs5.bump, Runs5.zero]
  have e2 : scan5Pixel im false i (j + 1) ⟨⟨1, 0, 0, 0, 0⟩, 0, cs, .scanning⟩ = ⟨⟨1, 1, 0, 0, 0⟩, 1, cs, .scanning⟩ := by
    rw [scan5Pixel, if_neg (by rw [h1]; decide)]; simp [Runs5.bump]
  have e3 : scan5Pixel im false i (j + 2) ⟨⟨1, 1, 0, 0, 0⟩, 1, cs, .scanning⟩ = ⟨⟨1, 1, 1, 0, 0⟩, 2, cs, .scanning⟩ := by
    rw [scan5Pixel, if_pos h2]; simp [Runs5.bump]
  have e4 : scan5Pixel im false i (j + 3) ⟨⟨1, 1, 1, 0, 0⟩, 2, cs, .scanning⟩ = ⟨⟨1, 1, 2, 0, 0⟩, 2, cs, .scanning⟩ := by
    rw [scan5Pixel, if_pos h3]; simp [Runs5.bump]
  have e5 : scan5Pixel im false i (j + 4) ⟨⟨1, 1, 2, 0, 0⟩, 2, cs, .scanning⟩ = ⟨⟨1, 1, 3, 0, 0⟩, 2, cs, .scanning⟩ := by
    rw [scan5Pixel, if_pos h4]; simp [Runs5.bump]
  have e6 : scan5Pixel im false i (j + 5) ⟨⟨1, 1, 3, 0, 0⟩, 2, cs, .scanning⟩ = ⟨⟨1, 1, 3, 1, 0⟩, 3, cs, .scanning⟩ := by
    rw [scan5Pixel, if_neg (by rw [h5]; decide)]; simp [Runs5.bump]
  have e7 : scan5Pixel im false i (j + 6) ⟨⟨1, 1, 3, 1, 0⟩, 3, cs, .scanning⟩ = ⟨⟨1, 1, 3, 1, 1⟩, 4, cs, .scanning⟩ := by
    rw [scan5Pixel, if_pos h6]; simp [Runs5.bump]
  simp only [scan5Pixels, if_true, e1, e2, e3, e4, e5, e6, e7]
  congr 1
  rw [scan5Pixel, if_neg (by rw [h7]; decide), if_neg (by simp), if_neg (by simp), if_pos hr]
  all_goals rfl

/-- A search that is over reads no more pixels. -/
theorem scan5Pixels_over {im : Image} {i left j : Nat} {z : Scan5} (h : z.progress ≠ .scanning) :
    scan5Pixels im false i left j z = z := by
  cases left with
  | zero => rfl
  | succ n => rw [scan5Pixels, if_neg h]

theorem finderGrid_pixels {a b k : Nat} (ha : a < 16) (hb : b < 17) (hk : k < 8) :
    finderGrid.black ((8 * a + k : Nat) : Int) ((9 * b + 2 : Nat) : Int) = Nat.testBit 93 k := by
  rw [finderGrid_black ha hk (by omega), show (9 * b + 2) % 9 = 2 by omega]
  rfl

/-- One row of crosses is recorded whole while the memory has room. -/
theorem finderGrid_cross_row {l : List (Nat × Nat)} {b : Nat} (hb : b < 16) (hlen : l.length = 16 * b)
    (hl : ∀ p ∈ l, p.1 < 16 ∧ p.2 < b) : ∀ n a, a + n = 16 →
    scan5Pixels finderGrid false (9 * b + 2) (8 * n) (8 * a)
        ⟨Runs5.zero, 0, (l ++ rowPlaces b a).map (gridPattern finderX finderY), .scanning⟩ =
      ⟨Runs5.zero, 0, (l ++ rowPlaces b 16).map (gridPattern finderX finderY), .scanning⟩ := by
  intro n
  induction n with
  | zero => intro a ha; rw [show a = 16 by omega]; rfl
  | succ n ih =>
    intro a ha
    have hin : ∀ p ∈ l ++ rowPlaces b a, p.1 < 16 ∧ p.2 < 17 := by
      intro p hp
      rcases List.mem_append.1 hp with h | h
      · exact ⟨(hl p h).1, by have := (hl p h).2; omega⟩
      · have := mem_rowPlaces.1 h; omega
    have hnew : (a, b) ∉ l ++ rowPlaces b a := by
      intro hp
      rcases List.mem_append.1 hp with h | h
      · have := (hl _ h).2; simp at this
      · have := (mem_rowPlaces.1 h).1; simp at this
    rw [show 8 * (n + 1) = 8 * n + 8 by omega,
      scan5Pixels_cross (fun k hk => finderGrid_pixels (by omega) (by omega) hk),
      finderGrid_confirm hin (by omega) (by omega) hnew,
      if_neg (by simp [hlen, rowPlaces]; omega)]
    simp only [earlyStop_grid, Bool.false_eq_true, if_false]
    rw [List.append_assoc, ← rowPlaces_succ, show 8 * a + 8 = 8 * (a + 1) by omega]
    exact ih (a + 1) (by omega)

/-- With 256 candidates the next row of crosses finds the memory full. -/
theorem finderGrid_full_row {l : List (Nat × Nat)} (hlen : l.length = 256) (hl : ∀ p ∈ l, p.1 < 16 ∧ p.2 < 16) :
    (scan5Row finderGrid false 146 (l.map (gridPattern finderX finderY))).progress = .full := by
  have hc := finderGrid_confirm (l := l) (a := 0) (b := 16) (fun p hp => ⟨(hl p hp).1, by have := (hl p hp).2; omega⟩)
    (by decide) (by decide) (fun h => by have := (hl _ h).2; simp at this)
  rw [if_pos (by omega)] at hc
  have hx := scan5Pixels_cross (im := finderGrid) (i := 146) (j := 0) (left := 120)
    (cs := l.map (gridPattern finderX finderY))
    (fun k hk => finderGrid_pixels (a := 0) (b := 16) (by decide) (by decide) hk)
  rw [show (0 : Nat) + 7 = 8 * 0 + 7 from rfl, show (146 : Nat) = 9 * 16 + 2 from rfl, hc,
    scan5Pixels_over (z := ⟨⟨1, 1, 3, 1, 1⟩, 4, l.map (gridPattern finderX finderY), .full⟩) (fun h => nomatch h)] at hx
  rw [scan5Row, show finderGrid.width.toNat = 120 + 8 from rfl, show (146 : Nat) = 9 * 16 + 2 from rfl, hx]
  rfl

theorem scan5RowEnd_stays {im : Image} {i : Nat} {z : Scan5} (h : z.runs.s0 = 0) : scan5RowEnd im false i z = z := by
  have hr : ratio5 z.runs = false := by rw [ratio5, if_pos (Or.inl h)]
  rw [scan5RowEnd, hr, Bool.and_false, if_neg (by decide)]

/-- A white row leaves the candidates. -/
theorem scan5Row_blank {im : Image} {i : Nat} {cs : List Pattern} (h : ∀ j : Nat, im.black (j : Int) (i : Int) = false) :
    ∃ r c, scan5Row im false i cs = ⟨r, c, cs, .scanning⟩ := by
  have hp : ∀ left j (z : Scan5), z.runs.s0 = 0 → z.cs ≤ 1 → z.progress = .scanning →
      ∃ r c, scan5Pixels im false i left j z = ⟨r, c, z.cands, .scanning⟩ ∧ r.s0 = 0 := by
    intro left
    induction left with
    | zero => exact fun j z h0 _ hz => ⟨z.runs, z.cs, by cases z; simp_all [scan5Pixels], h0⟩
    | succ n ih =>
      intro j z h0 h1 hz
      rw [scan5Pixels, if_pos hz]
      have hb : scan5Pixel im false i j z =
          { z with runs := z.runs.bump 1, cs := 1 } := by
        rw [scan5Pixel, if_neg (by rw [h j]; decide)]
        rcases (by omega : z.cs = 0 ∨ z.cs = 1) with hc | hc
        · rw [hc]; rfl
        · rw [hc]; cases z; simp_all
      rw [hb]
      exact ih (j + 1) _ h0 (Nat.le_refl 1) hz
  obtain ⟨r, c, hr, h0⟩ := hp im.width.toNat 0 ⟨Runs5.zero, 0, cs, .scanning⟩ rfl (Nat.zero_le 1) rfl
  exact ⟨r, c, by rw [scan5Row, hr, scan5RowEnd_stays h0]⟩

theorem finderGrid_blank {b r : Nat} (hb : b < 17) (hr : r = 5 ∨ r = 8) (j : Nat) :
    finderGrid.black (j : Int) ((9 * b + r : Nat) : Int) = false := by
  by_cases hj : j < 128
  · have h := finderGrid_black (a := j / 8) (k := j % 8) (y := 9 * b + r) (by omega) (by omega) (by omega)
    rw [Nat.div_add_mod] at h
    rw [h]
    rcases hr with rfl | rfl
    · rw [show (9 * b + 5) % 9 = 5 by omega]; simp [crossRow]
    · rw [show (9 * b + 8) % 9 = 8 by omega]; simp [crossRow]
  · have hh : (finderGrid.width.toNat : Int) = 128 := rfl
    exact black_outside (by rw [hh]; omega)

theorem finderGrid_rows : ∀ n b, b + n = 16 → ∀ fuel, 3 * n + 1 ≤ fuel → ∀ l : List (Nat × Nat), l.length = 16 * b →
    (∀ p ∈ l, p.1 < 16 ∧ p.2 < b) →
    (scan5Rows finderGrid false 3 fuel (9 * b + 2) (l.map (gridPattern finderX finderY))).2 = .full := by
  have hH : finderGrid.height.toNat = 153 := rfl
  intro n
  induction n with
  | zero =>
    intro b hb fuel hf l hlen hl
    obtain rfl : b = 16 := by omega
    obtain ⟨m, rfl⟩ : ∃ m, fuel = m + 1 := ⟨fuel - 1, by omega⟩
    have h := finderGrid_full_row (l := l) (by omega) hl
    rw [show (9 * 16 + 2 : Nat) = 146 from rfl, scan5Rows, if_pos (by rw [hH]; decide)]
    simp only [h]
    rfl
  | succ n ih =>
    intro b hb fuel hf l hlen hl
    obtain ⟨m, rfl⟩ : ∃ m, fuel = m + 3 := ⟨fuel - 3, by omega⟩
    have hw : finderGrid.width.toNat = 8 * 16 := rfl
    have hp := finderGrid_cross_row (b := b) (by omega) hlen hl 16 0 (by omega)
    rw [show rowPlaces b 0 = [] from rfl, List.append_nil, show 8 * 0 = 0 from rfl] at hp
    have h2 : scan5Row finderGrid false (9 * b + 2) (l.map (gridPattern finderX finderY)) =
        ⟨Runs5.zero, 0, (l ++ rowPlaces b 16).map (gridPattern finderX finderY), .scanning⟩ := by
      rw [scan5Row, hw, hp, scan5RowEnd_stays rfl]
    obtain ⟨r5, c5, h5⟩ := scan5Row_blank (cs := (l ++ rowPlaces b 16).map (gridPattern finderX finderY))
      (finderGrid_blank (b := b) (r := 5) (by omega) (by decide))
    obtain ⟨r8, c8, h8⟩ := scan5Row_blank (cs := (l ++ rowPlaces b 16).map (gridPattern finderX finderY))
      (finderGrid_blank (b := b) (r := 8) (by omega) (by decide))
    rw [scan5Rows, if_pos (by rw [hH]; omega)]
    simp only [h2, if_true]
    rw [scan5Rows, if_pos (by rw [hH]; omega)]
    simp only [show 9 * b + 2 + 3 = 9 * b + 5 from rfl, h5, if_true]
    rw [scan5Rows, if_pos (by rw [hH]; omega)]
    simp only [show 9 * b + 5 + 3 = 9 * b + 8 from rfl, h8, if_true]
    rw [show 9 * b + 8 + 3 = 9 * (b + 1) + 2 by omega]
    refine ih (b + 1) (by omega) m (by omega) _ ?_ ?_
    · simp [hlen, rowPlaces]; omega
    · intro p hp
      rcases List.mem_append.1 hp with h | h
      · have := hl p h; omega
      · have := mem_rowPlaces.1 h; omega

/-- The finder scan of the grid of crosses finds the candidate memory full. -/
theorem finderGrid_scan : (scan5 finderGrid false false).2 = .full :=
  finderGrid_rows 16 0 (by decide) 154 (by decide) [] rfl (fun _ h => nomatch h)

/-! ## PFALIGN -/

/-- 18 × 17 dots of one pixel: black where the column is even and the row is odd. -/
def dotGrid : Image := ⟨35#16, 35#16, (List.range 35).map (fun y => if y % 2 = 1 then (4 ^ 18 - 1) / 3 else 0)⟩

theorem dotGrid_black {x y : Nat} (hx : x < 35) (hy : y < 35) :
    dotGrid.black (x : Int) (y : Int) = (decide (x % 2 = 0) && decide (y % 2 = 1)) := by
  have h0 : ∀ x < 35, Nat.testBit ((4 ^ 18 - 1) / 3) x = decide (x % 2 = 0) := by decide +kernel
  have h1 : dotGrid.rows.getD y 0 = if y % 2 = 1 then (4 ^ 18 - 1) / 3 else 0 := by
    simp [dotGrid, List.getD, hy]
  have h2 : (0 : Int) ≤ (x : Int) ∧ (x : Int) < (dotGrid.width.toNat : Int) ∧
      (0 : Int) ≤ (y : Int) ∧ (y : Int) < (dotGrid.height.toNat : Int) := by
    rw [show dotGrid.width.toNat = 35 from rfl, show dotGrid.height.toNat = 35 from rfl]; omega
  rw [Image.black, decide_eq_true h2, Int.toNat_natCast, Int.toNat_natCast, h1, Bool.true_and]
  by_cases h : y % 2 = 1
  · rw [if_pos h, h0 x hx, decide_eq_true h, Bool.and_true]
  · rw [if_neg h, decide_eq_false h, Bool.and_false, Nat.zero_testBit]

theorem dotGrid_column {a : Nat} (ha : a < 16) (y : Int) :
    dotGrid.black ((2 * a + 2 : Nat) : Int) y = dotGrid.black 2 y := by
  by_cases h : 0 ≤ y ∧ y < 35
  · obtain ⟨n, rfl⟩ := Int.eq_ofNat_of_zero_le h.1
    have hn : n < 35 := by omega
    have h1 := dotGrid_black (x := 2 * a + 2) (y := n) (by omega) hn
    have h2 := dotGrid_black (x := 2) (y := n) (by decide) hn
    rw [h1, show (2 * a + 2) % 2 = 2 % 2 by omega]
    exact h2.symm
  · have hh : (dotGrid.height.toNat : Int) = 35 := rfl
    rw [black_outside (by rw [hh]; omega), black_outside (by rw [hh]; omega)]

/-- The centre column of the a-th dot recorded in a row. -/
def dotX (a : Nat) : F32 := fdiv (f32OfNat (4 * a + 5)) f2

/-- The centre row of the b-th dot of a column. -/
def dotY (b : Nat) : F32 := fdiv (f32OfNat (4 * b + 3)) f2

theorem dotX_spaced : spaced dotX 16 := by unfold spaced; decide +kernel
theorem dotY_spaced : spaced dotY 17 := by unfold spaced; decide +kernel

theorem dotGrid_vertical {a b : Nat} (ha : a < 16) (hb : b < 17) :
    crossVertical3 dotGrid f1 ((2 * b + 1 : Nat) : Int) ((2 * a + 2 : Nat) : Int) 2 3 = some (dotY b) := by
  have h0 : ∀ b < 17, crossVertical3 dotGrid f1 ((2 * b + 1 : Nat) : Int) 2 2 3 = some (dotY b) := by decide +kernel
  rw [← h0 b hb]
  simp only [crossVertical3, rayUp, rayDown, dotGrid_column ha]

theorem dotCentres : ∀ a < 16, centre3 ⟨1, 1, 1⟩ ((2 * a + 4 : Nat) : Int) = dotX a ∧
    ftrunc (dotX a) = some ((2 * a + 2 : Nat) : Int) := by decide +kernel

theorem dot_size : fdiv (f32OfNat 3) f3 = f1 := by decide +kernel
theorem dot_ratio : ratio3 f1 ⟨1, 1, 1⟩ = true := by decide +kernel
theorem dot_ratio_first : ratio3 f1 ⟨0, 1, 1⟩ = false := by decide +kernel
theorem dot_ratio_last : ratio3 f1 ⟨1, 1, 0⟩ = false := by decide +kernel

/-- A centre that no candidate is at is recorded, or finds the memory full. -/
theorem handle3_fresh {im : Image} {ams : F32} {s : Runs3} {i j : Nat} {cs : List Pattern} {tj : Int} {ci cj ms : F32}
    (h1 : centre3 s j = cj) (h2 : ftrunc cj = some tj) (h3 : crossVertical3 im ams i tj (2 * s.s1) s.total = some ci)
    (h4 : fdiv (f32OfNat s.total) f3 = ms) (h5 : ∀ c ∈ cs, aboutEqual c ms ci cj = false) :
    handle3 im ams s i j cs = if 256 ≤ cs.length then .full else .none (cs ++ [⟨cj, ci, ms, 1#32⟩]) := by
  have hf : cs.find? (fun c => aboutEqual c ms ci cj) = none :=
    List.find?_eq_none.2 (fun c hc => by rw [h5 c hc]; decide)
  simp only [handle3, h1, h2, h3, h4, hf]

theorem dotGrid_handle {l : List (Nat × Nat)} (hl : ∀ p ∈ l, p.1 < 16 ∧ p.2 < 17) {a b : Nat} (ha : a < 16)
    (hb : b < 17) (hab : (a, b) ∉ l) :
    handle3 dotGrid f1 ⟨1, 1, 1⟩ (2 * b + 1) (2 * a + 4) (l.map (gridPattern dotX dotY)) =
      if 256 ≤ l.length then .full else .none ((l ++ [(a, b)]).map (gridPattern dotX dotY)) := by
  rw [handle3_fresh (dotCentres a ha).1 (dotCentres a ha).2 (dotGrid_vertical ha hb) dot_size
    (fresh_place dotX_spaced dotY_spaced hl ha hb hab), List.length_map, List.map_append]
  rfl

/-- The row automaton over a white pixel and the dot after it. -/
theorem scan3Pixels_dot {im : Image} {i j left s0 : Nat} {cs : List Pattern} (h0 : im.black (j : Int) (i : Int) = false)
    (h1 : im.black ((j + 1 : Nat) : Int) (i : Int) = true) :
    scan3Pixels im f1 i (left + 2) j ⟨⟨s0, 1, 0⟩, 1, cs, .scanning⟩ =
      scan3Pixels im f1 i left (j + 2)
        { scan3Triple im f1 i (j + 1) ⟨⟨s0, 1, 1⟩, 2, cs, .scanning⟩ with runs := ⟨1, 1, 0⟩, cs := 1 } := by
  have e0 : scan3Pixel im f1 i j ⟨⟨s0, 1, 0⟩, 1, cs, .scanning⟩ = ⟨⟨s0, 1, 1⟩, 2, cs, .scanning⟩ := by
    rw [scan3Pixel, if_neg (c := im.black (j : Int) (i : Int) = true) (by rw [h0]; decide)]; simp [Runs3.bump]
  have e1 : scan3Pixel im f1 i (j + 1) ⟨⟨s0, 1, 1⟩, 2, cs, .scanning⟩ =
      { scan3Triple im f1 i (j + 1) ⟨⟨s0, 1, 1⟩, 2, cs, .scanning⟩ with runs := ⟨1, 1, 0⟩, cs := 1 } := by
    rw [scan3Pixel, if_pos h1]; simp
  simp only [scan3Pixels, if_true, e0, e1]

/-- A search that is over reads no more pixels. -/
theorem scan3Pixels_over {im : Image} {ams : F32} {i left j : Nat} {z : Scan3} (h : z.progress ≠ .scanning) :
    scan3Pixels im ams i left j z = z := by
  cases left with
  | zero => rfl
  | succ n => rw [scan3Pixels, if_neg h]

/-- The pixels of a dot row. -/
theorem dotGrid_pixel {x b : Nat} (hb : b < 17) (hx : x < 35) :
    dotGrid.black (x : Int) ((2 * b + 1 : Nat) : Int) = decide (x % 2 = 0) := by
  rw [dotGrid_black hx (by omega), decide_eq_true (show (2 * b + 1) % 2 = 1 by omega), Bool.and_true]

/-- A dot row up to its second dot: nothing is recorded. -/
theorem dotGrid_row_start {b left : Nat} (hb : b < 17) (cs : List Pattern) :
    scan3Pixels dotGrid f1 (2 * b + 1) (left + 3) 0 ⟨Runs3.zero, 0, cs, .scanning⟩ =
      scan3Pixels dotGrid f1 (2 * b + 1) left 3 ⟨⟨1, 1, 0⟩, 1, cs, .scanning⟩ := by
  have hp := fun x => dotGrid_pixel (x := x) hb
  have e : scan3Pixel dotGrid f1 (2 * b + 1) 0 ⟨Runs3.zero, 0, cs, .scanning⟩ = ⟨⟨0, 1, 0⟩, 1, cs, .scanning⟩ := by
    rw [scan3Pixel, if_pos (c := dotGrid.black (0 : Nat) ((2 * b + 1 : Nat) : Int) = true) (hp 0 (by decide))]; simp [Runs3.bump, Runs3.zero]
  rw [scan3Pixels, if_pos rfl, e, scan3Pixels_dot (hp 1 (by decide)) (hp 2 (by decide)), scan3Triple,
    if_neg (by simp [dot_ratio_first])]

/-- A dot row from its second dot on is recorded whole while the memory has room. -/
theorem dotGrid_dot_row {l : List (Nat × Nat)} {b : Nat} (hb : b < 17) (hlen : l.length ≤ 240)
    (hl : ∀ p ∈ l, p.1 < 16 ∧ p.2 < 17 ∧ p.2 ≠ b) : ∀ n a, a + n = 16 →
    scan3Pixels dotGrid f1 (2 * b + 1) (2 * n) (2 * a + 3)
        ⟨⟨1, 1, 0⟩, 1, (l ++ rowPlaces b a).map (gridPattern dotX dotY), .scanning⟩ =
      ⟨⟨1, 1, 0⟩, 1, (l ++ rowPlaces b 16).map (gridPattern dotX dotY), .scanning⟩ := by
  intro n
  induction n with
  | zero => intro a ha; rw [show a = 16 by omega]; rfl
  | succ n ih =>
    intro a ha
    have hin : ∀ p ∈ l ++ rowPlaces b a, p.1 < 16 ∧ p.2 < 17 := by
      intro p hp
      rcases List.mem_append.1 hp with h | h
      · have := hl p h; omega
      · have := mem_rowPlaces.1 h; omega
    have hnew : (a, b) ∉ l ++ rowPlaces b a := by
      intro hp
      rcases List.mem_append.1 hp with h | h
      · exact (hl _ h).2.2 rfl
      · have := (mem_rowPlaces.1 h).1; simp at this
    rw [show 2 * (n + 1) = 2 * n + 2 by omega,
      scan3Pixels_dot (by rw [dotGrid_pixel hb (by omega)]; exact decide_eq_false (by omega))
        (by rw [dotGrid_pixel hb (by omega)]; exact decide_eq_true (by omega)),
      scan3Triple, if_pos dot_ratio]
    simp only [show 2 * a + 3 + 1 = 2 * a + 4 from rfl]
    rw [dotGrid_handle hin (by omega) (by omega) hnew, if_neg (by simp [rowPlaces]; omega)]
    simp only [List.append_assoc, ← rowPlaces_succ]
    exact ih (a + 1) (by omega)

/-- A row that starts black is scanned from its first pixel. -/
theorem dotGrid_scan_row {b : Nat} (hb : b < 17) (cs : List Pattern) :
    scan3Row dotGrid f1 0 35 (2 * b + 1) cs =
      (let z := scan3Pixels dotGrid f1 (2 * b + 1) 32 3 ⟨⟨1, 1, 0⟩, 1, cs, .scanning⟩
       if z.progress = .scanning then scan3Triple dotGrid f1 (2 * b + 1) 35 z else z) := by
  have hs : leadingWhite dotGrid (2 * b + 1) 35 0 = 0 := by
    rw [leadingWhite, if_pos (c := dotGrid.black (0 : Nat) ((2 * b + 1 : Nat) : Int) = true)
      (dotGrid_pixel (x := 0) hb (by decide))]
  simp only [scan3Row, hs, Nat.sub_zero, Nat.add_zero, Nat.zero_add]
  rw [dotGrid_row_start (left := 32) hb]

/-- A whole dot row. -/
theorem dotGrid_full_dot_row {l : List (Nat × Nat)} {b : Nat} (hb : b < 17) (hlen : l.length ≤ 240)
    (hl : ∀ p ∈ l, p.1 < 16 ∧ p.2 < 17 ∧ p.2 ≠ b) :
    scan3Row dotGrid f1 0 35 (2 * b + 1) (l.map (gridPattern dotX dotY)) =
      ⟨⟨1, 1, 0⟩, 1, (l ++ rowPlaces b 16).map (gridPattern dotX dotY), .scanning⟩ := by
  have hp := dotGrid_dot_row hb hlen hl 16 0 rfl
  rw [show rowPlaces b 0 = [] from rfl, List.append_nil, show 2 * 16 = 32 from rfl, show 2 * 0 + 3 = 3 from rfl] at hp
  rw [dotGrid_scan_row hb, hp]
  simp only [if_true]
  rw [scan3Triple, if_neg (by simp [dot_ratio_last])]

/-- With 256 candidates the last dot row finds the memory full. -/
theorem dotGrid_last_row {l : List (Nat × Nat)} (hlen : l.length = 256) (hl : ∀ p ∈ l, p.1 < 16 ∧ p.2 < 16) :
    (scan3Row dotGrid f1 0 35 33 (l.map (gridPattern dotX dotY))).progress = .full := by
  have hc := dotGrid_handle (l := l) (a := 0) (b := 16) (fun p hp => by have := hl p hp; omega) (by decide) (by decide)
    (fun h => by have := (hl _ h).2; simp at this)
  rw [if_pos (by omega), show 2 * 0 + 4 = 4 from rfl, show 2 * 16 + 1 = 33 from rfl] at hc
  have hx := scan3Pixels_dot (im := dotGrid) (i := 33) (j := 3) (left := 30) (s0 := 1)
    (cs := l.map (gridPattern dotX dotY)) (dotGrid_black (x := 3) (y := 33) (by decide) (by decide))
    (dotGrid_black (x := 4) (y := 33) (by decide) (by decide))
  rw [scan3Triple, if_pos dot_ratio] at hx
  simp only [show 3 + 1 = 4 from rfl, hc] at hx
  rw [scan3Pixels_over (z := ⟨⟨1, 1, 0⟩, 1, l.map (gridPattern dotX dotY), .full⟩) (fun h => nomatch h)] at hx
  rw [show 33 = 2 * 16 + 1 from rfl, dotGrid_scan_row (by decide), show 2 * 16 + 1 = 33 from rfl,
    show 32 = 30 + 2 from rfl, hx]
  rfl

/-- A white row of the region leaves the candidates. -/
theorem dotGrid_blank {i : Nat} (hi : i < 35) (he : i % 2 = 0) (cs : List Pattern) :
    scan3Row dotGrid f1 0 35 i cs = ⟨Runs3.zero, 0, cs, .scanning⟩ := by
  have hw : ∀ left j, left + j = 35 → leadingWhite dotGrid i left j = left := by
    intro left
    induction left with
    | zero => exact fun _ _ => rfl
    | succ n ih =>
      intro j hj
      rw [leadingWhite, dotGrid_black (by omega) hi, decide_eq_false (show ¬i % 2 = 1 by omega), Bool.and_false,
        if_neg (by decide), ih (j + 1) (by omega)]
  have hr : ratio3 f1 Runs3.zero = false := by decide +kernel
  simp only [scan3Row, hw 35 0 rfl, Nat.sub_self, scan3Pixels, if_true]
  rw [scan3Triple, if_neg (by simp [hr])]

/-- Four rows of the middle-out order: two dot rows and two white rows. -/
theorem dotGrid_rows : ∀ n t, t + n = 8 → ∀ l : List (Nat × Nat), l.length = 32 * t →
    (∀ p ∈ l, p.1 < 16 ∧ 8 ≤ p.2 + t ∧ p.2 < 8 + t) →
    (scan3Rows dotGrid f1 0 0 35 35 (4 * n + 3) (4 * t) (l.map (gridPattern dotX dotY))).2 = .full := by
  intro n
  induction n with
  | zero =>
    intro t ht l hlen hl
    obtain rfl : t = 8 := by omega
    have h := dotGrid_last_row (l := l) (by omega) (fun p hp => by have := hl p hp; omega)
    rw [show 4 * 0 + 3 = 2 + 1 from rfl, scan3Rows, show middleOut 0 35 (4 * 8) = 33 from rfl]
    simp only [h]
    rfl
  | succ n ih =>
    intro t ht l hlen hl
    have m0 : middleOut 0 35 (4 * t) = 2 * (8 + t) + 1 := by rw [middleOut, if_pos (by omega)]; omega
    have m1 : middleOut 0 35 (4 * t + 1) = 16 - 2 * t := by rw [middleOut, if_neg (by omega)]; omega
    have m2 : middleOut 0 35 (4 * t + 2) = 18 + 2 * t := by rw [middleOut, if_pos (by omega)]; omega
    have m3 : middleOut 0 35 (4 * t + 3) = 2 * (7 - t) + 1 := by rw [middleOut, if_neg (by omega)]; omega
    have h0 := dotGrid_full_dot_row (l := l) (b := 8 + t) (by omega) (by omega)
      (fun p hp => by have := hl p hp; omega)
    have hl1 : ∀ p ∈ l ++ rowPlaces (8 + t) 16, p.1 < 16 ∧ 8 ≤ p.2 + t ∧ p.2 < 9 + t := by
      intro p hp
      rcases List.mem_append.1 hp with h | h
      · have := hl p h; omega
      · have := mem_rowPlaces.1 h; omega
    have hlen1 : (l ++ rowPlaces (8 + t) 16).length = 32 * t + 16 := by simp [rowPlaces, hlen]
    have h3 := dotGrid_full_dot_row (l := l ++ rowPlaces (8 + t) 16) (b := 7 - t) (by omega) (by omega)
      (fun p hp => by have := hl1 p hp; omega)
    rw [show 4 * (n + 1) + 3 = 4 * n + 3 + 3 + 1 by omega, scan3Rows, m0]
    simp only [h0, if_true]
    rw [scan3Rows, m1, dotGrid_blank (by omega) (by omega)]
    simp only [if_true]
    rw [scan3Rows, show 4 * t + 1 + 1 = 4 * t + 2 from rfl, m2, dotGrid_blank (by omega) (by omega)]
    simp only [if_true]
    rw [scan3Rows, show 4 * t + 2 + 1 = 4 * t + 3 from rfl, m3]
    simp only [h3, if_true]
    rw [show 4 * t + 3 + 1 = 4 * (t + 1) by omega]
    refine ih (t + 1) (by omega) _ ?_ ?_
    · simp [rowPlaces, hlen]; omega
    · intro p hp
      rcases List.mem_append.1 hp with h | h
      · have := hl1 p h; omega
      · have := mem_rowPlaces.1 h; omega

/-- The alignment scan of the grid of dots finds the candidate memory full. -/
theorem dotGrid_scan : (scan3 dotGrid f1 0 0 35 35).2 = .full :=
  dotGrid_rows 8 0 rfl [] rfl (fun _ h => nomatch h)

/-! ## The witnesses -/

/-- The state after reset with an image at the port, AMS = 1 and a region set. -/
def capacityState (im : Image) (w h : BitVec 16) : State :=
  { State.reset with port := im, ams := f1, rgx := 0#16, rgy := 0#16, rgw := w, rgh := h }

/-- Obligations.PffindResult: an image on which the 257th candidate finds the memory full. -/
theorem test_witness_PffindResult_capacity : imageOk (capacityState finderGrid 0#16 0#16) ∧
    (let s := capacityState finderGrid 0#16 0#16
     (scan5 s.port s.ctrl.tryh s.ctrl.pure).2 = .full) :=
  ⟨by unfold imageOk; decide, finderGrid_scan⟩

/-- Obligations.PfalignResult: an image and a region on which the 257th candidate finds the memory full. -/
theorem test_witness_PfalignResult_capacity : imageOk (capacityState dotGrid 35#16 35#16) ∧
    regionInside (capacityState dotGrid 35#16 35#16) ∧
    (let s := capacityState dotGrid 35#16 35#16
     (scan3 s.port s.ams s.rgx.toNat s.rgy.toNat s.rgw.toNat s.rgh.toNat).2 = .full) :=
  ⟨by unfold imageOk; decide, by unfold regionInside; decide, dotGrid_scan⟩

end Sys2Proof.Tests
end

