-- ==== Sys2Proof/Tests/Slice0.lean ====
section
/-! SUPPORT. Tests: ill-formed commands, words written out from the encoding, one small step of every command with the
values the spec's rules and 95_test_vectors.md give, and a witness for the hypotheses of every statement. -/

namespace Sys2Proof.Tests

open Sys2Proof Sys2Proof.Machine

set_option Elab.async false

/-! ## Well-formedness (30_encoding.md R111, R112) -/

theorem test_configuration_legal : Config.legal Config.prim Config.gbase = true := by decide
theorem test_configuration_bad_prim : Config.legal 0x100 0 = false := by decide
theorem test_configuration_bad_base : Config.legal 0x11D 2 = false := by decide

theorem test_wf_matrix_index : Instr.wellFormed (.xsq2q 4#3) = false := by decide
theorem test_wf_matrix_index_q2sq : Instr.wellFormed (.xq2sq 7#3) = false := by decide
theorem test_wf_matrix_index_q2q : Instr.wellFormed (.xq2q 5#3) = false := by decide
theorem test_wf_matrix_index_adj : Instr.wellFormed (.xadj 0#3 4#3) = false := by decide
theorem test_wf_matrix_index_times : Instr.wellFormed (.xtimes 3#3 3#3 4#3) = false := by decide
theorem test_wf_matrix_index_pts : Instr.wellFormed (.xpts 4#3) = false := by decide
theorem test_wf_matrix_index_grid : Instr.wellFormed (.grid 6#3) = false := by decide
theorem test_wf_matrix_index_qrgrid : Instr.wellFormed (.xqrgrid 4#3 0#3) = false := by decide
theorem test_wf_flag : Instr.wellFormed (.xqrgrid 3#3 2#3) = false := by decide
theorem test_wf_pdiv_destinations : Instr.wellFormed (.pdiv 4#3 4#3 0#3 1#3) = false := by decide
theorem test_wf_rseuc_destinations : Instr.wellFormed (.rseuc 7#3 7#3 0#3 1#3) = false := by decide
theorem test_wf_boundary : Instr.wellFormed (.xtimes 3#3 3#3 3#3) = true := by decide
theorem test_wf_flag_boundary : Instr.wellFormed (.xqrgrid 3#3 1#3) = true := by decide
theorem test_wf_same_sources : Instr.wellFormed (.pdiv 4#3 5#3 4#3 5#3) = true := by decide

/-! ## Decoding: a word for every command, written out as (Q << 17) | (B << 14) | (A << 11) | (D << 8) | OP
(30_encoding.md R110, R116) -/

theorem test_decode_nop : decodeWord 0x00000000#32 = .ok .nop := by decide
theorem test_decode_gadd : decodeWord 0x00000001#32 = .ok .gadd := by decide
theorem test_decode_gmul : decodeWord 0x00000002#32 = .ok .gmul := by decide
theorem test_decode_ginv : decodeWord 0x00000003#32 = .ok .ginv := by decide
theorem test_decode_gexp : decodeWord 0x00000004#32 = .ok .gexp := by decide
theorem test_decode_glog : decodeWord 0x00000005#32 = .ok .glog := by decide
theorem test_decode_sreset : decodeWord 0x0000000F#32 = .ok .sreset := by decide
/-- A = 6, D = 5: (6 << 11) | (5 << 8) | 0x10. -/
theorem test_decode_pnorm : decodeWord 0b00000000000000000011010100010000#32 = .ok (.pnorm 5#3 6#3) := by decide
/-- B = 1, A = 0, D = 2 (30_encoding.md R116). -/
theorem test_decode_padd : decodeWord 0x00004211#32 = .ok (.padd 2#3 0#3 1#3) := by decide
/-- B = 7, A = 5, D = 3: (7 << 14) | (5 << 11) | (3 << 8) | 0x12. -/
theorem test_decode_pmul : decodeWord 0b00000000000000011110101100010010#32 = .ok (.pmul 3#3 5#3 7#3) := by decide
theorem test_decode_pscale : decodeWord 0x00001A13#32 = .ok (.pscale 2#3 3#3) := by decide
theorem test_decode_pmulmono : decodeWord 0x00003914#32 = .ok (.pmulmono 1#3 7#3) := by decide
theorem test_decode_pmono : decodeWord 0x00000415#32 = .ok (.pmono 4#3) := by decide
/-- Q = 5, B = 1, A = 0, D = 4 (30_encoding.md R116). -/
theorem test_decode_pdiv : decodeWord 0x000A4416#32 = .ok (.pdiv 4#3 5#3 0#3 1#3) := by decide
theorem test_decode_peval : decodeWord 0x00003017#32 = .ok (.peval 6#3) := by decide
theorem test_decode_pcoef : decodeWord 0x00000818#32 = .ok (.pcoef 1#3) := by decide
theorem test_decode_rsdec : decodeWord 0x00000020#32 = .ok .rsdec := by decide
theorem test_decode_rssyn : decodeWord 0x00000521#32 = .ok (.rssyn 5#3) := by decide
/-- Q = 3, B = 0, A = 1, D = 2: (3 << 17) | (1 << 11) | (2 << 8) | 0x22. -/
theorem test_decode_rseuc : decodeWord 0x00060A22#32 = .ok (.rseuc 2#3 3#3 1#3 0#3) := by decide
theorem test_decode_rschien : decodeWord 0x00001023#32 = .ok (.rschien 2#3) := by decide
theorem test_decode_rsforney : decodeWord 0x00001824#32 = .ok (.rsforney 3#3) := by decide
theorem test_decode_rsapply : decodeWord 0x00000025#32 = .ok .rsapply := by decide
theorem test_decode_xsq2q : decodeWord 0x00000330#32 = .ok (.xsq2q 3#3) := by decide
theorem test_decode_xq2sq : decodeWord 0x00000131#32 = .ok (.xq2sq 1#3) := by decide
theorem test_decode_xq2q : decodeWord 0x00000232#32 = .ok (.xq2q 2#3) := by decide
theorem test_decode_xadj : decodeWord 0x00000933#32 = .ok (.xadj 1#3 1#3) := by decide
/-- B = 2, A = 1, D = 3: (2 << 14) | (1 << 11) | (3 << 8) | 0x34. -/
theorem test_decode_xtimes : decodeWord 0x00008B34#32 = .ok (.xtimes 3#3 1#3 2#3) := by decide
theorem test_decode_xpts : decodeWord 0x00001035#32 = .ok (.xpts 2#3) := by decide
/-- `XQRGRID t0, ap` = (1 << 14) | 0x36 (44_transform.md R256). -/
theorem test_decode_xqrgrid : decodeWord 0x00004036#32 = .ok (.xqrgrid 0#3 1#3) := by decide
theorem test_decode_grid : decodeWord 0x00001037#32 = .ok (.grid 2#3) := by decide
theorem test_decode_pffind : decodeWord 0x00000040#32 = .ok .pffind := by decide
theorem test_decode_pfalign : decodeWord 0x00000041#32 = .ok .pfalign := by decide
theorem test_decode_pfratio5 : decodeWord 0x00000042#32 = .ok .pfratio5 := by decide
theorem test_decode_pfratio3 : decodeWord 0x00000043#32 = .ok .pfratio3 := by decide
theorem test_decode_pforder : decodeWord 0x00000044#32 = .ok .pforder := by decide
theorem test_decode_pfccv : decodeWord 0x00000045#32 = .ok .pfccv := by decide
theorem test_decode_pfcch : decodeWord 0x00000046#32 = .ok .pfcch := by decide
theorem test_decode_pfccd : decodeWord 0x00000047#32 = .ok .pfccd := by decide
theorem test_decode_pfccva : decodeWord 0x00000048#32 = .ok .pfccva := by decide

/-- A PADD word with a nonzero Q field. -/
theorem test_decode_unused_field : decodeWord 0x00024211#32 = .error .unusedField := by decide
theorem test_decode_reserved_bits : decodeWord 0x00100000#32 = .error .reservedBits := by decide
theorem test_decode_unknown_opcode : decodeWord 0x00000006#32 = .error .unknownOpcode := by decide
theorem test_decode_matrix_index : decodeWord 0x00000430#32 = .error .matrixIndex := by decide
theorem test_decode_flag : decodeWord 0x00008036#32 = .error .gridFlag := by decide
theorem test_decode_same_destination : decodeWord 0x00080416#32 = .error .sameDestination := by decide
theorem test_decode_table_word : decodeTableWord 32 0x000A4416 = some (.pdiv 4#3 5#3 0#3 1#3) := by decide
theorem test_decode_table_short : decodeTableWord 8 0x42 = some .pfratio5 := by decide
/-- 30_encoding.md R114. -/
theorem test_assembler_text : assemblerText (.pdiv 4#3 5#3 0#3 1#3) = "PDIV p4, p5, p0, p1" := by decide

/-! ## States for the steps -/

/-- Phase IDLE after reset initialisation, with the tables written out. -/
def ready : State :=
  { State.reset with
    phase := .idle
    status := ⟨false, false, false, false, .ok, false, false⟩
    tables := writtenTables }

theorem ready_fieldReady : ready.fieldReady := buildTables_eq.symm

/-- The state a command leaves. -/
def after (i : Instr) (s : State) : State :=
  match exec i s with
  | .next t => t
  | .fault _ => s
  | .refused _ => s

/-- PB[0] and PB[1] holding two polynomials. -/
def withPolys (a b : List Byte) : State := putPoly (putPoly ready 0#3 a) 1#3 b

/-- Codewords in CWB, with CWLEN, and TWOS. -/
def withBlock (c : List Byte) (twos : BitVec 9) : State :=
  { ready with mem := writeElems [] cwbBase c, cwlen := BitVec.ofNat 9 c.length, twos := twos }

/-- Locations and magnitudes in LOC and MAG, with NLOC. -/
def withFixes (s : State) (l g : List Byte) : State :=
  { s with mem := writeElems (writeElems s.mem locBase l) magBase g, nloc := BitVec.ofNat 9 l.length }

/-- An image at the port. -/
def withImage (w h : Nat) (rows : List Nat) : State :=
  { ready with port := ⟨BitVec.ofNat 16 w, BitVec.ofNat 16 h, rows⟩ }

/-- The corners (0,0), (4,0), (3,3), (0,4) of 44_transform.md R250 in F[0..7]. -/
def withCorners : State :=
  { ready with f := #v[0#32, 0#32, 0x40800000#32, 0#32, 0x40400000#32, 0x40400000#32, 0#32, 0x40800000#32,
                       0#32, 0#32, 0#32, 0#32, 0#32, 0#32, 0#32, 0#32] }

/-- A finder pattern of 1-pixel modules, seven rows, moved `k` columns to the right. -/
def finderRows (k : Nat) : List Nat := [127, 65, 93, 93, 93, 65, 127].map (fun r => r * 2 ^ k)

/-- Three finder patterns of 1-pixel modules in a 15 × 15 image: top-left, top-right and bottom-left. -/
def threeFinders : State :=
  withImage 15 15 (List.zipWith (· + ·) (finderRows 0) (finderRows 8) ++ [0] ++ finderRows 0)

/-- An alignment pattern of 1-pixel modules, 5 × 5. -/
def alignmentRows : List Nat := [31, 17, 21, 17, 31]

/-! ## One step of every command -/

/-- V: 40_control.md R140. -/
theorem test_nop : statusWord (after .nop ready).status = 0x00000002#32 := by decide +kernel
/-- 40_control.md R141: PBLEN[3] = 1 afterwards. -/
theorem test_sreset : (after .sreset { ready with ctrl := ⟨true, true, true⟩, ga := 5#8 }).ctrl =
    ⟨false, false, false⟩ := by decide +kernel
/-- 41_gf_field.md R155. -/
theorem test_gadd : (after .gadd { ready with ga := 0x53#8, gb := 0xCA#8 }).gr = 0x99#8 := by decide +kernel
/-- 41_gf_field.md R156. -/
theorem test_gmul : (after .gmul { ready with ga := 0x80#8, gb := 0x02#8 }).gr = 0x1D#8 := by decide +kernel
/-- 41_gf_field.md R157. -/
theorem test_ginv : (after .ginv { ready with ga := 0x02#8 }).gr = 0x8E#8 := by decide +kernel
theorem test_ginv_zero : (after .ginv ready).status.err = .arith := by decide +kernel
/-- 41_gf_field.md R158. -/
theorem test_gexp : (after .gexp { ready with ga := 8#8 }).gr = 0x1D#8 := by decide +kernel
/-- 41_gf_field.md R159. -/
theorem test_glog : (after .glog { ready with ga := 3#8 }).gr = 0x19#8 := by decide +kernel
theorem test_glog_zero : (after .glog ready).status.err = .illegalArg := by decide +kernel
/-- 42_gf_poly.md R175. -/
theorem test_pnorm : rawPoly (after (.pnorm 1#3 0#3) (withPolys [0#8, 0#8, 5#8, 6#8] [0#8])) 1#3 = [5#8, 6#8] := by
  decide +kernel
/-- 42_gf_poly.md R176. -/
theorem test_padd : rawPoly (after (.padd 2#3 0#3 1#3) (withPolys [1#8, 2#8, 3#8] [4#8, 5#8])) 2#3 =
    [1#8, 6#8, 6#8] := by decide +kernel
theorem test_padd_degr : (after (.padd 2#3 0#3 1#3) (withPolys [1#8, 2#8, 3#8] [4#8, 5#8])).degr = 2#16 := by
  decide +kernel
/-- 42_gf_poly.md R177. -/
theorem test_pmul : rawPoly (after (.pmul 2#3 0#3 1#3) (withPolys [1#8, 2#8] [1#8, 3#8])) 2#3 = [1#8, 1#8, 6#8] := by
  decide +kernel
/-- 42_gf_poly.md R178. -/
theorem test_pscale : rawPoly (after (.pscale 1#3 0#3) { withPolys [0x80#8, 1#8] [0#8] with ga := 2#8 }) 1#3 =
    [0x1D#8, 2#8] := by decide +kernel
/-- 42_gf_poly.md R179. -/
theorem test_pmulmono :
    rawPoly (after (.pmulmono 1#3 0#3) { withPolys [1#8, 2#8] [0#8] with ga := 3#8, deg := 2#16 }) 1#3 =
      [3#8, 6#8, 0#8, 0#8] := by decide +kernel
theorem test_pmulmono_negative :
    (after (.pmulmono 1#3 0#3) { withPolys [1#8] [0#8] with deg := 0xFFFF#16 }).status.err = .illegalArg := by
  decide +kernel
/-- 42_gf_poly.md R180. -/
theorem test_pmono : rawPoly (after (.pmono 4#3) { ready with deg := 3#16, ga := 7#8 }) 4#3 =
    [7#8, 0#8, 0#8, 0#8] := by decide +kernel
theorem test_pmono_too_long : (after (.pmono 4#3) { ready with deg := 512#16, ga := 1#8 }).status.err = .capacity := by
  decide +kernel
/-- 42_gf_poly.md R181. -/
theorem test_pdiv_quotient :
    rawPoly (after (.pdiv 4#3 5#3 0#3 1#3) (withPolys [1#8, 0#8, 0#8, 0#8, 0#8] [1#8, 3#8])) 4#3 =
      [1#8, 3#8, 5#8, 0xF#8] := by decide +kernel
theorem test_pdiv_remainder :
    rawPoly (after (.pdiv 4#3 5#3 0#3 1#3) (withPolys [1#8, 0#8, 0#8, 0#8, 0#8] [1#8, 3#8])) 5#3 = [0x11#8] := by
  decide +kernel
/-- 42_gf_poly.md R182. -/
theorem test_peval : (after (.peval 0#3) { withPolys [1#8, 2#8, 3#8] [0#8] with ga := 2#8 }).gr = 3#8 := by
  decide +kernel
/-- 42_gf_poly.md R183. -/
theorem test_pcoef : (after (.pcoef 0#3) { withPolys [0#8, 1#8, 2#8, 3#8] [0#8] with deg := 2#16 }).gr = 1#8 := by
  decide +kernel
theorem test_pcoef_past : (after (.pcoef 0#3) { withPolys [1#8, 2#8, 3#8] [0#8] with deg := 5#16 }).gr = 0#8 := by
  decide +kernel
/-- By hand: [1, 3, 2] = (x + 1)(x + 2) is a codeword for TWOS = 2; its middle codeword changed by 5 is put right. -/
theorem test_rsdec : codewords (after .rsdec (withBlock [1#8, 6#8, 2#8] 2#9)) = [1#8, 3#8, 2#8] := by decide +kernel
theorem test_rsdec_range : (after .rsdec ready).status.err = .illegalArg := by decide +kernel
/-- By hand: the same block has S_0 = 5 and S_1 = 5 · 2. -/
theorem test_rssyn : rawPoly (after (.rssyn 5#3) (withBlock [1#8, 6#8, 2#8] 2#9)) 5#3 = [0x0A#8, 5#8] := by
  decide +kernel
theorem test_rssyn_clean : (after (.rssyn 5#3) (withBlock [1#8, 3#8, 2#8] 2#9)).status.noerr = true := by
  decide +kernel
/-- 95_test_vectors.md V5.20. -/
theorem test_rseuc :
    rawPoly (after (.rseuc 2#3 3#3 1#3 0#3)
      { withPolys [1#8, 1#8, 0#8] [1#8, 0#8, 0#8, 0#8, 0#8] with twos := 4#9 }) 2#3 = [1#8, 1#8, 1#8] := by
  decide +kernel
theorem test_rseuc_checksum :
    (after (.rseuc 2#3 3#3 1#3 0#3)
      { withPolys [1#8, 0#8, 0#8] [1#8, 0#8, 0#8, 0#8, 0#8] with twos := 4#9 }).status.err = .checksum := by
  decide +kernel
/-- By hand: x + 3 has the root 3, whose inverse is EXP[255 - 25] = 0xF4. -/
theorem test_rschien : locations (after (.rschien 0#3) (withPolys [1#8, 3#8] [0#8])) = [0xF4#8] := by decide +kernel
/-- 95_test_vectors.md V5.16. -/
theorem test_rschien_checksum :
    (after (.rschien 0#3) (withPolys [1#8, 1#8, 0x20#8] [0#8])).status.err = .checksum := by decide +kernel
/-- 43_reed_solomon.md R207: the example. -/
theorem test_rsforney :
    magnitudes (after (.rsforney 0#3)
      (withFixes (withPolys [0x7F#8, 0xF3#8, 0xA4#8] [0#8]) [0x01#8, 0x26#8, 0x03#8] [])) =
      [0x5A#8, 0x01#8, 0xFF#8] := by decide +kernel
/-- 95_test_vectors.md V5.21. -/
theorem test_rsforney_repeated :
    (after (.rsforney 0#3) (withFixes (withPolys [1#8] [0#8]) [3#8, 3#8] [])).status.err = .arith := by decide +kernel
/-- 95_test_vectors.md V5.26. -/
theorem test_rsapply :
    codewords (after .rsapply (withFixes (withBlock [0#8, 0#8, 0#8, 0#8, 0#8] 0#9) [2#8, 2#8] [0x0F#8, 0xF0#8])) =
      [0#8, 0#8, 0#8, 0xFF#8, 0#8] := by decide +kernel
/-- 95_test_vectors.md V5.24. -/
theorem test_rsapply_outside :
    (after .rsapply (withFixes (withBlock [0#8, 0#8, 0#8, 0#8, 0#8] 0#9) [0x80#8] [0x11#8])).status.err = .checksum := by
  decide +kernel
/-- 44_transform.md R250. -/
theorem test_xsq2q : (after (.xsq2q 1#3) withCorners).t[1] =
    ⟨0x40C00000#32, 0#32, 0x3F000000#32, 0#32, 0x40C00000#32, 0x3F000000#32, 0#32, 0#32, 0x3F800000#32⟩ := by
  decide +kernel
/-- 44_transform.md R251. -/
theorem test_xq2sq : (after (.xq2sq 2#3) withCorners).t[2] =
    ⟨0x40C00000#32, 0#32, 0xC0400000#32, 0#32, 0x40C00000#32, 0xC0400000#32, 0#32, 0#32, 0x42100000#32⟩ := by
  decide +kernel
/-- 44_transform.md R252. -/
theorem test_xq2q :
    (after (.xq2q 0#3) { ready with f := #v[0#32, 0#32, f1, 0#32, f1, f1, 0#32, f1,
      0#32, 0#32, 0x40800000#32, 0#32, 0x40400000#32, 0x40400000#32, 0#32, 0x40800000#32] }).t[0] =
      ⟨0x40C00000#32, 0#32, 0x3F000000#32, 0#32, 0x40C00000#32, 0x3F000000#32, 0#32, 0#32, 0x3F800000#32⟩ := by
  decide +kernel
/-- 44_transform.md R253. -/
theorem test_xadj : (after (.xadj 2#3 1#3) (after (.xsq2q 1#3) withCorners)).t[2].a33 = 0x42100000#32 := by
  decide +kernel
/-- 44_transform.md R254. -/
theorem test_xtimes :
    (after (.xtimes 3#3 1#3 2#3) (after (.xq2sq 2#3) (after (.xsq2q 1#3) withCorners))).t[3] =
      ⟨0x42100000#32, 0#32, 0#32, 0#32, 0x42100000#32, 0#32, 0#32, 0#32, 0x42100000#32⟩ := by decide +kernel
/-- 44_transform.md R243 on three products that are -0.0 (notes/assumptions/26.md). -/
theorem test_xtimes_negative_zero :
    (times ⟨0x80000000#32, 0#32, 0#32, 0x80000000#32, 0#32, 0#32, 0x80000000#32, 0#32, 0#32⟩ identityMat).a11 =
      0x80000000#32 := by decide +kernel
/-- 44_transform.md R255. -/
theorem test_xpts :
    readWords (after (.xpts 1#3) { after (.xsq2q 1#3) withCorners with
      mem := writeWords [] pmBase [0x3F000000#32, 0x3F000000#32], npts := 1#16 }).mem pmBase 2 =
      [0x40000000#32, 0x40000000#32] := by decide +kernel
theorem test_xpts_capacity : (after (.xpts 0#3) { ready with npts := 257#16 }).status.err = .capacity := by
  decide +kernel
/-- 44_transform.md R256. -/
theorem test_xqrgrid :
    (after (.xqrgrid 0#3 0#3) { ready with
      dim := 21#16
      fpr := #v[⟨0x41F00000#32, 0x42AC0000#32, 0#32, 0#32⟩, ⟨0x41F00000#32, 0x41F00000#32, 0#32, 0#32⟩,
        ⟨0x42AC0000#32, 0x41F00000#32, 0#32, 0#32⟩] }).t[0] =
      ⟨0x44440000#32, 0#32, 0#32, 0#32, 0x44440000#32, 0#32, 0x45440000#32, 0x45440000#32, 0x43440000#32⟩ := by
  decide +kernel
/-- 44_transform.md R248 with DIM = 7 and no alignment point (notes/assumptions/28.md). -/
theorem test_xqrgrid_dim7 : (after (.xqrgrid 0#3 0#3) { ready with
    dim := 7#16, t := #v[identityMat, zeroMat, zeroMat, zeroMat] }).t[0] = zeroMat := by decide +kernel
/-- 45_grid_sampler.md R276: the identity copies the image; here row 1 of a 4 × 4 image. -/
theorem test_grid :
    readWord (after (.grid 0#3) { withImage 4 4 [9, 6, 15, 0] with
      t := #v[identityMat, zeroMat, zeroMat, zeroMat], dimx := 4#16, dimy := 4#16 }).mem 0x8020 = 6#32 := by
  decide +kernel
/-- 45_grid_sampler.md R276: column 5 of a 4 × 4 image is rejected. -/
theorem test_grid_rejected :
    (after (.grid 0#3) { withImage 4 4 [] with
      t := #v[identityMat, zeroMat, zeroMat, zeroMat], dimx := 6#16, dimy := 1#16 }).status.err = .notFound := by
  decide +kernel
/-- By hand: centres (3.5, 3.5), (11.5, 3.5), (3.5, 11.5) of 1-pixel modules; FPR1 is top-left. -/
theorem test_pffind : (after .pffind threeFinders).fpr =
    #v[⟨0x40600000#32, 0x41380000#32, f1, 1#32⟩, ⟨0x40600000#32, 0x40600000#32, f1, 1#32⟩,
       ⟨0x41380000#32, 0x40600000#32, f1, 1#32⟩] := by decide +kernel
/-- 95_test_vectors.md V8.18. -/
theorem test_pffind_white : (after .pffind (withImage 10 10 [])).status.err = .notFound := by decide +kernel
/-- By hand: the centre (2.5, 2.5) of a 5 × 5 pattern with 1-pixel modules. -/
theorem test_pfalign : (after .pfalign { withImage 5 5 alignmentRows with
    rgw := 5#16, rgh := 5#16, ams := f1 }).apx = 0x40200000#32 := by decide +kernel
theorem test_pfalign_region : (after .pfalign { withImage 5 5 alignmentRows with
    rgx := 1#16, rgw := 5#16, rgh := 5#16, ams := f1 }).status.err = .illegalArg := by decide +kernel
/-- 46_finder_pattern.md R321. -/
theorem test_pfratio5 : (after .pfratio5 { ready with sc := #v[4#32, 4#32, 12#32, 4#32, 4#32] }).status.resb = true := by
  decide +kernel
theorem test_pfratio5_fails :
    (after .pfratio5 { ready with sc := #v[2#32, 1#32, 3#32, 1#32, 1#32] }).status.resb = false := by decide +kernel
/-- 47_alignment_pattern.md R351. -/
theorem test_pfratio3 : (after .pfratio3 { ready with
    sc := #v[3#32, 5#32, 3#32, 0#32, 0#32], ams := 0x40800000#32 }).status.resb = true := by decide +kernel
theorem test_pfratio3_fails : (after .pfratio3 { ready with
    sc := #v[2#32, 4#32, 6#32, 0#32, 0#32], ams := 0x40800000#32 }).status.resb = false := by decide +kernel
/-- 46_finder_pattern.md R322: the example, and three equal points. -/
theorem test_pforder : (after .pforder { ready with
    fpr := #v[⟨0x42AC0000#32, 0x41F00000#32, f1, 1#32⟩, ⟨0x41F00000#32, 0x42AC0000#32, f1, 2#32⟩,
      ⟨0x41F00000#32, 0x41F00000#32, f1, 3#32⟩] }).fpr =
    #v[⟨0x41F00000#32, 0x42AC0000#32, f1, 2#32⟩, ⟨0x41F00000#32, 0x41F00000#32, f1, 3#32⟩,
      ⟨0x42AC0000#32, 0x41F00000#32, f1, 1#32⟩] := by decide +kernel
theorem test_pforder_equal : (after .pforder { ready with
    fpr := #v[⟨0#32, 0#32, f1, 1#32⟩, ⟨0#32, 0#32, f1, 2#32⟩, ⟨0#32, 0#32, f1, 3#32⟩] }).fpr =
    #v[⟨0#32, 0#32, f1, 2#32⟩, ⟨0#32, 0#32, f1, 1#32⟩, ⟨0#32, 0#32, f1, 3#32⟩] := by decide +kernel
/-- By hand, in the top-left finder pattern: centre 3.5, maximum run 3, total 7. -/
theorem test_pfccv : (after .pfccv { threeFinders with
    cci := 3#16, ccj := 3#16, ccmax := 3#32, cctot := 7#32 }).resf = 0x40600000#32 := by decide +kernel
theorem test_pfccv_outside : (after .pfccv { threeFinders with cci := 15#16 }).status.err = .illegalArg := by
  decide +kernel
theorem test_pfcch : (after .pfcch { threeFinders with
    cci := 3#16, ccj := 10#16, ccmax := 3#32, cctot := 7#32 }).resf = 0x41380000#32 := by decide +kernel
/-- The 20% test of the horizontal check: |7 - 9| · 5 = 10 is not below 9. -/
theorem test_pfcch_total : (after .pfcch { threeFinders with
    cci := 3#16, ccj := 10#16, ccmax := 3#32, cctot := 9#32 }).resf = f32NaN := by decide +kernel
theorem test_pfccd : (after .pfccd { threeFinders with
    cci := 3#16, ccj := 3#16, ccmax := 3#32, cctot := 7#32 }).status.resb = true := by decide +kernel
/-- A black centre in row 0 fails at once (46_finder_pattern.md R325). -/
theorem test_pfccd_edge : (after .pfccd { threeFinders with
    cci := 0#16, ccj := 0#16, ccmax := 3#32, cctot := 7#32 }).status.resb = false := by decide +kernel
theorem test_pfccva : (after .pfccva { withImage 5 5 alignmentRows with
    cci := 2#16, ccj := 2#16, ccmax := 2#32, cctot := 3#32, ams := f1 }).resf = 0x40200000#32 := by decide +kernel
/-- By hand: from the white row 3 the lower black run reaches the image edge. -/
theorem test_pfccva_white : (after .pfccva { withImage 5 5 alignmentRows with
    cci := 3#16, ccj := 2#16, ccmax := 2#32, cctot := 3#32, ams := f1 }).status.resb = false := by decide +kernel

/-! ## The step and the register window -/

/-- A command run through the fetch the host uses. -/
theorem test_step_runs : step (State.reset.withFetchWord 32 0x00000001) =
    .next (State.reset.withFetchWord 32 1).done := rfl
theorem test_withFetchWord_launched : ({ State.reset with status := ⟨true, true, true, true, .arith, false, true⟩ }
    : State).withFetchWord 32 1 = { State.reset.launch with
      phase := .running 0x01#32, status := ⟨true, false, false, false, .ok, false, false⟩ } := rfl
/-- 70_reset_and_hazards.md R411. -/
theorem test_reset_status : statusWord State.reset.status = 0x00000001#32 := by decide
/-- 10_state.md R23: ID, read by the host. -/
theorem test_read_id : step { ready with host := [.read 0 4] } = .next { ready with rdata := 0x51524443#32 } := rfl
/-- 20_memory.md R87: an element write stores bits 7:0. -/
theorem test_write_element : readLoc (writeLoc ready (.cwb 255) 0xFFFFFFFF#32) (.cwb 255) = 0x000000FF#32 := by
  decide +kernel
theorem test_write_matrix : locate 0x1CC = .t 3 8 := by decide +kernel

/-! ## Witnesses: a concrete state and operands for the hypotheses of every statement, each clause at a boundary -/

/-- A command running, and what the outside does next. -/
def running (w : Word) (host : List Input) : State :=
  { ready with phase := .running w, status := ⟨true, false, false, false, .ok, false, false⟩, host := host }

/-- PB[0] with its first coefficient 1 and a given length, PB[1] the constant `c` followed by zeros. -/
def withLengths (n : Nat) (c : Byte) (m : Nat) : State :=
  { ready with
    mem := writeElem (writeElem [] 0x1000 1#8) 0x1800 c
    pblen := #v[BitVec.ofNat 10 n, BitVec.ofNat 10 m, 1#10, 1#10, 1#10, 1#10, 1#10, 1#10] }

theorem not_allZero {l : List Byte} (d : Nat) (h : coefOf l d ≠ 0#8) : ¬AllZero l := fun hz => h (hz d)

theorem allZero_singleton : AllZero [0#8] := by
  intro d
  by_cases h : d < 1
  · obtain rfl : d = 0 := by omega
    rfl
  · rw [coefOf, if_neg (by simpa using h)]

theorem opField_encode (i : Instr) : opField (encode i) = i.opcode := by
  cases i <;> exact (Sys2Proof.Laws.packFields_op_rsv _ _ _ _ _).1

theorem test_witness_DecodeOfEncode : Instr.wellFormed (.xtimes 3#3 3#3 3#3) = true := by decide
theorem test_witness_EncodeOfDecode : decodeWord 0x000A4416#32 = .ok (.pdiv 4#3 5#3 0#3 1#3) := by decide
theorem test_witness_IllegalWordCompletes : (running 0x06#32 []).phase = .running 0x06#32 ∧
    ¬∃ i : Instr, i.wellFormed = true ∧ encode i = 0x06#32 := by
  refine ⟨rfl, ?_⟩
  rintro ⟨i, _, h⟩
  have h1 : i.opcode = 0x06#8 := by rw [← opField_encode, h]; decide
  cases i <;> simp [Instr.opcode] at h1
theorem test_witness_IllegalWordCompletes_reserved :
    (opField 0x06#32).toNat = 0x06 ∧ (opField 0x0E#32).toNat = 0x0E ∧ (opField 0x19#32).toNat = 0x19 ∧
    (opField 0x1F#32).toNat = 0x1F ∧ (opField 0x26#32).toNat = 0x26 ∧ (opField 0x2F#32).toNat = 0x2F ∧
    (opField 0x38#32).toNat = 0x38 ∧ (opField 0x3F#32).toNat = 0x3F ∧ (opField 0x49#32).toNat = 0x49 ∧
    (opField 0xFF#32).toNat = 0xFF ∧ rsvField 0x00100000#32 ≠ 0#12 ∧ rsvField 0x80000000#32 ≠ 0#12 := by decide

theorem test_witness_ResetValues : ({ ready with host := [.rst] } : State).host = .rst :: [] ∧
    0xFFFC % 4 = 0 ∧ 0xFFFC < 0x10000 := ⟨rfl, by decide, by decide⟩
theorem test_witness_ResetInitialisation : State.reset.atReset ∧ State.reset.host = [] := ⟨rfl, rfl⟩
theorem test_witness_ResetInitialisation_tick :
    ({ State.reset with host := [.tick] } : State).atReset ∧
    ({ State.reset with host := [.tick] } : State).host = .tick :: [] := ⟨rfl, rfl⟩
theorem test_witness_ResetInitialisation_write :
    ({ State.reset with host := [.write 0xFFFC 4 1#32] } : State).atReset ∧ 0xFFFC % 4 = 0 ∧ 0xFFFC < 0x10000 :=
  ⟨rfl, by decide, by decide⟩
theorem test_witness_ResetInitialisation_read :
    ({ State.reset with host := [.read 0 4] } : State).atReset ∧ 0 % 4 = 0 ∧ 0 < 0x10000 :=
  ⟨rfl, by decide, by decide⟩
theorem test_witness_CommandAcceptance : ready.phase = .idle ∧
    ({ ready with host := [.write 0x008 4 0x40#32] } : State).host = .write 0x008 4 0x40#32 :: [] := ⟨rfl, rfl⟩
theorem test_witness_WritesWhileRunning :
    (running 0#32 [.write 0x008 4 0#32]).phase = .running 0#32 ∧
    (running 0#32 [.write 0xFFFC 4 0#32]).host = .write 0xFFFC 4 0#32 :: [] ∧ 0x008 % 4 = 0 ∧ 0xFFFC % 4 = 0 ∧
    0xFFFC < 0x10000 := ⟨rfl, rfl, by decide, by decide, by decide⟩
theorem test_witness_HostReads_idle : ({ ready with host := [.read 0xFFFC 4] } : State).phase = .idle ∧
    ({ ready with host := [.read 0xFFFC 4] } : State).host = .read 0xFFFC 4 :: [] := ⟨rfl, rfl⟩
theorem test_witness_HostReads_status : (running 0#32 [.read 0x00C 4]).host = .read 0x00C 4 :: [] := rfl
theorem test_witness_HostReads_running : (running 0x01#32 [.read 0x01C 4]).phase = .running 0x01#32 ∧
    decodeWord 0x01#32 = .ok .gadd ∧ resultLoc (running 0x01#32 []) .gadd (locate 0x01C) = true ∧
    resultLoc (running 0x01#32 []) .gadd (locate 0x018) = false :=
  ⟨rfl, by decide, by decide, by decide⟩
/-- The words at the ends of the result ranges: MAG to NLOC - 1, PM to 2 NPTS - 1, CWB to CWLEN - 1, PB[d] to the length
of the result (70_reset_and_hazards.md R422). -/
theorem test_result_ranges :
    (resultLoc (withFixes (withPolys [1#8] [0#8]) [3#8, 5#8] []) (.rsforney 0#3) (.mag 1) = true ∧
      resultLoc (withFixes (withPolys [1#8] [0#8]) [3#8, 5#8] []) (.rsforney 0#3) (.mag 2) = false) ∧
    (resultLoc { ready with npts := 2#16 } (.xpts 0#3) (.pm 3) = true ∧
      resultLoc { ready with npts := 2#16 } (.xpts 0#3) (.pm 4) = false) ∧
    (resultLoc (withBlock [1#8, 6#8, 2#8] 2#9) .rsdec (.cwb 2) = true ∧
      resultLoc (withBlock [1#8, 6#8, 2#8] 2#9) .rsdec (.cwb 3) = false ∧
      resultLoc (withBlock [1#8, 6#8, 2#8] 2#9) .rsdec (.loc 0) = true ∧
      resultLoc (withBlock [1#8, 6#8, 2#8] 2#9) .rsdec (.mag 1) = false) ∧
    (resultLoc (withPolys [0#8, 0#8, 5#8, 6#8] [0#8]) (.pnorm 1#3 0#3) (.pb 1 1) = true ∧
      resultLoc (withPolys [0#8, 0#8, 5#8, 6#8] [0#8]) (.pnorm 1#3 0#3) (.pb 1 2) = false) ∧
    (resultLoc ready .sreset .ga = true ∧ resultLoc ready .sreset .id = false ∧ resultLoc ready .sreset .imgw = false) := by
  decide +kernel
/-- The ranges where no result gives one: a failing PNORM, a failing RSCHIEN on a locator of degree 2, RSDEC on a clean
block and on one it cannot decode, slot 255 never (20_memory.md R94). -/
theorem test_result_ranges_without_result :
    (resultLoc (withLengths 0 0#8 1) (.pnorm 2#3 0#3) (.pb 2 511) = true ∧
      resultLoc (withLengths 0 0#8 1) (.pnorm 2#3 0#3) (.pb 1 511) = false) ∧
    (resultLoc (withPolys [1#8, 1#8, 0x20#8] [0#8]) (.rschien 0#3) (.loc 1) = true ∧
      resultLoc (withPolys [1#8, 1#8, 0x20#8] [0#8]) (.rschien 0#3) (.loc 2) = false) ∧
    (resultLoc (withBlock [1#8, 3#8, 2#8] 2#9) .rsdec (.loc 254) = true ∧
      resultLoc (withBlock [1#8, 3#8, 2#8] 2#9) .rsdec (.mag 254) = true ∧
      resultLoc (withBlock [1#8, 3#8, 2#8] 2#9) .rsdec (.mag 255) = false) ∧
    (resultLoc (withBlock [1#8] 0#9) .rsdec (.loc 254) = true ∧
      resultLoc (withBlock [1#8] 0#9) .rsdec (.loc 255) = false) := by
  decide +kernel
theorem test_witness_StepRunsDecodedCommand : (running 0x01#32 []).phase = .running 0x01#32 ∧
    decodeWord 0x01#32 = .ok .gadd ∧ (running 0x01#32 []).host = [] ∧
    (running 0x01#32 [.tick]).host = .tick :: [] := ⟨rfl, by decide, rfl, rfl⟩
/-- 70_reset_and_hazards.md R415, through a program of one command. -/
theorem test_witness_StepRunsDecodedCommand_launch :
    (programStart State.reset.port [.write 0x008 4 0x01#32, .tick]).cleanEntry ∧
    (programStart State.reset.port [.write 0x008 4 0x01#32, .tick]).host = .write 0x008 4 0x01#32 :: .tick :: [] :=
  ⟨⟨rfl, rfl, rfl, rfl, rfl⟩, rfl⟩
theorem test_witness_EveryCommandCompletes : Instr.nop ≠ .sreset := by decide
theorem test_witness_ErrorsChangeNothing : exec .ginv ready = .next (ready.failed .arith) ∧
    (ready.failed .arith).status.err ≠ .ok ∧ Instr.ginv ≠ .pffind ∧ Instr.ginv ≠ .pfalign :=
  ⟨rfl, by decide, by decide, by decide⟩
theorem test_witness_ErrorsChangeNothing_search :
    exec .pffind ready = .next { ready.failed .illegalArg with ncand := 0#16 } ∧
    exec .pfalign ready = .next { ready.failed .illegalArg with ncand := 0#16 } := ⟨rfl, rfl⟩
theorem test_witness_CommandsWriteOnlyResults : (running 0x01#32 []).phase = .running 0x01#32 ∧
    decodeWord 0x01#32 = .ok .gadd ∧ (∃ t, exec .gadd (running 0x01#32 []) = .next t) ∧ Loc.ga ≠ .status ∧
    resultLoc (running 0x01#32 []) .gadd .ga = false := ⟨rfl, by decide, ⟨_, rfl⟩, by decide, by decide⟩
theorem test_witness_NoerrBit : ready.fieldReady ∧ exec .nop ready = .next ready.done := ⟨ready_fieldReady, rfl⟩
theorem test_witness_NoerrBit_set : (after (.rssyn 7#3) (withBlock [0#8] 1#9)).status.noerr = true ∧
    (after .rsdec (withBlock [0#8] 255#9)).status.noerr = true := by decide +kernel
theorem test_witness_ResbBit : ∃ t,
    exec .pfratio5 { ready with sc := #v[1#32, 1#32, 3#32, 1#32, 1#32] } = .next t ∧ t.status.resb = true :=
  ⟨_, rfl, by decide +kernel⟩
theorem test_witness_PhaseTransitions :
    (∃ t, step ready = .next t ∧ t.phase = .idle) ∧
    (∃ t, step State.reset = .next t ∧ t.phase = .idle) ∧
    (∃ t, step { ready with host := [.write 0x008 4 0#32] } = .next t ∧ t.phase = .running 0#32) ∧
    (∃ t, step (running 0#32 []) = .next t ∧ t.phase = .idle) ∧
    (∃ t, step { ready with host := [.rst] } = .next t ∧ t.phase = .resetting) :=
  ⟨⟨_, rfl, rfl⟩, ⟨_, rfl, rfl⟩, ⟨_, rfl, rfl⟩, ⟨_, rfl, rfl⟩, ⟨_, rfl, rfl⟩⟩
theorem test_witness_InterruptLevel : (∃ t, exec .ginv ready = .next t) ∧ Instr.ginv ≠ .sreset ∧
    BitVec.getLsbD 2#32 1 = true ∧ BitVec.getLsbD 3#32 2 = false ∧ BitVec.getLsbD 4#32 2 = true ∧
    ready.done.status.done = true := ⟨⟨_, rfl⟩, by decide, by decide, by decide, by decide, rfl⟩
theorem test_witness_StatusWriteClears : ready.phase = .idle ∧
    ({ ready with host := [.write 0x00C 4 0x1A#32] } : State).host = .write 0x00C 4 0x1A#32 :: [] := ⟨rfl, rfl⟩
theorem test_witness_StopsAreTheHosts :
    ({ ready with host := [.read 0 2] } : State).host = .read 0 2 :: [] ∧ (2 ≠ 4 ∨ 0 % 4 ≠ 0) ∧
    ({ ready with host := [.read 3 4] } : State).host = .read 3 4 :: [] ∧ (4 ≠ 4 ∨ 3 % 4 ≠ 0) ∧
    ({ ready with host := [.write 0x10000 4 0#32] } : State).host = .write 0x10000 4 0#32 :: [] ∧
    0x10000 % 4 = 0 ∧ (running 0x40#32 [.image ready.port]).host = .image ready.port :: [] ∧
    pixelCommandRuns (running 0x40#32 []) = true ∧ pixelCommandRuns (running 0x44#32 []) = false :=
  ⟨rfl, by decide, rfl, by decide, rfl, by decide, rfl, by decide, by decide⟩
theorem test_witness_WindowMap :
    locate 0x08C = .reserved ∧ locate 0x0BC = .reserved ∧ locate 0x0E0 = .reserved ∧ locate 0x0FC = .reserved ∧
    locate 0x1D0 = .reserved ∧ locate 0x1FC = .reserved ∧ locate 0x23C = .reserved ∧ locate 0xFFC = .reserved ∧
    locate 0x5C00 = .reserved ∧ locate 0x5FFC = .reserved ∧ locate 0x6800 = .reserved ∧ locate 0x7FFC = .reserved ∧
    locate 0xB000 = .reserved ∧ locate 0xFFFC = .reserved ∧ locate 0x0DC = .pblen 7 ∧ locate 0x13C = .f 15 ∧
    locate 0x22C = .fpr 2 3 ∧ locate 0x4FFC = .pb 7 511 ∧ locate 0x9FFC = .bm 2047 ∧ locate 0xAFFC = .cand 1023 := by
  decide +kernel
theorem test_witness_WriteReadBack : Loc.pblen 7 ≠ .cmd ∧ Loc.pblen 7 ≠ .status := by decide
theorem test_witness_WriteReadBack_step : ∀ v, ({ ready with host := [.write 0xFFFC 4 v] } : State).phase = .idle ∧
    ({ ready with host := [.write 0xFFFC 4 v] } : State).host = .write 0xFFFC 4 v :: [] ∧ 0xFFFC % 4 = 0 ∧
    0xFFFC < 0x10000 := fun _ => ⟨rfl, rfl, by decide, by decide⟩
theorem test_witness_WritesTouchOneWord : Loc.pb 0 511 ≠ .cmd ∧ Loc.pb 0 511 ≠ .status ∧ Loc.pb 1 0 ≠ .pb 0 511 := by
  decide

theorem test_witness_StepKeepsInvariant : ready.Inv ∧ step ready = .next ready := by
  refine ⟨⟨by decide, fun h => absurd h (by decide), fun _ => ⟨rfl, rfl⟩, rfl, fun _ _ => rfl,
    fun _ => buildTables_eq.symm, by decide, fun h => absurd h (by decide)⟩, rfl⟩

theorem test_witness_NopEffect : opField 0x100#32 = 0x00#8 ∧ 0x100#32 ≠ 0#32 ∧ ready.status.cmdovr = false ∧
    ready.status.wrbusy = false := by decide
theorem test_witness_SresetEffect : (∃ t, exec .sreset ready = .next t) ∧ 0xFFFC % 4 = 0 ∧ 0xFFFC < 0x10000 ∧
    0xFFFC ≠ 0x00C := ⟨⟨_, rfl⟩, by decide, by decide, by decide⟩
theorem test_witness_FieldTables : 254 < 255 ∧ 255#8 ≠ 0#8 := by decide
theorem test_witness_FieldLaws : 1#8 ≠ 0#8 := by decide
theorem test_witness_GaddGmulGexp :
    ready.ga = ready.gb ∧ ({ ready with ga := 7#8 } : State).ga = 7#8 ^^^ ready.gb ∧
    ({ ready with ga := 0x53#8, gb := 0xCA#8 } : State).ga = 0x53#8 ∧
    ({ ready with ga := 0x53#8, gb := 0xCA#8 } : State).gb = 0xCA#8 := ⟨rfl, by decide, rfl, rfl⟩
theorem test_witness_GaddGmulGexp_field :
    (∀ x y : Byte, ({ ready with ga := x, gb := y } : State).fieldReady ∧
      ({ ready with ga := x, gb := y } : State).ga = x ∧ ({ ready with ga := x, gb := y } : State).gb = y) :=
  fun _ _ => ⟨ready_fieldReady, rfl, rfl⟩
theorem test_witness_GinvGlog : ready.ga = 0#8 ∧ ({ ready with ga := 1#8 } : State).ga ≠ 0#8 ∧
    ({ ready with ga := 1#8 } : State).fieldReady ∧ ({ ready with ga := 2#8 } : State).fieldReady ∧
    ({ ready with ga := 3#8 } : State).fieldReady :=
  ⟨rfl, by decide, ready_fieldReady, ready_fieldReady, ready_fieldReady⟩

theorem test_witness_PolyOperandErrors :
    ¬operandOk (withLengths 0 1#8 1) 0#3 ∧ ¬operandOk (withLengths 513 1#8 1) 0#3 ∧ (2#3 : BitVec 3) ≠ 3#3 ∧
    1 ≤ ({ withLengths 0 1#8 1 with twos := 1#9 } : State).twos.toNat ∧
    ({ withLengths 0 1#8 1 with twos := 255#9 } : State).twos.toNat ≤ 255 ∧
    ({ withLengths 0 1#8 1 with nloc := 255#9 } : State).nloc.toNat ≤ 255 := by
  refine ⟨fun h => absurd h.1 (by decide), fun h => absurd h.2 (by decide), by decide, by decide, by decide, by decide⟩
theorem test_witness_PolyOperandErrors_second :
    operandOk (withLengths 1 1#8 0) 0#3 ∧ ¬operandOk (withLengths 1 1#8 0) 1#3 ∧
    operandOk (withLengths 512 1#8 513) 0#3 ∧ ¬operandOk (withLengths 512 1#8 513) 1#3 :=
  ⟨⟨by decide, by decide⟩, fun h => absurd h.1 (by decide), ⟨by decide, by decide⟩, fun h => absurd h.2 (by decide)⟩
theorem test_witness_PnormResult : operandOk (withLengths 1 1#8 1) 0#3 ∧ operandOk (withLengths 512 1#8 1) 0#3 :=
  ⟨⟨by decide, by decide⟩, ⟨by decide, by decide⟩⟩
theorem test_witness_PaddResult : operandOk (withLengths 1 1#8 512) 0#3 ∧ operandOk (withLengths 1 1#8 512) 1#3 :=
  ⟨⟨by decide, by decide⟩, ⟨by decide, by decide⟩⟩
theorem rawPoly_zero : AllZero (rawPoly (withLengths 512 0#8 1) 1#3) := by
  have h : rawPoly (withLengths 512 0#8 1) 1#3 = [0#8] := by decide +kernel
  rw [h]; exact allZero_singleton
theorem test_witness_PmulResult_zero : (withLengths 512 0#8 1).fieldReady ∧ operandOk (withLengths 512 0#8 1) 0#3 ∧
    operandOk (withLengths 512 0#8 1) 1#3 ∧ AllZero (rawPoly (withLengths 512 0#8 1) 1#3) :=
  ⟨ready_fieldReady, ⟨by decide, by decide⟩, ⟨by decide, by decide⟩, rawPoly_zero⟩
theorem test_witness_PmulResult_longest : (withLengths 512 1#8 1).fieldReady ∧
    operandOk (withLengths 512 1#8 1) 0#3 ∧ operandOk (withLengths 512 1#8 1) 1#3 ∧
    degreeOf (rawPoly (withLengths 512 1#8 1) 0#3) + degreeOf (rawPoly (withLengths 512 1#8 1) 1#3) = 511 :=
  ⟨ready_fieldReady, ⟨by decide, by decide⟩, ⟨by decide, by decide⟩, by decide +kernel⟩
theorem test_witness_PmulResult_capacity : (withLengths 512 1#8 2).fieldReady ∧
    operandOk (withLengths 512 1#8 2) 0#3 ∧ operandOk (withLengths 512 1#8 2) 1#3 ∧
    ¬AllZero (rawPoly (withLengths 512 1#8 2) 0#3) ∧ ¬AllZero (rawPoly (withLengths 512 1#8 2) 1#3) ∧
    511 < degreeOf (rawPoly (withLengths 512 1#8 2) 0#3) + degreeOf (rawPoly (withLengths 512 1#8 2) 1#3) :=
  ⟨ready_fieldReady, ⟨by decide, by decide⟩, ⟨by decide, by decide⟩, not_allZero 511 (by decide +kernel),
    not_allZero 1 (by decide +kernel), by decide +kernel⟩
theorem test_witness_PscalePmulmonoResult : ({ withLengths 1 1#8 1 with deg := 0xFFFF#16 } : State).fieldReady ∧
    operandOk ({ withLengths 1 1#8 1 with deg := 0xFFFF#16 } : State) 0#3 ∧
    ({ withLengths 1 1#8 1 with deg := 0xFFFF#16 } : State).deg.toInt < 0 :=
  ⟨ready_fieldReady, ⟨by decide, by decide⟩, by decide⟩
theorem test_witness_PscalePmulmonoResult_fits :
    ({ withLengths 1 1#8 1 with deg := 0x7FFF#16 } : State).ga = 0#8 ∧
    0 ≤ ({ withLengths 1 1#8 1 with deg := 0x7FFF#16 } : State).deg.toInt ∧
    degreeOf (rawPoly ({ withLengths 1 1#8 1 with deg := 511#16 } : State) 0#3) +
      ({ withLengths 1 1#8 1 with deg := 511#16 } : State).deg.toNat = 511 ∧
    AllZero (rawPoly ({ withLengths 512 0#8 1 with deg := 0x7FFF#16 } : State) 1#3) :=
  ⟨rfl, by decide, by decide +kernel, rawPoly_zero⟩
theorem test_witness_PscalePmulmonoResult_capacity :
    0 ≤ ({ withLengths 1 1#8 1 with deg := 512#16, ga := 1#8 } : State).deg.toInt ∧
    ({ withLengths 1 1#8 1 with deg := 512#16, ga := 1#8 } : State).ga ≠ 0#8 ∧
    ¬AllZero (rawPoly ({ withLengths 1 1#8 1 with deg := 512#16, ga := 1#8 } : State) 0#3) ∧
    511 < degreeOf (rawPoly ({ withLengths 1 1#8 1 with deg := 512#16, ga := 1#8 } : State) 0#3) +
      ({ withLengths 1 1#8 1 with deg := 512#16, ga := 1#8 } : State).deg.toNat :=
  ⟨by decide, by decide, not_allZero 0 (by decide +kernel), by decide +kernel⟩
theorem test_witness_PmonoResult :
    ({ ready with deg := 0x8000#16 } : State).deg.toInt < 0 ∧
    (0 ≤ ({ ready with deg := 0x7FFF#16 } : State).deg.toInt ∧ ({ ready with deg := 0x7FFF#16 } : State).ga = 0#8) ∧
    (({ ready with deg := 511#16, ga := 1#8 } : State).deg.toNat ≤ 511 ∧
      ({ ready with deg := 511#16, ga := 1#8 } : State).ga ≠ 0#8) ∧
    (0 ≤ ({ ready with deg := 512#16, ga := 1#8 } : State).deg.toInt ∧
      511 < ({ ready with deg := 512#16, ga := 1#8 } : State).deg.toNat) ∧
    (({ ready with deg := 3#16, ga := 7#8 } : State).deg = 3#16 ∧
      ({ ready with deg := 3#16, ga := 7#8 } : State).ga = 7#8) := by decide
theorem test_witness_PevalPcoefResult : operandOk (withLengths 1 1#8 1) 0#3 ∧ (withLengths 1 1#8 1).fieldReady ∧
    ({ withLengths 1 1#8 1 with deg := 0x8000#16 } : State).deg.toInt < 0 ∧
    0 ≤ (withLengths 1 1#8 1).deg.toInt :=
  ⟨⟨by decide, by decide⟩, ready_fieldReady, by decide, by decide⟩
theorem test_witness_DivisionLaw_zero : (withLengths 512 0#8 1).fieldReady ∧ operandOk (withLengths 512 0#8 1) 0#3 ∧
    operandOk (withLengths 512 0#8 1) 1#3 ∧ (2#3 : BitVec 3) ≠ 3#3 ∧ AllZero (rawPoly (withLengths 512 0#8 1) 1#3) :=
  ⟨ready_fieldReady, ⟨by decide, by decide⟩, ⟨by decide, by decide⟩, by decide, rawPoly_zero⟩
theorem test_witness_DivisionLaw : (withLengths 512 1#8 1).fieldReady ∧ operandOk (withLengths 512 1#8 1) 0#3 ∧
    operandOk (withLengths 512 1#8 1) 1#3 ∧ ¬AllZero (rawPoly (withLengths 512 1#8 1) 1#3) :=
  ⟨ready_fieldReady, ⟨by decide, by decide⟩, ⟨by decide, by decide⟩, not_allZero 0 (by decide +kernel)⟩

theorem test_witness_RangeErrors : ¬rangesOk ready ∧ ¬rangesOk { ready with cwlen := 256#9, twos := 1#9 } ∧
    ¬rangesOk { ready with cwlen := 1#9, twos := 256#9 } ∧ ready.twos.toNat = 0 ∧
    255 < ({ ready with twos := 256#9 } : State).twos.toNat ∧ 255 < ({ ready with nloc := 256#9 } : State).nloc.toNat ∧
    ready.cwlen.toNat = 0 ∧ 255 < ({ ready with cwlen := 256#9 } : State).cwlen.toNat ∧ (2#3 : BitVec 3) ≠ 3#3 :=
  ⟨fun h => absurd h.1 (by decide), fun h => absurd h.2.1 (by decide), fun h => absurd h.2.2.2 (by decide),
    rfl, by decide, by decide, rfl, by decide, by decide⟩
theorem test_witness_RssynResult : (withBlock [1#8] 1#9).fieldReady ∧ rangesOk (withBlock [1#8] 1#9) ∧
    rangesOk { ready with cwlen := 255#9, twos := 255#9 } :=
  ⟨ready_fieldReady, ⟨by decide, by decide, by decide, by decide⟩, ⟨by decide, by decide, by decide, by decide⟩⟩
theorem test_witness_RseucShortcut :
    ({ withPolys [1#8, 0#8] [0#8] with twos := 1#9 } : State).fieldReady ∧
    operandOk ({ withPolys [1#8, 0#8] [0#8] with twos := 1#9 } : State) 0#3 ∧
    operandOk ({ withPolys [1#8, 0#8] [0#8] with twos := 1#9 } : State) 1#3 ∧
    degreeOf (rawPoly ({ withPolys [1#8, 0#8] [0#8] with twos := 1#9 } : State) 1#3) = 0 ∧
    degreeOf (rawPoly ({ withPolys [1#8, 0#8] [0#8] with twos := 1#9 } : State) 0#3) = 1 ∧
    ({ withPolys [1#8, 0#8] [0#8] with twos := 1#9 } : State).twos.toNat = 1 :=
  ⟨ready_fieldReady, ⟨by decide, by decide⟩, ⟨by decide, by decide⟩, by decide +kernel, by decide +kernel, rfl⟩
theorem test_witness_RseucShortcut_largest :
    degreeOf (rawPoly ({ withPolys (1#8 :: List.replicate 127 0#8) (1#8 :: List.replicate 127 0#8) with
      twos := 255#9 } : State) 1#3) = 127 ∧ 2 * 127 < (255#9 : BitVec 9).toNat := by decide +kernel
theorem test_witness_KeyEquation :
    ({ withPolys [1#8, 0#8, 0#8] [1#8, 1#8] with twos := 2#9 } : State).fieldReady ∧
    operandOk ({ withPolys [1#8, 0#8, 0#8] [1#8, 1#8] with twos := 2#9 } : State) 0#3 ∧
    operandOk ({ withPolys [1#8, 0#8, 0#8] [1#8, 1#8] with twos := 2#9 } : State) 1#3 ∧
    degreeOf (rawPoly ({ withPolys [1#8, 0#8, 0#8] [1#8, 1#8] with twos := 2#9 } : State) 1#3) ≤
      degreeOf (rawPoly ({ withPolys [1#8, 0#8, 0#8] [1#8, 1#8] with twos := 2#9 } : State) 0#3) ∧
    1 ≤ (2#9 : BitVec 9).toNat :=
  ⟨ready_fieldReady, ⟨by decide, by decide⟩, ⟨by decide, by decide⟩, by decide +kernel, by decide⟩
theorem test_witness_ChienResult : (withPolys [1#8, 1#8, 0x20#8] [0#8]).fieldReady ∧
    operandOk (withPolys [1#8, 1#8, 0x20#8] [0#8]) 0#3 ∧
    (rootsOf writtenTables (rawPoly (withPolys [1#8, 1#8, 0x20#8] [0#8]) 0#3)).length <
      degreeOf (rawPoly (withPolys [1#8, 1#8, 0x20#8] [0#8]) 0#3) :=
  ⟨ready_fieldReady, ⟨by decide, by decide⟩, by decide +kernel⟩
theorem test_witness_ChienResult_roots : (withPolys [1#8, 3#8] [0#8]).fieldReady ∧
    operandOk (withPolys [1#8, 3#8] [0#8]) 0#3 ∧
    degreeOf (rawPoly (withPolys [1#8, 3#8] [0#8]) 0#3) =
      (rootsOf writtenTables (rawPoly (withPolys [1#8, 3#8] [0#8]) 0#3)).length :=
  ⟨ready_fieldReady, ⟨by decide, by decide⟩, by decide +kernel⟩
theorem test_witness_ForneyResult : (withFixes (withPolys [1#8] [0#8]) [0#8] []).fieldReady ∧
    operandOk (withFixes (withPolys [1#8] [0#8]) [0#8] []) 0#3 ∧
    (withFixes (withPolys [1#8] [0#8]) [0#8] []).nloc.toNat ≤ 255 ∧
    0#8 ∈ readElems (withFixes (withPolys [1#8] [0#8]) [0#8] []).mem locBase 1 ∧
    ¬(readElems (withFixes (withPolys [1#8] [0#8]) [3#8, 3#8] []).mem locBase 2).Nodup :=
  ⟨ready_fieldReady, ⟨by decide, by decide⟩, by decide, by decide +kernel, by decide +kernel⟩
theorem test_witness_ForneyResult_good :
    (readElems (withFixes (withPolys [1#8] [0#8]) [1#8, 255#8] []).mem locBase 2).Nodup ∧
    0#8 ∉ readElems (withFixes (withPolys [1#8] [0#8]) [1#8, 255#8] []).mem locBase 2 ∧
    gfMul writtenTables 1#8 1#8 = 1#8 ∧ ({ ready with nloc := 255#9 } : State).nloc.toNat ≤ 255 := by decide +kernel
theorem test_witness_ApplyResult :
    (withFixes (withBlock [0#8] 1#9) [0#8] [1#8]).cwlen.toNat = 1 ∧
    readElem (withFixes (withBlock [0#8] 1#9) [0#8] [1#8]).mem locBase = 0#8 ∧
    readElem (withFixes (withBlock [0#8] 1#9) [2#8] [1#8]).mem locBase ≠ 0#8 ∧
    1 ≤ (logAt writtenTables (readElem (withFixes (withBlock [0#8] 1#9) [2#8] [1#8]).mem locBase)).toNat ∧
    readElem (withFixes (withBlock [0#8] 1#9) [1#8] [1#8]).mem locBase ≠ 0#8 ∧
    (logAt writtenTables (readElem (withFixes (withBlock [0#8] 1#9) [1#8] [1#8]).mem locBase)).toNat < 1 := by
  decide +kernel
theorem test_witness_DecodeCleanBlock : (withBlock [1#8, 3#8, 2#8] 2#9).fieldReady ∧
    rangesOk (withBlock [1#8, 3#8, 2#8] 2#9) ∧ ∀ n, n < 2 → syndromeOf (withBlock [1#8, 3#8, 2#8] 2#9) n = 0#8 :=
  ⟨ready_fieldReady, ⟨by decide, by decide, by decide, by decide⟩, by decide +kernel⟩
theorem test_witness_StagesAgree : (withBlock [1#8, 6#8, 2#8] 2#9).fieldReady ∧
    rangesOk (withBlock [1#8, 6#8, 2#8] 2#9) ∧ 0 < 2 ∧ syndromeOf (withBlock [1#8, 6#8, 2#8] 2#9) 0 ≠ 0#8 :=
  ⟨ready_fieldReady, ⟨by decide, by decide, by decide, by decide⟩, by decide, by decide +kernel⟩
theorem test_witness_DecoderCorrects : (withBlock [1#8, 6#8, 2#8] 2#9).fieldReady ∧
    rangesOk (withBlock [1#8, 6#8, 2#8] 2#9) ∧ [1#8, 3#8, 2#8].length = (withBlock [1#8, 6#8, 2#8] 2#9).cwlen.toNat ∧
    (∀ i, i < 2 → polyValue writtenTables [1#8, 3#8, 2#8] (fieldPow writtenTables 2#8 i) = 0#8) ∧
    distanceOf (codewords (withBlock [1#8, 6#8, 2#8] 2#9)) [1#8, 3#8, 2#8] = 2 / 2 :=
  ⟨ready_fieldReady, ⟨by decide, by decide, by decide, by decide⟩, by decide, by decide +kernel, by decide +kernel⟩

theorem test_witness_MatrixCommands :
    fisNaN (matElem (sq2q ⟨f32NaN, 0#32, 0#32, 0#32, 0#32, 0#32, 0#32, 0#32⟩) 0) = true ∧
    fisNaN (matElem (adjoint ⟨f32NaN, 0#32, 0#32, 0#32, f32NaN, 0#32, 0#32, 0#32, 0#32⟩) 0) = true ∧
    fisNaN (matElem (times ⟨f32NaN, 0#32, 0#32, 0#32, 0#32, 0#32, 0#32, 0#32, 0#32⟩ zeroMat) 0) = true := by
  decide +kernel
theorem test_witness_XptsResult : 256 < ({ ready with npts := 257#16 } : State).npts.toNat ∧
    ({ ready with npts := 256#16 } : State).npts.toNat ≤ 256 := by decide
theorem test_witness_FloatRounding : fisFinite 0x7F7FFFFF#32 = true ∧ fisFinite 1#32 = true ∧ f32Value f1 ≠ 0 ∧
    0 ≤ f32Value f1 ∧ fisFinite 0xBF800000#32 = true ∧ f32Value 0xBF800000#32 < 0 := by
  have g1 : f32Exp 0xBF800000#32 = 127 := by decide
  have g2 : f32Frac 0xBF800000#32 = 0 := by decide
  have g3 : f32Sign 0xBF800000#32 = true := by decide
  have h1 : f32Exp f1 = 127 := by decide
  have h2 : f32Frac f1 = 0 := by decide
  have h3 : f32Sign f1 = false := by decide
  refine ⟨by decide, by decide, ?_, ?_, by decide, ?_⟩ <;> norm_num [f32Value, h1, h2, h3, g1, g2, g3]
theorem test_witness_GridResult :
    ¬imageOk ready ∧ imageOk (withImage 1 1 []) ∧ imageOk (withImage 32767 32767 []) ∧
    ¬imageOk (withImage 32768 1 []) ∧ (withImage 1 1 []).dimx.toNat = 0 ∧
    256 < ({ withImage 1 1 [] with dimx := 257#16, dimy := 1#16 } : State).dimx.toNat ∧
    sampleModule (withImage 1 1 []).port zeroMat 0 0 = none := by
  refine ⟨fun h => absurd h.1 (by decide), ⟨by decide, by decide, by decide, by decide⟩,
    ⟨by decide, by decide, by decide, by decide⟩, fun h => absurd h.2.1 (by decide), rfl, by decide, by decide +kernel⟩
theorem test_witness_GridResult_samples :
    ∀ x y, x < 1 → y < 1 → sampleModule (withImage 1 1 []).port identityMat x y ≠ none := by
  intro x y hx hy
  obtain rfl : x = 0 := by omega
  obtain rfl : y = 0 := by omega
  decide +kernel
theorem test_witness_IdentityGridCopies :
    ({ withImage 256 256 [] with t := #v[zeroMat, zeroMat, zeroMat, identityMat], dimx := 256#16, dimy := 256#16 }
      : State).t[(3 : Fin 4)] = identityMat ∧ (withImage 256 256 []).port.width.toNat = 256 ∧
    (withImage 1 1 []).port.height.toNat = 1 ∧ (256#16 : BitVec 16) = (withImage 256 256 []).port.width :=
  ⟨rfl, by decide, by decide, by decide⟩

theorem test_witness_PffindResult : ¬imageOk ready ∧ imageOk threeFinders ∧
    (scan5 threeFinders.port false false).1.length = 3 ∧ (scan5 threeFinders.port false false).2 = .scanning := by
  refine ⟨fun h => absurd h.1 (by decide), ⟨by decide, by decide, by decide, by decide⟩, by decide +kernel,
    by decide +kernel⟩
theorem test_witness_PffindResult_two : imageOk (withImage 15 7 (List.zipWith (· + ·) (finderRows 0) (finderRows 8))) ∧
    (scan5 (withImage 15 7 (List.zipWith (· + ·) (finderRows 0) (finderRows 8))).port false false).1.length = 2 :=
  ⟨⟨by decide, by decide, by decide, by decide⟩, by decide +kernel⟩
theorem test_witness_PforderResult : fisNaN (distance ready.fpr[0] ready.fpr[1]) = false ∧
    fisNaN (distance ready.fpr[1] ready.fpr[2]) = false ∧ fisNaN (distance ready.fpr[0] ready.fpr[2]) = false := by
  decide +kernel
theorem test_witness_RatioTests :
    (∃ k : Fin 5, ready.sc[k].toNat = 0) ∧
    (∀ k : Fin 5, ({ ready with sc := #v[1#32, 1#32, 2#32, 1#32, 1#32] } : State).sc[k].toNat ≠ 0) ∧
    1 + 1 + 2 + 1 + 1 < 7 ∧ 7 * 2396745 ≤ 2 ^ 24 ∧ 3 * 2396745 = (7190235#32 : Word).toNat ∧ ready.ams = 0#32 ∧
    fisNaN f32NaN = true ∧ f32OfNat (2 ^ 24) = 0x4B800000#32 := by decide +kernel
theorem test_witness_CrossChecks : ¬crossArgsOk ready ∧ ¬crossArgsOk { threeFinders with cci := 15#16 } ∧
    crossArgsOk { threeFinders with cci := 14#16, ccj := 14#16 } ∧ threeFinders.ccmax = 0#32 := by
  refine ⟨fun h => absurd h.1 (by decide), fun h => absurd h.2.2.2.2.1 (by decide),
    ⟨by decide, by decide, by decide, by decide, by decide, by decide⟩, rfl⟩
theorem test_witness_VerticalCheckSound : ∃ t,
    exec .pfccv { threeFinders with cci := 3#16, ccj := 3#16, ccmax := 3#32, cctot := 7#32 } = .next t ∧
      t.status.resb = true :=
  ⟨after .pfccv { threeFinders with cci := 3#16, ccj := 3#16, ccmax := 3#32, cctot := 7#32 }, rfl, by decide +kernel⟩

/-- An alignment search over a whole image. -/
def alignmentSearch (n : Nat) (rows : List Nat) (ams : F32) : State :=
  { withImage n n rows with rgw := BitVec.ofNat 16 n, rgh := BitVec.ofNat 16 n, ams := ams }

/-- An alignment pattern of 2-pixel modules, 10 × 10. -/
def wideAlignmentRows : List Nat := [1023, 1023, 771, 771, 819, 819, 771, 771, 1023, 1023]

theorem test_witness_PfalignResult : ¬(imageOk ready ∧ regionInside ready) ∧ imageOk (alignmentSearch 5 alignmentRows f1) ∧
    regionInside (alignmentSearch 5 alignmentRows f1) :=
  ⟨fun h => absurd h.1.1 (by decide), ⟨by decide, by decide, by decide, by decide⟩,
    ⟨by decide, by decide, by decide, by decide⟩⟩
theorem test_witness_PfalignResult_single : scan3 (alignmentSearch 5 alignmentRows f1).port f1 0 0 5 5 =
    ([⟨0x40200000#32, 0x40200000#32, f1, 1#32⟩], .scanning) := by decide +kernel
theorem test_witness_PfalignResult_none : scan3 (alignmentSearch 5 [] f1).port f1 0 0 5 5 = ([], .scanning) := by
  decide +kernel
theorem test_witness_PfalignResult_combined : (scan3 (alignmentSearch 10 wideAlignmentRows f2).port f2 0 0 10 10).2 =
    .found ⟨0x40A00000#32, 0x40A00000#32, f2⟩ := by decide +kernel

end Sys2Proof.Tests
end

section
/-! PROOFS. The field laws of the tables reset initialisation builds (41_gf_field.md R150 to R153). Every nonzero
element is a power EXP[n] with n < 255, so the laws of the product are laws of exponents modulo 255; distributivity comes from
the linearity of the doubling, n times for EXP[n]. -/

namespace Sys2Proof.Machine

/-! ## The product at 0, for any tables -/

@[simp] theorem gfMul_zero (g : Tables) (a : Byte) : gfMul g a 0#8 = 0#8 := by simp [gfMul]

@[simp] theorem zero_gfMul (g : Tables) (a : Byte) : gfMul g 0#8 a = 0#8 := by simp [gfMul]

theorem gfMul_comm (g : Tables) (a b : Byte) : gfMul g a b = gfMul g b a := by
  simp only [gfMul, or_comm (a := a = 0#8), Nat.add_comm (logAt g a).toNat]

/-! ## What the built tables hold -/

section
variable {g : Tables} (hg : g = buildTables Config.prim)
include hg

theorem exists_expNat_of_ne_zero {a : Byte} (ha : a ≠ 0#8) : ∃ n < 255, a = expNat g n := by
  have key : ∀ x : Byte, x ≠ 0#8 →
      (logAt writtenTables x).toNat < 255 ∧ x = expNat writtenTables (logAt writtenTables x).toNat := by
    decide +kernel
  rw [hg, buildTables_eq]
  exact ⟨_, key a ha⟩

/-- LOG inverts EXP below 255, where EXP is never 0. -/
theorem expNat_ne_zero_and_logAt_expNat {n : Nat} (hn : n < 255) :
    expNat g n ≠ 0#8 ∧ (logAt g (expNat g n)).toNat = n := by
  have key : ∀ m < 255, expNat writtenTables m ≠ 0#8 ∧ (logAt writtenTables (expNat writtenTables m)).toNat = m := by
    decide +kernel
  rw [hg, buildTables_eq]
  exact key n hn

theorem expNat_zero : expNat g 0 = 1#8 := by
  rw [hg, buildTables_eq]; decide +kernel

theorem expNat_one : expNat g 1 = 2#8 := by
  rw [hg, buildTables_eq]; decide +kernel

/-- Multiplication by 2 shifts left and reduces what leaves the byte modulo `PRIM`. -/
theorem two_gfMul (a : Byte) : gfMul g 2#8 a = a <<< 1 ^^^ (if a.msb then 0x1D#8 else 0#8) := by
  have key : ∀ x : Byte, gfMul writtenTables 2#8 x = x <<< 1 ^^^ (if x.msb then 0x1D#8 else 0#8) := by
    decide +kernel
  rw [hg, buildTables_eq]
  exact key a

/-! ## The laws of the product -/

theorem gfMul_expNat {m n : Nat} (hm : m < 255) (hn : n < 255) :
    gfMul g (expNat g m) (expNat g n) = expNat g ((m + n) % 255) := by
  obtain ⟨hm0, hlogm⟩ := expNat_ne_zero_and_logAt_expNat hg hm
  obtain ⟨hn0, hlogn⟩ := expNat_ne_zero_and_logAt_expNat hg hn
  simp only [gfMul, hm0, hn0, or_self, if_false, hlogm, hlogn]

theorem one_gfMul (a : Byte) : gfMul g 1#8 a = a := by
  by_cases ha : a = 0#8
  · rw [ha, gfMul_zero]
  · obtain ⟨n, hn, rfl⟩ := exists_expNat_of_ne_zero hg ha
    rw [← expNat_zero hg, gfMul_expNat hg (by decide) hn, Nat.zero_add, Nat.mod_eq_of_lt hn]

theorem gfMul_assoc (a b c : Byte) : gfMul g (gfMul g a b) c = gfMul g a (gfMul g b c) := by
  by_cases ha : a = 0#8
  · simp [ha]
  by_cases hb : b = 0#8
  · simp [hb]
  by_cases hc : c = 0#8
  · simp [hc]
  obtain ⟨i, hi, rfl⟩ := exists_expNat_of_ne_zero hg ha
  obtain ⟨j, hj, rfl⟩ := exists_expNat_of_ne_zero hg hb
  obtain ⟨k, hk, rfl⟩ := exists_expNat_of_ne_zero hg hc
  have hmod (n : Nat) : n % 255 < 255 := Nat.mod_lt n (by decide)
  rw [gfMul_expNat hg hi hj, gfMul_expNat hg hj hk, gfMul_expNat hg (hmod _) hk, gfMul_expNat hg hi (hmod _),
    Nat.mod_add_mod, Nat.add_mod_mod, Nat.add_assoc]

theorem two_gfMul_xor (a b : Byte) : gfMul g 2#8 (a ^^^ b) = gfMul g 2#8 a ^^^ gfMul g 2#8 b := by
  have reduction (p q : Bool) : (if p ^^ q then 0x1D#8 else 0#8) =
      (if p then 0x1D#8 else 0#8) ^^^ (if q then 0x1D#8 else 0#8) := by
    revert p q; decide
  simp only [two_gfMul hg, BitVec.shiftLeft_xor_distrib, BitVec.msb_xor, reduction]
  ac_rfl

theorem expNat_succ {n : Nat} (hn : n + 1 < 255) : expNat g (n + 1) = gfMul g 2#8 (expNat g n) := by
  rw [← expNat_one hg, gfMul_expNat hg (by decide) (by omega), Nat.add_comm 1 n, Nat.mod_eq_of_lt hn]

theorem expNat_gfMul_xor {n : Nat} (hn : n < 255) (a b : Byte) :
    gfMul g (expNat g n) (a ^^^ b) = gfMul g (expNat g n) a ^^^ gfMul g (expNat g n) b := by
  induction n with
  | zero => simp only [expNat_zero hg, one_gfMul hg]
  | succ n ih => simp only [expNat_succ hg hn, gfMul_assoc hg, ih (by omega), two_gfMul_xor hg]

theorem gfMul_xor (a b c : Byte) : gfMul g a (b ^^^ c) = gfMul g a b ^^^ gfMul g a c := by
  by_cases ha : a = 0#8
  · simp [ha]
  · obtain ⟨n, hn, rfl⟩ := exists_expNat_of_ne_zero hg ha
    exact expNat_gfMul_xor hg hn b c

/-- EXP[n] is the n-th power of the generator 2. -/
theorem fieldPow_two {n : Nat} (hn : n < 255) : fieldPow g 2#8 n = expNat g n := by
  induction n with
  | zero => rw [fieldPow, expNat_zero hg]
  | succ n ih => rw [fieldPow, ih (by omega), gfMul_comm, ← expNat_succ hg hn]

end

end Sys2Proof.Machine
end

section
/-! PROOFS. Horner's rule (42_gf_poly.md R185) gives the value of a polynomial, the sum of c_n · x^n. -/

namespace Sys2Proof.Machine

/-! ## Sums -/

theorem xorBelow_succ (n : Nat) (f : Nat → Byte) : xorBelow (n + 1) f = xorBelow n f ^^^ f n := by
  simp [xorBelow, List.range_succ]

theorem xorBelow_succ_left (n : Nat) (f : Nat → Byte) :
    xorBelow (n + 1) f = f 0 ^^^ xorBelow n (fun i => f (i + 1)) := by
  induction n with
  | zero => simp [xorBelow]
  | succ n ih => rw [xorBelow_succ, ih, xorBelow_succ, BitVec.xor_assoc]

theorem gfMul_xorBelow {g : Tables} (hg : g = buildTables Config.prim) (a : Byte) (n : Nat) (f : Nat → Byte) :
    gfMul g a (xorBelow n f) = xorBelow n (fun i => gfMul g a (f i)) := by
  induction n with
  | zero => simp [xorBelow]
  | succ n ih => rw [xorBelow_succ, xorBelow_succ, gfMul_xor hg, ih]

/-! ## Coefficients of a list with one more at its end -/

theorem coefOf_append_singleton_zero (l : List Byte) (c : Byte) : coefOf (l ++ [c]) 0 = c := by
  simp [coefOf]

theorem coefOf_append_singleton_succ (l : List Byte) (c : Byte) (d : Nat) :
    coefOf (l ++ [c]) (d + 1) = coefOf l d := by
  by_cases hd : d < l.length
  · have hindex : (l ++ [c]).length - 1 - (d + 1) = l.length - 1 - d := by
      rw [List.length_append, List.length_singleton]; omega
    have hlength : d + 1 < (l ++ [c]).length := by simpa using hd
    rw [coefOf, coefOf, if_pos hd, if_pos hlength, hindex, List.getD_append _ _ _ _ (by omega)]
  · simp [coefOf, hd]

/-! ## Values -/

theorem peval_cons (g : Tables) (c : Byte) (l : List Byte) (x : Byte) :
    peval g (c :: l) x = l.foldl (fun r c => gfAdd (gfMul g x r) c) c := rfl

/-- Leading zeros do not matter to Horner's rule: normalisation may be left out and the rule started from 0. -/
theorem peval_normalise (g : Tables) (l : List Byte) (x : Byte) :
    peval g (normalise l) x = l.foldl (fun r c => gfAdd (gfMul g x r) c) 0#8 := by
  induction l with
  | nil => rfl
  | cons c l ih =>
    have hstart : gfAdd (gfMul g x 0#8) c = c := by simp [gfAdd]
    rw [List.foldl_cons, hstart]
    by_cases hc : c = 0#8
    · by_cases hl : l = []
      · rw [hl, hc]; rfl
      · rw [hc, normalise_cons_zero l hl, ih]
    · rw [normalise_cons_nonzero c l hc, peval_cons]

theorem polyValue_append_singleton {g : Tables} (hg : g = buildTables Config.prim) (l : List Byte) (c x : Byte) :
    polyValue g (l ++ [c]) x = gfAdd (gfMul g x (polyValue g l x)) c := by
  have hterm (n : Nat) : gfMul g (coefOf l n) (fieldPow g x (n + 1)) =
      gfMul g x (gfMul g (coefOf l n) (fieldPow g x n)) := by
    rw [fieldPow, ← gfMul_assoc hg, gfMul_comm]
  have hconst : gfMul g c (fieldPow g x 0) = c := by rw [fieldPow, gfMul_comm, one_gfMul hg]
  simp only [polyValue, List.length_append, List.length_singleton, xorBelow_succ_left, gfMul_xorBelow hg,
    coefOf_append_singleton_zero, coefOf_append_singleton_succ, hterm, hconst, gfAdd, BitVec.xor_comm c]

/-- The evaluation the engine does is the value of the polynomial. -/
theorem peval_normalise_eq_polyValue {g : Tables} (hg : g = buildTables Config.prim) (l : List Byte) (x : Byte) :
    peval g (normalise l) x = polyValue g l x := by
  rw [peval_normalise]
  induction l using List.reverseRecOn with
  | nil => rfl
  | append_singleton l c ih =>
    rw [List.foldl_append, ih, polyValue_append_singleton hg, List.foldl_cons, List.foldl_nil]

end Sys2Proof.Machine
end

section
/-! PROOFS. NOERR (10_state.md R38): the syndrome polynomial is [0] exactly on a clean block, and no command but RSSYN
and RSDEC sets the bit. -/

namespace Sys2Proof.Machine

/-! ## The syndrome polynomial -/

theorem normalise_eq_zero_iff (l : List Byte) : normalise l = [0#8] ↔ ∀ x ∈ l, x = 0#8 := by
  induction l with
  | nil => simp [normalise]
  | cons c l ih =>
    by_cases hc : c = 0#8
    · by_cases hl : l = []
      · simp [hl, hc, normalise]
      · simp [hc, normalise_cons_zero l hl, ih]
    · simp [hc, normalise_cons_nonzero c l hc]

theorem forall_mem_syndromes (g : Tables) (gbase : Nat) (rx : Poly) (n : Nat) (P : Byte → Prop) :
    (∀ x ∈ syndromes g gbase rx n, P x) ↔ ∀ k < n, P (peval g rx (expNat g (k + gbase))) := by
  induction n with
  | zero => simp [syndromes]
  | succ n ih => rw [syndromes, List.forall_mem_cons, ih, Nat.forall_lt_succ_right, and_comm]

/-- The syndrome the engine evaluates is S_k of the codewords (43_reed_solomon.md R202). -/
theorem peval_received {s : State} (hs : s.fieldReady) {k : Nat} (hk : k < 255) :
    peval s.tables (received s) (expNat s.tables (k + Config.gbase)) = syndromeOf s k := by
  rw [received, peval_normalise_eq_polyValue hs, syndromeOf, fieldPow_two hs (by simpa [Config.gbase] using hk),
    codewords]

theorem receivedSyndromes_eq_zero_iff {s : State} (hs : s.fieldReady) (hr : rangesOk s) :
    receivedSyndromes s = [0#8] ↔ ∀ k, k < s.twos.toNat → syndromeOf s k = 0#8 := by
  obtain ⟨-, -, -, htwos⟩ := hr
  rw [receivedSyndromes, syndromePoly, normalise_eq_zero_iff, forall_mem_syndromes]
  refine forall₂_congr fun k hk => ?_
  rw [peval_received hs (by omega)]

theorem cwlenOk_and_twosOk (s : State) : (cwlenOk s && twosOk s) = true ↔ rangesOk s := by
  simp only [cwlenOk, twosOk, rangesOk, Config.maxCw, Bool.and_eq_true, decide_eq_true_eq, and_assoc]

/-! ## The two commands that can set NOERR -/

/-- A command with flags leaves NOERR 1 exactly when it succeeds and sets it. -/
theorem endCommandFlags_noerr {s t : State} {r : Except ErrCode (State × Bool × Bool)}
    (h : endCommandFlags s r = .next t) : t.status.noerr = true ↔ ∃ u b, r = .ok (u, true, b) := by
  cases r with
  | ok r => obtain ⟨u, n, b⟩ := r; cases h; simp
  | error e => cases h; simp

theorem execRssyn_noerr (d : BitVec 3) {s t : State} (h : execRssyn d s = .next t) :
    t.status.noerr = true ↔ rangesOk s ∧ receivedSyndromes s = [0#8] := by
  rw [endCommandFlags_noerr h, ← cwlenOk_and_twosOk]
  by_cases hr : (cwlenOk s && twosOk s) = true
  · rw [if_pos hr, and_iff_right hr, polyResult_eq]
    by_cases hz : receivedSyndromes s = [0#8]
    · simp [hz]
    · by_cases hl : 512 < (receivedSyndromes s).length <;> simp [hz, hl]
  · simp [hr]

theorem execRsdec_noerr {s t : State} (h : execRsdec s = .next t) :
    t.status.noerr = true ↔ rangesOk s ∧ receivedSyndromes s = [0#8] := by
  rw [endCommandFlags_noerr h, ← cwlenOk_and_twosOk]
  by_cases hr : (cwlenOk s && twosOk s) = true
  · rw [if_pos hr, and_iff_right hr]
    by_cases hz : receivedSyndromes s = [0#8]
    · simp [hz]
    · cases decodeErrors s with
      | error e => simp [hz]
      | ok r => simp [hz]
  · simp [hr]

/-! ## Every other command -/

/-- A command that ends this way leaves NOERR 0. -/
def LeavesNoerrClear (o : Host.Outcome State Fault Refusal) : Prop := ∀ t, o = .next t → t.status.noerr = false

theorem leavesNoerrClear_complete (s : State) (e : ErrCode) (resb : Bool) :
    LeavesNoerrClear (.next (s.complete e false resb)) := by
  rintro _ ⟨⟩
  simp

theorem leavesNoerrClear_ite {c : Prop} [Decidable c] {o o' : Host.Outcome State Fault Refusal}
    (h : LeavesNoerrClear o) (h' : LeavesNoerrClear o') : LeavesNoerrClear (if c then o else o') := by
  split
  · exact h
  · exact h'

theorem endCommand_leavesNoerrClear (s : State) (r : Except ErrCode State) : LeavesNoerrClear (endCommand s r) := by
  cases r with
  | ok t => exact leavesNoerrClear_complete t .ok false
  | error e => exact leavesNoerrClear_complete s e false

theorem illegalCommand_leavesNoerrClear (s : State) : LeavesNoerrClear (illegalCommand s) :=
  leavesNoerrClear_complete s .illegalCmd false

theorem matResult_leavesNoerrClear (s : State) (ok : Bool) (d : BitVec 3) (m : Mat) :
    LeavesNoerrClear (matResult s ok d m) :=
  leavesNoerrClear_ite (endCommand_leavesNoerrClear s (.ok (putMat s d m))) (illegalCommand_leavesNoerrClear s)

theorem crossChecked_leavesNoerrClear (s t : State) (resb : Bool) :
    LeavesNoerrClear (endCommandFlags s (crossChecked s (t, false, resb))) := by
  rw [crossChecked]
  split
  · exact leavesNoerrClear_complete t .ok resb
  · exact leavesNoerrClear_complete s .illegalArg false

theorem execPffind_leavesNoerrClear (s : State) : LeavesNoerrClear (execPffind s) := by
  refine leavesNoerrClear_ite (leavesNoerrClear_complete _ .illegalArg false)
    (leavesNoerrClear_ite (leavesNoerrClear_complete _ .capacity false) ?_)
  split
  · exact leavesNoerrClear_complete _ .notFound false
  · exact leavesNoerrClear_complete _ .ok false

theorem execPfalign_leavesNoerrClear (s : State) : LeavesNoerrClear (execPfalign s) := by
  refine leavesNoerrClear_ite (leavesNoerrClear_complete _ .illegalArg false) ?_
  dsimp only
  split
  · exact leavesNoerrClear_complete _ _ false
  · exact leavesNoerrClear_complete _ .ok false

theorem exec_leavesNoerrClear (i : Instr) (s : State) (hi : ¬((∃ d, i = .rssyn d) ∨ i = .rsdec)) :
    LeavesNoerrClear (exec i s) := by
  cases i with
  | rsdec => exact absurd (.inr rfl) hi
  | rssyn d => exact absurd (.inl ⟨d, rfl⟩) hi
  | xsq2q | xq2sq | xq2q | xadj | xtimes | xqrgrid => exact matResult_leavesNoerrClear _ _ _ _
  | pfccv | pfcch | pfccd | pfccva => exact crossChecked_leavesNoerrClear _ _ _
  | pfratio5 | pfratio3 => exact leavesNoerrClear_complete s .ok _
  | nop | gadd | gmul | gexp | sreset | pforder => exact leavesNoerrClear_complete _ .ok false
  | pffind => exact execPffind_leavesNoerrClear s
  | pfalign => exact execPfalign_leavesNoerrClear s
  | pdiv | rseuc =>
    exact leavesNoerrClear_ite (illegalCommand_leavesNoerrClear s) (endCommand_leavesNoerrClear _ _)
  | xpts | grid =>
    exact leavesNoerrClear_ite (endCommand_leavesNoerrClear _ _) (illegalCommand_leavesNoerrClear s)
  | _ => exact endCommand_leavesNoerrClear _ _

/-- Settles O14: on the two commands NOERR says that the syndrome polynomial is [0], which is that every syndrome is 0;
every other command leaves it 0. -/
theorem noerrBit : Obligations.NoerrBit := by
  unfold Obligations.NoerrBit
  refine ⟨fun s w => rfl, fun i s t hs h => ?_⟩
  have hclean : rangesOk s ∧ receivedSyndromes s = [0#8] ↔
      rangesOk s ∧ ∀ k, k < s.twos.toNat → syndromeOf s k = 0#8 :=
    and_congr_right fun hr => receivedSyndromes_eq_zero_iff hs hr
  rw [← hclean]
  by_cases hi : (∃ d, i = .rssyn d) ∨ i = .rsdec
  · rw [and_iff_right hi]
    obtain ⟨d, rfl⟩ | rfl := hi
    · exact execRssyn_noerr d h
    · exact execRsdec_noerr h
  · rw [exec_leavesNoerrClear i s hi t h]
    simp [hi]

end Sys2Proof.Machine
end

section
/-! PROOFS. NOP (40_control.md R140): its word is the only one with its opcode that decodes, and it changes nothing. -/

namespace Sys2Proof

/-- A word whose RSV field is 0 is its other fields packed again (30_encoding.md R110). -/
theorem eq_packFields_of_rsvField {w : Word} (h : rsvField w = 0#12) :
    w = packFields (opField w) (dField w) (aField w) (bField w) (qField w) := by
  apply BitVec.eq_of_getLsbD_eq
  intro i hi
  rw [Laws.packFields_getLsbD]
  split_ifs with hop hd ha hb hq
  · simp [opField, hop]
  · simp [dField, show i - 8 < 3 by omega, show 8 + (i - 8) = i by omega]
  · simp [aField, show i - 11 < 3 by omega, show 11 + (i - 11) = i by omega]
  · simp [bField, show i - 14 < 3 by omega, show 14 + (i - 14) = i by omega]
  · simp [qField, show i - 17 < 3 by omega, show 17 + (i - 17) = i by omega]
  · have hbit : (rsvField w).getLsbD (i - 20) = false := by rw [h, BitVec.getLsbD_zero]
    simpa [rsvField, show i - 20 < 12 by omega, show 20 + (i - 20) = i by omega] using hbit

/-- A command without operands lets a word pass exactly if its four index fields are 0 (30_encoding.md R112). -/
theorem unusedFieldsZero_none_iff (w : Word) :
    unusedFieldsZero ⟨false, false, false, false⟩ w = true ↔
      dField w = 0#3 ∧ aField w = 0#3 ∧ bField w = 0#3 ∧ qField w = 0#3 := by
  simp [unusedFieldsZero, and_assoc]

/-- Decoding a word with the opcode of NOP: NOP has no operand, so only the first and the third test of R112 can
fail. -/
theorem decodeWord_of_opField_nop {w : Word} (h : opField w = 0x00#8) :
    decodeWord w =
      if rsvField w ≠ 0#12 then .error .reservedBits
      else if !unusedFieldsZero ⟨false, false, false, false⟩ w then .error .unusedField
      else .ok .nop := by
  rw [decodeWord, h]
  rfl

/-- A word with the opcode of NOP and any other bit set is illegal (30_encoding.md R112). -/
theorem decodeWord_error_of_opField_nop {w : Word} (hop : opField w = 0x00#8) (hw : w ≠ 0#32) :
    ∃ e, decodeWord w = .error e := by
  rw [decodeWord_of_opField_nop hop]
  by_cases hrsv : rsvField w = 0#12
  · have hused : ¬unusedFieldsZero ⟨false, false, false, false⟩ w = true := by
      intro hzero
      obtain ⟨hd, ha, hb, hq⟩ := (unusedFieldsZero_none_iff w).1 hzero
      have hpack := eq_packFields_of_rsvField hrsv
      rw [hop, hd, ha, hb, hq] at hpack
      exact hw hpack
    exact ⟨.unusedField, by simp [hrsv, hused]⟩
  · exact ⟨.reservedBits, if_pos hrsv⟩

namespace Machine

theorem exec_nop (s : State) : exec .nop s = .next s.done := endCommand_eq s (.ok s)

/-- After a normal completion STATUS reads DONE alone where CMDOVR and WRBUSY were 0: a completion does not
change these two (10_state.md R40). -/
theorem statusWord_done {s : State} (hcmdovr : s.status.cmdovr = false) (hwrbusy : s.status.wrbusy = false) :
    statusWord s.done.status = 0x00000002#32 := by
  rw [State.done_eq, State.ended_status, hcmdovr, hwrbusy]
  decide

/-- Settles O25: a word with the opcode of NOP that decodes has every other field 0, and NOP completes on the state it
started from. -/
theorem nopEffect : Obligations.NopEffect :=
  ⟨by decide, fun _ => decodeWord_error_of_opField_nop, exec_nop, fun _ => statusWord_done⟩

end Machine

end Sys2Proof
end

section
/-! PROOFS. The field GF(2^8) against its rules (41_gf_field.md R150, R153, R160): the tables as powers of 2, the laws, and
the product as the polynomial product modulo `PRIM`. The second factor is the sum of its bits, the powers EXP[0..7], and a
product by EXP[k] is k doublings, so the product is the shift-and-add product by linearity. -/

namespace Sys2Proof.Machine

/-! ## Doubling and the bits of a byte, without the tables -/

theorem gfDouble_eq (prim v : Nat) : gfDouble prim v = if 256 ≤ 2 * v then 2 * v ^^^ prim else 2 * v := by
  simp only [gfDouble, Nat.shiftLeft_eq, pow_one, Nat.mul_comm]

/-- On a byte, the doubling of the table construction is the shift with its reduction. -/
theorem gfDouble_prim (a : Byte) :
    gfDouble Config.prim a.toNat = (a <<< 1 ^^^ (if a.msb then 0x1D#8 else 0#8)).toNat := by
  revert a; decide +kernel

/-- A byte is the sum of its bits. -/
theorem xorBelow_bits (b : Byte) : xorBelow 8 (fun k => if b.getLsbD k then BitVec.twoPow 8 k else 0#8) = b := by
  revert b; decide +kernel

theorem xorBelow_congr {n : Nat} {f f' : Nat → Byte} (h : ∀ i < n, f i = f' i) : xorBelow n f = xorBelow n f' := by
  induction n with
  | zero => rfl
  | succ n ih => rw [xorBelow_succ, xorBelow_succ, ih fun i hi => h i (by omega), h n (by omega)]

section
variable {g : Tables} (hg : g = buildTables Config.prim)
include hg

/-! ## EXP and LOG -/

theorem expNat_255 : expNat g 255 = 1#8 := by
  rw [hg, buildTables_eq]; decide +kernel

/-- The table has one power more than the group has elements: exponents up to 255 count modulo 255. -/
theorem expNat_mod_255 {n : Nat} (hn : n ≤ 255) : expNat g (n % 255) = expNat g n := by
  obtain hlt | rfl := Nat.lt_or_eq_of_le hn
  · rw [Nat.mod_eq_of_lt hlt]
  · rw [Nat.mod_self, expNat_zero hg, expNat_255 hg]

theorem logAt_zero : logAt g 0#8 = 0#8 := by
  rw [hg, buildTables_eq]; decide +kernel

theorem logAt_three : logAt g 3#8 = 25#8 := by
  rw [hg, buildTables_eq]; decide +kernel

theorem logAt_expNat {n : Nat} (hn : n < 255) : logAt g (expNat g n) = BitVec.ofNat 8 n := by
  apply BitVec.eq_of_toNat_eq
  rw [(expNat_ne_zero_and_logAt_expNat hg hn).2, BitVec.toNat_ofNat, Nat.mod_eq_of_lt (by omega)]

theorem logAt_one : logAt g 1#8 = 0#8 := by
  rw [← expNat_zero hg, logAt_expNat hg (by decide)]

theorem logAt_two : logAt g 2#8 = 1#8 := by
  rw [← expNat_one hg, logAt_expNat hg (by decide)]

theorem logAt_lt {a : Byte} (ha : a ≠ 0#8) : (logAt g a).toNat < 255 := by
  obtain ⟨n, hn, rfl⟩ := exists_expNat_of_ne_zero hg ha
  rwa [(expNat_ne_zero_and_logAt_expNat hg hn).2]

theorem expAt_logAt {a : Byte} (ha : a ≠ 0#8) : expAt g (logAt g a) = a := by
  obtain ⟨n, hn, rfl⟩ := exists_expNat_of_ne_zero hg ha
  rw [logAt_expNat hg hn, expNat]

theorem expNat_first_sixteen : (List.range 16).map (expNat g) =
    [0x01#8, 0x02#8, 0x04#8, 0x08#8, 0x10#8, 0x20#8, 0x40#8, 0x80#8,
     0x1D#8, 0x3A#8, 0x74#8, 0xE8#8, 0xCD#8, 0x87#8, 0x13#8, 0x26#8] := by
  rw [hg, buildTables_eq]; decide +kernel

theorem expNat_254 : expNat g 254 = 0x8E#8 := by
  rw [hg, buildTables_eq]; decide +kernel

theorem expNat_eight : expNat g 8 = 0x1D#8 := by
  rw [hg, buildTables_eq]; decide +kernel

/-- The powers whose reduction by `PRIM` has not begun are the single bits. -/
theorem expNat_eq_twoPow {k : Nat} (hk : k < 8) : expNat g k = BitVec.twoPow 8 k := by
  have key : ∀ j < 8, expNat writtenTables j = BitVec.twoPow 8 j := by decide +kernel
  rw [hg, buildTables_eq]
  exact key k hk

/-! ## Multiplication by 2 is the doubling of the construction -/

theorem gfDouble_eq_two_gfMul (a : Byte) : gfDouble Config.prim a.toNat = (gfMul g 2#8 a).toNat := by
  rw [two_gfMul hg, gfDouble_prim]

/-- Each power is twice the one before, the last one included. -/
theorem expNat_succ_toNat {k : Nat} (hk : k < 255) :
    (expNat g (k + 1)).toNat = gfDouble Config.prim (expNat g k).toNat := by
  rw [gfDouble_eq_two_gfMul hg, ← expNat_one hg, gfMul_expNat hg (by decide) hk, Nat.add_comm 1 k,
    expNat_mod_255 hg hk]

/-- A product by EXP[k] is k doublings. -/
theorem expNat_gfMul_toNat {k : Nat} (hk : k < 255) (a : Byte) :
    (gfMul g (expNat g k) a).toNat = (gfDouble Config.prim)^[k] a.toNat := by
  induction k with
  | zero => rw [expNat_zero hg, one_gfMul hg, Function.iterate_zero_apply]
  | succ k ih =>
    rw [Function.iterate_succ_apply', ← ih (by omega), gfDouble_eq_two_gfMul hg, expNat_succ hg hk, gfMul_assoc hg]

/-- The product by the tables is the shift-and-add product: both are the sum, over the bits of b, of a doubled as often
as the bit says. -/
theorem gfMul_eq_shiftAddMul (a b : Byte) : gfMul g a b = shiftAddMul Config.prim a b := by
  have hbit {k : Nat} (hk : k < 8) : gfMul g a (if b.getLsbD k then BitVec.twoPow 8 k else 0#8) =
      if b.getLsbD k then BitVec.ofNat 8 ((gfDouble Config.prim)^[k] a.toNat) else 0#8 := by
    rw [apply_ite (gfMul g a), gfMul_zero, ← expNat_eq_twoPow hg hk, gfMul_comm, ← expNat_gfMul_toNat hg (by omega),
      BitVec.ofNat_toNat, BitVec.setWidth_eq]
  calc gfMul g a b
      = gfMul g a (xorBelow 8 fun k => if b.getLsbD k then BitVec.twoPow 8 k else 0#8) := by rw [xorBelow_bits]
    _ = xorBelow 8 fun k => gfMul g a (if b.getLsbD k then BitVec.twoPow 8 k else 0#8) := gfMul_xorBelow hg a 8 _
    _ = shiftAddMul Config.prim a b := xorBelow_congr fun _ hk => hbit hk

/-! ## The inverse -/

/-- EXP[n] and EXP[255 - n] are inverse to each other. -/
theorem gfMul_expNat_sub {n : Nat} (hn : n < 255) : gfMul g (expNat g n) (expNat g (255 - n)) = 1#8 := by
  have hmod : (255 - n) % 255 < 255 := Nat.mod_lt _ (by decide)
  rw [← expNat_mod_255 hg (Nat.sub_le 255 n), gfMul_expNat hg hn hmod, Nat.add_mod_mod, Nat.add_sub_cancel' hn.le,
    Nat.mod_self, expNat_zero hg]

theorem gfInv_spec {a : Byte} (ha : a ≠ 0#8) : ∃ b, gfInv g a = .ok b ∧ gfMul g a b = 1#8 := by
  refine ⟨expNat g (255 - (logAt g a).toNat), if_neg ha, ?_⟩
  obtain ⟨n, hn, rfl⟩ := exists_expNat_of_ne_zero hg ha
  rw [(expNat_ne_zero_and_logAt_expNat hg hn).2, gfMul_expNat_sub hg hn]

end

/-- Settles O28: inverse and logarithm through the exponent of the element, the laws of the product as proved for the
built tables. -/
theorem fieldLaws : Obligations.FieldLaws := by
  unfold Obligations.FieldLaws
  exact ⟨fun _ => gfInv_spec rfl, fun a ha => ⟨logAt _ a, if_neg ha, expAt_logAt rfl ha⟩, gfMul_comm _, gfMul_xor rfl,
    gfMul_assoc rfl⟩

/-- Settles O29: the formula is the model's definition, and the shift-and-add product follows by linearity in the second
factor. -/
theorem productModuloPrim : Obligations.ProductModuloPrim := by
  unfold Obligations.ProductModuloPrim
  exact fun a b => ⟨rfl, gfMul_eq_shiftAddMul rfl a b⟩

/-- Settles O27: the recurrence and the two inverse tables from the laws of the powers, the listed values by looking them
up. -/
theorem fieldTables : Obligations.FieldTables := by
  unfold Obligations.FieldTables
  refine ⟨expNat_zero rfl, fun k hk => ?_, fun k hk => (expNat_ne_zero_and_logAt_expNat rfl hk).2, logAt_zero rfl,
    fun a ha => ?_, expNat_255 rfl, logAt_one rfl, expNat_first_sixteen rfl, expNat_254 rfl, logAt_two rfl,
    logAt_three rfl⟩
  · rw [expNat_succ_toNat rfl hk, gfDouble_eq]
  · obtain ⟨k, hk, hak⟩ := exists_expNat_of_ne_zero rfl ha
    exact ⟨k, hk, hak.symm⟩

end Sys2Proof.Machine
end

section
/-! PROOFS. The field commands (41_gf_field.md R155 to R159): each one's next state in every state, then the corner cases
and examples from the field of the built tables. -/

namespace Sys2Proof.Machine

/-! ## The end of a field command -/

theorem endCommand_grResult_ok (s : State) (x : Byte) :
    endCommand s (grResult s (.ok x)) = .next { s.done with gr := x } := endCommand_eq s _

theorem endCommand_grResult_error (s : State) (e : ErrCode) :
    endCommand s (grResult s (.error e)) = .next (s.failed e) := endCommand_eq s _

/-! ## The next state of each command -/

theorem exec_gadd (s : State) : exec .gadd s = .next { s.done with gr := gfAdd s.ga s.gb } :=
  endCommand_grResult_ok s _

theorem exec_gmul (s : State) : exec .gmul s = .next { s.done with gr := gfMul s.tables s.ga s.gb } :=
  endCommand_grResult_ok s _

theorem exec_gexp (s : State) : exec .gexp s = .next { s.done with gr := expAt s.tables s.ga } :=
  endCommand_grResult_ok s _

theorem exec_ginv_zero {s : State} (h : s.ga = 0#8) : exec .ginv s = .next (s.failed .arith) := by
  have hinv : gfInv s.tables s.ga = .error .arith := if_pos h
  rw [← endCommand_grResult_error, ← hinv]; rfl

theorem exec_ginv {s : State} (h : s.ga ≠ 0#8) :
    exec .ginv s = .next { s.done with gr := expNat s.tables (255 - (logAt s.tables s.ga).toNat) } := by
  have hinv : gfInv s.tables s.ga = .ok _ := if_neg h
  rw [← endCommand_grResult_ok, ← hinv]; rfl

theorem exec_glog_zero {s : State} (h : s.ga = 0#8) : exec .glog s = .next (s.failed .illegalArg) := by
  have hlog : gfLog s.tables s.ga = .error .illegalArg := if_pos h
  rw [← endCommand_grResult_error, ← hlog]; rfl

theorem exec_glog {s : State} (h : s.ga ≠ 0#8) : exec .glog s = .next { s.done with gr := logAt s.tables s.ga } := by
  have hlog : gfLog s.tables s.ga = .ok _ := if_neg h
  rw [← endCommand_grResult_ok, ← hlog]; rfl

/-! ## The rules -/

/-- Settles O30: the three next states, and for each corner case and example the value GR gets. -/
theorem gaddGmulGexp : Obligations.GaddGmulGexp := by
  unfold Obligations.GaddGmulGexp
  refine ⟨by decide, by decide, by decide, fun s => ⟨exec_gadd s, exec_gmul s, exec_gexp s⟩, fun s h => ?_,
    fun s x h => ?_, fun s ha hb => ?_, fun s hs ha => ?_, fun s hs ha hb => ?_, fun s hs ha => ?_, fun s hs ha => ?_⟩
  · rw [exec_gadd, gfAdd, h, BitVec.xor_self]
  · rw [exec_gadd, gfAdd, h, BitVec.xor_assoc, BitVec.xor_self, BitVec.xor_zero]
  · rw [exec_gadd, ha, hb]; rfl
  · rw [exec_gmul, ha, one_gfMul hs]
  · rw [exec_gmul, ha, hb, gfMul_comm, two_gfMul hs]; rfl
  · have hexp : expAt s.tables s.ga = 1#8 := by
      obtain ha | ha := ha
      · rw [ha]; exact expNat_zero hs
      · rw [ha]; exact expNat_255 hs
    rw [exec_gexp, hexp]
  · have hexp : expAt s.tables s.ga = 0x1D#8 := by rw [ha]; exact expNat_eight hs
    rw [exec_gexp, hexp]

/-- Settles O31: the two next states on zero and on a nonzero GA, and the logarithms the corner cases and examples need;
a logarithm is below 255. -/
theorem ginvGlog : Obligations.GinvGlog := by
  unfold Obligations.GinvGlog
  refine ⟨by decide, by decide, fun s h => ⟨exec_ginv_zero h, exec_glog_zero h⟩, fun s h => ⟨exec_ginv h, exec_glog h⟩,
    fun s hs ha => ?_, fun s hs ha => ?_, fun s hs ha => ?_, fun s hs ha => ?_⟩
  · have hne : s.ga ≠ 0#8 := by rw [ha]; decide
    have hlog : logAt s.tables s.ga = 0#8 := by rw [ha, logAt_one hs]
    have hexp : expNat s.tables (255 - (0#8).toNat) = 1#8 := expNat_255 hs
    rw [exec_ginv hne, exec_glog hne, hlog, hexp]
    exact ⟨rfl, rfl⟩
  · have hexp : expNat s.tables (255 - (1#8).toNat) = 0x8E#8 := expNat_254 hs
    rw [exec_ginv (by rw [ha]; decide), ha, logAt_two hs, hexp]
  · rw [exec_glog (by rw [ha]; decide), ha, logAt_three hs]
  · refine ⟨logAt s.tables s.ga, fun h => ?_, exec_glog ha⟩
    have hlt := logAt_lt hs ha
    rw [h] at hlt
    exact absurd hlt (by decide)

end Sys2Proof.Machine
end

section
/-! PROOFS. The primitives on polynomials (42_gf_poly.md R171 to R174) by their coefficients: each normalised result is
known by its coefficients, and its length is bounded by where they vanish. -/

namespace Sys2Proof.Machine

/-! ## Coefficients of a list -/

/-- Counted from the end of the list, the coefficient of x^d stands at d. -/
theorem coefOf_eq_reverse_getD (l : List Byte) (d : Nat) : coefOf l d = l.reverse.getD d 0#8 := by
  rw [coefOf]
  split
  · next hd =>
    rw [List.getD_eq_getElem _ _ (by omega), List.getD_eq_getElem _ _ (by simpa using hd), List.getElem_reverse]
  · next hd => rw [List.getD_eq_default _ _ (by simpa using hd)]

theorem coefOf_of_length_le {l : List Byte} {d : Nat} (h : l.length ≤ d) : coefOf l d = 0#8 := if_neg (by omega)

theorem coefOf_append (l l' : List Byte) (d : Nat) :
    coefOf (l ++ l') d = if d < l'.length then coefOf l' d else coefOf l (d - l'.length) := by
  simp only [coefOf_eq_reverse_getD, List.reverse_append]
  split
  · next hd => rw [List.getD_append _ _ _ _ (by simpa using hd)]
  · next hd => rw [List.getD_append_right _ _ _ _ (by simpa using hd), List.length_reverse]

theorem coefOf_zipWith_gfAdd {l l' : List Byte} (h : l.length = l'.length) (d : Nat) :
    coefOf (List.zipWith gfAdd l l') d = coefOf l d ^^^ coefOf l' d := by
  by_cases hd : d < l.length
  · simp [coefOf_eq_reverse_getD, List.reverse_zipWith h, gfAdd, hd, ← h]
  · rw [coefOf_of_length_le (by simpa [← h] using hd), coefOf_of_length_le (by omega), coefOf_of_length_le (by omega),
      BitVec.xor_zero]

theorem coefOf_scaleCoefs (g : Tables) (l : List Byte) (s : Byte) (d : Nat) :
    coefOf (scaleCoefs g l s) d = gfMul g (coefOf l d) s := by
  by_cases hd : d < l.length <;> simp [coefOf_eq_reverse_getD, scaleCoefs, ← List.map_reverse, hd]

theorem coefOf_replicate_zero (n d : Nat) : coefOf (List.replicate n 0#8) d = 0#8 := by
  by_cases hd : d < n <;> simp [coefOf_eq_reverse_getD, hd]

theorem coefOf_zero (d : Nat) : coefOf [0#8] d = 0#8 := coefOf_replicate_zero 1 d

theorem coefOf_pdeg (p : Poly) : coefOf p (pdeg p) = plead p := by
  cases p with
  | nil => rfl
  | cons c p => simp [coefOf, pdeg, plead]

/-! ## Normalised polynomials -/

theorem Normal.length_pos {p : Poly} (h : Normal p) : 1 ≤ p.length := List.length_pos_iff.2 h.ne_nil

theorem normal_zero : Normal [0#8] := .inl rfl

theorem Normal.pisZero_iff {p : Poly} (h : Normal p) : pisZero p = true ↔ p = [0#8] := by
  constructor
  · intro hz
    obtain hp | ⟨-, hlead⟩ := h
    · exact hp
    · exact absurd (beq_iff_eq.1 hz) hlead
  · rintro rfl
    rfl

theorem Normal.plead_ne_zero {p : Poly} (h : Normal p) (hz : p ≠ [0#8]) : plead p ≠ 0#8 := fun hlead =>
  hz (h.pisZero_iff.1 (beq_iff_eq.2 hlead))

/-- A normalised polynomial is no longer than its coefficients ask for. -/
theorem Normal.length_le {p : Poly} (h : Normal p) {n : Nat} (hcoef : ∀ d, n ≤ d → coefOf p d = 0#8) :
    p = [0#8] ∨ p.length ≤ n := by
  by_cases hz : p = [0#8]
  · exact .inl hz
  · refine .inr (Nat.le_of_not_lt fun hlt => h.plead_ne_zero hz ?_)
    rw [← coefOf_pdeg, hcoef _ (by rw [pdeg]; omega)]

theorem allZero_iff_normalise (l : List Byte) : AllZero l ↔ normalise l = [0#8] := by
  constructor
  · intro hz
    have hcoef (d : Nat) : coefOf (normalise l) d = 0#8 := (coefOf_normalise l d).trans (hz d)
    obtain h | h := (normalise_normal l).length_le (n := 0) fun d _ => hcoef d
    · exact h
    · exact absurd (normalise_normal l).length_pos (by omega)
  · intro h d
    rw [← coefOf_normalise, h, coefOf_zero]

theorem normalise_length_le {l : List Byte} (h : l ≠ []) : (normalise l).length ≤ l.length := (normalise_spec l).2.1 h

/-! ## Addition (42_gf_poly.md R172) -/

theorem xorLow_length {sm lg : List Byte} (h : sm.length ≤ lg.length) : (xorLow sm lg).length = lg.length := by
  simp only [xorLow, List.length_append, List.length_take, List.length_zipWith, List.length_drop]
  omega

theorem coefOf_xorLow {sm lg : List Byte} (h : sm.length ≤ lg.length) (d : Nat) :
    coefOf (xorLow sm lg) d = coefOf sm d ^^^ coefOf lg d := by
  have hdrop : sm.length = (lg.drop (lg.length - sm.length)).length := by rw [List.length_drop]; omega
  have hlg : coefOf lg d = coefOf (lg.take (lg.length - sm.length) ++ lg.drop (lg.length - sm.length)) d := by
    rw [List.take_append_drop]
  rw [hlg, xorLow, coefOf_append, coefOf_append, ← hdrop, List.length_zipWith, ← hdrop, Nat.min_self]
  split
  · exact coefOf_zipWith_gfAdd hdrop d
  · rw [coefOf_of_length_le (l := sm) (by omega), BitVec.zero_xor]

/-- A sum is one of its operands where the other is zero, and else their coefficients added and normalised. -/
theorem padd_cases {p q : Poly} (hp : Normal p) (hq : Normal q) :
    (p = [0#8] ∧ padd p q = q) ∨ (q = [0#8] ∧ padd p q = p) ∨
      ∃ l, padd p q = normalise l ∧ l.length = max p.length q.length ∧ ∀ d, coefOf l d = coefOf p d ^^^ coefOf q d := by
  rw [padd]
  split
  · next h => exact .inl ⟨hp.pisZero_iff.1 h, rfl⟩
  split
  · next h => exact .inr (.inl ⟨hq.pisZero_iff.1 h, rfl⟩)
  split
  · next h => exact .inr (.inr ⟨_, rfl, by rw [xorLow_length h, max_eq_right h], coefOf_xorLow h⟩)
  · next h =>
    have h' : q.length ≤ p.length := by omega
    refine .inr (.inr ⟨_, rfl, by rw [xorLow_length h', max_eq_left h'], fun d => ?_⟩)
    rw [coefOf_xorLow h', BitVec.xor_comm]

section
variable {p q : Poly} (hp : Normal p) (hq : Normal q)
include hp hq

theorem padd_normal : Normal (padd p q) := by
  obtain ⟨-, h⟩ | ⟨-, h⟩ | ⟨l, h, -, -⟩ := padd_cases hp hq
  · rwa [h]
  · rwa [h]
  · rw [h]; exact normalise_normal l

theorem coefOf_padd (d : Nat) : coefOf (padd p q) d = coefOf p d ^^^ coefOf q d := by
  obtain ⟨hz, h⟩ | ⟨hz, h⟩ | ⟨l, h, -, hcoef⟩ := padd_cases hp hq
  · rw [h, hz, coefOf_zero, BitVec.zero_xor]
  · rw [h, hz, coefOf_zero, BitVec.xor_zero]
  · rw [h, coefOf_normalise, hcoef]

theorem padd_length_le : (padd p q).length ≤ max p.length q.length := by
  obtain ⟨-, h⟩ | ⟨-, h⟩ | ⟨l, h, hlength, -⟩ := padd_cases hp hq
  · rw [h]; exact le_max_right _ _
  · rw [h]; exact le_max_left _ _
  · have hpos := hp.length_pos
    rw [h, ← hlength]
    exact normalise_length_le (List.ne_nil_of_length_pos (by omega))

end

/-! ## Monomials (42_gf_poly.md R174) -/

theorem pmonoNat_zero (d : Nat) : pmonoNat d 0#8 = [0#8] := if_pos rfl

theorem pmonoNat_of_ne_zero {s : Byte} (h : s ≠ 0#8) (d : Nat) : pmonoNat d s = s :: List.replicate d 0#8 := if_neg h

theorem pmonoNat_normal (d : Nat) (s : Byte) : Normal (pmonoNat d s) := by
  by_cases hs : s = 0#8
  · rw [hs, pmonoNat_zero]; exact normal_zero
  · rw [pmonoNat_of_ne_zero hs]; exact .inr ⟨List.cons_ne_nil _ _, hs⟩

theorem pmonoNat_length_le (d : Nat) (s : Byte) : (pmonoNat d s).length ≤ d + 1 := by
  by_cases hs : s = 0#8
  · rw [hs, pmonoNat_zero, List.length_singleton]; omega
  · rw [pmonoNat_of_ne_zero hs, List.length_cons, List.length_replicate]

theorem coefOf_pmonoNat (d : Nat) (s : Byte) (n : Nat) : coefOf (pmonoNat d s) n = if n = d then s else 0#8 := by
  by_cases hs : s = 0#8
  · rw [hs, pmonoNat_zero, coefOf_zero, ite_self]
  · rw [pmonoNat_of_ne_zero hs, ← List.singleton_append, coefOf_append, List.length_replicate, coefOf_replicate_zero]
    obtain hn | rfl | hn := Nat.lt_trichotomy n d
    · rw [if_pos hn, if_neg (by omega)]
    · simp [coefOf]
    · rw [if_neg (by omega), if_neg (by omega), coefOf_of_length_le (by rw [List.length_singleton]; omega)]

theorem pmulmonoNat_normal (g : Tables) (p : Poly) (d : Nat) (s : Byte) : Normal (pmulmonoNat g p d s) := by
  rw [pmulmonoNat]
  split
  · exact normal_zero
  · exact normalise_normal _

theorem coefOf_pmulmonoNat (g : Tables) (p : Poly) (d : Nat) (s : Byte) (n : Nat) :
    coefOf (pmulmonoNat g p d s) n = if n < d then 0#8 else gfMul g (coefOf p (n - d)) s := by
  rw [pmulmonoNat]
  split
  · next hs => rw [hs, gfMul_zero, coefOf_zero, ite_self]
  · rw [coefOf_normalise, coefOf_append, List.length_replicate, coefOf_replicate_zero, coefOf_scaleCoefs]

/-! ## The coefficients of a product -/

theorem xorBelow_zero (n : Nat) : xorBelow n (fun _ => 0#8) = 0#8 := by
  induction n with
  | zero => rfl
  | succ n ih => rw [xorBelow_succ, ih, BitVec.xor_zero]

theorem xorBelow_xor (n : Nat) (f f' : Nat → Byte) :
    xorBelow n (fun i => f i ^^^ f' i) = xorBelow n f ^^^ xorBelow n f' := by
  induction n with
  | zero => exact BitVec.xor_zero.symm
  | succ n ih => rw [xorBelow_succ, xorBelow_succ, xorBelow_succ, ih]; ac_rfl

/-- A sum with at most one nonzero term. -/
theorem xorBelow_single {n k : Nat} (hk : k < n) {f : Nat → Byte} (hf : ∀ i, i ≠ k → f i = 0#8) :
    xorBelow n f = f k := by
  induction n with
  | zero => omega
  | succ n ih =>
    rw [xorBelow_succ]
    by_cases hkn : k = n
    · rw [xorBelow_congr (f' := fun _ => 0#8) fun i hi => hf i (by omega), xorBelow_zero, BitVec.zero_xor, hkn]
    · rw [ih (by omega), hf n (Ne.symm hkn), BitVec.xor_zero]

theorem productCoef_normalise_left (g : Tables) (a b : List Byte) (n : Nat) :
    productCoef g (normalise a) b n = productCoef g a b n := by
  simp only [productCoef, coefOf_normalise]

theorem productCoef_zero_right (g : Tables) (a : List Byte) (n : Nat) : productCoef g a [0#8] n = 0#8 := by
  simp only [productCoef, coefOf_zero, gfMul_zero, xorBelow_zero]

theorem productCoef_padd_right {g : Tables} (hg : g = buildTables Config.prim) (a : List Byte) {p q : Poly}
    (hp : Normal p) (hq : Normal q) (n : Nat) :
    productCoef g a (padd p q) n = productCoef g a p n ^^^ productCoef g a q n := by
  simp only [productCoef, coefOf_padd hp hq, gfMul_xor hg, xorBelow_xor]

/-- The product by a monomial is the monomial product. -/
theorem productCoef_pmonoNat_right (g : Tables) (p : Poly) (d : Nat) (s : Byte) (n : Nat) :
    productCoef g p (pmonoNat d s) n = coefOf (pmulmonoNat g p d s) n := by
  rw [productCoef, coefOf_pmulmonoNat]
  simp only [coefOf_pmonoNat]
  split
  · next hn =>
    rw [xorBelow_congr (f' := fun _ => 0#8) fun i _ => by rw [if_neg (by omega), gfMul_zero], xorBelow_zero]
  · next hn =>
    have hsingle (i : Nat) (hi : i < n + 1) : gfMul g (coefOf p i) (if n - i = d then s else 0#8) =
        if i = n - d then gfMul g (coefOf p (n - d)) s else 0#8 := by
      by_cases h : i = n - d
      · rw [if_pos (by omega), if_pos h, h]
      · rw [if_neg (by omega), if_neg h, gfMul_zero]
    rw [xorBelow_congr hsingle, xorBelow_single (k := n - d) (by omega) fun i hi => if_neg hi, if_pos rfl]

end Sys2Proof.Machine
end

section
/-! PROOFS. Long division (42_gf_poly.md R184, R186). Each pass adds a monomial to the quotient and takes the same
multiple of the divisor off the remainder, which keeps the division law; the multiple has the remainder's leading term, so
the remainder gets shorter, and a fuel of the dividend's length is enough. -/

namespace Sys2Proof.Machine

/-! ## One pass of the loop -/

/-- The degree of the monomial a pass adds to the quotient. -/
def passDegree (b r : Poly) : Nat := pdeg r - pdeg b

/-- The coefficient of the monomial a pass adds to the quotient. -/
def passScale (g : Tables) (dinv : Byte) (r : Poly) : Byte := gfMul g (plead r) dinv

/-- The quotient after a pass. -/
def passQuotient (g : Tables) (b : Poly) (dinv : Byte) (q r : Poly) : Poly :=
  padd q (pmonoNat (passDegree b r) (passScale g dinv r))

/-- The remainder after a pass. -/
def passRemainder (g : Tables) (b : Poly) (dinv : Byte) (r : Poly) : Poly :=
  padd r (pmulmonoNat g b (passDegree b r) (passScale g dinv r))

/-- The loop takes a pass: the remainder is nonzero and its degree is at least the divisor's. -/
def DivisionGoesOn (b r : Poly) : Prop := pdeg b ≤ pdeg r ∧ pisZero r = false

theorem divLoop_of_goesOn {b r : Poly} (h : DivisionGoesOn b r) (g : Tables) (dinv : Byte) (fuel : Nat) (q : Poly) :
    divLoop g b dinv (fuel + 1) q r =
      divLoop g b dinv fuel (passQuotient g b dinv q r) (passRemainder g b dinv r) := by
  obtain ⟨hdeg, hzero⟩ := h
  rw [divLoop, if_pos (by simp [hdeg, hzero])]
  rfl

theorem divLoop_of_not_goesOn {b r : Poly} (h : ¬DivisionGoesOn b r) (g : Tables) (dinv : Byte) (fuel : Nat)
    (q : Poly) : divLoop g b dinv fuel q r = (q, r) := by
  cases fuel with
  | zero => rfl
  | succ fuel => rw [divLoop, if_neg (by simpa [DivisionGoesOn] using h)]

/-! ## The invariant of the loop -/

/-- The invariant of the loop that divides `a` by `b`, from quotient `q` and remainder `r`: the division law, both
normalised, neither longer than the dividend. -/
structure DivisionInvariant (g : Tables) (a b q r : Poly) : Prop where
  quotient_normal : Normal q
  remainder_normal : Normal r
  quotient_length : q.length ≤ a.length
  remainder_length : r.length ≤ a.length
  law : ∀ n, coefOf a n = productCoef g b q n ^^^ coefOf r n

theorem DivisionInvariant.start (g : Tables) {a : Poly} (b : Poly) (ha : Normal a) :
    DivisionInvariant g a b [0#8] a where
  quotient_normal := normal_zero
  remainder_normal := ha
  quotient_length := ha.length_pos
  remainder_length := le_refl _
  law n := by rw [productCoef_zero_right, BitVec.zero_xor]

/-- What is added to both sides of a sum of two bytes cancels. -/
theorem xor_xor_xor_cancel (x y z : Byte) : (x ^^^ y) ^^^ (z ^^^ y) = x ^^^ z := by
  rw [BitVec.xor_assoc, BitVec.xor_comm z, ← BitVec.xor_assoc y, BitVec.xor_self, BitVec.zero_xor]

theorem coefOf_passRemainder (g : Tables) (b : Poly) (dinv : Byte) {r : Poly} (hr : Normal r) (n : Nat) :
    coefOf (passRemainder g b dinv r) n =
      coefOf r n ^^^ coefOf (pmulmonoNat g b (passDegree b r) (passScale g dinv r)) n :=
  coefOf_padd hr (pmulmonoNat_normal _ _ _ _) n

/-- What a pass takes off the remainder has the remainder's leading term. -/
theorem passScale_cancels {g : Tables} (hg : g = buildTables Config.prim) {b : Poly} {dinv : Byte}
    (hinv : gfMul g (plead b) dinv = 1#8) (r : Poly) : gfMul g (plead b) (passScale g dinv r) = plead r := by
  rw [passScale, gfMul_comm g (plead r), ← gfMul_assoc hg, hinv, one_gfMul hg]

/-- A pass makes the remainder shorter, or zero. -/
theorem passRemainder_shorter {g : Tables} (hg : g = buildTables Config.prim) {b r : Poly} {dinv : Byte}
    (hinv : gfMul g (plead b) dinv = 1#8) (hr : Normal r) (hdeg : pdeg b ≤ pdeg r) :
    passRemainder g b dinv r = [0#8] ∨ (passRemainder g b dinv r).length ≤ pdeg r := by
  refine (padd_normal hr (pmulmonoNat_normal _ _ _ _)).length_le fun d hd => ?_
  have hindex : ¬d < passDegree b r := by rw [passDegree]; omega
  rw [← passRemainder, coefOf_passRemainder g b dinv hr, coefOf_pmulmonoNat, if_neg hindex]
  obtain rfl | hlt := Nat.eq_or_lt_of_le hd
  · have hlead : pdeg r - passDegree b r = pdeg b := by rw [passDegree]; omega
    rw [hlead, coefOf_pdeg, coefOf_pdeg, passScale_cancels hg hinv, BitVec.xor_self]
  · have hb : b.length ≤ d - passDegree b r := by rw [passDegree]; simp only [pdeg] at *; omega
    rw [coefOf_of_length_le (l := r) (by rw [pdeg] at hlt; omega), coefOf_of_length_le hb, zero_gfMul, BitVec.xor_self]

theorem DivisionInvariant.pass {g : Tables} (hg : g = buildTables Config.prim) {a b q r : Poly} {dinv : Byte}
    (hinv : gfMul g (plead b) dinv = 1#8) (h : DivisionInvariant g a b q r) (hdeg : pdeg b ≤ pdeg r) :
    DivisionInvariant g a b (passQuotient g b dinv q r) (passRemainder g b dinv r) where
  quotient_normal := padd_normal h.quotient_normal (pmonoNat_normal _ _)
  remainder_normal := padd_normal h.remainder_normal (pmulmonoNat_normal _ _ _ _)
  quotient_length := by
    have hr := h.remainder_normal.length_pos
    have hmono := pmonoNat_length_le (passDegree b r) (passScale g dinv r)
    have hdegree : passDegree b r + 1 ≤ r.length := by rw [passDegree, pdeg]; omega
    exact (padd_length_le h.quotient_normal (pmonoNat_normal _ _)).trans
      (max_le h.quotient_length (hmono.trans (hdegree.trans h.remainder_length)))
  remainder_length := by
    have hr := h.remainder_normal.length_pos
    have hle := h.remainder_length
    obtain hzero | hlt := passRemainder_shorter hg hinv h.remainder_normal hdeg
    · rw [hzero, List.length_singleton]; omega
    · rw [pdeg] at hlt; omega
  law n := by
    rw [h.law, passQuotient, productCoef_padd_right hg b h.quotient_normal (pmonoNat_normal _ _),
      productCoef_pmonoNat_right, coefOf_passRemainder g b dinv h.remainder_normal]
    exact (xor_xor_xor_cancel _ _ _).symm

/-! ## The loop -/

/-- The loop keeps the invariant and, with fuel for the remainder, ends only where no pass is left. -/
theorem divLoop_spec {g : Tables} (hg : g = buildTables Config.prim) {a b : Poly} {dinv : Byte}
    (hinv : gfMul g (plead b) dinv = 1#8) (fuel : Nat) {q r : Poly} (h : DivisionInvariant g a b q r)
    (hfuel : r = [0#8] ∨ r.length ≤ fuel) :
    ∃ q' r', divLoop g b dinv fuel q r = (q', r') ∧ DivisionInvariant g a b q' r' ∧ ¬DivisionGoesOn b r' := by
  induction fuel generalizing q r with
  | zero =>
    have hzero : r = [0#8] := hfuel.resolve_right fun hr => absurd h.remainder_normal.length_pos (by omega)
    exact ⟨q, r, rfl, h, fun ⟨_, hne⟩ => absurd (h.remainder_normal.pisZero_iff.2 hzero) (by simp [hne])⟩
  | succ fuel ih =>
    by_cases hgo : DivisionGoesOn b r
    · obtain ⟨hdeg, hne⟩ := hgo
      have hr : r ≠ [0#8] := fun hzero => by simp [h.remainder_normal.pisZero_iff.2 hzero] at hne
      have hlength : pdeg r ≤ fuel := by have := hfuel.resolve_left hr; rw [pdeg]; omega
      rw [divLoop_of_goesOn ⟨hdeg, hne⟩]
      exact ih (h.pass hg hinv hdeg)
        ((passRemainder_shorter hg hinv h.remainder_normal hdeg).imp_right (·.trans hlength))
    · exact ⟨q, r, divLoop_of_not_goesOn hgo g dinv _ q, h, hgo⟩

/-! ## Division -/

theorem pdiv_zero (g : Tables) (a : Poly) : pdiv g a [0#8] = .error .illegalArg := rfl

/-- Division of normalised polynomials by a nonzero one satisfies the division law (42_gf_poly.md R184). -/
theorem pdiv_spec {g : Tables} (hg : g = buildTables Config.prim) {a b : Poly} (ha : Normal a) (hb : Normal b)
    (hzero : b ≠ [0#8]) :
    ∃ q r, pdiv g a b = .ok (q, r) ∧ DivisionInvariant g a b q r ∧ (pdeg r < pdeg b ∨ r = [0#8]) := by
  obtain ⟨dinv, hgfInv, hinv⟩ := gfInv_spec hg (hb.plead_ne_zero hzero)
  obtain ⟨q, r, hloop, h, hend⟩ :=
    divLoop_spec hg hinv a.length (DivisionInvariant.start g b ha) (.inr (le_refl _))
  refine ⟨q, r, ?_, h, ?_⟩
  · rw [pdiv, if_neg (by rwa [hb.pisZero_iff]), hgfInv, ← hloop]
  · by_cases hr : r = [0#8]
    · exact .inr hr
    · have hne : pisZero r = false := by rwa [← Bool.not_eq_true, h.remainder_normal.pisZero_iff]
      exact .inl (Nat.lt_of_not_le fun hle => hend ⟨hle, hne⟩)

/-! ## The command -/

theorem withOperands_ok {s : State} {a b : BitVec 3} (ha : operandOk s a) (hb : operandOk s b)
    (f : Poly → Poly → Except ErrCode State) :
    withOperands s a b f = f (normalise (rawPoly s a)) (normalise (rawPoly s b)) := by
  simp only [withOperands, withOperand, polyOperand_ok ha, polyOperand_ok hb]

theorem exec_pdiv {s : State} {d q a b : BitVec 3} (ha : operandOk s a) (hb : operandOk s b) (hdq : d ≠ q) :
    exec (.pdiv d q a b) s =
      endCommand s (divResult s d q (pdiv s.tables (normalise (rawPoly s a)) (normalise (rawPoly s b)))) := by
  rw [← withOperands_ok ha hb fun x y => divResult s d q (pdiv s.tables x y)]
  exact if_neg hdq

theorem endCommand_polyResults {s : State} {p p' : Poly} (h : p.length ≤ 512) (h' : p'.length ≤ 512)
    (k k' : BitVec 3) :
    ∃ t, endCommand s (polyResults s k p k' p') = .next t ∧ PolyResults s k p k' p' t := by
  rw [polyResults_eq, if_neg (by omega), endCommand_eq]
  exact ⟨_, rfl, polyResults_done s k p k' p'⟩

theorem normalise_rawPoly_length_le {s : State} {k : BitVec 3} (h : operandOk s k) :
    (normalise (rawPoly s k)).length ≤ 512 := by
  obtain ⟨hpos, hle⟩ := h
  have hlength := rawPoly_length s k
  exact (normalise_length_le (List.ne_nil_of_length_pos (by omega))).trans (by omega)

/-- Settles O39: the loop's invariant holds of the quotient and remainder it ends with, and neither is longer than the
dividend, so both fit their buffers. -/
theorem divisionLaw : Obligations.DivisionLaw := by
  unfold Obligations.DivisionLaw
  intro s d q a b hs ha hb hdq
  rw [allZero_iff_normalise, exec_pdiv ha hb hdq]
  refine ⟨fun hzero => ?_, fun hzero => ?_⟩
  · rw [hzero, pdiv_zero]
    exact endCommand_eq s (.error .illegalArg)
  · obtain ⟨quo, rem, hdiv, h, hdeg⟩ := pdiv_spec hs (normalise_normal (rawPoly s a)) (normalise_normal _) hzero
    have hfits := normalise_rawPoly_length_le ha
    obtain ⟨t, hnext, hresults⟩ := endCommand_polyResults (s := s) (h.quotient_length.trans hfits)
      (h.remainder_length.trans hfits) d q
    have hdegree : degreeOf rem = pdeg rem := by rw [degreeOf, h.remainder_normal.normalise_eq, pdeg]
    refine ⟨quo, rem, t, ?_, hresults, h.quotient_normal, h.remainder_normal, fun n => ?_, ?_⟩
    · rw [hdiv]; exact hnext
    · rw [← coefOf_normalise, h.law, productCoef_normalise_left]
    · rw [hdegree]; exact hdeg

end Sys2Proof.Machine
end

section
/-! PROOFS. PMONO (42_gf_poly.md R180): the sign of DEG decides the error, and the length DEG + 1 whether a nonzero
monomial fits its buffer. -/

namespace Sys2Proof.Machine

/-! ## The end of a command with one polynomial result -/

theorem endCommand_polyResult {s : State} {p : Poly} (h : p.length ≤ 512) (k : BitVec 3) :
    ∃ t, endCommand s (polyResult s k p) = .next t ∧ PolyResult s k p false t := by
  rw [polyResult_eq, if_neg (by omega), endCommand_eq]
  exact ⟨_, rfl, polyResult_done s k p false⟩

theorem endCommand_polyResult_capacity {s : State} {p : Poly} (h : 512 < p.length) (k : BitVec 3) :
    endCommand s (polyResult s k p) = .next (s.failed .capacity) := by
  rw [polyResult_eq, if_pos h, endCommand_eq]

/-! ## The command -/

/-- A DEG that is not negative is read as the same number without its sign (10_state.md R28). -/
theorem toNat_degOperand {s : State} (h : 0 ≤ s.deg.toInt) : (degOperand s).toNat = s.deg.toNat := by
  rw [degOperand]
  have := BitVec.toInt_eq_toNat_cond s.deg
  split at this <;> omega

theorem toInt_nonneg_of_toNat_le {s : State} (h : s.deg.toNat ≤ 511) : 0 ≤ s.deg.toInt := by
  rw [BitVec.toInt_eq_toNat_of_lt (by omega)]
  omega

theorem exec_pmono (d : BitVec 3) (s : State) :
    exec (.pmono d) s = endCommand s (polyResultOf s d (pmono (degOperand s) s.ga)) := rfl

theorem exec_pmono_of_neg {s : State} (h : s.deg.toInt < 0) (d : BitVec 3) :
    exec (.pmono d) s = .next (s.failed .illegalArg) := by
  have hmono : pmono (degOperand s) s.ga = .error .illegalArg := if_pos h
  rw [exec_pmono, hmono, polyResultOf, endCommand_eq]

theorem exec_pmono_of_nonneg {s : State} (h : 0 ≤ s.deg.toInt) (d : BitVec 3) :
    exec (.pmono d) s = endCommand s (polyResult s d (pmonoNat s.deg.toNat s.ga)) := by
  have hmono : pmono (degOperand s) s.ga = .ok (pmonoNat s.deg.toNat s.ga) := by
    rw [← toNat_degOperand h]
    exact if_neg (by rw [degOperand]; omega)
  rw [exec_pmono, hmono, polyResultOf]

theorem encode_pmono (d : BitVec 3) : encode (.pmono d) = BitVec.ofNat 32 (0x15 + 256 * d.toNat) := by
  revert d; decide

/-- A nonzero monomial of degree at most 511 is written as its coefficient and DEG zeros. -/
theorem exec_pmono_of_fits {s : State} (hdeg : s.deg.toNat ≤ 511) (hga : s.ga ≠ 0#8) (d : BitVec 3) :
    ∃ t, exec (.pmono d) s = .next t ∧ PolyResult s d (s.ga :: List.replicate s.deg.toNat 0#8) false t := by
  have hlength := pmonoNat_length_le s.deg.toNat s.ga
  rw [exec_pmono_of_nonneg (toInt_nonneg_of_toNat_le hdeg), ← pmonoNat_of_ne_zero hga]
  exact endCommand_polyResult (by omega) d

theorem PolyResult.degr {s t : State} {d : BitVec 3} {r : List Byte} {noerr : Bool} (h : PolyResult s d r noerr t) :
    t.degr = BitVec.ofNat 16 (r.length - 1) := by
  obtain ⟨m, -, rfl⟩ := h
  rfl

/-- Settles O37: each clause is one branch of the command, by the sign of DEG, by GA, and by the monomial's length; the
example is the clause for a monomial that fits. -/
theorem pmonoResult : Obligations.PmonoResult := by
  unfold Obligations.PmonoResult
  refine ⟨encode_pmono, fun s d => ⟨fun hneg => exec_pmono_of_neg hneg d, fun hdeg hga => ?_,
    fun hdeg hga => exec_pmono_of_fits hdeg hga d, fun hdeg hlong hga => ?_⟩, fun s hdeg hga => ?_⟩
  · rw [exec_pmono_of_nonneg hdeg, hga, pmonoNat_zero]
    exact endCommand_polyResult (by decide) d
  · rw [exec_pmono_of_nonneg hdeg, pmonoNat_of_ne_zero hga]
    refine endCommand_polyResult_capacity ?_ d
    rw [List.length_cons, List.length_replicate]
    omega
  · obtain ⟨t, hnext, hresult⟩ := exec_pmono_of_fits (s := s) (by rw [hdeg]; decide) (by rw [hga]; decide) 4#3
    rw [hdeg, hga] at hresult
    exact ⟨t, hnext, hresult, hresult.degr⟩

end Sys2Proof.Machine
end

section
/-! PROOFS. The key equation (43_reed_solomon.md R203, R207, R211) over any field of characteristic 2: the locator and
the evaluator polynomial of an error pattern, that the syndromes tie them together modulo x^n, and that the extended
Euclidean algorithm, stopped below degree n/2, finds them up to one constant when there are at most n/2 errors. -/

namespace Sys2Proof.Machine

open Polynomial

section
variable {K ι : Type} [Field K]

/-! ## The polynomials of an error pattern -/

/-- The locator polynomial of the error locations: the product of 1 + loc l · x. -/
noncomputable def locatorPoly (loc : ι → K) (L : Finset ι) : K[X] := ∏ l ∈ L, (1 + C (loc l) * X)

/-- The polynomial of the first n syndromes: the coefficient of x^i is the sum of e l · (loc l)^i. -/
noncomputable def syndromeSum (loc e : ι → K) (L : Finset ι) (n : ℕ) : K[X] :=
  ∑ l ∈ L, C (e l) * ∑ i ∈ Finset.range n, (C (loc l) * X) ^ i

theorem coeff_syndromeSum (loc e : ι → K) (L : Finset ι) (n i : ℕ) :
    (syndromeSum loc e L n).coeff i = if i < n then ∑ l ∈ L, e l * loc l ^ i else 0 := by
  have hterm (l : ι) : (∑ j ∈ Finset.range n, (C (loc l) * X) ^ j).coeff i = if i < n then loc l ^ i else 0 := by
    simp only [mul_pow, ← C_pow, finsetSum_coeff, coeff_C_mul_X_pow, Finset.sum_ite_eq, Finset.mem_range]
  simp only [syndromeSum, finsetSum_coeff, coeff_C_mul, hterm]
  split <;> simp

theorem natDegree_one_add_C_mul_X_le (a : K) : (1 + C a * X).natDegree ≤ 1 :=
  (natDegree_add_le _ _).trans (max_le (by simp) ((natDegree_C_mul_le a X).trans natDegree_X_le))

theorem natDegree_locatorPoly_le (loc : ι → K) (L : Finset ι) : (locatorPoly loc L).natDegree ≤ L.card := by
  have hsum : ∑ l ∈ L, natDegree (1 + C (loc l) * X) ≤ L.card • 1 :=
    Finset.sum_le_card_nsmul L _ 1 fun l _ => natDegree_one_add_C_mul_X_le (loc l)
  exact (natDegree_prod_le L _).trans (hsum.trans (by simp))

theorem natDegree_locatorPoly {loc : ι → K} {L : Finset ι} (hzero : ∀ l ∈ L, loc l ≠ 0) :
    (locatorPoly loc L).natDegree = L.card := by
  have hlinear (l : ι) (hl : l ∈ L) : natDegree (1 + C (loc l) * X) = 1 := by
    rw [add_comm, ← C_1, natDegree_linear (hzero l hl)]
  have hne (l : ι) (hl : l ∈ L) : 1 + C (loc l) * X ≠ 0 :=
    ne_zero_of_natDegree_gt (n := 0) (by rw [hlinear l hl]; exact one_pos)
  rw [locatorPoly, natDegree_prod _ _ hne, Finset.sum_congr rfl hlinear, Finset.sum_const, smul_eq_mul, mul_one]

theorem eval_locatorPoly (loc : ι → K) (L : Finset ι) (x : K) :
    (locatorPoly loc L).eval x = ∏ l ∈ L, (1 + loc l * x) := by
  simp [locatorPoly, eval_prod]

theorem coeff_zero_locatorPoly (loc : ι → K) (L : Finset ι) : (locatorPoly loc L).coeff 0 = 1 := by
  simp [coeff_zero_eq_eval_zero, eval_locatorPoly]

theorem locatorPoly_ne_zero (loc : ι → K) (L : Finset ι) : locatorPoly loc L ≠ 0 := by
  intro h
  have := coeff_zero_locatorPoly loc L
  rw [h, coeff_zero] at this
  exact zero_ne_one this

section
variable [DecidableEq ι]

/-- The evaluator polynomial of error values at their locations. -/
noncomputable def evaluatorPoly (loc e : ι → K) (L : Finset ι) : K[X] := ∑ l ∈ L, C (e l) * locatorPoly loc (L.erase l)

theorem natDegree_evaluatorPoly_le (loc e : ι → K) (L : Finset ι) : (evaluatorPoly loc e L).natDegree ≤ L.card - 1 := by
  refine natDegree_sum_le_of_forall_le L _ fun l hl => (natDegree_C_mul_le _ _).trans ?_
  exact (natDegree_locatorPoly_le loc _).trans (Finset.card_erase_of_mem hl).le

theorem mul_locatorPoly_erase (loc : ι → K) {L : Finset ι} {l : ι} (hl : l ∈ L) :
    (1 + C (loc l) * X) * locatorPoly loc (L.erase l) = locatorPoly loc L :=
  Finset.mul_prod_erase L (fun l => 1 + C (loc l) * X) hl

end

variable [CharP K 2]

/-! ## The roots of the locator -/

section
variable {loc : ι → K} {L : Finset ι} (hloc : Function.Injective loc) (hzero : ∀ l ∈ L, loc l ≠ 0)

theorem one_add_mul_inv_eq_zero_iff {a b : K} (hb : b ≠ 0) : 1 + a * b⁻¹ = 0 ↔ a = b := by
  rw [CharTwo.add_eq_zero, eq_comm, mul_inv_eq_one₀ hb]

include hzero in
theorem eval_locatorPoly_inv_eq_zero {l : ι} (hl : l ∈ L) : (locatorPoly loc L).eval (loc l)⁻¹ = 0 := by
  rw [eval_locatorPoly]
  exact Finset.prod_eq_zero hl ((one_add_mul_inv_eq_zero_iff (hzero l hl)).2 rfl)

include hloc in
theorem eval_locatorPoly_inv_ne_zero {l : ι} (hl : l ∉ L) (hne : loc l ≠ 0) :
    (locatorPoly loc L).eval (loc l)⁻¹ ≠ 0 := by
  rw [eval_locatorPoly]
  refine Finset.prod_ne_zero_iff.2 fun m hm h => hl ?_
  rwa [← hloc ((one_add_mul_inv_eq_zero_iff hne).1 h)]

theorem isCoprime_one_add_C_mul_X {a b : K} (h : a ≠ b) : IsCoprime (1 + C a * X) (1 + C b * X) := by
  have hne : a + b ≠ 0 := fun h' => h (CharTwo.add_eq_zero.1 h')
  have hinv : C (a + b)⁻¹ * (C a + C b) = 1 := by rw [← C_add, ← C_mul, inv_mul_cancel₀ hne, C_1]
  refine ⟨C (a + b)⁻¹ * C b, C (a + b)⁻¹ * C a, ?_⟩
  linear_combination hinv + C (a + b)⁻¹ * C a * C b * X * (CharTwo.two_eq_zero : (2 : K[X]) = 0)

theorem one_add_C_mul_X_dvd {a : K} (ha : a ≠ 0) {t : K[X]} (h : t.eval a⁻¹ = 0) : 1 + C a * X ∣ t := by
  have hlinear : 1 + C a * X = C a * (X - C a⁻¹) := by
    rw [CharTwo.sub_eq_add, mul_add, ← C_mul, mul_inv_cancel₀ ha, C_1, add_comm]
  rw [hlinear, (isUnit_C.2 ha.isUnit).mul_left_dvd]
  exact dvd_iff_isRoot.2 h

include hloc hzero in
/-- A polynomial that is 0 at the inverse of every location is a multiple of the locator polynomial. -/
theorem locatorPoly_dvd {t : K[X]} (h : ∀ l ∈ L, t.eval (loc l)⁻¹ = 0) : locatorPoly loc L ∣ t :=
  Finset.prod_dvd_of_coprime (fun _ _ _ _ hne => isCoprime_one_add_C_mul_X (hloc.ne hne))
    fun l hl => one_add_C_mul_X_dvd (hzero l hl) (h l hl)

end

/-! ## The key equation and Forney's formula -/

section
variable [DecidableEq ι]

/-- The key equation: locator times syndromes is the evaluator modulo x^n. -/
theorem key_equation (loc e : ι → K) (L : Finset ι) (n : ℕ) :
    ∃ u, locatorPoly loc L * syndromeSum loc e L n = evaluatorPoly loc e L + X ^ n * u := by
  refine ⟨∑ l ∈ L, C (e l) * locatorPoly loc (L.erase l) * C (loc l) ^ n, ?_⟩
  have hgeom (l : ι) : (1 + C (loc l) * X) * ∑ i ∈ Finset.range n, (C (loc l) * X) ^ i = 1 + (C (loc l) * X) ^ n := by
    rw [← CharTwo.sub_eq_add, mul_neg_geom_sum, CharTwo.sub_eq_add]
  rw [syndromeSum, evaluatorPoly, Finset.mul_sum, Finset.mul_sum, ← Finset.sum_add_distrib]
  refine Finset.sum_congr rfl fun l hl => ?_
  rw [← mul_locatorPoly_erase loc hl]
  linear_combination C (e l) * locatorPoly loc (L.erase l) * hgeom l

section
variable {loc e : ι → K} {L : Finset ι} (hloc : Function.Injective loc) (hzero : ∀ l ∈ L, loc l ≠ 0)

include hzero in
/-- Forney's formula (43_reed_solomon.md R207), with the denominator on the other side. -/
theorem eval_evaluatorPoly_inv {l : ι} (hl : l ∈ L) :
    (evaluatorPoly loc e L).eval (loc l)⁻¹ = e l * (locatorPoly loc (L.erase l)).eval (loc l)⁻¹ := by
  rw [evaluatorPoly, eval_finsetSum, Finset.sum_eq_single_of_mem l hl fun m hm hml => ?_]
  · rw [eval_C_mul]
  · rw [eval_C_mul, eval_locatorPoly_inv_eq_zero (fun k hk => hzero k (Finset.mem_of_mem_erase hk))
      (Finset.mem_erase.2 ⟨hml.symm, hl⟩), mul_zero]

include hloc hzero in
theorem eval_evaluatorPoly_inv_ne_zero {l : ι} (hl : l ∈ L) (he : e l ≠ 0) :
    (evaluatorPoly loc e L).eval (loc l)⁻¹ ≠ 0 := by
  rw [eval_evaluatorPoly_inv hzero hl]
  exact mul_ne_zero he (eval_locatorPoly_inv_ne_zero hloc (Finset.notMem_erase l L) (hzero l hl))

include hloc hzero in
/-- At least one and at most n errors have a nonzero syndrome. -/
theorem eq_empty_of_syndromeSum_eq_zero {n : ℕ} (he : ∀ l ∈ L, e l ≠ 0) (hL : L.card ≤ n)
    (h : syndromeSum loc e L n = 0) : L = ∅ := by
  by_contra hne
  obtain ⟨l, hl⟩ := Finset.nonempty_iff_ne_empty.2 hne
  obtain ⟨u, hu⟩ := key_equation loc e L n
  have hdvd : X ^ n ∣ evaluatorPoly loc e L := ⟨-u, by rw [h] at hu; linear_combination -hu⟩
  have hdegree : (evaluatorPoly loc e L).natDegree < (X ^ n : K[X]).natDegree := by
    have hevaluator := natDegree_evaluatorPoly_le loc e L
    have hpos := Finset.card_pos.2 ⟨l, hl⟩
    rw [natDegree_X_pow]
    omega
  refine eval_evaluatorPoly_inv_ne_zero hloc hzero hl (he l hl) ?_
  rw [eq_zero_of_dvd_of_natDegree_lt hdvd hdegree, eval_zero]

end
end

/-! ## The extended Euclidean algorithm -/

/-- The invariant of the extended Euclidean algorithm on `a` and `b`: each of the last two remainders is a combination
of `a` and `b`, the combinations have determinant 1, and a cofactor of `b` and the last remainder but one have together
no more than the degree of `a`. -/
structure EuclidInvariant (a b sLast s tLast t rLast r : K[X]) : Prop where
  last : rLast = sLast * a + tLast * b
  current : r = s * a + t * b
  det : sLast * t + s * tLast = 1
  degree_last : tLast.natDegree + rLast.natDegree ≤ a.natDegree
  degree_current : t.natDegree + rLast.natDegree ≤ a.natDegree

omit [CharP K 2] in
theorem EuclidInvariant.start (a b : K[X]) : EuclidInvariant a b 1 0 0 1 a b where
  last := by ring
  current := by ring
  det := by ring
  degree_last := by simp
  degree_current := by simp

omit [CharP K 2] in
/-- The degree of a quotient is what the divisor leaves of the dividend's. -/
theorem natDegree_quotient_add_le {a b q r : K[X]} (h : a = b * q + r) (hr : r.natDegree < b.natDegree)
    (hba : b.natDegree ≤ a.natDegree) : q.natDegree + b.natDegree ≤ a.natDegree := by
  by_cases hq : q = 0
  · simpa [hq] using hba
  · have hb : b ≠ 0 := by rintro rfl; simp at hr
    rw [add_comm, ← natDegree_mul hb hq, eq_sub_of_add_eq h.symm]
    exact (natDegree_sub_le _ _).trans (max_le le_rfl (by omega))

/-- One pass of the algorithm keeps the invariant. -/
theorem EuclidInvariant.pass {a b sLast s tLast t rLast r q r' : K[X]}
    (h : EuclidInvariant a b sLast s tLast t rLast r) (hdiv : rLast = r * q + r') (hr' : r'.natDegree < r.natDegree)
    (hr : r.natDegree ≤ rLast.natDegree) : EuclidInvariant a b s (q * s + sLast) t (q * t + tLast) r r' where
  last := h.current
  current := by
    have hr' : r' = rLast + r * q := by rw [hdiv, add_right_comm, CharTwo.add_self_eq_zero, zero_add]
    rw [hr', h.last, h.current]
    ring
  det := by
    linear_combination h.det + q * s * t * (CharTwo.two_eq_zero : (2 : K[X]) = 0)
  degree_last := (Nat.add_le_add_left hr _).trans h.degree_current
  degree_current := by
    have hq := natDegree_quotient_add_le hdiv hr' hr
    have hadd := natDegree_add_le (q * t) tLast
    have hmul := natDegree_mul_le (p := q) (q := t)
    have hlast := h.degree_last
    have hcurrent := h.degree_current
    omega

/-! ## What the algorithm finds -/

section
variable [DecidableEq ι] {loc e : ι → K} {L : Finset ι} {n : ℕ} {sLast s tLast t rLast r : K[X]}

/-- The algorithm's solution of the key equation and the error pattern's are proportional: both sides have a degree
below n and agree modulo x^n. -/
theorem EuclidInvariant.mul_evaluatorPoly_eq
    (h : EuclidInvariant (X ^ n) (syndromeSum loc e L n) sLast s tLast t rLast r)
    (hlast : n ≤ 2 * rLast.natDegree) (hr : 2 * r.natDegree < n) (hL : 2 * L.card ≤ n) :
    t * evaluatorPoly loc e L = r * locatorPoly loc L := by
  obtain ⟨u, hu⟩ := key_equation loc e L n
  have hdvd : X ^ n ∣ t * evaluatorPoly loc e L - r * locatorPoly loc L := by
    refine ⟨-(t * u + s * locatorPoly loc L), ?_⟩
    rw [h.current]
    linear_combination (-t) * hu
  have hdegree : (t * evaluatorPoly loc e L - r * locatorPoly loc L).natDegree < (X ^ n : K[X]).natDegree := by
    have ht := h.degree_current
    have hsub := natDegree_sub_le (t * evaluatorPoly loc e L) (r * locatorPoly loc L)
    have hmul₁ := natDegree_mul_le (p := t) (q := evaluatorPoly loc e L)
    have hmul₂ := natDegree_mul_le (p := r) (q := locatorPoly loc L)
    have hlocator := natDegree_locatorPoly_le loc L
    have hevaluator := natDegree_evaluatorPoly_le loc e L
    rw [natDegree_X_pow] at *
    omega
  exact sub_eq_zero.1 (eq_zero_of_dvd_of_natDegree_lt hdvd hdegree)

/-- With at most n/2 errors, the algorithm stopped below degree n/2 holds the locator and the evaluator polynomial, both
times one constant. -/
theorem EuclidInvariant.exists_eq_C_mul (h : EuclidInvariant (X ^ n) (syndromeSum loc e L n) sLast s tLast t rLast r)
    (hlast : n ≤ 2 * rLast.natDegree) (hr : 2 * r.natDegree < n) (hL : 2 * L.card ≤ n) (hloc : Function.Injective loc)
    (hzero : ∀ l ∈ L, loc l ≠ 0) (he : ∀ l ∈ L, e l ≠ 0) :
    ∃ c ≠ 0, t = C c * locatorPoly loc L ∧ r = C c * evaluatorPoly loc e L := by
  have hmul := h.mul_evaluatorPoly_eq hlast hr hL
  have hroot (l : ι) (hl : l ∈ L) : t.eval (loc l)⁻¹ = 0 := by
    have hvalue := congrArg (eval (loc l)⁻¹) hmul
    rw [eval_mul, eval_mul, eval_locatorPoly_inv_eq_zero hzero hl, mul_zero] at hvalue
    exact (mul_eq_zero.1 hvalue).resolve_right (eval_evaluatorPoly_inv_ne_zero hloc hzero hl (he l hl))
  obtain ⟨k, hk⟩ := locatorPoly_dvd hloc hzero hroot
  have hrk : r = k * evaluatorPoly loc e L :=
    mul_right_cancel₀ (locatorPoly_ne_zero loc L) (by rw [← hmul, hk]; ring)
  obtain ⟨u, hu⟩ := key_equation loc e L n
  have hs : s = -(k * u) := by
    refine mul_right_cancel₀ (pow_ne_zero n (X_ne_zero (R := K))) ?_
    have hcurrent := h.current
    rw [hrk, hk] at hcurrent
    linear_combination (-1 : K[X]) * hcurrent - k * hu
  have hunit : IsUnit k := by
    refine IsUnit.of_mul_eq_one (sLast * locatorPoly loc L - u * tLast) ?_
    rw [← h.det, hs, hk]
    ring
  obtain ⟨c, hc, rfl⟩ := Polynomial.isUnit_iff.1 hunit
  exact ⟨c, hc.ne_zero, by rw [hk, mul_comm], hrk⟩

end
end

end Sys2Proof.Machine
end

section
/-! PROOFS. The field of the built tables as a field of Mathlib, and the coefficient lists of the machine as polynomials
over it: each primitive of 42_gf_poly.md is the operation of the polynomial ring it is named after. -/

namespace Sys2Proof.Machine

open Polynomial

/-! ## The field -/

/-- A field of characteristic 2 in which the bytes stand: its operations on them are those of the tables. -/
structure FieldMap {K : Type} [Field K] (g : Tables) (φ : Byte → K) : Prop where
  xor : ∀ a b, φ (a ^^^ b) = φ a + φ b
  gfMul : ∀ a b, φ (gfMul g a b) = φ a * φ b
  one : φ 1#8 = 1
  injective : Function.Injective φ

/-- A byte as an element of the field: a type of its own, since bytes have the arithmetic of bit vectors. -/
structure FieldByte where
  byte : Byte

/-- The inverse of the tables, with 0 for the inverse of 0. -/
def fieldInv (g : Tables) (a : Byte) : Byte := if a = 0#8 then 0#8 else expNat g (255 - (logAt g a).toNat)

theorem gfInv_of_ne_zero (g : Tables) {a : Byte} (ha : a ≠ 0#8) : gfInv g a = .ok (fieldInv g a) := by
  rw [gfInv, if_neg ha, fieldInv, if_neg ha]

theorem gfMul_fieldInv {g : Tables} (hg : g = buildTables Config.prim) {a : Byte} (ha : a ≠ 0#8) :
    gfMul g a (fieldInv g a) = 1#8 := by
  obtain ⟨b, hb, hab⟩ := gfInv_spec hg ha
  rw [gfInv_of_ne_zero g ha] at hb
  rwa [Except.ok.inj hb]

/-- The bytes with exclusive or and the product of the built tables. -/
@[reducible] def byteField {g : Tables} (hg : g = buildTables Config.prim) : Field FieldByte :=
  letI : Add FieldByte := ⟨fun a b => ⟨a.byte ^^^ b.byte⟩⟩
  letI : Mul FieldByte := ⟨fun a b => ⟨gfMul g a.byte b.byte⟩⟩
  letI : Neg FieldByte := ⟨id⟩
  letI : Inv FieldByte := ⟨fun a => ⟨fieldInv g a.byte⟩⟩
  letI : Zero FieldByte := ⟨⟨0#8⟩⟩
  letI : One FieldByte := ⟨⟨1#8⟩⟩
  Field.ofMinimalAxioms FieldByte
    (fun a b c => congrArg FieldByte.mk (BitVec.xor_assoc a.byte b.byte c.byte))
    (fun _ => congrArg FieldByte.mk BitVec.zero_xor)
    (fun _ => congrArg FieldByte.mk BitVec.xor_self)
    (fun a b c => congrArg FieldByte.mk (gfMul_assoc hg a.byte b.byte c.byte))
    (fun a b => congrArg FieldByte.mk (gfMul_comm g a.byte b.byte))
    (fun a => congrArg FieldByte.mk (one_gfMul hg a.byte))
    (fun _ ha => congrArg FieldByte.mk (gfMul_fieldInv hg fun h => ha (congrArg FieldByte.mk h)))
    (congrArg FieldByte.mk (if_pos rfl))
    (fun a b c => congrArg FieldByte.mk (gfMul_xor hg a.byte b.byte c.byte))
    ⟨⟨0#8⟩, ⟨1#8⟩, fun h => absurd (congrArg FieldByte.byte h) (by decide)⟩

theorem exists_fieldMap {g : Tables} (hg : g = buildTables Config.prim) :
    ∃ (K : Type) (_ : Field K) (_ : CharP K 2) (φ : Byte → K), FieldMap g φ := by
  let _ := byteField hg
  have htwo : (2 : FieldByte) = 0 := by
    rw [← one_add_one_eq_two]
    exact congrArg FieldByte.mk BitVec.xor_self
  exact ⟨FieldByte, byteField hg, CharTwo.of_one_ne_zero_of_two_eq_zero one_ne_zero htwo, FieldByte.mk,
    ⟨fun _ _ => rfl, fun _ _ => rfl, rfl, fun _ _ h => congrArg FieldByte.byte h⟩⟩

section
variable {K : Type} [Field K] {g : Tables} {φ : Byte → K} (hφ : FieldMap g φ)
include hφ

theorem FieldMap.zero : φ 0#8 = 0 := by
  have h := hφ.xor 0#8 0#8
  rwa [BitVec.xor_self, left_eq_add] at h

theorem FieldMap.eq_zero_iff {a : Byte} : φ a = 0 ↔ a = 0#8 := by
  rw [← hφ.zero, hφ.injective.eq_iff]

theorem FieldMap.xorBelow (n : Nat) (f : Nat → Byte) : φ (xorBelow n f) = ∑ i ∈ Finset.range n, φ (f i) := by
  induction n with
  | zero => exact hφ.zero
  | succ n ih => rw [xorBelow_succ, hφ.xor, ih, Finset.sum_range_succ]

theorem FieldMap.fieldPow (a : Byte) (n : Nat) : φ (fieldPow g a n) = φ a ^ n := by
  induction n with
  | zero => rw [Machine.fieldPow, hφ.one, pow_zero]
  | succ n ih => rw [Machine.fieldPow, hφ.gfMul, ih, pow_succ]

theorem FieldMap.fieldInv (hg : g = buildTables Config.prim) (a : Byte) : φ (fieldInv g a) = (φ a)⁻¹ := by
  by_cases ha : a = 0#8
  · rw [Machine.fieldInv, if_pos ha, ha, hφ.zero, inv_zero]
  · exact eq_inv_of_mul_eq_one_right (by rw [← hφ.gfMul, gfMul_fieldInv hg ha, hφ.one])

theorem FieldMap.fieldInv_involutive (hg : g = buildTables Config.prim) : Function.Involutive (Machine.fieldInv g) :=
  fun a => hφ.injective (by rw [hφ.fieldInv hg, hφ.fieldInv hg, inv_inv])

end

/-! ## Coefficient lists as polynomials -/

/-- The polynomial of a coefficient list. -/
noncomputable def toPoly {K : Type} [Field K] (φ : Byte → K) (l : List Byte) : K[X] :=
  ∑ d ∈ Finset.range l.length, C (φ (coefOf l d)) * X ^ d

section
variable {K : Type} [Field K] {g : Tables} {φ : Byte → K} (hφ : FieldMap g φ)
include hφ

theorem coeff_toPoly (l : List Byte) (d : Nat) : (toPoly φ l).coeff d = φ (coefOf l d) := by
  simp only [toPoly, finsetSum_coeff, coeff_C_mul_X_pow, Finset.sum_ite_eq, Finset.mem_range]
  split
  · rfl
  · next h => rw [coefOf_of_length_le (by omega), hφ.zero]

theorem toPoly_eq {l : List Byte} {p : K[X]} (h : ∀ d, φ (coefOf l d) = p.coeff d) : toPoly φ l = p :=
  Polynomial.ext fun d => (coeff_toPoly hφ l d).trans (h d)

theorem toPoly_normalise (l : List Byte) : toPoly φ (normalise l) = toPoly φ l :=
  toPoly_eq hφ fun d => by rw [coefOf_normalise, coeff_toPoly hφ]

theorem eval_toPoly (l : List Byte) (x : Byte) : (toPoly φ l).eval (φ x) = φ (polyValue g l x) := by
  simp only [toPoly, eval_finsetSum, eval_C_mul, eval_pow, eval_X, polyValue, hφ.xorBelow, hφ.gfMul, hφ.fieldPow]

theorem eval_toPoly_of_normal (hg : g = buildTables Config.prim) {p : Poly} (hp : Normal p) (x : Byte) :
    φ (peval g p x) = (toPoly φ p).eval (φ x) := by
  rw [← hp.normalise_eq, peval_normalise_eq_polyValue hg, toPoly_normalise hφ, eval_toPoly hφ]

theorem toPoly_eq_zero_iff {p : Poly} (hp : Normal p) : toPoly φ p = 0 ↔ p = [0#8] := by
  constructor
  · intro h
    by_contra hz
    have hlead := coeff_toPoly hφ p (pdeg p)
    rw [h, coeff_zero, coefOf_pdeg, eq_comm, hφ.eq_zero_iff] at hlead
    exact hp.plead_ne_zero hz hlead
  · rintro rfl
    exact toPoly_eq hφ fun d => by rw [coefOf_zero, hφ.zero, coeff_zero]

theorem natDegree_toPoly {p : Poly} (hp : Normal p) : (toPoly φ p).natDegree = pdeg p := by
  by_cases hz : p = [0#8]
  · rw [(toPoly_eq_zero_iff hφ hp).2 hz, hz, natDegree_zero]; rfl
  · refine natDegree_eq_of_le_of_coeff_ne_zero ?_ ?_
    · refine natDegree_le_iff_coeff_eq_zero.2 fun d hd => ?_
      rw [coeff_toPoly hφ, coefOf_of_length_le (by rw [pdeg] at hd; omega), hφ.zero]
    · rw [coeff_toPoly hφ, coefOf_pdeg]
      exact hφ.eq_zero_iff.not.2 (hp.plead_ne_zero hz)

/-! ## The primitives -/

theorem toPoly_padd {p q : Poly} (hp : Normal p) (hq : Normal q) : toPoly φ (padd p q) = toPoly φ p + toPoly φ q :=
  toPoly_eq hφ fun d => by rw [coefOf_padd hp hq, hφ.xor, coeff_add, coeff_toPoly hφ, coeff_toPoly hφ]

theorem toPoly_pmonoNat (d : Nat) (s : Byte) : toPoly φ (pmonoNat d s) = C (φ s) * X ^ d :=
  toPoly_eq hφ fun n => by rw [coefOf_pmonoNat, coeff_C_mul_X_pow, apply_ite φ, hφ.zero]

theorem toPoly_scaleCoefs (l : List Byte) (s : Byte) : toPoly φ (scaleCoefs g l s) = C (φ s) * toPoly φ l :=
  toPoly_eq hφ fun d => by rw [coefOf_scaleCoefs, hφ.gfMul, coeff_C_mul, coeff_toPoly hφ, mul_comm]

theorem toPoly_pscale (p : Poly) (s : Byte) : toPoly φ (pscale g p s) = C (φ s) * toPoly φ p := by
  rw [pscale]
  split
  · next h => rw [h, hφ.zero, C_0, zero_mul, (toPoly_eq_zero_iff hφ normal_zero).2 rfl]
  split
  · next h => rw [h, hφ.one, C_1, one_mul]
  · rw [toPoly_normalise hφ, toPoly_scaleCoefs hφ]

theorem toPoly_xorLow {sm lg : List Byte} (h : sm.length ≤ lg.length) :
    toPoly φ (xorLow sm lg) = toPoly φ sm + toPoly φ lg :=
  toPoly_eq hφ fun d => by rw [coefOf_xorLow h, hφ.xor, coeff_add, coeff_toPoly hφ, coeff_toPoly hφ]

/-- One more coefficient at the end moves the others one degree up. -/
theorem toPoly_append_singleton (l : List Byte) (c : Byte) : toPoly φ (l ++ [c]) = X * toPoly φ l + C (φ c) := by
  refine toPoly_eq hφ fun d => ?_
  cases d with
  | zero => simp [coefOf_append_singleton_zero]
  | succ d => simp [coefOf_append_singleton_succ, coeff_X_mul, coeff_toPoly hφ, coeff_C_succ]

theorem toPoly_productCoefs (p : Poly) {q : Poly} (hq : q ≠ []) :
    toPoly φ (productCoefs g p q) = toPoly φ p * toPoly φ q ∧ q.length - 1 ≤ (productCoefs g p q).length := by
  have hpos : 1 ≤ q.length := List.length_pos_iff.2 hq
  induction p using List.reverseRecOn with
  | nil =>
    refine ⟨toPoly_eq hφ fun d => ?_, by simp [productCoefs]⟩
    simp [productCoefs, coefOf_replicate_zero, hφ.zero, toPoly]
  | append_singleton p c ih =>
    obtain ⟨hmul, hlength⟩ := ih
    have hfits : (scaleCoefs g q c).length ≤ (productCoefs g p q ++ [0#8]).length := by
      simp only [scaleCoefs, List.length_map, List.length_append, List.length_singleton]; omega
    have hpass : productCoefs g (p ++ [c]) q = xorLow (scaleCoefs g q c) (productCoefs g p q ++ [0#8]) := by
      simp only [productCoefs, List.foldl_append, List.foldl_cons, List.foldl_nil, scaleCoefs, gfMul_comm g c]
    rw [hpass, toPoly_xorLow hφ hfits, xorLow_length hfits, toPoly_scaleCoefs hφ, toPoly_append_singleton hφ,
      toPoly_append_singleton hφ, hmul, hφ.zero, C_0]
    exact ⟨by ring, by rw [List.length_append]; omega⟩

theorem toPoly_pmul {p q : Poly} (hp : Normal p) (hq : Normal q) : toPoly φ (pmul g p q) = toPoly φ p * toPoly φ q := by
  rw [pmul]
  split
  · next h =>
    rw [(toPoly_eq_zero_iff hφ normal_zero).2 rfl]
    simp only [Bool.or_eq_true, hp.pisZero_iff, hq.pisZero_iff, ← toPoly_eq_zero_iff hφ hp,
      ← toPoly_eq_zero_iff hφ hq] at h
    exact (mul_eq_zero.2 h).symm
  · rw [toPoly_normalise hφ, (toPoly_productCoefs hφ p hq.ne_nil).1]

theorem coeff_toPoly_mul (p q : List Byte) (n : Nat) :
    (toPoly φ p * toPoly φ q).coeff n = φ (productCoef g p q n) := by
  simp only [coeff_mul, Finset.Nat.sum_antidiagonal_eq_sum_range_succ_mk, coeff_toPoly hφ, productCoef, hφ.xorBelow,
    hφ.gfMul]

/-- Division with remainder (42_gf_poly.md R184). -/
theorem DivisionInvariant.toPoly_eq {a b q r : Poly} (h : DivisionInvariant g a b q r) :
    toPoly φ a = toPoly φ b * toPoly φ q + toPoly φ r :=
  Machine.toPoly_eq hφ fun n => by rw [h.law, hφ.xor, coeff_add, coeff_toPoly_mul hφ, coeff_toPoly hφ]

end

theorem pmul_normal (g : Tables) (p q : Poly) : Normal (pmul g p q) := by
  rw [pmul]
  split
  · exact normal_zero
  · exact normalise_normal _

theorem pscale_normal (g : Tables) {p : Poly} (hp : Normal p) (s : Byte) : Normal (pscale g p s) := by
  rw [pscale]
  split
  · exact normal_zero
  split
  · exact hp
  · exact normalise_normal _

end Sys2Proof.Machine
end

section
/-! PROOFS. The extended Euclidean algorithm of 43_reed_solomon.md R203 on the machine's coefficient lists keeps the
invariant of the algorithm on polynomials; from a TWOS of at least 1 no pass of its loop raises an error. -/

namespace Sys2Proof.Machine

open Polynomial

/-! ## One pass of the loop -/

theorem euclidLoop_of_lt {twos : Nat} {r : Poly} (h : 2 * pdeg r < twos) (g : Tables) (fuel : Nat)
    (rLast tLast t : Poly) : euclidLoop g twos fuel rLast r tLast t = .ok (t, r) := by
  cases fuel with
  | zero => rfl
  | succ fuel => rw [euclidLoop, if_neg (by omega)]

/-- A pass divides the last remainder but one by the last, and goes on with the new remainder and its cofactor. -/
theorem euclidLoop_pass {g : Tables} {twos : Nat} {rLast r q r' : Poly} (hr : twos ≤ 2 * pdeg r)
    (hdiv : pdiv g rLast r = .ok (q, r')) (hr' : pdeg r' < pdeg r) (fuel : Nat) (tLast t : Poly) :
    euclidLoop g twos (fuel + 1) rLast r tLast t = euclidLoop g twos fuel r r' t (padd (pmul g q t) tLast) := by
  have hzero : ¬pisZero r = true := fun h => by
    rw [pdiv, if_pos h] at hdiv
    cases hdiv
  have hinv := gfInv_of_ne_zero g fun h => hzero (beq_iff_eq.2 h)
  have hloop : divLoop g r (fieldInv g (plead r)) rLast.length [0#8] rLast = (q, r') := by
    rw [pdiv, if_neg hzero, hinv] at hdiv
    exact Except.ok.inj hdiv
  rw [euclidLoop, if_pos hr, if_neg hzero, hinv]
  simp only [hloop, if_neg (Nat.not_le.2 hr')]

theorem coefAt_zero (p : Poly) : coefAt p 0 = coefOf p 0 := by
  rw [coefAt, if_pos (Nat.zero_le _), coefOf]
  split
  · rfl
  · rw [List.getD_eq_default _ _ (by omega)]

/-- Operands in the order of their degrees are not exchanged. -/
theorem euclid_eq_euclidFinish {g : Tables} {a b t r : Poly} {twos : Nat} (h : pdeg b ≤ pdeg a)
    (hloop : euclidLoop g twos (b.length + 1) a b [0#8] [1#8] = .ok (t, r)) :
    euclid g a b twos = euclidFinish g t r := by
  simp only [euclid, if_neg (Nat.not_lt.2 h), hloop]

/-! ## The loop -/

section
variable {K : Type} [Field K] [CharP K 2] {g : Tables} {φ : Byte → K}

/-- The invariant of the loop of R203 on coefficient lists, for the operands `a` and `b`. -/
structure EuclidLoopInvariant (φ : Byte → K) (a b : K[X]) (twos : Nat) (rLast r tLast t : Poly) : Prop where
  normal_rLast : Normal rLast
  normal_r : Normal r
  normal_tLast : Normal tLast
  normal_t : Normal t
  degree_le : pdeg r ≤ pdeg rLast
  not_last : twos ≤ 2 * pdeg rLast
  euclid : ∃ sLast s, EuclidInvariant a b sLast s (toPoly φ tLast) (toPoly φ t) (toPoly φ rLast) (toPoly φ r)

variable (hg : g = buildTables Config.prim) (hφ : FieldMap g φ) {a b : K[X]} {twos : Nat}
include hφ

omit [CharP K 2] in
/-- The loop starts on x^n and a polynomial of lower degree. -/
theorem EuclidLoopInvariant.start {b : Poly} (hb : Normal b) {n : Nat} (hlength : b.length ≤ n) :
    EuclidLoopInvariant φ (X ^ n) (toPoly φ b) n (pmonoNat n 1#8) b [0#8] [1#8] where
  normal_rLast := pmonoNat_normal _ _
  normal_r := hb
  normal_tLast := normal_zero
  normal_t := .inr ⟨List.cons_ne_nil _ _, by decide⟩
  degree_le := by
    simp only [pmonoNat_of_ne_zero (s := 1#8) (by decide), pdeg, List.length_cons, List.length_replicate]
    omega
  not_last := by
    simp only [pmonoNat_of_ne_zero (s := 1#8) (by decide), pdeg, List.length_cons, List.length_replicate]
    omega
  euclid := by
    have hone : toPoly φ [1#8] = 1 := by
      have h := toPoly_pmonoNat hφ 0 1#8
      rwa [hφ.one, C_1, one_mul, pow_zero] at h
    rw [toPoly_pmonoNat hφ, hφ.one, C_1, one_mul, hone, (toPoly_eq_zero_iff hφ normal_zero).2 rfl]
    exact ⟨1, 0, .start _ _⟩

theorem EuclidLoopInvariant.pass {rLast r tLast t q r' : Poly} (h : EuclidLoopInvariant φ a b twos rLast r tLast t)
    (hr : twos ≤ 2 * pdeg r) (hdiv : DivisionInvariant g rLast r q r') (hr' : pdeg r' < pdeg r) :
    EuclidLoopInvariant φ a b twos r r' t (padd (pmul g q t) tLast) where
  normal_rLast := h.normal_r
  normal_r := hdiv.remainder_normal
  normal_tLast := h.normal_t
  normal_t := padd_normal (pmul_normal g q t) h.normal_tLast
  degree_le := hr'.le
  not_last := hr
  euclid := by
    obtain ⟨sLast, s, heuclid⟩ := h.euclid
    rw [toPoly_padd hφ (pmul_normal g q t) h.normal_tLast, toPoly_pmul hφ hdiv.quotient_normal h.normal_t]
    refine ⟨_, _, heuclid.pass (hdiv.toPoly_eq hφ) ?_ ?_⟩
    · rwa [natDegree_toPoly hφ hdiv.remainder_normal, natDegree_toPoly hφ h.normal_r]
    · rw [natDegree_toPoly hφ h.normal_r, natDegree_toPoly hφ h.normal_rLast]
      exact h.degree_le

include hg in
/-- The loop ends without an error, below the degree where it stops. -/
theorem euclidLoop_spec (htwos : 1 ≤ twos) (fuel : Nat) {rLast r tLast t : Poly}
    (h : EuclidLoopInvariant φ a b twos rLast r tLast t) (hfuel : pdeg r < fuel) :
    ∃ rLast' r' tLast' t', euclidLoop g twos fuel rLast r tLast t = .ok (t', r') ∧
      EuclidLoopInvariant φ a b twos rLast' r' tLast' t' ∧ 2 * pdeg r' < twos := by
  induction fuel generalizing rLast r tLast t with
  | zero => omega
  | succ fuel ih =>
    by_cases hr : twos ≤ 2 * pdeg r
    · have hzero : r ≠ [0#8] := by
        rintro rfl
        simp only [pdeg, List.length_singleton] at hr
        omega
      obtain ⟨q, r', hdiv, hlaw, hdegree⟩ := pdiv_spec hg h.normal_rLast h.normal_r hzero
      have hr' : pdeg r' < pdeg r := by
        obtain hlt | rfl := hdegree
        · exact hlt
        · rw [pdeg, List.length_singleton]; omega
      rw [euclidLoop_pass hr hdiv hr']
      exact ih (h.pass hφ hr hlaw hr') (by omega)
    · exact ⟨rLast, r, tLast, t, euclidLoop_of_lt (by omega) g _ _ _ _, h, by omega⟩

/-! ## The locator and the evaluator -/

variable {ι : Type} [DecidableEq ι] {loc e : ι → K} {L : Finset ι} {n : Nat}

include hg in
omit [CharP K 2] in
/-- Where t and r are multiples of two polynomials by one constant and the first of these is 1 at 0, dividing by t(0)
gives the two polynomials. -/
theorem euclidFinish_eq_ok {t r : Poly} (ht : Normal t) (hr : Normal r) {c : K} (hc : c ≠ 0) {p q : K[X]}
    (hp : p.coeff 0 = 1) (htp : toPoly φ t = C c * p) (hrq : toPoly φ r = C c * q) :
    ∃ sigma omega, euclidFinish g t r = .ok (sigma, omega) ∧ Normal sigma ∧ Normal omega ∧
      toPoly φ sigma = p ∧ toPoly φ omega = q := by
  have hvalue : φ (coefAt t 0) = c := by
    rw [coefAt_zero, ← coeff_toPoly hφ, htp, coeff_C_mul, hp, mul_one]
  have hne : coefAt t 0 ≠ 0#8 := by rwa [ne_eq, ← hφ.eq_zero_iff, hvalue]
  have hscale {x : Poly} {y : K[X]} (h : toPoly φ x = C c * y) :
      toPoly φ (pscale g x (fieldInv g (coefAt t 0))) = y := by
    rw [toPoly_pscale hφ, hφ.fieldInv hg, hvalue, h, ← mul_assoc, ← C_mul, inv_mul_cancel₀ hc, C_1, one_mul]
  refine ⟨_, _, ?_, pscale_normal g ht _, pscale_normal g hr _, hscale htp, hscale hrq⟩
  simp only [euclidFinish, if_neg hne, gfInv_of_ne_zero g hne]

include hg in
/-- On the syndromes of at most n/2 errors, R203 answers the locator and the evaluator polynomial of the errors. -/
theorem euclid_eq_ok {b : Poly} (hb : Normal b) (hlength : b.length ≤ n) (hn : 1 ≤ n)
    (hsyndromes : toPoly φ b = syndromeSum loc e L n) (hL : 2 * L.card ≤ n) (hloc : Function.Injective loc)
    (hzero : ∀ l ∈ L, loc l ≠ 0) (he : ∀ l ∈ L, e l ≠ 0) :
    ∃ sigma omega, euclid g (pmonoNat n 1#8) b n = .ok (sigma, omega) ∧ Normal sigma ∧ Normal omega ∧
      toPoly φ sigma = locatorPoly loc L ∧ toPoly φ omega = evaluatorPoly loc e L := by
  have hstart := EuclidLoopInvariant.start hφ hb hlength
  obtain ⟨rLast, r, tLast, t, hloop, h, hr⟩ := euclidLoop_spec hg hφ hn (b.length + 1) hstart (by rw [pdeg]; omega)
  obtain ⟨sLast, s, heuclid⟩ := h.euclid
  rw [hsyndromes] at heuclid
  obtain ⟨c, hc, ht, hr⟩ := heuclid.exists_eq_C_mul (by rw [natDegree_toPoly hφ h.normal_rLast]; exact h.not_last)
    (by rwa [natDegree_toPoly hφ h.normal_r]) hL hloc hzero he
  rw [euclid_eq_euclidFinish hstart.degree_le hloop]
  exact euclidFinish_eq_ok hg hφ h.normal_t h.normal_r hc (coeff_zero_locatorPoly loc L) ht hr

end
end Sys2Proof.Machine
end

section
/-! PROOFS. The Chien search and Forney's formula (43_reed_solomon.md R206, R207) on the locator and the evaluator
polynomial of an error pattern: the search finds the locations, the formula the values. -/

namespace Sys2Proof.Machine

/-! ## The Chien search -/

/-- The roots of σ among the `left` elements from `e` on, in ascending order. -/
def rootsFrom (g : Tables) (sigma : Poly) (e left : Nat) : List Byte :=
  ((List.range' e left).map (BitVec.ofNat 8)).filter (fun x => peval g sigma x == 0#8)

theorem rootsFrom_succ (g : Tables) (sigma : Poly) (e left : Nat) :
    rootsFrom g sigma e (left + 1) =
      if peval g sigma (BitVec.ofNat 8 e) = 0#8 then BitVec.ofNat 8 e :: rootsFrom g sigma (e + 1) left
      else rootsFrom g sigma (e + 1) left := by
  simp only [rootsFrom, List.range'_succ, List.map_cons, List.filter_cons, beq_iff_eq]

theorem ofNat_ne_zero {e : Nat} (h : 1 ≤ e) (h' : e < 256) : BitVec.ofNat 8 e ≠ 0#8 := by
  intro h0
  have := congrArg BitVec.toNat h0
  rw [BitVec.toNat_ofNat, Nat.mod_eq_of_lt h'] at this
  simp only [BitVec.toNat_ofNat] at this
  omega

theorem nodup_rootsFrom (g : Tables) (sigma : Poly) : (rootsFrom g sigma 1 255).Nodup := by
  refine List.Nodup.filter _ (List.Nodup.map_on (fun m hm n hn h => ?_) List.nodup_range')
  rw [List.mem_range'_1] at hm hn
  have := congrArg BitVec.toNat h
  rwa [BitVec.toNat_ofNat, BitVec.toNat_ofNat, Nat.mod_eq_of_lt (by omega), Nat.mod_eq_of_lt (by omega)] at this

theorem mem_rootsFrom {g : Tables} {sigma : Poly} {x : Byte} :
    x ∈ rootsFrom g sigma 1 255 ↔ x ≠ 0#8 ∧ peval g sigma x = 0#8 := by
  rw [rootsFrom, List.mem_filter, List.mem_map, beq_iff_eq]
  refine and_congr_left fun _ => ⟨?_, fun hx => ⟨x.toNat, ?_, by simp⟩⟩
  · rintro ⟨e, he, rfl⟩
    rw [List.mem_range'_1] at he
    exact ofNat_ne_zero he.1 (by omega)
  · have hpos : x.toNat ≠ 0 := fun h => hx (BitVec.eq_of_toNat_eq h)
    have hlt := x.isLt
    rw [List.mem_range'_1]
    omega

/-- The search goes through all the elements as long as it cannot find more than n roots. -/
theorem chienSearch_eq_ok (g : Tables) (sigma : Poly) {n : Nat} (left : Nat) {e : Nat} {found : List Byte} (he : 1 ≤ e)
    (hleft : e + left ≤ 256) (hn : found.length + (rootsFrom g sigma e left).length ≤ n) :
    chienSearch g sigma n left e found = .ok (found ++ (rootsFrom g sigma e left).map (fieldInv g)) := by
  induction left generalizing e found with
  | zero => simp [chienSearch, rootsFrom]
  | succ left ih =>
    rw [chienSearch]
    split
    · next hfull =>
      have hnone : rootsFrom g sigma e (left + 1) = [] := List.length_eq_zero_iff.1 (by omega)
      rw [hnone, List.map_nil, List.append_nil]
    rw [rootsFrom_succ] at hn ⊢
    split at hn
    · next hroot =>
      rw [List.length_cons] at hn
      simp only [if_pos hroot, gfInv_of_ne_zero g (ofNat_ne_zero he (by omega))]
      rw [ih (by omega) (by omega) (by rw [List.length_append, List.length_singleton]; omega), List.append_assoc,
        List.map_cons, List.singleton_append]
    · next hroot =>
      rw [if_neg hroot, if_neg hroot]
      exact ih (by omega) (by omega) hn

theorem chien_eq_ok {g : Tables} {sigma : Poly} (h : (rootsFrom g sigma 1 255).length = pdeg sigma) :
    chien g sigma = .ok ((rootsFrom g sigma 1 255).map (fieldInv g)) := by
  have hsearch := chienSearch_eq_ok g sigma 255 (e := 1) (found := []) le_rfl le_rfl ((Nat.zero_add _).trans_le h.le)
  simp only [chien, hsearch, List.nil_append, List.length_map, if_pos h]

section
variable {K : Type} [Field K] [CharP K 2] {g : Tables} {φ : Byte → K} (hg : g = buildTables Config.prim)
  (hφ : FieldMap g φ) {L : Finset Byte} (hL : 0#8 ∉ L)
include hg hφ

theorem eval_locatorPoly_eq_zero_iff {x : Byte} (hx : x ≠ 0#8) :
    (locatorPoly φ L).eval (φ x) = 0 ↔ fieldInv g x ∈ L := by
  rw [eval_locatorPoly, Finset.prod_eq_zero_iff]
  have hterm (l : Byte) : 1 + φ l * φ x = 0 ↔ l = fieldInv g x := by
    have h := one_add_mul_inv_eq_zero_iff (a := φ l) (inv_ne_zero (hφ.eq_zero_iff.not.2 hx))
    rwa [inv_inv, ← hφ.fieldInv hg, hφ.injective.eq_iff] at h
  simp only [hterm, exists_eq_right]

include hL

/-- On the locator polynomial of L the search answers the elements of L, each once. -/
theorem chien_locatorPoly {sigma : Poly} (hsigma : Normal sigma) (hlocator : toPoly φ sigma = locatorPoly φ L) :
    ∃ found, chien g sigma = .ok found ∧ found.Nodup ∧ found.toFinset = L := by
  have hzero : ∀ l ∈ L, φ l ≠ 0 := fun l hl h => hL (hφ.eq_zero_iff.1 h ▸ hl)
  have hmem (l : Byte) : l ∈ (rootsFrom g sigma 1 255).map (fieldInv g) ↔ l ∈ L := by
    have hroot {x : Byte} (hx : x ≠ 0#8) : peval g sigma x = 0#8 ↔ fieldInv g x ∈ L := by
      rw [← hφ.eq_zero_iff, eval_toPoly_of_normal hφ hg hsigma, hlocator, eval_locatorPoly_eq_zero_iff hg hφ hx]
    rw [List.mem_map]
    constructor
    · rintro ⟨x, hx, rfl⟩
      obtain ⟨hne, hx⟩ := mem_rootsFrom.1 hx
      exact (hroot hne).1 hx
    · intro hl
      have hne : fieldInv g l ≠ 0#8 := by
        rw [ne_eq, ← hφ.eq_zero_iff, hφ.fieldInv hg]
        exact inv_ne_zero (hzero l hl)
      refine ⟨fieldInv g l, mem_rootsFrom.2 ⟨hne, (hroot hne).2 ?_⟩, hφ.fieldInv_involutive hg l⟩
      rwa [hφ.fieldInv_involutive hg l]
  have hnodup : ((rootsFrom g sigma 1 255).map (fieldInv g)).Nodup :=
    (nodup_rootsFrom g sigma).map (hφ.fieldInv_involutive hg).injective
  have hset : ((rootsFrom g sigma 1 255).map (fieldInv g)).toFinset = L := by
    ext l
    rw [List.mem_toFinset, hmem]
  refine ⟨_, chien_eq_ok ?_, hnodup, hset⟩
  rw [← natDegree_toPoly hφ hsigma, hlocator, natDegree_locatorPoly hzero, ← hset, List.toFinset_card_of_nodup hnodup,
    List.length_map]

end

/-! ## Forney's formula -/

section
variable {K : Type} [Field K] {g : Tables} {φ : Byte → K} (hφ : FieldMap g φ)
include hφ

theorem map_forneyDen_of_lt (x : Byte) {i j : Nat} (h : i < j) (ls : List Byte) (den : Byte) :
    φ (forneyDen g x i j ls den) = φ den * (ls.map fun l => 1 + φ l * φ x).prod := by
  induction ls generalizing j den with
  | nil => simp [forneyDen]
  | cons l ls ih =>
    rw [forneyDen, ih (by omega), if_neg (by omega), List.map_cons, List.prod_cons, gfAdd, hφ.gfMul, hφ.xor, hφ.gfMul,
      hφ.one, add_comm 1, mul_assoc]

/-- The denominator is the product over every location but the one at the index. -/
theorem map_forneyDen (x : Byte) (j k : Nat) (ls : List Byte) (den : Byte) :
    φ (forneyDen g x (j + k) j ls den) = φ den * ((ls.eraseIdx k).map fun l => 1 + φ l * φ x).prod := by
  induction ls generalizing j k den with
  | nil => simp [forneyDen]
  | cons l ls ih =>
    rw [forneyDen]
    cases k with
    | zero => rw [if_pos (Nat.add_zero j).symm, map_forneyDen_of_lt hφ x (by omega), List.eraseIdx_cons_zero]
    | succ k =>
      rw [if_neg (by omega), ← Nat.add_assoc, Nat.add_right_comm, ih, List.eraseIdx_cons_succ, List.map_cons,
        List.prod_cons, gfAdd, hφ.gfMul, hφ.xor, hφ.gfMul, hφ.one, add_comm 1, mul_assoc]

end

theorem forneyFrom_eq_ok {g : Tables} {gbase : Nat} {omega : Poly} {loc : List Byte} {value : Byte → Byte} (i : Nat)
    (ls : List Byte) (h : ∀ k (hk : k < ls.length), forneyAt g gbase omega loc (i + k) ls[k] = .ok (value ls[k])) :
    forneyFrom g gbase omega loc i ls = .ok (ls.map value) := by
  induction ls generalizing i with
  | nil => rfl
  | cons l ls ih =>
    have hhead : forneyAt g gbase omega loc i l = .ok (value l) := h 0 (by simp)
    have htail : forneyFrom g gbase omega loc (i + 1) ls = .ok (ls.map value) := ih (i + 1) fun k hk => by
      have := h (k + 1) (by simpa using hk)
      rwa [← Nat.add_assoc, Nat.add_right_comm] at this
    simp only [forneyFrom, hhead, htail, List.map_cons]

section
variable {K : Type} [Field K] [CharP K 2] {g : Tables} {φ : Byte → K} (hg : g = buildTables Config.prim)
  (hφ : FieldMap g φ) {found : List Byte} (hnodup : found.Nodup) (hzero : 0#8 ∉ found)
include hg hφ hnodup

omit [CharP K 2] in
theorem map_forneyDen_eq_eval {i : Nat} (hi : i < found.length) :
    φ (forneyDen g (fieldInv g found[i]) i 0 found 1#8) =
      (locatorPoly φ (found.toFinset.erase found[i])).eval (φ found[i])⁻¹ := by
  have hset : found.toFinset.erase found[i] = (found.eraseIdx i).toFinset := by
    rw [← hnodup.erase_getElem i hi]
    ext l
    rw [Finset.mem_erase, List.mem_toFinset, List.mem_toFinset, hnodup.mem_erase_iff]
  have hden := map_forneyDen hφ (fieldInv g found[i]) 0 i found 1#8
  rw [Nat.zero_add] at hden
  rw [hden, hset, eval_locatorPoly, List.prod_toFinset _ (hnodup.eraseIdx i), hφ.one, one_mul, hφ.fieldInv hg]

include hzero in
/-- On the evaluator polynomial of the values at the locations the formula answers the values. -/
theorem forney_evaluatorPoly {omega : Poly} (homega : Normal omega) {value : Byte → Byte}
    (hevaluator : toPoly φ omega = evaluatorPoly φ (φ ∘ value) found.toFinset) :
    forney g Config.gbase omega found = .ok (found.map value) := by
  refine forneyFrom_eq_ok 0 found fun i hi => ?_
  rw [Nat.zero_add]
  have hmem : found[i] ∈ found.toFinset := List.mem_toFinset.2 (List.getElem_mem hi)
  have hlocation : ∀ l ∈ found.toFinset, φ l ≠ 0 := fun l hl h =>
    hzero (hφ.eq_zero_iff.1 h ▸ List.mem_toFinset.1 hl)
  have hne : found[i] ≠ 0#8 := fun h => hzero (h ▸ List.getElem_mem hi)
  have hden := map_forneyDen_eq_eval hg hφ hnodup hi
  have heval_ne : (locatorPoly φ (found.toFinset.erase found[i])).eval (φ found[i])⁻¹ ≠ 0 :=
    eval_locatorPoly_inv_ne_zero hφ.injective (Finset.notMem_erase _ _) (hlocation _ hmem)
  have hden_ne : forneyDen g (fieldInv g found[i]) i 0 found 1#8 ≠ 0#8 := by
    rwa [ne_eq, ← hφ.eq_zero_iff, hden]
  have hvalue : gfMul g (peval g omega (fieldInv g found[i]))
      (fieldInv g (forneyDen g (fieldInv g found[i]) i 0 found 1#8)) = value found[i] := by
    apply hφ.injective
    rw [hφ.gfMul, eval_toPoly_of_normal hφ hg homega, hevaluator, hφ.fieldInv hg, hφ.fieldInv hg, hden,
      eval_evaluatorPoly_inv hlocation hmem, mul_assoc, mul_inv_cancel₀ heval_ne, mul_one, Function.comp_apply]
  simp only [forneyAt, gfInv_of_ne_zero g hne, gfInv_of_ne_zero g hden_ne, hvalue]
  rfl

end

end Sys2Proof.Machine
end

section
/-! PROOFS. The errors of a received block against a codeword (43_reed_solomon.md R200, R202): at most as many locations
as places that differ, and the syndromes of the block are the power sums of its error values at its error locations. -/

namespace Sys2Proof.Machine

/-! ## Where two blocks differ -/

/-- The error in the coefficient of x^d of a block against a codeword. -/
def errorAt (w c : List Byte) (d : Nat) : Byte := coefOf w d ^^^ coefOf c d

/-- The degrees at which a block differs from a codeword. -/
def errorDegrees (w c : List Byte) : Finset Nat := (Finset.range w.length).filter fun d => errorAt w c d ≠ 0#8

/-- The locations of the errors: α^d for an error in the coefficient of x^d. -/
def errorLocations (g : Tables) (w c : List Byte) : Finset Byte := (errorDegrees w c).image (expNat g)

/-- The error at a location. -/
def errorValue (g : Tables) (w c : List Byte) (l : Byte) : Byte := errorAt w c (logAt g l).toNat

theorem mem_errorDegrees {w c : List Byte} {d : Nat} : d ∈ errorDegrees w c ↔ d < w.length ∧ errorAt w c d ≠ 0#8 := by
  rw [errorDegrees, Finset.mem_filter, Finset.mem_range]

theorem errorAt_eq_zero_of_notMem {w c : List Byte} {d : Nat} (hd : d < w.length) (h : d ∉ errorDegrees w c) :
    errorAt w c d = 0#8 := by_contra fun hne => h (mem_errorDegrees.2 ⟨hd, hne⟩)

theorem coefOf_xor_errorAt (w c : List Byte) (d : Nat) : coefOf w d ^^^ errorAt w c d = coefOf c d := by
  rw [errorAt, ← BitVec.xor_assoc, BitVec.xor_self, BitVec.zero_xor]

/-- Blocks of one length with the same coefficients are equal. -/
theorem eq_of_coefOf {w c : List Byte} (h : c.length = w.length) (hcoef : ∀ d < w.length, coefOf w d = coefOf c d) :
    w = c := by
  have hget {l : List Byte} {i : Nat} (hi : i < l.length) : l[i] = coefOf l (l.length - 1 - i) := by
    have hindex : l.length - 1 - (l.length - 1 - i) = i := by omega
    rw [coefOf, if_pos (by omega), hindex, List.getD_eq_getElem _ _ hi]
  refine List.ext_getElem h.symm fun i hi hi' => ?_
  rw [hget hi, hget hi', h, hcoef _ (by omega)]

theorem coefOf_cons (x : Byte) (l : List Byte) (d : Nat) :
    coefOf (x :: l) d = if d < l.length then coefOf l d else coefOf [x] (d - l.length) := coefOf_append [x] l d

theorem errorAt_cons_of_lt {x y : Byte} {w c : List Byte} (h : c.length = w.length) {d : Nat} (hd : d < w.length) :
    errorAt (x :: w) (y :: c) d = errorAt w c d := by
  rw [errorAt, coefOf_cons x, coefOf_cons y, h, if_pos hd, if_pos hd, errorAt]

theorem errorAt_cons_length {x y : Byte} {w c : List Byte} (h : c.length = w.length) :
    errorAt (x :: w) (y :: c) w.length = x ^^^ y := by
  rw [errorAt, coefOf_cons x, coefOf_cons y, h, if_neg (Nat.lt_irrefl _), if_neg (Nat.lt_irrefl _), Nat.sub_self]
  rfl

theorem errorDegrees_cons {x y : Byte} {w c : List Byte} (h : c.length = w.length) :
    errorDegrees (x :: w) (y :: c) = if x = y then errorDegrees w c else insert w.length (errorDegrees w c) := by
  have hrest : (Finset.range w.length).filter (fun d => errorAt (x :: w) (y :: c) d ≠ 0#8) = errorDegrees w c :=
    Finset.filter_congr fun d hd => by rw [errorAt_cons_of_lt h (Finset.mem_range.1 hd)]
  rw [errorDegrees, List.length_cons, Finset.range_add_one, Finset.filter_insert, errorAt_cons_length h, hrest]
  by_cases hxy : x = y
  · rw [if_pos hxy, if_neg (not_not.2 (BitVec.xor_eq_zero_iff.2 hxy))]
  · rw [if_neg hxy, if_pos (BitVec.xor_eq_zero_iff.not.2 hxy)]

theorem card_errorDegrees {w c : List Byte} (h : c.length = w.length) : (errorDegrees w c).card = distanceOf w c := by
  induction w generalizing c with
  | nil => simp [errorDegrees, distanceOf]
  | cons x w ih =>
    cases c with
    | nil => simp at h
    | cons y c =>
      have hlength : c.length = w.length := by simpa using h
      have hnotMem : w.length ∉ errorDegrees w c := fun hmem => absurd (mem_errorDegrees.1 hmem).1 (Nat.lt_irrefl _)
      rw [errorDegrees_cons hlength, distanceOf, List.zip_cons_cons, List.filter_cons]
      by_cases hxy : x = y
      · simp [hxy, ih hlength, distanceOf]
      · simp [hxy, Finset.card_insert_of_notMem hnotMem, ih hlength, distanceOf]

theorem card_errorLocations_le (g : Tables) {w c : List Byte} (h : c.length = w.length) :
    (errorLocations g w c).card ≤ distanceOf w c :=
  Finset.card_image_le.trans (card_errorDegrees h).le

/-! ## Locations and logarithms -/

section
variable {g : Tables} (hg : g = buildTables Config.prim) {w c : List Byte} (hw : w.length ≤ 255)
include hg hw

theorem logAt_expNat_of_mem {d : Nat} (hd : d ∈ errorDegrees w c) : (logAt g (expNat g d)).toNat = d :=
  (expNat_ne_zero_and_logAt_expNat hg (by have := (mem_errorDegrees.1 hd).1; omega)).2

theorem errorValue_expNat {d : Nat} (hd : d ∈ errorDegrees w c) : errorValue g w c (expNat g d) = errorAt w c d := by
  rw [errorValue, logAt_expNat_of_mem hg hw hd]

/-- A location is not 0, and its logarithm is the degree of an error. -/
theorem of_mem_errorLocations {l : Byte} (hl : l ∈ errorLocations g w c) :
    l ≠ 0#8 ∧ (logAt g l).toNat ∈ errorDegrees w c := by
  obtain ⟨d, hd, rfl⟩ := Finset.mem_image.1 hl
  rw [logAt_expNat_of_mem hg hw hd]
  exact ⟨(expNat_ne_zero_and_logAt_expNat hg (by have := (mem_errorDegrees.1 hd).1; omega)).1, hd⟩

theorem errorValue_ne_zero {l : Byte} (hl : l ∈ errorLocations g w c) : errorValue g w c l ≠ 0#8 :=
  (mem_errorDegrees.1 (of_mem_errorLocations hg hw hl).2).2

omit hw in
theorem logAt_injOn {l l' : Byte} (hl : l ≠ 0#8) (hl' : l' ≠ 0#8) (h : (logAt g l).toNat = (logAt g l').toNat) :
    l = l' := by
  rw [← expAt_logAt hg hl, ← expAt_logAt hg hl', BitVec.eq_of_toNat_eq h]

/-! ## The syndromes as power sums -/

variable {K : Type} [Field K] {φ : Byte → K} (hφ : FieldMap g φ)
include hφ

omit hw in
theorem map_expNat {d : Nat} (hd : d < 255) : φ (expNat g d) = φ 2#8 ^ d := by
  rw [← fieldPow_two hg hd, hφ.fieldPow]

/-- The values of the block and of the codeword at α^i differ by the power sum of the errors. -/
theorem sum_errorLocations (h : c.length = w.length) (i : Nat) :
    ∑ l ∈ errorLocations g w c, φ (errorValue g w c l) * φ l ^ i =
      φ (polyValue g w (fieldPow g 2#8 i)) + φ (polyValue g c (fieldPow g 2#8 i)) := by
  have hinj : Set.InjOn (expNat g) (errorDegrees w c) := fun d hd d' hd' hdd => by
    rw [← logAt_expNat_of_mem hg hw hd, hdd, logAt_expNat_of_mem hg hw hd']
  have hterm (d : Nat) (hd : d ∈ errorDegrees w c) :
      φ (errorValue g w c (expNat g d)) * φ (expNat g d) ^ i = φ (errorAt w c d) * (φ 2#8 ^ i) ^ d := by
    have hlt := (mem_errorDegrees.1 hd).1
    rw [errorValue_expNat hg hw hd, map_expNat hg hφ (by omega), ← pow_mul, ← pow_mul, Nat.mul_comm]
  have hzero (d : Nat) (hd : d ∈ Finset.range w.length) (hne : φ (errorAt w c d) * (φ 2#8 ^ i) ^ d ≠ 0) :
      errorAt w c d ≠ 0#8 := fun h0 => hne (by rw [h0, hφ.zero, zero_mul])
  calc ∑ l ∈ errorLocations g w c, φ (errorValue g w c l) * φ l ^ i
      = ∑ d ∈ errorDegrees w c, φ (errorAt w c d) * (φ 2#8 ^ i) ^ d :=
        (Finset.sum_image hinj).trans (Finset.sum_congr rfl hterm)
    _ = ∑ d ∈ Finset.range w.length, φ (errorAt w c d) * (φ 2#8 ^ i) ^ d := Finset.sum_filter_of_ne hzero
    _ = _ := by
      simp only [polyValue, hφ.xorBelow, hφ.gfMul, hφ.fieldPow, h, ← Finset.sum_add_distrib, errorAt, hφ.xor, add_mul]

end

/-! ## The syndrome polynomial -/

theorem syndromes_length (g : Tables) (gbase : Nat) (rx : Poly) (n : Nat) : (syndromes g gbase rx n).length = n := by
  induction n with
  | zero => rfl
  | succ n ih => rw [syndromes, List.length_cons, ih]

theorem coefOf_syndromes (g : Tables) (gbase : Nat) (rx : Poly) (n i : Nat) :
    coefOf (syndromes g gbase rx n) i = if i < n then peval g rx (expNat g (i + gbase)) else 0#8 := by
  induction n with
  | zero => simp [syndromes, coefOf]
  | succ n ih =>
    rw [syndromes, coefOf_cons, syndromes_length, ih]
    obtain hi | rfl | hi := Nat.lt_trichotomy i n
    · rw [if_pos hi, if_pos hi, if_pos (by omega)]
    · simp [coefOf]
    · rw [if_neg (by omega), if_neg (by omega), coefOf_of_length_le (by rw [List.length_singleton]; omega)]

theorem codewords_length (s : State) : (codewords s).length = s.cwlen.toNat := readElems_length _ _ _

theorem receivedSyndromes_normal (s : State) : Normal (receivedSyndromes s) := normalise_normal _

section
variable {s : State} (hs : s.fieldReady) (hr : rangesOk s)

include hr in
theorem one_le_twos : 1 ≤ s.twos.toNat := by
  obtain ⟨-, -, hpos, -⟩ := hr
  exact hpos

include hr in
theorem codewords_length_le : (codewords s).length ≤ 255 := by
  obtain ⟨-, hle, -, -⟩ := hr
  rwa [codewords_length]

include hr in
theorem receivedSyndromes_length_le : (receivedSyndromes s).length ≤ s.twos.toNat := by
  have hpos := one_le_twos hr
  have hlength := syndromes_length s.tables Config.gbase (received s) s.twos.toNat
  exact (normalise_length_le (List.ne_nil_of_length_pos (by omega))).trans hlength.le

include hs hr in
theorem coefOf_receivedSyndromes (i : Nat) :
    coefOf (receivedSyndromes s) i = if i < s.twos.toNat then syndromeOf s i else 0#8 := by
  obtain ⟨-, -, -, htwos⟩ := hr
  rw [receivedSyndromes, syndromePoly, coefOf_normalise, coefOf_syndromes]
  split
  · rw [peval_received hs (by omega)]
  · rfl

include hs hr in
/-- The syndrome polynomial of a block is that of its errors against any codeword. -/
theorem toPoly_receivedSyndromes {K : Type} [Field K] {φ : Byte → K} (hφ : FieldMap s.tables φ) {c : List Byte}
    (hlength : c.length = s.cwlen.toNat)
    (hc : ∀ i, i < s.twos.toNat → polyValue s.tables c (fieldPow s.tables 2#8 i) = 0#8) :
    toPoly φ (receivedSyndromes s) =
      syndromeSum φ (φ ∘ errorValue s.tables (codewords s) c) (errorLocations s.tables (codewords s) c)
        s.twos.toNat := by
  have hcw : c.length = (codewords s).length := hlength.trans (codewords_length s).symm
  refine toPoly_eq hφ fun i => ?_
  rw [coefOf_receivedSyndromes hs hr, coeff_syndromeSum, apply_ite φ, hφ.zero]
  split
  · next hi =>
    have hsum := sum_errorLocations hs (codewords_length_le hr) hφ hcw i
    rw [hc i hi, hφ.zero, add_zero] at hsum
    exact hsum.symm
  · rfl

end

end Sys2Proof.Machine
end

section
/-! PROOFS. RSDEC (43_reed_solomon.md R210, R211): it finds every error of a block with at most TWOS/2 of them, and
exclusive-ors each into the place it is in. -/

namespace Sys2Proof.Machine

/-! ## Positions and corrections -/

/-- The place in a block of n codewords that a location names (43_reed_solomon.md R200). -/
def placeOf (g : Tables) (n : Nat) (l : Byte) : Nat := n - 1 - (logAt g l).toNat

theorem positions_eq_ok {g : Tables} {n : Nat} {ls : List Byte} (h : ∀ l ∈ ls, l ≠ 0#8 ∧ (logAt g l).toNat < n) :
    positions g n ls = .ok (ls.map (placeOf g n)) := by
  induction ls with
  | nil => rfl
  | cons l ls ih =>
    obtain ⟨⟨hne, hlt⟩, hls⟩ := List.forall_mem_cons.1 h
    have hhead : position g n l = .ok (placeOf g n l) := by
      simp only [position, gfLog, if_neg hne]
      rw [if_neg (by omega), placeOf]
    simp only [positions, hhead, ih hls, List.map_cons]

theorem readElem_writeElem (m : Memory) (p i : Nat) (b : Byte) :
    readElem (writeElem m (cwbBase + 4 * p) b) (cwbBase + 4 * i) =
      if i = p then b else readElem m (cwbBase + 4 * i) := by
  rw [readElem, writeElem, writeWord, readByte_setBytes, bytesOfWord_length]
  by_cases h : i = p
  · rw [if_pos (by omega), if_pos h, h, Nat.sub_self, bytesOfWord_getD _ (by decide), byteOfWord_setWidth _ (by decide),
      if_pos rfl]
  · rw [if_neg (by omega), if_neg h, readElem]

/-- A place that no correction names keeps its codeword. -/
theorem readElem_applyFixes_of_notMem {fixes : List (Nat × Byte)} {i : Nat} (h : i ∉ fixes.map Prod.fst) (m : Memory) :
    readElem (applyFixes m fixes) (cwbBase + 4 * i) = readElem m (cwbBase + 4 * i) := by
  induction fixes generalizing m with
  | nil => rfl
  | cons fix fixes ih =>
    obtain ⟨p, x⟩ := fix
    rw [List.map_cons, List.mem_cons, not_or] at h
    obtain ⟨hp, hfixes⟩ := h
    rw [applyFixes, ih hfixes, readElem_writeElem, if_neg hp]

/-- Where the corrections name different places, each one is exclusive-ored in at its own. -/
theorem readElem_applyFixes_of_mem {fixes : List (Nat × Byte)} (hnodup : (fixes.map Prod.fst).Nodup) {i : Nat}
    {x : Byte} (h : (i, x) ∈ fixes) (m : Memory) :
    readElem (applyFixes m fixes) (cwbBase + 4 * i) = readElem m (cwbBase + 4 * i) ^^^ x := by
  induction fixes generalizing m with
  | nil => exact absurd h List.not_mem_nil
  | cons fix fixes ih =>
    rw [List.map_cons, List.nodup_cons] at hnodup
    obtain ⟨hfix, hfixes⟩ := hnodup
    obtain rfl | hmem := List.mem_cons.1 h
    · rw [applyFixes, readElem_applyFixes_of_notMem hfix, readElem_writeElem, if_pos rfl, gfAdd]
    · have hne : i ≠ fix.1 := fun heq => hfix (heq ▸ List.mem_map_of_mem hmem)
      rw [applyFixes, ih hfixes hmem, readElem_writeElem, if_neg hne]

/-! ## What RSDEC finds -/

section
variable {s : State} {c : List Byte} (hs : s.fieldReady) (hr : rangesOk s) (hlength : c.length = s.cwlen.toNat)
  (hc : ∀ i, i < s.twos.toNat → polyValue s.tables c (fieldPow s.tables 2#8 i) = 0#8)

include hs hr in
/-- Each location of a search is the power of the degree of an error. -/
theorem of_mem_found {found : List Byte} (hfound : found.toFinset = errorLocations s.tables (codewords s) c) {l : Byte}
    (hl : l ∈ found) :
    l ≠ 0#8 ∧ (logAt s.tables l).toNat ∈ errorDegrees (codewords s) c ∧
      (logAt s.tables l).toNat < s.cwlen.toNat := by
  have hmem : l ∈ errorLocations s.tables (codewords s) c := hfound ▸ List.mem_toFinset.2 hl
  obtain ⟨hne, hdegree⟩ := of_mem_errorLocations hs (codewords_length_le hr) hmem
  exact ⟨hne, hdegree, (mem_errorDegrees.1 hdegree).1.trans_eq (codewords_length s)⟩

include hs hr hlength hc in
/-- On at most TWOS/2 errors every stage of RSDEC completes, with the locations of the errors, their values and their
places. -/
theorem decodeErrors_eq_ok (hdistance : distanceOf (codewords s) c ≤ s.twos.toNat / 2) :
    ∃ found, found.Nodup ∧ found.toFinset = errorLocations s.tables (codewords s) c ∧
      decodeErrors s = .ok (found, found.map (errorValue s.tables (codewords s) c),
        found.map (placeOf s.tables s.cwlen.toNat)) := by
  obtain ⟨K, _, _, φ, hφ⟩ := exists_fieldMap hs
  have hw := codewords_length_le hr
  have hcw : c.length = (codewords s).length := hlength.trans (codewords_length s).symm
  have hL := card_errorLocations_le s.tables hcw
  have hzero : 0#8 ∉ errorLocations s.tables (codewords s) c := fun h => (of_mem_errorLocations hs hw h).1 rfl
  obtain ⟨sigma, omega, heuclid, hsigma, homega, hlocator, hevaluator⟩ :=
    euclid_eq_ok hs hφ (receivedSyndromes_normal s) (receivedSyndromes_length_le hr) (one_le_twos hr)
      (toPoly_receivedSyndromes hs hr hφ hlength hc) (by omega) hφ.injective
      (fun l hl h => hzero (hφ.eq_zero_iff.1 h ▸ hl))
      (fun l hl h => errorValue_ne_zero hs hw hl (hφ.eq_zero_iff.1 h))
  obtain ⟨found, hchien, hnodup, hfound⟩ := chien_locatorPoly hs hφ hzero hsigma hlocator
  have hmem {l : Byte} (hl : l ∈ found) : l ∈ errorLocations s.tables (codewords s) c := hfound ▸ List.mem_toFinset.2 hl
  have hforney := forney_evaluatorPoly hs hφ hnodup (fun h => hzero (hmem h)) homega (hfound.symm ▸ hevaluator)
  have hpositions : positions s.tables s.cwlen.toNat found = .ok (found.map (placeOf s.tables s.cwlen.toNat)) :=
    positions_eq_ok fun l hl => by
      obtain ⟨hne, -, hlt⟩ := of_mem_found hs hr hfound hl
      exact ⟨hne, hlt⟩
  refine ⟨found, hnodup, hfound, ?_⟩
  simp only [decodeErrors, heuclid, hchien, hforney, hpositions]

include hs hr hlength hc in
/-- A block within TWOS/2 places of a codeword is that codeword when its syndromes are 0. -/
theorem codewords_eq_of_clean (hdistance : distanceOf (codewords s) c ≤ s.twos.toNat / 2)
    (hclean : receivedSyndromes s = [0#8]) : codewords s = c := by
  obtain ⟨K, _, _, φ, hφ⟩ := exists_fieldMap hs
  have hw := codewords_length_le hr
  have hcw : c.length = (codewords s).length := hlength.trans (codewords_length s).symm
  have hL := card_errorLocations_le s.tables hcw
  have hsyndromes := toPoly_receivedSyndromes hs hr hφ hlength hc
  rw [(toPoly_eq_zero_iff hφ (receivedSyndromes_normal s)).2 hclean] at hsyndromes
  have hnone : errorLocations s.tables (codewords s) c = ∅ :=
    eq_empty_of_syndromeSum_eq_zero hφ.injective
      (fun l hl h => (of_mem_errorLocations hs hw hl).1 (hφ.eq_zero_iff.1 h))
      (fun l hl h => errorValue_ne_zero hs hw hl (hφ.eq_zero_iff.1 h)) (by omega) hsyndromes.symm
  refine eq_of_coefOf hcw fun d hd => ?_
  have hd' : d ∉ errorDegrees (codewords s) c := by
    rw [Finset.image_eq_empty.1 hnone]
    exact Finset.notMem_empty d
  rw [← coefOf_xor_errorAt (codewords s) c, errorAt_eq_zero_of_notMem hd hd', BitVec.xor_zero]

/-! ## The corrected block -/

theorem coefOf_codewords {s : State} {d : Nat} (hd : d < s.cwlen.toNat) :
    coefOf (codewords s) d = readElem s.mem (cwbBase + 4 * (s.cwlen.toNat - 1 - d)) := by
  have hlt : s.cwlen.toNat - 1 - d < (codewords s).length := by rw [codewords_length]; omega
  rw [coefOf, codewords_length, if_pos hd, List.getD_eq_getElem _ _ hlt]
  simp only [codewords, readElems, List.getElem_map, List.getElem_range]

/-- Storing locations and magnitudes leaves the codewords as they are. -/
theorem readElem_storedResults {i : Nat} (h : i < 255) (m : Memory) (found mags : List Byte) :
    readElem (writeElems (writeElems m locBase found) magBase mags) (cwbBase + 4 * i) = readElem m (cwbBase + 4 * i) :=
  (readByte_of_stores (stores_writeElems _ magBase mags) (.inl (by rw [cwbBase, magBase]; omega))).trans
    (readByte_of_stores (stores_writeElems m locBase found) (.inl (by rw [cwbBase, locBase]; omega)))

/-- The corrections of RSDEC: the place and the value of each location. -/
def correctionsOf (s : State) (c found : List Byte) : List (Nat × Byte) :=
  found.map fun l => (placeOf s.tables s.cwlen.toNat l, errorValue s.tables (codewords s) c l)

section
variable {found : List Byte} (hfound : found.toFinset = errorLocations s.tables (codewords s) c)
include hs hr hfound

theorem nodup_places (hnodup : found.Nodup) : ((correctionsOf s c found).map Prod.fst).Nodup := by
  rw [correctionsOf, List.map_map]
  refine List.Nodup.map_on (fun l hl l' hl' hplace => ?_) hnodup
  obtain ⟨hne, -, hlt⟩ := of_mem_found hs hr hfound hl
  obtain ⟨hne', -, hlt'⟩ := of_mem_found hs hr hfound hl'
  simp only [Function.comp_apply, placeOf] at hplace
  exact logAt_injOn hs hne hne' (by omega)

/-- The place of every error is corrected by the error. -/
theorem mem_correctionsOf {d : Nat} (hd : d ∈ errorDegrees (codewords s) c) :
    (s.cwlen.toNat - 1 - d, errorAt (codewords s) c d) ∈ correctionsOf s c found := by
  have hw := codewords_length_le hr
  have hmem : expNat s.tables d ∈ found := by
    rw [← List.mem_toFinset, hfound]
    exact Finset.mem_image_of_mem _ hd
  refine List.mem_map.2 ⟨expNat s.tables d, hmem, ?_⟩
  rw [placeOf, logAt_expNat_of_mem hs hw hd, errorValue_expNat hs hw hd]

/-- No other place is corrected. -/
theorem notMem_places {d : Nat} (hd : d < s.cwlen.toNat) (h : d ∉ errorDegrees (codewords s) c) :
    s.cwlen.toNat - 1 - d ∉ (correctionsOf s c found).map Prod.fst := by
  rw [correctionsOf, List.map_map, List.mem_map]
  rintro ⟨l, hl, hplace⟩
  obtain ⟨-, hdegree, hlt⟩ := of_mem_found hs hr hfound hl
  simp only [Function.comp_apply, placeOf] at hplace
  have hlog : (logAt s.tables l).toNat = d := by omega
  exact h (hlog ▸ hdegree)

include hlength in
/-- With every error exclusive-ored in at its place, the block is the codeword. -/
theorem codewords_putDecoded (hnodup : found.Nodup) :
    codewords (putDecoded s found (found.map (errorValue s.tables (codewords s) c))
      (found.map (placeOf s.tables s.cwlen.toNat))) = c := by
  have hle := (codewords_length s).symm.trans_le (codewords_length_le hr)
  refine eq_of_coefOf (by rw [codewords_length, putDecoded_cwlen, hlength]) fun d hd => ?_
  rw [codewords_length] at hd
  rw [coefOf_codewords hd, ← coefOf_xor_errorAt (codewords s) c]
  rw [putDecoded_cwlen] at hd ⊢
  rw [coefOf_codewords hd, putDecoded, List.zip_map', ← correctionsOf]
  by_cases hmem : d ∈ errorDegrees (codewords s) c
  · rw [readElem_applyFixes_of_mem (nodup_places hs hr hfound hnodup) (mem_correctionsOf hs hr hfound hmem),
      readElem_storedResults (by omega)]
  · rw [readElem_applyFixes_of_notMem (notMem_places hs hr hfound hd hmem), readElem_storedResults (by omega),
      errorAt_eq_zero_of_notMem ((codewords_length s).symm ▸ hd) hmem, BitVec.xor_zero]

end
end

/-- Settles O49: a block with every syndrome 0 is the codeword itself; on any other the key equation has one solution
up to a constant, so the stages find the errors, and what they exclusive-or in gives the codeword. -/
theorem decoderCorrects : Obligations.DecoderCorrects := by
  unfold Obligations.DecoderCorrects
  intro s c hs hr hlength hc hdistance
  have hexec : exec .rsdec s = execRsdec s := rfl
  rw [hexec, execRsdec, if_pos ((cwlenOk_and_twosOk s).2 hr), endCommandFlags_eq]
  by_cases hclean : receivedSyndromes s = [0#8]
  · rw [if_pos hclean]
    exact ⟨_, rfl, rfl, codewords_eq_of_clean hs hr hlength hc hdistance hclean⟩
  · obtain ⟨found, hnodup, hfound, hdecode⟩ := decodeErrors_eq_ok hs hr hlength hc hdistance
    rw [if_neg hclean, hdecode]
    exact ⟨_, rfl, rfl, codewords_putDecoded hs hr hlength hfound hnodup⟩

end Sys2Proof.Machine
end

section
/-! PROOFS. How a command ends: every command completes, and all but SRESET on a state with the CTRL it started from
(60_exceptions.md R372). -/

namespace Sys2Proof.Machine

variable {c : Ctrl}

/-- A command that ends this way completes, on a state whose CTRL is `c`. -/
def CompletesWithCtrl (c : Ctrl) (o : Host.Outcome State Fault Refusal) : Prop :=
  ∃ (u : State) (e : ErrCode) (noerr resb : Bool), o = .next (u.complete e noerr resb) ∧ u.ctrl = c

/-- The result of a computation, where it has one, is a state whose CTRL is `c`. -/
def ResultHasCtrl (c : Ctrl) (r : Except ErrCode State) : Prop := ∀ t, r = .ok t → t.ctrl = c

theorem CompletesWithCtrl.of_next {o : Host.Outcome State Fault Refusal} (ho : CompletesWithCtrl c o) {t : State}
    (h : o = .next t) : t.phase = .idle ∧ t.status.done = true ∧ t.ctrl = c := by
  obtain ⟨u, e, noerr, resb, rfl, rfl⟩ := ho
  cases h
  exact ⟨rfl, rfl, rfl⟩

/-! ## Results -/

theorem resultHasCtrl_error (e : ErrCode) : ResultHasCtrl c (.error e) := by
  rintro _ ⟨⟩

theorem resultHasCtrl_ok {t : State} (h : t.ctrl = c) : ResultHasCtrl c (.ok t) := by
  rintro _ ⟨⟩
  exact h

theorem resultHasCtrl_ite {p : Prop} [Decidable p] {r r' : Except ErrCode State} (h : ResultHasCtrl c r)
    (h' : ResultHasCtrl c r') : ResultHasCtrl c (if p then r else r') := by
  split
  · exact h
  · exact h'

theorem grResult_ctrl (s : State) (r : Except ErrCode Byte) : ResultHasCtrl s.ctrl (grResult s r) := by
  cases r with
  | error e => exact resultHasCtrl_error e
  | ok x => exact resultHasCtrl_ok rfl

theorem polyResult_ctrl (s : State) (k : BitVec 3) (p : Poly) : ResultHasCtrl s.ctrl (polyResult s k p) := by
  rw [polyResult_eq]
  exact resultHasCtrl_ite (resultHasCtrl_error _) (resultHasCtrl_ok rfl)

theorem polyResults_ctrl (s : State) (k : BitVec 3) (p : Poly) (k' : BitVec 3) (p' : Poly) :
    ResultHasCtrl s.ctrl (polyResults s k p k' p') := by
  rw [polyResults_eq]
  exact resultHasCtrl_ite (resultHasCtrl_error _) (resultHasCtrl_ok rfl)

theorem polyResultOf_ctrl (s : State) (k : BitVec 3) (r : Except ErrCode Poly) :
    ResultHasCtrl s.ctrl (polyResultOf s k r) := by
  cases r with
  | error e => exact resultHasCtrl_error e
  | ok p => exact polyResult_ctrl s k p

theorem divResult_ctrl (s : State) (d q : BitVec 3) (r : Except ErrCode (Poly × Poly)) :
    ResultHasCtrl s.ctrl (divResult s d q r) := by
  cases r with
  | error e => exact resultHasCtrl_error e
  | ok r => exact polyResults_ctrl s d r.1 q r.2

theorem withOperand_ctrl {s : State} {a : BitVec 3} {f : Poly → Except ErrCode State}
    (h : ∀ p, ResultHasCtrl c (f p)) : ResultHasCtrl c (withOperand s a f) := by
  rw [withOperand]
  split
  · exact resultHasCtrl_error _
  · exact h _

theorem withOperands_ctrl {s : State} {a b : BitVec 3} {f : Poly → Poly → Except ErrCode State}
    (h : ∀ p q, ResultHasCtrl c (f p q)) : ResultHasCtrl c (withOperands s a b f) :=
  withOperand_ctrl fun p => withOperand_ctrl (h p)

/-! ## The ends of a command -/

theorem complete_completes {u : State} (h : u.ctrl = c) (e : ErrCode) (noerr resb : Bool) :
    CompletesWithCtrl c (.next (u.complete e noerr resb)) := ⟨u, e, noerr, resb, rfl, h⟩

theorem completesWithCtrl_ite {p : Prop} [Decidable p] {o o' : Host.Outcome State Fault Refusal}
    (h : CompletesWithCtrl c o) (h' : CompletesWithCtrl c o') : CompletesWithCtrl c (if p then o else o') := by
  split
  · exact h
  · exact h'

theorem illegalCommand_completes (s : State) : CompletesWithCtrl s.ctrl (illegalCommand s) :=
  complete_completes rfl .illegalCmd false false

theorem endCommand_completes {s : State} {r : Except ErrCode State} (h : ResultHasCtrl s.ctrl r) :
    CompletesWithCtrl s.ctrl (endCommand s r) := by
  cases r with
  | ok t => exact complete_completes (h t rfl) .ok false false
  | error e => exact complete_completes rfl e false false

theorem endCommandFlags_completes {s : State} {r : Except ErrCode (State × Bool × Bool)}
    (h : ∀ x, r = .ok x → x.1.ctrl = s.ctrl) : CompletesWithCtrl s.ctrl (endCommandFlags s r) := by
  cases r with
  | ok x => exact complete_completes (h x rfl) .ok x.2.1 x.2.2
  | error e => exact complete_completes rfl e false false

theorem matResult_completes (s : State) (ok : Bool) (d : BitVec 3) (m : Mat) :
    CompletesWithCtrl s.ctrl (matResult s ok d m) :=
  completesWithCtrl_ite (endCommand_completes (resultHasCtrl_ok rfl)) (illegalCommand_completes s)

theorem crossChecked_completes {s : State} {x : State × Bool × Bool} (h : x.1.ctrl = s.ctrl) :
    CompletesWithCtrl s.ctrl (endCommandFlags s (crossChecked s x)) := by
  refine endCommandFlags_completes fun y hy => ?_
  rw [crossChecked] at hy
  split at hy
  · cases hy; exact h
  · cases hy

/-! ## The commands that end in a way of their own -/

theorem execRssyn_completes (d : BitVec 3) (s : State) : CompletesWithCtrl s.ctrl (execRssyn d s) := by
  refine endCommandFlags_completes fun x hx => ?_
  split at hx
  · split at hx
    · cases hx
    · next t ht => cases hx; exact polyResult_ctrl s d _ t ht
  · cases hx

theorem execRsdec_completes (s : State) : CompletesWithCtrl s.ctrl (execRsdec s) := by
  refine endCommandFlags_completes fun x hx => ?_
  split at hx
  · split at hx
    · cases hx; rfl
    · split at hx
      · cases hx
      · cases hx; rfl
  · cases hx

theorem execRschien_completes (a : BitVec 3) (s : State) : CompletesWithCtrl s.ctrl (execRschien a s) := by
  refine endCommand_completes (withOperand_ctrl fun sigma => ?_)
  split
  · exact resultHasCtrl_error _
  · exact resultHasCtrl_ok rfl

theorem execRsforney_completes (a : BitVec 3) (s : State) : CompletesWithCtrl s.ctrl (execRsforney a s) := by
  refine endCommand_completes (resultHasCtrl_ite (withOperand_ctrl fun omega => ?_) (resultHasCtrl_error _))
  split
  · exact resultHasCtrl_error _
  · exact resultHasCtrl_ok rfl

theorem execRsapply_completes (s : State) : CompletesWithCtrl s.ctrl (execRsapply s) := by
  refine endCommand_completes (resultHasCtrl_ite ?_ (resultHasCtrl_error _))
  split
  · exact resultHasCtrl_error _
  · exact resultHasCtrl_ok rfl

theorem execGrid_completes (a : BitVec 3) (s : State) : CompletesWithCtrl s.ctrl (execGrid a s) := by
  refine completesWithCtrl_ite (endCommand_completes ?_) (illegalCommand_completes s)
  refine resultHasCtrl_ite (resultHasCtrl_error _) (resultHasCtrl_ite (resultHasCtrl_error _)
    (resultHasCtrl_ite (resultHasCtrl_error _) ?_))
  split
  · exact resultHasCtrl_error _
  · exact resultHasCtrl_ok rfl

theorem execPffind_completes (s : State) : CompletesWithCtrl s.ctrl (execPffind s) := by
  refine completesWithCtrl_ite (complete_completes rfl .illegalArg false false)
    (completesWithCtrl_ite (complete_completes rfl .capacity false false) ?_)
  split
  · exact complete_completes rfl .notFound false false
  · exact complete_completes rfl .ok false false

theorem execPfalign_completes (s : State) : CompletesWithCtrl s.ctrl (execPfalign s) := by
  refine completesWithCtrl_ite (complete_completes rfl .illegalArg false false) ?_
  dsimp only
  split
  · exact complete_completes rfl _ false false
  · exact complete_completes rfl .ok false false

/-! ## Every command -/

/-- Only SRESET completes with another CTRL (40_control.md R141). -/
theorem exec_completesWithCtrl {i : Instr} (hi : i ≠ .sreset) (s : State) :
    CompletesWithCtrl s.ctrl (exec i s) := by
  cases i with
  | sreset => exact absurd rfl hi
  | nop | gadd | gmul | gexp | pforder => exact endCommand_completes (resultHasCtrl_ok rfl)
  | ginv | glog => exact endCommand_completes (grResult_ctrl s _)
  | pnorm | pscale => exact endCommand_completes (withOperand_ctrl fun _ => polyResult_ctrl s _ _)
  | padd | pmul => exact endCommand_completes (withOperands_ctrl fun _ _ => polyResult_ctrl s _ _)
  | pmulmono => exact endCommand_completes (withOperand_ctrl fun _ => polyResultOf_ctrl s _ _)
  | pmono => exact endCommand_completes (polyResultOf_ctrl s _ _)
  | pdiv =>
    exact completesWithCtrl_ite (illegalCommand_completes s)
      (endCommand_completes (withOperands_ctrl fun _ _ => divResult_ctrl s _ _ _))
  | peval => exact endCommand_completes (withOperand_ctrl fun _ => resultHasCtrl_ok rfl)
  | pcoef =>
    exact endCommand_completes
      (withOperand_ctrl fun _ => resultHasCtrl_ite (resultHasCtrl_error _) (resultHasCtrl_ok rfl))
  | rsdec => exact execRsdec_completes s
  | rssyn d => exact execRssyn_completes d s
  | rseuc =>
    exact completesWithCtrl_ite (illegalCommand_completes s) (endCommand_completes
      (resultHasCtrl_ite (withOperands_ctrl fun _ _ => divResult_ctrl s _ _ _) (resultHasCtrl_error _)))
  | rschien a => exact execRschien_completes a s
  | rsforney a => exact execRsforney_completes a s
  | rsapply => exact execRsapply_completes s
  | xsq2q | xq2sq | xq2q | xadj | xtimes | xqrgrid => exact matResult_completes s _ _ _
  | xpts =>
    exact completesWithCtrl_ite
      (endCommand_completes (resultHasCtrl_ite (resultHasCtrl_error _) (resultHasCtrl_ok rfl)))
      (illegalCommand_completes s)
  | grid a => exact execGrid_completes a s
  | pffind => exact execPffind_completes s
  | pfalign => exact execPfalign_completes s
  | pfratio5 | pfratio3 => exact complete_completes rfl .ok false _
  | pfccv | pfcch | pfccd | pfccva => exact crossChecked_completes rfl

theorem exec_completes (i : Instr) (s : State) : ∃ c, CompletesWithCtrl c (exec i s) := by
  by_cases hi : i = .sreset
  · subst hi
    exact ⟨_, complete_completes rfl .ok false false⟩
  · exact ⟨_, exec_completesWithCtrl hi s⟩

end Sys2Proof.Machine
end

section
/-! PROOFS. The phases (60_exceptions.md R370): what the engine, a host access and `rst` make of the phase. -/

namespace Sys2Proof.Machine

/-! ## The engine -/

/-- A turn of the engine ends reset initialisation, rests, or completes the running command. -/
theorem engineStep_next {s t : State} (h : engineStep s = .next t) :
    (s.phase = .resetting ∧ t.phase = .idle) ∨ t.phase = s.phase ∨
      ((∃ w, s.phase = .running w) ∧ t.phase = .idle ∧ t.status.done = true) := by
  rw [engineStep] at h
  cases hp : s.phase with
  | resetting => rw [hp] at h; cases h; exact .inl ⟨rfl, rfl⟩
  | idle => rw [hp] at h; cases h; exact .inr (.inl hp)
  | running w =>
    rw [hp] at h
    refine .inr (.inr ⟨⟨w, rfl⟩, ?_⟩)
    dsimp only at h
    split at h
    · obtain ⟨hidle, hdone, -⟩ := (illegalCommand_completes s).of_next h
      exact ⟨hidle, hdone⟩
    · next i _ =>
      obtain ⟨c, hc⟩ := exec_completes i s
      obtain ⟨hidle, hdone, -⟩ := hc.of_next h
      exact ⟨hidle, hdone⟩

/-! ## The host -/

/-- CMD lies at offset 0x008 only (20_memory.md R81): no range past the scalar registers names it. -/
theorem eq_of_locate_eq_cmd {off : Nat} (h : locate off = .cmd) : off = 0x008 := by
  by_cases hoff : off < 0x08C
  · exact (by decide : ∀ o < 0x08C, locate o = .cmd → o = 0x008) off hoff h
  · simp [locate, hoff, ite_eq_iff] at h

theorem hostReadLoc_phase (s : State) (l : Loc) : (hostReadLoc s l).phase = s.phase := by
  rw [hostReadLoc]
  split
  · rfl
  · rfl

theorem writeLoc_phase {l : Loc} (hl : l ≠ .cmd) (s : State) (v : Word) : (writeLoc s l v).phase = s.phase := by
  cases l with
  | cmd => exact absurd rfl hl
  | _ => rfl

/-- A host write changes the phase only by the acceptance of a command (60_exceptions.md R371). -/
theorem hostWriteLoc_phase (s : State) (l : Loc) (v : Word) :
    (hostWriteLoc s l v).phase = s.phase ∨
      (s.phase = .idle ∧ l = .cmd ∧ (hostWriteLoc s l v).phase = .running v) := by
  rw [hostWriteLoc]
  cases hp : s.phase with
  | resetting => exact .inl hp
  | running w =>
    dsimp only
    split
    · exact .inl rfl
    · exact .inl rfl
  | idle =>
    by_cases hl : l = .cmd
    · subst hl
      exact .inr ⟨rfl, rfl, rfl⟩
    · exact .inl ((writeLoc_phase hl s v).trans hp)

/-- Settles O16: by the cases of what a step did. -/
theorem phaseTransitions : Obligations.PhaseTransitions := by
  unfold Obligations.PhaseTransitions
  intro s t h
  obtain ⟨hhost, hengine⟩ | ⟨off, rest, -, -, -, rfl⟩ | ⟨off, v, rest, hhost, -, -, rfl⟩ |
    ⟨im, rest, -, -, rfl⟩ | ⟨rest, hhost, rfl⟩ := step_next h
  · obtain ⟨hs, ht⟩ | hsame | ⟨hs, ht, hdone⟩ := engineStep_next hengine
    · exact .inr (.inl ⟨hs, ht, hhost⟩)
    · exact .inl hsame
    · exact .inr (.inr (.inr (.inl ⟨hs, ht, hdone, hhost⟩)))
  · exact .inl (hostReadLoc_phase _ _)
  · obtain hsame | ⟨hs, hcmd, ht⟩ := hostWriteLoc_phase s.afterInput (locate off) v
    · exact .inl hsame
    · rw [eq_of_locate_eq_cmd hcmd] at hhost
      exact .inr (.inr (.inl ⟨hs, v, rest, ht, hhost⟩))
  · exact .inl rfl
  · exact .inr (.inr (.inr (.inr ⟨rfl, rest, hhost⟩)))

end Sys2Proof.Machine
end

section
/-! PROOFS. The interrupt output (60_exceptions.md R380): the level DONE and IE after each event that sets or clears one of
the two. -/

namespace Sys2Proof.Machine

theorem irq_eq_false_of_done {s : State} (h : s.status.done = false) : s.irq = false := by
  rw [State.irq, h, Bool.false_and]

theorem irq_eq_ie_of_done {s : State} (h : s.status.done = true) : s.irq = s.ctrl.ie := by
  rw [State.irq, h, Bool.true_and]

/-- A write to CTRL makes `irq` DONE and the written IE (10_state.md R26). -/
theorem writeLoc_ctrl_irq (s : State) (v : Word) : (writeLoc s .ctrl v).irq = (s.status.done && v.getLsbD 2) := rfl

/-- A write to STATUS clears DONE where bit 1 is 1 (10_state.md R36). -/
theorem writeLoc_status_done (s : State) (v : Word) :
    (writeLoc s .status v).status.done = (s.status.done && !v.getLsbD 1) := rfl

/-- A completion makes DONE 1 and, SRESET apart, keeps CTRL, so that `irq` is IE. -/
theorem exec_irq {i : Instr} (hi : i ≠ .sreset) {s t : State} (h : exec i s = .next t) : t.irq = s.ctrl.ie := by
  obtain ⟨-, hdone, hctrl⟩ := (exec_completesWithCtrl hi s).of_next h
  rw [irq_eq_ie_of_done hdone, hctrl]

/-- Settles O17: each event fixes DONE or IE, and `irq` is the level of the two. -/
theorem interruptLevel : Obligations.InterruptLevel := by
  unfold Obligations.InterruptLevel
  refine ⟨fun s => rfl, fun i s t h hi => exec_irq hi h, fun s v hv => ?_, fun s v hv => ?_, fun s v hv hdone => ?_,
    fun s w => irq_eq_false_of_done rfl, fun s => irq_eq_false_of_done rfl⟩
  · rw [irq_eq_false_of_done]
    rw [writeLoc_status_done, hv, Bool.not_true, Bool.and_false]
  · rw [writeLoc_ctrl_irq, hv, Bool.and_false]
  · rw [writeLoc_ctrl_irq, hv, hdone, Bool.and_true]

end Sys2Proof.Machine
end

section
/-! PROOFS. Host writes while a command runs (70_reset_and_hazards.md R421): the write is discarded, and the flag it
sets depends on whether its offset is CMD's. -/

namespace Sys2Proof.Machine

/-- The outside is at an aligned host write in the window: the step is that write at the word its offset names. -/
theorem step_write {s : State} {off : Nat} {v : Word} {rest : List Input} (hhost : s.host = .write off 4 v :: rest)
    (halign : off % 4 = 0) (hwin : off < 0x10000) :
    step s = .next (hostWriteLoc s.afterInput (locate off) v) := by
  have hafter : s.afterInput = { s with host := rest } := by rw [State.afterInput, hhost, List.tail_cons]
  rw [step, hhost, hafter]
  exact hostAccess_defined off _ halign hwin

theorem locate_eq_cmd_iff (off : Nat) : locate off = .cmd ↔ off = 0x008 :=
  ⟨eq_of_locate_eq_cmd, by rintro rfl; rfl⟩

theorem hostWriteLoc_running_cmd {s : State} {w : Word} (hrun : s.phase = .running w) (v : Word) :
    hostWriteLoc s .cmd v = { s with status := { s.status with cmdovr := true } } := by
  rw [hostWriteLoc, hrun]
  exact if_pos rfl

theorem hostWriteLoc_running_of_ne_cmd {s : State} {w : Word} (hrun : s.phase = .running w) {l : Loc} (hl : l ≠ .cmd)
    (v : Word) : hostWriteLoc s l v = { s with status := { s.status with wrbusy := true } } := by
  rw [hostWriteLoc, hrun]
  exact if_neg hl

/-- Settles O8: a step at a host write is the write at the located word, and only offset 0x008 is located at CMD. -/
theorem writesWhileRunning : Obligations.WritesWhileRunning := by
  unfold Obligations.WritesWhileRunning
  intro s w off v rest hrun hhost halign hwin
  have hrun' : s.afterInput.phase = .running w := hrun
  rw [step_write hhost halign hwin]
  by_cases hoff : off = 0x008
  · rw [if_pos hoff, (locate_eq_cmd_iff off).2 hoff, hostWriteLoc_running_cmd hrun']
    rfl
  · rw [if_neg hoff, hostWriteLoc_running_of_ne_cmd hrun' (mt (locate_eq_cmd_iff off).1 hoff)]
    rfl

end Sys2Proof.Machine
end

section
/-! PROOFS. Command words (30_encoding.md R110 to R116): the fields of a packed word, and that decoding and encoding are
inverse to each other on the well-formed commands. -/

namespace Sys2Proof

/-! ## The fields of a packed word -/

section
variable (op : BitVec 8) (d a b q : BitVec 3)

@[simp] theorem opField_packFields : opField (packFields op d a b q) = op := (Laws.packFields_op_rsv op d a b q).1

@[simp] theorem rsvField_packFields : rsvField (packFields op d a b q) = 0#12 := (Laws.packFields_op_rsv op d a b q).2

@[simp] theorem dField_packFields : dField (packFields op d a b q) = d := by
  refine BitVec.eq_of_getLsbD_eq fun i hi => ?_
  rw [dField, BitVec.getLsbD_extractLsb', Laws.packFields_getLsbD, if_neg (by omega), if_pos (by omega)]
  simp [hi]

@[simp] theorem aField_packFields : aField (packFields op d a b q) = a := by
  refine BitVec.eq_of_getLsbD_eq fun i hi => ?_
  rw [aField, BitVec.getLsbD_extractLsb', Laws.packFields_getLsbD, if_neg (by omega), if_neg (by omega),
    if_pos (by omega)]
  simp [hi]

@[simp] theorem bField_packFields : bField (packFields op d a b q) = b := by
  refine BitVec.eq_of_getLsbD_eq fun i hi => ?_
  rw [bField, BitVec.getLsbD_extractLsb', Laws.packFields_getLsbD, if_neg (by omega), if_neg (by omega),
    if_neg (by omega), if_pos (by omega)]
  simp [hi]

@[simp] theorem qField_packFields : qField (packFields op d a b q) = q := by
  refine BitVec.eq_of_getLsbD_eq fun i hi => ?_
  rw [qField, BitVec.getLsbD_extractLsb', Laws.packFields_getLsbD, if_neg (by omega), if_neg (by omega),
    if_neg (by omega), if_neg (by omega), if_pos (by omega)]
  simp [hi]

/-- The third test of R112 on a packed word looks at the packed fields. -/
theorem unusedFieldsZero_packFields (u : FieldUse) :
    unusedFieldsZero u (packFields op d a b q) =
      ((u.d || d == 0#3) && (u.a || a == 0#3) && (u.b || b == 0#3) && (u.q || q == 0#3)) := by
  simp [unusedFieldsZero]

end

theorem Instr.wellFormed_iff (i : Instr) :
    i.wellFormed = true ↔ i.matricesOk = true ∧ i.gridFlagOk = true ∧ i.destinationsOk = true := by
  simp only [Instr.wellFormed, Bool.and_eq_true, and_assoc]

/-! ## What decoding answers -/

/-- A word decodes to a command exactly if it passes the six tests of R112. -/
theorem decodeWord_eq_ok_iff (w : Word) (i : Instr) :
    decodeWord w = .ok i ↔
      rsvField w = 0#12 ∧ opcodeMap (opField w).toNat (dField w) (aField w) (bField w) (qField w) = some i ∧
        unusedFieldsZero i.fieldUse w = true ∧ i.wellFormed = true := by
  rw [decodeWord, Instr.wellFormed_iff]
  by_cases hrsv : rsvField w = 0#12
  · rw [if_neg (not_not.2 hrsv)]
    cases hop : opcodeMap (opField w).toNat (dField w) (aField w) (bField w) (qField w) with
    | none => simp
    | some j =>
      dsimp only
      by_cases hj : unusedFieldsZero j.fieldUse w = true ∧
          j.matricesOk = true ∧ j.gridFlagOk = true ∧ j.destinationsOk = true
      · obtain ⟨hu, hm, hg, hd⟩ := hj
        simp only [hu, hm, hg, hd, Bool.not_true, Bool.false_eq_true, if_false, Except.ok.injEq, Option.some.injEq,
          hrsv, true_and]
        exact ⟨fun h => h ▸ ⟨rfl, hu, hm, hg, hd⟩, fun h => h.1⟩
      · have hno : ¬(j = i ∧ unusedFieldsZero i.fieldUse w = true ∧
            i.matricesOk = true ∧ i.gridFlagOk = true ∧ i.destinationsOk = true) := by
          rintro ⟨rfl, h⟩
          exact hj h
        simp only [Option.some.injEq, hrsv, true_and, hno, iff_false]
        intro h
        split_ifs at h with h1 h2 h3 h4
        simp only [Bool.not_eq_true', Bool.not_eq_false] at h1 h2 h3 h4
        exact hj ⟨h1, h2, h3, h4⟩
  · simp [hrsv]

/-- The opcode map and the encoder agree: the opcode is the command's, and the command's word packs the fields it uses. -/
theorem encode_of_opcodeMap {n : Nat} {d a b q : BitVec 3} {i : Instr} (h : opcodeMap n d a b q = some i) :
    i.opcode.toNat = n ∧
      encode i = packFields i.opcode (if i.fieldUse.d then d else 0#3) (if i.fieldUse.a then a else 0#3)
        (if i.fieldUse.b then b else 0#3) (if i.fieldUse.q then q else 0#3) := by
  rw [opcodeMap.eq_def] at h
  split at h <;> cases h <;> exact ⟨rfl, rfl⟩

theorem field_eq_of_unused {used : Bool} {x : BitVec 3} (h : (used || x == 0#3) = true) :
    (if used then x else 0#3) = x := by
  cases used with
  | true => rfl
  | false => exact (beq_iff_eq.1 h).symm

/-- Settles O2: a word that decodes is its own fields packed, those that its command does not use are 0, and the opcode
map names the command whose encoding packs them. -/
theorem encodeOfDecode : Obligations.EncodeOfDecode := by
  unfold Obligations.EncodeOfDecode
  intro w i h
  obtain ⟨hrsv, hop, hunused, hwf⟩ := (decodeWord_eq_ok_iff w i).1 h
  obtain ⟨hopcode, hencode⟩ := encode_of_opcodeMap hop
  simp only [unusedFieldsZero, Bool.and_eq_true] at hunused
  obtain ⟨⟨⟨hd, ha⟩, hb⟩, hq⟩ := hunused
  rw [field_eq_of_unused hd, field_eq_of_unused ha, field_eq_of_unused hb, field_eq_of_unused hq,
    BitVec.eq_of_toNat_eq hopcode] at hencode
  exact ⟨hwf, hencode.trans (eq_packFields_of_rsvField hrsv).symm⟩

/-- The word of a command: its opcode in the map names the command with its own operands, and the fields it does not use
are 0. -/
theorem exists_packFields_eq_encode (i : Instr) :
    ∃ d a b q, encode i = packFields i.opcode d a b q ∧ opcodeMap i.opcode.toNat d a b q = some i ∧
      unusedFieldsZero i.fieldUse (packFields i.opcode d a b q) = true := by
  simp only [unusedFieldsZero_packFields]
  cases i <;> exact ⟨_, _, _, _, rfl, rfl, by simp [Instr.fieldUse]⟩

/-- Settles O1: the fields of a command's word are the ones it was packed from, so the word passes the tests that the
command passes. -/
theorem decodeOfEncode : Obligations.DecodeOfEncode := by
  unfold Obligations.DecodeOfEncode
  intro i hwf
  obtain ⟨d, a, b, q, hencode, hop, hunused⟩ := exists_packFields_eq_encode i
  rw [decodeWord_eq_ok_iff, hencode, opField_packFields, dField_packFields, aField_packFields, bField_packFields,
    qField_packFields]
  exact ⟨rsvField_packFields _ _ _ _ _, hop, hunused, hwf⟩

/-- Settles O3: the words are closed, so the decoder is run on each. -/
theorem sampleWordsDecode : Obligations.SampleWordsDecode := by
  unfold Obligations.SampleWordsDecode
  decide

/-! ## Words that encode no command -/

/-- Every word that is the encoding of no well-formed command fails to decode. -/
theorem decodeWord_error_of_not_encode {w : Word} (h : ¬∃ i : Instr, i.wellFormed = true ∧ encode i = w) :
    ∃ e, decodeWord w = .error e := by
  cases hw : decodeWord w with
  | error e => exact ⟨e, rfl⟩
  | ok i => exact absurd ⟨i, encodeOfDecode w i hw⟩ h

theorem opField_encode (i : Instr) : opField (encode i) = i.opcode := by
  obtain ⟨d, a, b, q, hencode, -, -⟩ := exists_packFields_eq_encode i
  rw [hencode, opField_packFields]

theorem rsvField_encode (i : Instr) : rsvField (encode i) = 0#12 := by
  obtain ⟨d, a, b, q, hencode, -, -⟩ := exists_packFields_eq_encode i
  rw [hencode, rsvField_packFields]

/-- The opcodes of the commands leave the ranges of R113 free. -/
theorem opcode_not_reserved (i : Instr) :
    ¬((0x06 ≤ i.opcode.toNat ∧ i.opcode.toNat ≤ 0x0E) ∨ (0x19 ≤ i.opcode.toNat ∧ i.opcode.toNat ≤ 0x1F) ∨
      (0x26 ≤ i.opcode.toNat ∧ i.opcode.toNat ≤ 0x2F) ∨ (0x38 ≤ i.opcode.toNat ∧ i.opcode.toNat ≤ 0x3F) ∨
      0x49 ≤ i.opcode.toNat) := by
  cases i <;> simp [Instr.opcode]

namespace Machine

/-- Settles O4: a word that is no command's encoding does not decode, so it completes as an illegal one; the encodings
have RSV = 0 and an opcode outside the reserved ranges. -/
theorem illegalWordCompletes : Obligations.IllegalWordCompletes := by
  unfold Obligations.IllegalWordCompletes
  refine ⟨fun s w hs hw => ?_, fun w hw => ?_⟩
  · obtain ⟨e, he⟩ := decodeWord_error_of_not_encode hw
    rw [engineStep, hs]
    dsimp only
    rw [he, ← illegalCommand_eq]
  · rintro ⟨i, -, rfl⟩
    rw [opField_encode, rsvField_encode] at hw
    refine opcode_not_reserved i ?_
    simpa only [ne_eq, not_true_eq_false, or_false] using hw

end Machine

end Sys2Proof
end

section
/-! PROOFS. The candidates of the two searches (46_finder_pattern.md R294 to R301, 47_alignment_pattern.md R344 to R346):
what every recording keeps holds of the candidates a scan answers; so they are never more than 256. -/

namespace Sys2Proof.Machine

/-! ## The finder search -/

theorem mergeFirst_length {ms ci cj : F32} {cands cs : List Pattern} (h : mergeFirst ms ci cj cands = some cs) :
    cs.length = cands.length := by
  induction cands generalizing cs with
  | nil => cases h
  | cons c cands ih =>
    rw [mergeFirst] at h
    split at h
    · cases h; rfl
    · obtain ⟨cs', hcs', rfl⟩ := Option.map_eq_some_iff.1 h
      rw [List.length_cons, List.length_cons, ih hcs']

theorem recordCandidate_length_le {cands cs : List Pattern} {ms ci cj : F32} (hcands : cands.length ≤ 256)
    (h : recordCandidate cands ms ci cj = some cs) : cs.length ≤ 256 := by
  rw [recordCandidate] at h
  split at h
  · next hmerge => cases h; rwa [mergeFirst_length hmerge]
  · split at h
    · cases h
    · next hroom =>
      cases h
      rw [List.length_append, List.length_singleton]
      exact Nat.lt_of_not_le hroom

theorem confirm5_length_le {im : Image} {pure : Bool} {s : Runs5} {i j : Nat} {cands cs : List Pattern}
    (hcands : cands.length ≤ 256) (h : confirm5 im pure s i j cands = .yes cs) : cs.length ≤ 256 := by
  rw [confirm5] at h
  split at h
  · cases h
  split at h
  · cases h
  split at h
  · cases h
  split at h
  · cases h
  split at h
  · cases h
  split at h
  · cases h
  split at h
  · cases h
  · next hrecord => cases h; exact recordCandidate_length_le hcands hrecord

section
variable (im : Image) (pure : Bool) (i : Nat)

theorem scan5Pixel_length_le (j : Nat) {z : Scan5} (hz : z.cands.length ≤ 256) :
    (scan5Pixel im pure i j z).cands.length ≤ 256 := by
  rw [scan5Pixel]
  split
  · exact hz
  split
  · exact hz
  split
  · exact hz
  dsimp only
  split
  · split
    · exact hz
    · exact hz
    · next hconfirm => exact confirm5_length_le hz hconfirm
  · exact hz

theorem scan5Pixels_length_le (left j : Nat) {z : Scan5} (hz : z.cands.length ≤ 256) :
    (scan5Pixels im pure i left j z).cands.length ≤ 256 := by
  induction left generalizing j z with
  | zero => exact hz
  | succ left ih =>
    rw [scan5Pixels]
    split
    · exact ih (j + 1) (scan5Pixel_length_le im pure i j hz)
    · exact hz

theorem scan5RowEnd_length_le {z : Scan5} (hz : z.cands.length ≤ 256) :
    (scan5RowEnd im pure i z).cands.length ≤ 256 := by
  rw [scan5RowEnd]
  split
  · split
    · exact hz
    · exact hz
    · next hconfirm => exact confirm5_length_le hz hconfirm
  · exact hz

theorem scan5Row_length_le {cands : List Pattern} (hcands : cands.length ≤ 256) :
    (scan5Row im pure i cands).cands.length ≤ 256 :=
  scan5RowEnd_length_le im pure i (scan5Pixels_length_le im pure i _ _ hcands)

theorem scan5Rows_length_le (stride fuel : Nat) {cands : List Pattern} (hcands : cands.length ≤ 256) :
    (scan5Rows im pure stride fuel i cands).1.length ≤ 256 := by
  induction fuel generalizing i cands with
  | zero => exact hcands
  | succ fuel ih =>
    have hrow := scan5Row_length_le im pure i hcands
    rw [scan5Rows]
    split
    · dsimp only
      split
      · exact ih _ hrow
      · exact hrow
    · exact hcands

end

/-- A finder scan answers no more candidates than the memory holds. -/
theorem scan5_length_le (im : Image) (tryh pure : Bool) : (scan5 im tryh pure).1.length ≤ 256 :=
  scan5Rows_length_le im pure _ _ _ (Nat.zero_le _)

/-! ## The alignment search -/

/-- What holds of every candidate list of an alignment search: at most 256 entries, each seen once. -/
def SeenOnce (cands : List Pattern) : Prop := cands.length ≤ 256 ∧ ∀ c ∈ cands, c.count = 1#32

theorem seenOnce_nil : SeenOnce [] := ⟨Nat.zero_le _, fun _ h => absurd h List.not_mem_nil⟩

theorem SeenOnce.append {cands : List Pattern} (h : SeenOnce cands) (hroom : cands.length < 256) (x y ms : F32) :
    SeenOnce (cands ++ [⟨x, y, ms, 1#32⟩]) := by
  obtain ⟨-, hcount⟩ := h
  refine ⟨by rw [List.length_append, List.length_singleton]; exact hroom, fun c hc => ?_⟩
  obtain hc | hc := List.mem_append.1 hc
  · exact hcount c hc
  · rw [List.mem_singleton.1 hc]

theorem handle3_seenOnce {im : Image} {ams : F32} {s : Runs3} {i j : Nat} {cands cs : List Pattern}
    (hcands : SeenOnce cands) (h : handle3 im ams s i j cands = .none cs) : SeenOnce cs := by
  rw [handle3] at h
  split at h
  · cases h; exact hcands
  split at h
  · cases h; exact hcands
  dsimp only at h
  split at h
  · cases h
  split at h
  · cases h
  · next hroom => cases h; exact hcands.append (Nat.lt_of_not_le hroom) _ _ _

section
variable (im : Image) (ams : F32)

theorem scan3Triple_seenOnce (i j : Nat) {z : Scan3} (hz : SeenOnce z.cands) :
    SeenOnce (scan3Triple im ams i j z).cands := by
  rw [scan3Triple]
  split
  · split
    · next hhandle => exact handle3_seenOnce hz hhandle
    · exact hz
    · exact hz
  · exact hz

theorem scan3Pixel_seenOnce (i j : Nat) {z : Scan3} (hz : SeenOnce z.cands) :
    SeenOnce (scan3Pixel im ams i j z).cands := by
  rw [scan3Pixel]
  split
  · split
    · exact hz
    split
    · exact scan3Triple_seenOnce im ams i j hz
    · exact hz
  · exact hz

theorem scan3Pixels_seenOnce (i left j : Nat) {z : Scan3} (hz : SeenOnce z.cands) :
    SeenOnce (scan3Pixels im ams i left j z).cands := by
  induction left generalizing j z with
  | zero => exact hz
  | succ left ih =>
    rw [scan3Pixels]
    split
    · exact ih (j + 1) (scan3Pixel_seenOnce im ams i j hz)
    · exact hz

theorem scan3Row_seenOnce (x w i : Nat) {cands : List Pattern} (hcands : SeenOnce cands) :
    SeenOnce (scan3Row im ams x w i cands).cands := by
  have hpixels := scan3Pixels_seenOnce im ams i (w - leadingWhite im i w x) (x + leadingWhite im i w x)
    (z := ⟨Runs3.zero, 0, cands, .scanning⟩) hcands
  rw [scan3Row]
  split
  · exact scan3Triple_seenOnce im ams i _ hpixels
  · exact hpixels

theorem scan3Rows_seenOnce (x y w h left g : Nat) {cands : List Pattern} (hcands : SeenOnce cands) :
    SeenOnce (scan3Rows im ams x y w h left g cands).1 := by
  induction left generalizing g cands with
  | zero => exact hcands
  | succ left ih =>
    have hrow := scan3Row_seenOnce im ams x w (middleOut y h g) hcands
    rw [scan3Rows]
    split
    · exact ih (g + 1) hrow
    · exact hrow

/-- An alignment scan answers no more candidates than the memory holds, each seen once. -/
theorem scan3_seenOnce (x y w h : Nat) : SeenOnce (scan3 im ams x y w h).1 :=
  scan3Rows_seenOnce im ams x y w h h 0 seenOnce_nil

end

end Sys2Proof.Machine
end

section
/-! PROOFS. What each command can do, said once (60_exceptions.md R372, R373): it completes on a state that differs from
its own by its results, or it fails on its own state; the two searches fail with the candidates they recorded. -/

namespace Sys2Proof.Machine

/-! ## Bounds on results -/

theorem chienSearch_length_le {g : Tables} {sigma : Poly} {n left e : Nat} {found found' : List Byte}
    (h : chienSearch g sigma n left e found = .ok found') : found'.length ≤ found.length + left := by
  induction left generalizing e found with
  | zero => cases h; exact Nat.le_add_right _ _
  | succ left ih =>
    rw [chienSearch] at h
    split at h
    · cases h; exact Nat.le_add_right _ _
    split at h
    · split at h
      · cases h
      · have := ih h
        rw [List.length_append, List.length_singleton] at this
        omega
    · have := ih h
      omega

/-- A Chien search that completes answers as many locations as its polynomial has roots at most: its degree. -/
theorem chien_length {g : Tables} {sigma : Poly} {found : List Byte} (h : chien g sigma = .ok found) :
    found.length = pdeg sigma ∧ found.length ≤ 255 := by
  rw [chien] at h
  split at h
  · cases h
  · next hsearch =>
    split at h
    · next hlength =>
      cases h
      have := chienSearch_length_le hsearch
      rw [List.length_nil, Nat.zero_add] at this
      exact ⟨hlength, this⟩
    · cases h

theorem forneyFrom_length {g : Tables} {gbase : Nat} {omega : Poly} {loc : List Byte} {i : Nat}
    {ls mags : List Byte} (h : forneyFrom g gbase omega loc i ls = .ok mags) : mags.length = ls.length := by
  induction ls generalizing i mags with
  | nil => cases h; rfl
  | cons l ls ih =>
    rw [forneyFrom] at h
    split at h
    · cases h
    split at h
    · cases h
    · next hrest => cases h; rw [List.length_cons, List.length_cons, ih hrest]

theorem forney_length {g : Tables} {gbase : Nat} {omega : Poly} {loc mags : List Byte}
    (h : forney g gbase omega loc = .ok mags) : mags.length = loc.length := forneyFrom_length h

theorem position_lt {g : Tables} {n p : Nat} {l : Byte} (hn : 1 ≤ n) (h : position g n l = .ok p) : p < n := by
  rw [position] at h
  split at h
  · cases h
  split at h
  · cases h
  · cases h; omega

theorem positions_lt {g : Tables} {n : Nat} (hn : 1 ≤ n) {ls : List Byte} {ps : List Nat}
    (h : positions g n ls = .ok ps) : ∀ p ∈ ps, p < n := by
  induction ls generalizing ps with
  | nil => cases h; exact fun _ hp => absurd hp List.not_mem_nil
  | cons l ls ih =>
    rw [positions] at h
    split at h
    · cases h
    · next hposition =>
      split at h
      · cases h
      · next hrest =>
        cases h
        exact List.forall_mem_cons.2 ⟨position_lt hn hposition, ih hrest⟩

/-- Corrections at places below n. -/
def PlacesBelow (n : Nat) (fixes : List (Nat × Byte)) : Prop := ∀ f ∈ fixes, f.1 < n

theorem placesBelow_zip {n : Nat} {ps : List Nat} (h : ∀ p ∈ ps, p < n) (mags : List Byte) :
    PlacesBelow n (ps.zip mags) := fun _ hf => h _ (List.of_mem_zip hf).1

theorem mapPoints_length (m : Mat) : ∀ ws : List Word, (mapPoints m ws).length = ws.length
  | [] => rfl
  | [_] => rfl
  | x :: y :: rest => by
    rw [mapPoints, List.length_cons, List.length_cons, mapPoints_length m rest, List.length_cons, List.length_cons]

theorem rowBytes_length (row : List Bool) : (rowBytes row).length = 32 := by
  rw [rowBytes, List.length_map, List.length_range]; rfl

theorem gridBytes_length (rows : List (List Bool)) : (gridBytes rows).length = 8192 := by
  simp only [gridBytes, List.length_flatMap, rowBytes_length, List.map_const', List.length_range, List.sum_replicate]
  rfl

/-! ## The results of a command -/

/-- The two commands that search an image for patterns and record candidates. -/
def IsSearch (i : Instr) : Prop := i = .pffind ∨ i = .pfalign

/-- The six commands whose result is RESB (10_state.md R39). -/
def IsTest (i : Instr) : Prop :=
  i = .pfratio5 ∨ i = .pfratio3 ∨ i = .pfccv ∨ i = .pfcch ∨ i = .pfccd ∨ i = .pfccva

/-- `u` is `s` with a polynomial in PB[d] and its degree in DEGR. -/
def WritesPoly (s : State) (d : BitVec 3) (u : State) : Prop :=
  ∃ p : Poly, p.length ≤ 512 ∧ u = { putPoly s d p with degr := degrOf p }

/-- `u` is `s` with polynomials in two different buffers and a degree in DEGR. -/
def WritesPolys (s : State) (d q : BitVec 3) (u : State) : Prop :=
  ∃ p p' : Poly, p.length ≤ 512 ∧ p'.length ≤ 512 ∧ d ≠ q ∧
    u = { putPoly (putPoly s d p) q p' with degr := degrOf p }

/-- `u` is `s` with the results of RSDEC: those of a clean block, or of one that was corrected. -/
def WritesDecoded (s u : State) : Prop :=
  s.cwlen.toNat ≤ 255 ∧
    (u = { s with nloc := 0#9, degr := 0#16 } ∨
      ∃ found mags ps, found.length ≤ 255 ∧ mags.length = found.length ∧ PlacesBelow s.cwlen.toNat (ps.zip mags) ∧
        u = putDecoded s found mags ps)

/-- `u` is the state that a command, completing normally on `s`, completes: `s` with the command's results. -/
def Results (s : State) (i : Instr) (u : State) : Prop :=
  match i with
  | .nop | .pfratio5 | .pfratio3 | .pfccd => u = s
  | .gadd | .gmul | .ginv | .gexp | .glog => ∃ x, u = { s with gr := x }
  | .sreset => u = softReset s
  | .pnorm d _ | .padd d _ _ | .pmul d _ _ | .pscale d _ | .pmulmono d _ | .pmono d | .rssyn d => WritesPoly s d u
  | .pdiv d q _ _ | .rseuc d q _ _ => WritesPolys s d q u
  | .peval _ | .pcoef _ => ∃ x n, u = { s with gr := x, degr := n }
  | .rsdec => WritesDecoded s u
  | .rschien a => ∃ found, found.length ≤ 255 ∧ found.length = chienCount s a ∧ u = putLocations s found
  | .rsforney _ => ∃ mags n, mags.length = s.nloc.toNat ∧ s.nloc.toNat ≤ 255 ∧
      u = { s with mem := writeElems s.mem magBase mags, degr := n }
  | .rsapply => ∃ fixes, s.cwlen.toNat ≤ 255 ∧ PlacesBelow s.cwlen.toNat fixes ∧
      u = { s with mem := applyFixes s.mem fixes }
  | .xsq2q d | .xq2sq d | .xq2q d | .xadj d _ | .xtimes d _ _ | .xqrgrid d _ => ∃ m, u = putMat s d m
  | .xpts _ => ∃ ws, ws.length = 2 * s.npts.toNat ∧ s.npts.toNat ≤ 256 ∧
      u = { s with mem := writeWords s.mem pmBase ws }
  | .grid _ => ∃ bs, bs.length = 8192 ∧ u = { s with mem := setBytes s.mem bmBase bs }
  | .pffind => ∃ cands o, cands.length ≤ 256 ∧ u = putFinders (putCandidates s cands) o
  | .pfalign => ∃ cands p, cands.length ≤ 256 ∧ u = putAlignment (putCandidates s cands) p
  | .pforder => ∃ o, u = putFinders s o
  | .pfccv | .pfcch | .pfccva => ∃ x, u = { s with resf := x }

/-! ## The ends of a command -/

section
variable {s : State} {test : Prop} {R : State → Prop}

/-- A command on `s` ends this way: normally on a state with its results, where only a test sets RESB, or it fails. -/
def EndsWith (s : State) (test : Prop) (R : State → Prop) (o : Host.Outcome State Fault Refusal) : Prop :=
  (∃ u noerr resb, o = .next (u.ended .ok noerr resb) ∧ R u ∧ (resb = true → test)) ∨ ∃ e, o = .next (s.failed e)

/-- The state a computation answers, where it answers one, has the results. -/
def Gives (R : State → Prop) (r : Except ErrCode State) : Prop := ∀ u, r = .ok u → R u

theorem gives_error (e : ErrCode) : Gives R (.error e) := by
  rintro _ ⟨⟩

theorem gives_ok {u : State} (h : R u) : Gives R (.ok u) := by
  rintro _ ⟨⟩
  exact h

theorem gives_ite {c : Prop} [Decidable c] {r r' : Except ErrCode State} (h : c → Gives R r) (h' : Gives R r') :
    Gives R (if c then r else r') := by
  split
  · next hc => exact h hc
  · exact h'

theorem endsWith_ite {c : Prop} [Decidable c] {o o' : Host.Outcome State Fault Refusal} (h : EndsWith s test R o)
    (h' : ¬c → EndsWith s test R o') : EndsWith s test R (if c then o else o') := by
  split
  · exact h
  · next hc => exact h' hc

theorem endCommand_endsWith {r : Except ErrCode State} (h : Gives R r) : EndsWith s test R (endCommand s r) := by
  rw [endCommand_eq]
  cases r with
  | ok u => exact .inl ⟨u, false, false, rfl, h u rfl, by simp⟩
  | error e => exact .inr ⟨e, rfl⟩

theorem illegalCommand_endsWith : EndsWith s test R (illegalCommand s) := .inr ⟨_, illegalCommand_eq s⟩

theorem endCommandFlags_endsWith {r : Except ErrCode (State × Bool × Bool)}
    (h : ∀ u noerr resb, r = .ok (u, noerr, resb) → R u ∧ (resb = true → test)) :
    EndsWith s test R (endCommandFlags s r) := by
  rw [endCommandFlags_eq]
  cases r with
  | ok x =>
    obtain ⟨u, noerr, resb⟩ := x
    exact .inl ⟨u, noerr, resb, rfl, h u noerr resb rfl⟩
  | error e => exact .inr ⟨e, rfl⟩

theorem withOperand_gives {a : BitVec 3} {f : Poly → Except ErrCode State}
    (h : ∀ p, polyOperand s a = .ok p → Gives R (f p)) : Gives R (withOperand s a f) := by
  rw [withOperand]
  split
  · exact gives_error _
  · next hp => exact h _ hp

theorem withOperands_gives {a b : BitVec 3} {f : Poly → Poly → Except ErrCode State} (h : ∀ p q, Gives R (f p q)) :
    Gives R (withOperands s a b f) :=
  withOperand_gives fun p _ => withOperand_gives fun q _ => h p q

end

/-! ## The shared results -/

theorem grResult_gives (s : State) (r : Except ErrCode Byte) :
    Gives (fun u => ∃ x, u = { s with gr := x }) (grResult s r) := by
  cases r with
  | error e => exact gives_error e
  | ok x => exact gives_ok ⟨x, rfl⟩

theorem polyResult_gives (s : State) (d : BitVec 3) (p : Poly) : Gives (WritesPoly s d) (polyResult s d p) := by
  rw [polyResult_eq]
  split
  · exact gives_error _
  · next hlength => exact gives_ok ⟨p, Nat.le_of_not_lt hlength, rfl⟩

theorem polyResultOf_gives (s : State) (d : BitVec 3) (r : Except ErrCode Poly) :
    Gives (WritesPoly s d) (polyResultOf s d r) := by
  cases r with
  | error e => exact gives_error e
  | ok p => exact polyResult_gives s d p

theorem divResult_gives (s : State) {d q : BitVec 3} (hdq : d ≠ q) (r : Except ErrCode (Poly × Poly)) :
    Gives (WritesPolys s d q) (divResult s d q r) := by
  cases r with
  | error e => exact gives_error e
  | ok r =>
    rw [divResult, polyResults_eq]
    split
    · exact gives_error _
    · next hlength =>
      rw [not_or, Nat.not_lt, Nat.not_lt] at hlength
      exact gives_ok ⟨r.1, r.2, hlength.1, hlength.2, hdq, rfl⟩

section
variable {s : State} {test : Prop}

theorem matResult_endsWith (ok : Bool) (d : BitVec 3) (m : Mat) :
    EndsWith s test (fun u => ∃ m, u = putMat s d m) (matResult s ok d m) := by
  rw [matResult]
  exact endsWith_ite (endCommand_endsWith (gives_ok ⟨m, rfl⟩)) fun _ => illegalCommand_endsWith

theorem crossChecked_endsWith {R : State → Prop} {x : State × Bool × Bool} (hR : R x.1) (htest : test) :
    EndsWith s test R (endCommandFlags s (crossChecked s x)) := by
  refine endCommandFlags_endsWith fun u noerr resb h => ?_
  rw [crossChecked] at h
  split at h
  · cases h; exact ⟨hR, fun _ => htest⟩
  · cases h

/-! ## The commands that end in a way of their own -/

theorem execRssyn_endsWith (d : BitVec 3) : EndsWith s test (WritesPoly s d) (execRssyn d s) := by
  refine endCommandFlags_endsWith fun u noerr resb h => ?_
  split at h
  · split at h
    · cases h
    · next hresult => cases h; exact ⟨polyResult_gives s d _ _ hresult, by simp⟩
  · cases h

/-- What the stages inside RSDEC answer. -/
theorem decodeErrors_bounds {found mags : List Byte} {ps : List Nat} (hn : 1 ≤ s.cwlen.toNat)
    (h : decodeErrors s = .ok (found, mags, ps)) :
    found.length ≤ 255 ∧ mags.length = found.length ∧ PlacesBelow s.cwlen.toNat (ps.zip mags) := by
  rw [decodeErrors] at h
  split at h
  · cases h
  split at h
  · cases h
  · next hchien =>
    split at h
    · cases h
    · next hforney =>
      split at h
      · cases h
      · next hpositions =>
        cases h
        exact ⟨(chien_length hchien).2, forney_length hforney, placesBelow_zip (positions_lt hn hpositions) mags⟩

theorem execRsdec_endsWith : EndsWith s test (WritesDecoded s) (execRsdec s) := by
  refine endCommandFlags_endsWith fun u noerr resb h => ?_
  split at h
  · next hr =>
    obtain ⟨hn, hle, -, -⟩ := (cwlenOk_and_twosOk s).1 hr
    split at h
    · cases h; exact ⟨⟨hle, .inl rfl⟩, by simp⟩
    split at h
    · cases h
    · next hdecode =>
      cases h
      obtain ⟨hfound, hmags, hplaces⟩ := decodeErrors_bounds hn hdecode
      exact ⟨⟨hle, .inr ⟨_, _, _, hfound, hmags, hplaces, rfl⟩⟩, by simp⟩
  · cases h

theorem execRschien_endsWith (a : BitVec 3) : EndsWith s test (Results s (.rschien a)) (execRschien a s) := by
  refine endCommand_endsWith (withOperand_gives fun sigma hsigma => ?_)
  split
  · exact gives_error _
  · next hchien =>
    obtain ⟨hdegree, hle⟩ := chien_length hchien
    exact gives_ok ⟨_, hle, by rw [chienCount, hsigma]; exact hdegree, rfl⟩

theorem execRsforney_endsWith (a : BitVec 3) : EndsWith s test (Results s (.rsforney a)) (execRsforney a s) := by
  refine endCommand_endsWith (gives_ite (fun hnloc => withOperand_gives fun omega _ => ?_) (gives_error _))
  split
  · exact gives_error _
  · next hforney =>
    have hlength := forney_length hforney
    rw [locations, readElems_length] at hlength
    exact gives_ok ⟨_, _, hlength, of_decide_eq_true hnloc, rfl⟩

theorem execRsapply_endsWith : EndsWith s test (Results s .rsapply) (execRsapply s) := by
  refine endCommand_endsWith (gives_ite (fun hranges => ?_) (gives_error _))
  obtain ⟨hcwlen, -⟩ := Bool.and_eq_true_iff.1 hranges
  obtain ⟨hn, hle⟩ := of_decide_eq_true hcwlen
  split
  · exact gives_error _
  · next hpositions => exact gives_ok ⟨_, hle, placesBelow_zip (positions_lt hn hpositions) _, rfl⟩

theorem execXpts_endsWith (a : BitVec 3) : EndsWith s test (Results s (.xpts a)) (execXpts a s) := by
  rw [execXpts]
  refine endsWith_ite (endCommand_endsWith ?_) fun _ => illegalCommand_endsWith
  split
  · exact gives_error _
  · next hnpts =>
    exact gives_ok ⟨_, by rw [mapPoints_length, readWords_length], Nat.le_of_not_lt hnpts, rfl⟩

theorem execGrid_endsWith (a : BitVec 3) : EndsWith s test (Results s (.grid a)) (execGrid a s) := by
  rw [execGrid]
  refine endsWith_ite (endCommand_endsWith ?_) fun _ => illegalCommand_endsWith
  refine gives_ite (fun _ => gives_error _) (gives_ite (fun _ => gives_error _)
    (gives_ite (fun _ => gives_error _) ?_))
  split
  · exact gives_error _
  · exact gives_ok ⟨_, gridBytes_length _, rfl⟩

end

/-! ## Every command but the searches -/

theorem exec_endsWith {i : Instr} (hi : ¬IsSearch i) (s : State) : EndsWith s (IsTest i) (Results s i) (exec i s) := by
  cases i with
  | nop => exact .inl ⟨s, false, false, rfl, rfl, by simp⟩
  | sreset => exact .inl ⟨softReset s, false, false, rfl, rfl, by simp⟩
  | gadd | gmul | gexp => exact .inl ⟨{ s with gr := _ }, false, false, rfl, ⟨_, rfl⟩, by simp⟩
  | ginv | glog => exact endCommand_endsWith (grResult_gives s _)
  | pnorm | pscale => exact endCommand_endsWith (withOperand_gives fun _ _ => polyResult_gives s _ _)
  | padd | pmul => exact endCommand_endsWith (withOperands_gives fun _ _ => polyResult_gives s _ _)
  | pmulmono => exact endCommand_endsWith (withOperand_gives fun _ _ => polyResultOf_gives s _ _)
  | pmono => exact endCommand_endsWith (polyResultOf_gives s _ _)
  | pdiv =>
    exact endsWith_ite illegalCommand_endsWith fun hdq =>
      endCommand_endsWith (withOperands_gives fun _ _ => divResult_gives s hdq _)
  | peval => exact endCommand_endsWith (withOperand_gives fun _ _ => gives_ok ⟨_, _, rfl⟩)
  | pcoef =>
    exact endCommand_endsWith
      (withOperand_gives fun _ _ => gives_ite (fun _ => gives_error _) (gives_ok ⟨_, _, rfl⟩))
  | rsdec => exact execRsdec_endsWith
  | rssyn d => exact execRssyn_endsWith d
  | rseuc =>
    exact endsWith_ite illegalCommand_endsWith fun hdq => endCommand_endsWith
      (gives_ite (fun _ => withOperands_gives fun _ _ => divResult_gives s hdq _) (gives_error _))
  | rschien a => exact execRschien_endsWith a
  | rsforney a => exact execRsforney_endsWith a
  | rsapply => exact execRsapply_endsWith
  | xsq2q | xq2sq | xq2q | xadj | xtimes | xqrgrid => exact matResult_endsWith _ _ _
  | xpts a => exact execXpts_endsWith a
  | grid a => exact execGrid_endsWith a
  | pffind => exact absurd (.inl rfl) hi
  | pfalign => exact absurd (.inr rfl) hi
  | pfratio5 | pfratio3 => exact .inl ⟨s, false, _, rfl, rfl, fun _ => by simp [IsTest]⟩
  | pforder => exact endCommand_endsWith (gives_ok ⟨_, rfl⟩)
  | pfccv | pfcch | pfccva => exact crossChecked_endsWith ⟨_, rfl⟩ (by simp [IsTest])
  | pfccd => exact crossChecked_endsWith rfl (by simp [IsTest])

/-! ## The searches -/

/-- A search on `s` ends this way: normally on a state with its results, with ILLEGAL_ARG and no candidates, or with
another error and the candidates it recorded. -/
def SearchEndsWith (s : State) (R : State → Prop) (o : Host.Outcome State Fault Refusal) : Prop :=
  (∃ u, o = .next u.done ∧ R u) ∨ o = .next { s.failed .illegalArg with ncand := 0#16 } ∨
    ∃ cands e, cands.length ≤ 256 ∧ e ≠ .illegalArg ∧ o = .next ((putCandidates s cands).failed e)

theorem execPffind_endsWith (s : State) : SearchEndsWith s (Results s .pffind) (execPffind s) := by
  have hlength := scan5_length_le s.port s.ctrl.tryh s.ctrl.pure
  rw [execPffind]
  split
  · exact .inr (.inl (by rw [State.raise_eq, State.complete_error]; rfl))
  dsimp only
  split
  · exact .inr (.inr ⟨_, .capacity, hlength, by decide, by rw [State.raise_eq, State.complete_error]; rfl⟩)
  split
  · exact .inr (.inr ⟨_, .notFound, hlength, by decide, by rw [State.raise_eq, State.complete_error]; rfl⟩)
  · exact .inl ⟨_, rfl, _, _, hlength, rfl⟩

theorem alignmentResult_ne_illegalArg {r : List Pattern × Progress3} {e : ErrCode} (h : alignmentResult r = .error e) :
    e ≠ .illegalArg := by
  rw [alignmentResult] at h
  split at h
  · cases h; decide
  · cases h
  split at h
  · cases h; decide
  · cases h

theorem execPfalign_endsWith (s : State) : SearchEndsWith s (Results s .pfalign) (execPfalign s) := by
  obtain ⟨hlength, -⟩ := scan3_seenOnce s.port s.ams s.rgx.toNat s.rgy.toNat s.rgw.toNat s.rgh.toNat
  rw [execPfalign]
  split
  · exact .inr (.inl (by rw [State.raise_eq, State.complete_error]; rfl))
  dsimp only
  split
  · next e he =>
    exact .inr (.inr ⟨_, e, hlength, alignmentResult_ne_illegalArg he,
      by rw [State.raise_eq, State.complete_error]; rfl⟩)
  · exact .inl ⟨_, rfl, _, _, hlength, rfl⟩

/-! ## Every command -/

/-- What a command that gave the next state `t` did. -/
inductive CommandEnded (i : Instr) (s : State) : State → Prop
  | completed (u : State) (noerr resb : Bool) (results : Results s i u) (test : resb = true → IsTest i) :
      CommandEnded i s (u.ended .ok noerr resb)
  | failed (e : ErrCode) (other : ¬IsSearch i) : CommandEnded i s (s.failed e)
  | searchRefused (search : IsSearch i) : CommandEnded i s { s.failed .illegalArg with ncand := 0#16 }
  | searchFailed (search : IsSearch i) (cands : List Pattern) (e : ErrCode) (length : cands.length ≤ 256)
      (error : e ≠ .illegalArg) : CommandEnded i s ((putCandidates s cands).failed e)

theorem SearchEndsWith.commandEnded {i : Instr} {s : State} (hi : IsSearch i)
    (h : SearchEndsWith s (Results s i) (exec i s)) : ∃ t, exec i s = .next t ∧ CommandEnded i s t := by
  obtain ⟨u, hu, hresults⟩ | hrefused | ⟨cands, e, hlength, he, hfailed⟩ := h
  · exact ⟨_, hu, .completed u false false hresults (by simp)⟩
  · exact ⟨_, hrefused, .searchRefused hi⟩
  · exact ⟨_, hfailed, .searchFailed hi cands e hlength he⟩

theorem exists_exec_commandEnded (i : Instr) (s : State) : ∃ t, exec i s = .next t ∧ CommandEnded i s t := by
  by_cases hi : IsSearch i
  · obtain rfl | rfl := hi
    · exact SearchEndsWith.commandEnded (.inl rfl) (execPffind_endsWith s)
    · exact SearchEndsWith.commandEnded (.inr rfl) (execPfalign_endsWith s)
  · obtain ⟨u, noerr, resb, ho, hresults, htest⟩ | ⟨e, ho⟩ := exec_endsWith hi s
    · exact ⟨_, ho, .completed u noerr resb hresults htest⟩
    · exact ⟨_, ho, .failed e hi⟩

theorem exec_commandEnded {i : Instr} {s t : State} (h : exec i s = .next t) : CommandEnded i s t := by
  obtain ⟨t', ht', hended⟩ := exists_exec_commandEnded i s
  rw [h] at ht'
  cases ht'
  exact hended

end Sys2Proof.Machine
end

section
/-! PROOFS. How a command leaves STATUS, and what an error leaves (10_state.md R39, 60_exceptions.md R372, R373, R382):
from what each command can do. -/

namespace Sys2Proof.Machine

/-! ## STATUS after a command -/

/-- What every completion leaves in STATUS and the phase (60_exceptions.md R372). -/
theorem CommandEnded.completion {i : Instr} {s t : State} (h : CommandEnded i s t) :
    t.phase = .idle ∧ t.status.busy = false ∧ t.status.done = true ∧
      (t.status.err ≠ .ok → t.status.noerr = false ∧ t.status.resb = false) := by
  cases h with
  | completed => exact ⟨rfl, rfl, rfl, fun h => absurd rfl h⟩
  | failed | searchRefused | searchFailed => exact ⟨rfl, rfl, rfl, fun _ => ⟨rfl, rfl⟩⟩

/-- A command other than SRESET writes no field of STATUS among its results. -/
theorem Results.status {s u : State} {i : Instr} (hi : i ≠ .sreset) (h : Results s i u) : u.status = s.status := by
  cases i with
  | sreset => exact absurd rfl hi
  | nop | pfratio5 | pfratio3 | pfccd => exact congrArg State.status h
  | gadd | gmul | ginv | gexp | glog | xsq2q | xq2sq | xq2q | xadj | xtimes | xqrgrid | pforder | pfccv | pfcch
  | pfccva =>
    obtain ⟨_, rfl⟩ := h
    rfl
  | pnorm | padd | pmul | pscale | pmulmono | pmono | rssyn =>
    obtain ⟨_, -, rfl⟩ := h
    rfl
  | pdiv | rseuc =>
    obtain ⟨_, _, -, -, -, rfl⟩ := h
    rfl
  | peval | pcoef =>
    obtain ⟨_, _, rfl⟩ := h
    rfl
  | rsdec =>
    obtain ⟨-, rfl | ⟨_, _, _, -, -, -, rfl⟩⟩ := h
    · rfl
    · rfl
  | rschien | rsapply | xpts =>
    obtain ⟨_, -, -, rfl⟩ := h
    rfl
  | rsforney =>
    obtain ⟨_, _, -, -, rfl⟩ := h
    rfl
  | grid =>
    obtain ⟨_, -, rfl⟩ := h
    rfl
  | pffind | pfalign =>
    obtain ⟨_, _, -, rfl⟩ := h
    rfl

/-- CMDOVR and WRBUSY are the host's to clear: SRESET apart, no command changes them (10_state.md R40). -/
theorem CommandEnded.overruns {i : Instr} {s t : State} (hi : i ≠ .sreset) (h : CommandEnded i s t) :
    t.status.cmdovr = s.status.cmdovr ∧ t.status.wrbusy = s.status.wrbusy := by
  cases h with
  | completed u noerr resb hresults =>
    rw [State.ended_status, hresults.status hi]
    exact ⟨rfl, rfl⟩
  | failed | searchRefused | searchFailed => exact ⟨rfl, rfl⟩

/-- Settles O11: every command gives a next state, and what it did there decides STATUS. -/
theorem everyCommandCompletes : Obligations.EveryCommandCompletes := by
  unfold Obligations.EveryCommandCompletes
  intro i s
  obtain ⟨t, ht, hended⟩ := exists_exec_commandEnded i s
  obtain ⟨hphase, hbusy, hdone, herr⟩ := hended.completion
  exact ⟨t, ht, hphase, hbusy, hdone, herr, fun hi => hended.overruns hi⟩

/-- Settles O15: RESB is 1 only where a command completed normally with its test passed. -/
theorem resbBit : Obligations.ResbBit := by
  unfold Obligations.ResbBit
  refine ⟨fun s w => rfl, fun i s t h hresb => ?_⟩
  cases exec_commandEnded h with
  | completed u noerr resb hresults htest => exact ⟨rfl, htest hresb⟩
  | failed | searchRefused | searchFailed => exact absurd hresb Bool.false_ne_true

/-! ## Errors -/

/-- The bytes outside the candidate memory keep their values when at most 256 candidates are stored. -/
theorem readByte_putCandidates {cands : List Pattern} (h : cands.length ≤ 256) (s : State) {x : Nat}
    (hx : x < 0xA000 ∨ 0xB000 ≤ x) : readByte (putCandidates s cands).mem x = readByte s.mem x := by
  have hlength : (cands.flatMap candidateWords).length = 4 * cands.length := by
    simp [List.length_flatMap, candidateWords, Nat.mul_comm]
  have hstores := storesWords_writeWords s.mem candBase (cands.flatMap candidateWords) x
  rw [hlength, if_neg (by rw [candBase]; omega)] at hstores
  exact hstores

/-- Settles O12: a command that did not complete normally failed on its own state; a failed search kept the candidates it
recorded, or, refused, none. -/
theorem errorsChangeNothing : Obligations.ErrorsChangeNothing := by
  unfold Obligations.ErrorsChangeNothing
  intro i s t h herr
  cases exec_commandEnded h with
  | completed => exact absurd rfl herr
  | failed e hother => exact ⟨fun _ _ => rfl, fun hsearch => absurd hsearch hother⟩
  | searchRefused hsearch =>
    refine ⟨fun h1 h2 => (hsearch.elim h1 h2).elim, fun _ => ⟨⟨s.mem, 0#16, rfl, fun _ _ => rfl⟩, fun _ => rfl⟩⟩
  | searchFailed hsearch cands e hlength he =>
    exact ⟨fun h1 h2 => (hsearch.elim h1 h2).elim,
      fun _ => ⟨⟨_, _, rfl, fun x hx => readByte_putCandidates hlength s hx⟩, fun h => absurd h he⟩⟩

end Sys2Proof.Machine
end

section
/-! PROOFS. The map of the register window (20_memory.md R81, R82): which word lies at an offset. -/

namespace Sys2Proof.Machine

theorem locate_pblen (k : Fin 8) : locate (0x0C0 + 4 * k) = .pblen k := by
  have hk := k.isLt
  simp (disch := omega) only [locate, if_pos, if_neg]
  congr 1
  ext
  simp only [Fin.val_ofNat, Config.npb]
  omega

theorem locate_f (k : Fin 16) : locate (0x100 + 4 * k) = .f k := by
  have hk := k.isLt
  simp (disch := omega) only [locate, if_pos, if_neg]
  congr 1
  ext
  simp only [Fin.val_ofNat, Config.nf]
  omega

theorem locate_t (k : Fin 4) (e : Fin 9) : locate (0x140 + 0x24 * k + 4 * e) = .t k e := by
  have hk := k.isLt
  have he := e.isLt
  simp (disch := omega) only [locate, if_pos, if_neg]
  congr 1
  · ext; simp only [Fin.val_ofNat, Config.nt]; omega
  · ext; simp only [Fin.val_ofNat]; omega

theorem locate_fpr (k : Fin 3) (e : Fin 4) : locate (0x200 + 16 * k + 4 * e) = .fpr k e := by
  have hk := k.isLt
  have he := e.isLt
  simp (disch := omega) only [locate, if_pos, if_neg]
  congr 1
  · ext; simp only [Fin.val_ofNat]; omega
  · ext; simp only [Fin.val_ofNat]; omega

theorem locate_pb (k : Fin 8) (e : Fin 512) : locate (0x1000 + 0x800 * k + 4 * e) = .pb k e := by
  have hk := k.isLt
  have he := e.isLt
  simp (disch := omega) only [locate, if_pos, if_neg]
  congr 1
  · ext; simp only [Fin.val_ofNat, Config.npb]; omega
  · ext; simp only [Fin.val_ofNat, Config.maxLen]; omega

theorem locate_cwb (i : Fin 256) : locate (0x5000 + 4 * i) = .cwb i := by
  have hi := i.isLt
  simp (disch := omega) only [locate, if_pos, if_neg]
  congr 1
  ext
  simp only [Fin.val_ofNat, Config.cwSlots, Config.maxCw]
  omega

theorem locate_loc (i : Fin 256) : locate (0x5400 + 4 * i) = .loc i := by
  have hi := i.isLt
  simp (disch := omega) only [locate, if_pos, if_neg]
  congr 1
  ext
  simp only [Fin.val_ofNat, Config.cwSlots, Config.maxCw]
  omega

theorem locate_mag (i : Fin 256) : locate (0x5800 + 4 * i) = .mag i := by
  have hi := i.isLt
  simp (disch := omega) only [locate, if_pos, if_neg]
  congr 1
  ext
  simp only [Fin.val_ofNat, Config.cwSlots, Config.maxCw]
  omega

theorem locate_pm (i : Fin 512) : locate (0x6000 + 4 * i) = .pm i := by
  have hi := i.isLt
  simp (disch := omega) only [locate, if_pos, if_neg]
  congr 1
  ext
  simp only [Fin.val_ofNat, Config.pmWords, Config.maxPts]
  omega

theorem locate_bm (i : Fin 2048) : locate (0x8000 + 4 * i) = .bm i := by
  have hi := i.isLt
  simp (disch := omega) only [locate, if_pos, if_neg]
  congr 1
  ext
  simp only [Fin.val_ofNat, Config.bmWords, Config.bmRowWords, Config.maxDim]
  omega

theorem locate_cand (i : Fin 1024) : locate (0xA000 + 4 * i) = .cand i := by
  have hi := i.isLt
  simp (disch := omega) only [locate, if_pos, if_neg]
  congr 1
  ext
  simp only [Fin.val_ofNat, Config.candWords, Config.maxCand]
  omega

theorem locate_reserved {off : Nat}
    (h : (0x08C ≤ off ∧ off < 0x0C0) ∨ (0x0E0 ≤ off ∧ off < 0x100) ∨ (0x1D0 ≤ off ∧ off < 0x200) ∨
      (0x23C ≤ off ∧ off < 0x1000) ∨ (0x5C00 ≤ off ∧ off < 0x6000) ∨ (0x6800 ≤ off ∧ off < 0x8000) ∨ 0xB000 ≤ off) :
    locate off = .reserved := by
  obtain ⟨_, _⟩ | ⟨_, _⟩ | ⟨_, _⟩ | ⟨_, _⟩ | ⟨_, _⟩ | ⟨_, _⟩ | _ := h <;>
    simp (disch := omega) only [locate, if_pos, if_neg]

/-- Settles O20: the scalar registers by looking each offset up, every array by its range, and what is left between the
ranges. -/
theorem windowMap : Obligations.WindowMap := by
  unfold Obligations.WindowMap
  exact ⟨by decide, by decide, by decide, by decide, locate_pblen, locate_f, locate_t, locate_fpr, locate_pb, locate_cwb,
    locate_loc, locate_mag, locate_pm, locate_bm, locate_cand, fun off h => locate_reserved (by omega)⟩

end Sys2Proof.Machine
end

section
/-! PROOFS. Host writes in phase IDLE (20_memory.md R82, R86, R87, R89): the bytes of the buffer memories a word shows,
and that a write changes its word, in its field, and no other word. -/

namespace Sys2Proof.Machine

/-! ## The bytes a word shows -/

/-- Byte x of the buffer memories is one that the word shows: its low byte for an 8-bit element (20_memory.md R87), all
four for a 32-bit word, none for a register. -/
def Loc.shows (l : Loc) (x : Nat) : Prop :=
  match l with
  | .pb k e => x = 0x1000 + 0x800 * k + 4 * e
  | .cwb i => x = 0x5000 + 4 * i
  | .loc i => x = 0x5400 + 4 * i
  | .mag i => x = 0x5800 + 4 * i
  | .pm i => x / 4 = 0x1800 + i
  | .bm i => x / 4 = 0x2000 + i
  | .cand i => x / 4 = 0x2800 + i
  | _ => False

/-- The word at the aligned offset below a byte it shows is that word: so no byte is shown by two words. -/
theorem Loc.locate_of_shows {l : Loc} {x : Nat} (h : l.shows x) : locate (4 * (x / 4)) = l := by
  cases l with
  | pb k e => rw [← locate_pb k e]; congr 1; simp only [Loc.shows] at h; omega
  | cwb i => rw [← locate_cwb i]; congr 1; simp only [Loc.shows] at h; omega
  | loc i => rw [← locate_loc i]; congr 1; simp only [Loc.shows] at h; omega
  | mag i => rw [← locate_mag i]; congr 1; simp only [Loc.shows] at h; omega
  | pm i => rw [← locate_pm i]; congr 1; simp only [Loc.shows] at h; omega
  | bm i => rw [← locate_bm i]; congr 1; simp only [Loc.shows] at h; omega
  | cand i => rw [← locate_cand i]; congr 1; simp only [Loc.shows] at h; omega
  | _ => exact h.elim

theorem readWord_congr {m m' : Memory} {a : Nat} (ha : a % 4 = 0) (h : ∀ x, x / 4 = a / 4 → readByte m' x = readByte m x) :
    readWord m' a = readWord m a := by
  rw [readWord, readWord, h a rfl, h (a + 1) (by omega), h (a + 2) (by omega), h (a + 3) (by omega)]

/-- A word reads the same in another memory that agrees on the bytes it shows. -/
theorem readLoc_withMem {s : State} {m : Memory} {l : Loc} (h : ∀ x, l.shows x → readByte m x = readByte s.mem x) :
    readLoc { s with mem := m } l = readLoc s l := by
  cases l with
  | pb | cwb | loc | mag => exact congrArg (BitVec.setWidth 32) (h _ rfl)
  | pm i =>
    refine readWord_congr (by rw [pmBase]; omega) fun x hx => h x ?_
    rw [pmBase] at hx; simp only [Loc.shows]; omega
  | bm i =>
    refine readWord_congr (by rw [bmBase]; omega) fun x hx => h x ?_
    rw [bmBase] at hx; simp only [Loc.shows]; omega
  | cand i =>
    refine readWord_congr (by rw [candBase]; omega) fun x hx => h x ?_
    rw [candBase] at hx; simp only [Loc.shows]; omega
  | _ => rfl

theorem readByte_writeWord_of_ne (m : Memory) {a x : Nat} (ha : a % 4 = 0) (h : 4 * (x / 4) ≠ a) (w : Word) :
    readByte (writeWord m a w) x = readByte m x := by
  rw [writeWord, readByte_setBytes, if_neg (by rw [bytesOfWord_length]; omega)]

/-- A word stored at an aligned offset changes no word that lies at another. -/
theorem readLoc_withWriteWord {s : State} {a : Nat} (ha : a % 4 = 0) {l : Loc} (h : l ≠ locate a) (w : Word) :
    readLoc { s with mem := writeWord s.mem a w } l = readLoc s l :=
  readLoc_withMem fun _ hx => readByte_writeWord_of_ne _ ha (fun hxa => h (hxa ▸ (Loc.locate_of_shows hx).symm)) w

/-! ## Registers of several words -/

theorem matElem_matSetElem (m : Mat) (e : Fin 9) (v : F32) : matElem (matSetElem m e v) e = v := by
  fin_cases e <;> rfl

theorem matElem_matSetElem_of_ne (m : Mat) {e e' : Fin 9} (h : e' ≠ e) (v : F32) :
    matElem (matSetElem m e v) e' = matElem m e' := by
  fin_cases e <;> fin_cases e' <;> first | rfl | exact absurd rfl h

theorem patternWord_patternSetWord (p : Pattern) (e : Fin 4) (v : Word) :
    patternWord (patternSetWord p e v) e = v := by
  fin_cases e <;> rfl

theorem patternWord_patternSetWord_of_ne (p : Pattern) {e e' : Fin 4} (h : e' ≠ e) (v : Word) :
    patternWord (patternSetWord p e v) e' = patternWord p e' := by
  fin_cases e <;> fin_cases e' <;> first | rfl | exact absurd rfl h

/-- A vector with one entry set, read at any entry. -/
theorem getElem_set_fin {α : Type} {n : Nat} (xs : Vector α n) (k k' : Fin n) (x : α) :
    (xs.set k x)[k'] = if k' = k then x else xs[k'] := by
  simp only [Fin.getElem_fin, Vector.getElem_set, Fin.ext_iff, eq_comm]

/-! ## A write changes no other word -/

/-- A host write to a word other than CMD and STATUS leaves every other word as it was. -/
theorem readLoc_writeLoc_of_ne {l l' : Loc} (hcmd : l ≠ .cmd) (hstatus : l ≠ .status) (hne : l' ≠ l) (s : State)
    (v : Word) : readLoc (writeLoc s l v) l' = readLoc s l' := by
  cases l with
  | cmd => exact absurd rfl hcmd
  | status => exact absurd rfl hstatus
  | id | fieldcfg | gr | degr | imgw | imgh | ncand | resf | apx | apy | aps | bm | cand | reserved => rfl
  | pb k e => exact readLoc_withWriteWord (by simp only [pbBase]; omega) (locate_pb k e ▸ hne) _
  | cwb i => exact readLoc_withWriteWord (by simp only [cwbBase]; omega) (locate_cwb i ▸ hne) _
  | loc i => exact readLoc_withWriteWord (by simp only [locBase]; omega) (locate_loc i ▸ hne) _
  | mag i => exact readLoc_withWriteWord (by simp only [magBase]; omega) (locate_mag i ▸ hne) _
  | pm i => exact readLoc_withWriteWord (by simp only [pmBase]; omega) (locate_pm i ▸ hne) _
  | sc k =>
    cases l' with
    | sc k' => exact (getElem_set_fin s.sc k k' v).trans (if_neg (mt (congrArg Loc.sc) hne))
    | _ => rfl
  | pblen k =>
    cases l' with
    | pblen k' =>
      exact congrArg (BitVec.setWidth 32)
        ((getElem_set_fin s.pblen k k' (v.setWidth 10)).trans (if_neg (mt (congrArg Loc.pblen) hne)))
    | _ => rfl
  | f k =>
    cases l' with
    | f k' => exact (getElem_set_fin s.f k k' v).trans (if_neg (mt (congrArg Loc.f) hne))
    | _ => rfl
  | t k e =>
    cases l' with
    | t k' e' =>
      simp only [readLoc, writeLoc, getElem_set_fin]
      split
      · next hk => subst hk; exact matElem_matSetElem_of_ne _ (mt (congrArg (Loc.t k')) hne) v
      · rfl
    | _ => rfl
  | fpr k e =>
    cases l' with
    | fpr k' e' =>
      simp only [readLoc, writeLoc, getElem_set_fin]
      split
      · next hk => subst hk; exact patternWord_patternSetWord_of_ne _ (mt (congrArg (Loc.fpr k')) hne) v
      · rfl
    | _ => rfl
  | _ => cases l' <;> first | rfl | exact absurd rfl hne

/-- A host write to a word other than CMD changes nothing that is not a word of the window. -/
theorem writeLoc_frame {l : Loc} (hcmd : l ≠ .cmd) (s : State) (v : Word) :
    (writeLoc s l v).phase = s.phase ∧ (writeLoc s l v).tables = s.tables ∧ (writeLoc s l v).port = s.port ∧
      (writeLoc s l v).host = s.host ∧ (writeLoc s l v).rdata = s.rdata ∧ (writeLoc s l v).draws = s.draws := by
  cases l with
  | cmd => exact absurd rfl hcmd
  | _ => exact ⟨rfl, rfl, rfl, rfl, rfl, rfl⟩

/-- Settles O22: a stored word changes bytes that only its own word shows, and a register is a field of its own. -/
theorem writesTouchOneWord : Obligations.WritesTouchOneWord := by
  unfold Obligations.WritesTouchOneWord
  exact fun s l l' v hcmd hstatus hne =>
    ⟨readLoc_writeLoc_of_ne hcmd hstatus hne s v, writeLoc_frame hcmd s v⟩

/-! ## What is read back -/

/-- A field of n bits read back after a write: the written bits in the field, 0 above it, for the mask of the field. -/
theorem setWidth_setWidth_eq_masked {n : Nat} {mask : Word} (hmask : ∀ i < 32, mask.getLsbD i = decide (i < n))
    (x : BitVec n) (v : Word) :
    (v.setWidth n).setWidth 32 = (x.setWidth 32 &&& ~~~mask) ||| (v &&& mask) := by
  refine BitVec.eq_of_getLsbD_eq fun i hi => ?_
  rw [BitVec.getLsbD_or, BitVec.getLsbD_and, BitVec.getLsbD_and, BitVec.getLsbD_not, hmask i hi,
    BitVec.getLsbD_setWidth, BitVec.getLsbD_setWidth, BitVec.getLsbD_setWidth]
  by_cases hn : i < n
  · simp [hi, hn]
  · simp [hn, BitVec.getLsbD_of_ge x i (by omega)]

theorem eq_masked_all (x v : Word) : v = (x &&& ~~~0xFFFFFFFF#32) ||| (v &&& 0xFFFFFFFF#32) := by
  rw [show (0xFFFFFFFF#32) = BitVec.allOnes 32 from rfl, BitVec.not_allOnes, BitVec.and_zero, BitVec.zero_or,
    BitVec.and_allOnes]

theorem eq_masked_none (x v : Word) : x = (x &&& ~~~0#32) ||| (v &&& 0#32) := by
  rw [BitVec.and_zero, BitVec.or_zero, BitVec.not_zero, BitVec.and_allOnes]

/-- The three bits of CTRL (10_state.md R26). -/
def ctrlBits (c : Ctrl) : BitVec 3 := BitVec.ofBool c.ie ++ (BitVec.ofBool c.pure ++ BitVec.ofBool c.tryh)

theorem ctrlWord_eq (c : Ctrl) : ctrlWord c = (ctrlBits c).setWidth 32 := by
  obtain ⟨tryh, pure, ie⟩ := c
  cases tryh <;> cases pure <;> cases ie <;> rfl

theorem ctrlBits_getLsbD (tryh pure ie : Bool) : (ctrlBits ⟨tryh, pure, ie⟩).getLsbD 0 = tryh ∧
    (ctrlBits ⟨tryh, pure, ie⟩).getLsbD 1 = pure ∧ (ctrlBits ⟨tryh, pure, ie⟩).getLsbD 2 = ie := by
  revert tryh pure ie; decide

theorem ctrlBits_ctrlOfWord (v : Word) : ctrlBits (ctrlOfWord v) = v.setWidth 3 := by
  obtain ⟨h0, h1, h2⟩ := ctrlBits_getLsbD (v.getLsbD 0) (v.getLsbD 1) (v.getLsbD 2)
  refine BitVec.eq_of_getLsbD_eq fun i hi => ?_
  rw [BitVec.getLsbD_setWidth, decide_eq_true hi, Bool.true_and, ctrlOfWord]
  interval_cases i
  · exact h0
  · exact h1
  · exact h2

theorem readElem_writeElem_same (m : Memory) (a : Nat) (b : Byte) : readElem (writeElem m a b) a = b := by
  rw [readElem, writeElem, writeWord, readByte_setBytes, bytesOfWord_length, if_pos (by omega), Nat.sub_self,
    bytesOfWord_getD _ (by decide), byteOfWord_setWidth _ (by decide), if_pos rfl]

/-- A word read back after a host write holds the written bits where it is writable and its own bits elsewhere. -/
theorem readLoc_writeLoc_same {l : Loc} (hcmd : l ≠ .cmd) (hstatus : l ≠ .status) (s : State) (v : Word) :
    readLoc (writeLoc s l v) l = (readLoc s l &&& ~~~l.writable) ||| (v &&& l.writable) := by
  cases l with
  | cmd => exact absurd rfl hcmd
  | status => exact absurd rfl hstatus
  | id | fieldcfg | gr | degr | imgw | imgh | ncand | resf | apx | apy | aps | bm | cand | reserved =>
    exact eq_masked_none _ v
  | ga | gb => exact setWidth_setWidth_eq_masked (by decide) _ v
  | deg | dimx | dimy | dim | npts | rgx | rgy | rgw | rgh | cci | ccj =>
    exact setWidth_setWidth_eq_masked (by decide) _ v
  | twos | cwlen | nloc => exact setWidth_setWidth_eq_masked (by decide) _ v
  | ctrl =>
    simp only [readLoc, writeLoc, ctrlWord_eq, ctrlBits_ctrlOfWord]
    exact setWidth_setWidth_eq_masked (by decide) _ v
  | ams | ccmax | cctot => exact eq_masked_all _ v
  | pb | cwb | loc | mag =>
    simp only [readLoc, writeLoc, readElem_writeElem_same, Loc.writable]
    exact setWidth_setWidth_eq_masked (by decide) _ v
  | pm =>
    simp only [readLoc, writeLoc, readWord_writeWord]
    exact eq_masked_all _ v
  | sc k =>
    simp only [readLoc, writeLoc, getElem_set_fin, if_true]
    exact eq_masked_all _ v
  | f k =>
    simp only [readLoc, writeLoc, getElem_set_fin, if_true]
    exact eq_masked_all _ v
  | pblen k =>
    simp only [readLoc, writeLoc, getElem_set_fin, if_true, Loc.writable]
    exact setWidth_setWidth_eq_masked (by decide) _ v
  | t k e =>
    simp only [readLoc, writeLoc, getElem_set_fin, if_true, matElem_matSetElem]
    exact eq_masked_all _ v
  | fpr k e =>
    simp only [readLoc, writeLoc, getElem_set_fin, if_true, patternWord_patternSetWord]
    exact eq_masked_all _ v

theorem hostWriteLoc_idle {s : State} (h : s.phase = .idle) (l : Loc) (v : Word) :
    hostWriteLoc s l v = writeLoc s l v := by
  rw [hostWriteLoc, h]

/-- Settles O21: an aligned write in the window is the write of its word, and each kind of word gives back its field. -/
theorem writeReadBack : Obligations.WriteReadBack := by
  unfold Obligations.WriteReadBack
  refine ⟨fun s off v rest hidle hhost halign hwin => ?_, fun s l v hcmd hstatus => readLoc_writeLoc_same hcmd hstatus s v⟩
  rw [step_write hhost halign hwin, hostWriteLoc_idle (s := s.afterInput) hidle]

end Sys2Proof.Machine
end

section
/-! PROOFS. A command writes only its results (20_memory.md R94, 70_reset_and_hazards.md R422): each result is a stretch of
words or a register, and every other word reads as before. -/

namespace Sys2Proof.Machine

/-! ## Stretches of words -/

/-- A memory changed only in a stretch of n words: every word that lies elsewhere reads as before. -/
theorem readLoc_withStretch {s : State} {m : Memory} {base n : Nat} {l : Loc} (hbase : base % 4 = 0)
    (hm : ∀ x, x < base ∨ base + 4 * n ≤ x → readByte m x = readByte s.mem x) (hl : ∀ j < n, l ≠ locate (base + 4 * j)) :
    readLoc { s with mem := m } l = readLoc s l := by
  refine readLoc_withMem fun x hx => hm x (by_contra fun hin => ?_)
  have hx' : 4 * (x / 4) = base + 4 * ((x - base) / 4) := by omega
  exact hl ((x - base) / 4) (by omega) (by rw [← hx', Loc.locate_of_shows hx])

theorem readLoc_withElems {s : State} {base : Nat} {l : Loc} (hbase : base % 4 = 0) {bs : List Byte}
    (hl : ∀ j < bs.length, l ≠ locate (base + 4 * j)) :
    readLoc { s with mem := writeElems s.mem base bs } l = readLoc s l :=
  readLoc_withStretch hbase (fun _ => readByte_of_stores (stores_writeElems s.mem base bs)) hl

theorem readByte_of_storesWords {m m' : Memory} {a : Nat} {ws : List Word} (h : StoresWords m m' a ws) {x : Nat}
    (hx : x < a ∨ a + 4 * ws.length ≤ x) : readByte m' x = readByte m x := by
  rw [h, if_neg (by omega)]

theorem readLoc_withWords {s : State} {base : Nat} {l : Loc} (hbase : base % 4 = 0) {ws : List Word}
    (hl : ∀ j < ws.length, l ≠ locate (base + 4 * j)) :
    readLoc { s with mem := writeWords s.mem base ws } l = readLoc s l :=
  readLoc_withStretch hbase (fun _ => readByte_of_storesWords (storesWords_writeWords s.mem base ws)) hl

/-- Corrections change only the words of their places. -/
theorem readByte_applyFixes {fixes : List (Nat × Byte)} {n x : Nat} (h : PlacesBelow n fixes)
    (hx : x < cwbBase ∨ cwbBase + 4 * n ≤ x) (m : Memory) : readByte (applyFixes m fixes) x = readByte m x := by
  induction fixes generalizing m with
  | nil => rfl
  | cons f fixes ih =>
    obtain ⟨hf, hfixes⟩ := List.forall_mem_cons.1 h
    rw [applyFixes, ih hfixes, writeElem]
    have hbase : cwbBase % 4 = 0 := rfl
    exact readByte_writeWord_of_ne m (by omega) (by omega) _

theorem readLoc_withFixes {s : State} {fixes : List (Nat × Byte)} {n : Nat} (hplaces : PlacesBelow n fixes) {l : Loc}
    (hl : ∀ j < n, l ≠ locate (cwbBase + 4 * j)) :
    readLoc { s with mem := applyFixes s.mem fixes } l = readLoc s l :=
  readLoc_withStretch rfl (fun _ hx => readByte_applyFixes hplaces hx s.mem) hl

theorem locate_pbBase {k e : Nat} (hk : k < 8) (he : e < 512) : locate (pbBase k + 4 * e) = .pb ⟨k, hk⟩ ⟨e, he⟩ :=
  locate_pb ⟨k, hk⟩ ⟨e, he⟩

theorem locate_cwbBase {j : Nat} (hj : j < 256) : locate (cwbBase + 4 * j) = .cwb ⟨j, hj⟩ := locate_cwb ⟨j, hj⟩

theorem locate_locBase {j : Nat} (hj : j < 256) : locate (locBase + 4 * j) = .loc ⟨j, hj⟩ := locate_loc ⟨j, hj⟩

theorem locate_magBase {j : Nat} (hj : j < 256) : locate (magBase + 4 * j) = .mag ⟨j, hj⟩ := locate_mag ⟨j, hj⟩

theorem locate_pmBase {j : Nat} (hj : j < 512) : locate (pmBase + 4 * j) = .pm ⟨j, hj⟩ := locate_pm ⟨j, hj⟩

theorem locate_bmBase {j : Nat} (hj : j < 2048) : locate (bmBase + 4 * j) = .bm ⟨j, hj⟩ := locate_bm ⟨j, hj⟩

theorem locate_candBase {j : Nat} (hj : j < 1024) : locate (candBase + 4 * j) = .cand ⟨j, hj⟩ := locate_cand ⟨j, hj⟩

/-! ## Registers -/

section
variable {l : Loc} (s : State)

theorem readLoc_ended (hl : l ≠ .status) (e : ErrCode) (noerr resb : Bool) :
    readLoc (s.ended e noerr resb) l = readLoc s l := by
  cases l with
  | status => exact absurd rfl hl
  | _ => rfl

theorem readLoc_withGr (hl : l ≠ .gr) (x : Byte) : readLoc { s with gr := x } l = readLoc s l := by
  cases l with
  | gr => exact absurd rfl hl
  | _ => rfl

theorem readLoc_withDegr (hl : l ≠ .degr) (n : BitVec 16) : readLoc { s with degr := n } l = readLoc s l := by
  cases l with
  | degr => exact absurd rfl hl
  | _ => rfl

theorem readLoc_withNloc (hl : l ≠ .nloc) (n : BitVec 9) : readLoc { s with nloc := n } l = readLoc s l := by
  cases l with
  | nloc => exact absurd rfl hl
  | _ => rfl

theorem readLoc_withNcand (hl : l ≠ .ncand) (n : BitVec 16) : readLoc { s with ncand := n } l = readLoc s l := by
  cases l with
  | ncand => exact absurd rfl hl
  | _ => rfl

theorem readLoc_withResf (hl : l ≠ .resf) (x : F32) : readLoc { s with resf := x } l = readLoc s l := by
  cases l with
  | resf => exact absurd rfl hl
  | _ => rfl

theorem readLoc_putFinders (hl : ∀ k e, l ≠ .fpr k e) (o : Pattern × Pattern × Pattern) :
    readLoc (putFinders s o) l = readLoc s l := by
  cases l with
  | fpr k e => exact absurd rfl (hl k e)
  | _ => rfl

theorem readLoc_putAlignment (hl : l ≠ .apx ∧ l ≠ .apy ∧ l ≠ .aps) (p : Alignment) :
    readLoc (putAlignment s p) l = readLoc s l := by
  obtain ⟨hx, hy, hs⟩ := hl
  cases l with
  | apx => exact absurd rfl hx
  | apy => exact absurd rfl hy
  | aps => exact absurd rfl hs
  | _ => rfl

theorem readLoc_putMat {d : BitVec 3} (hl : ∀ k e, l = .t k e → (k : Nat) ≠ d.toNat) (m : Mat) :
    readLoc (putMat s d m) l = readLoc s l := by
  cases l with
  | t k e =>
    have hk := hl k e rfl
    simp only [readLoc, putMat, Fin.getElem_fin, Vector.getElem_setIfInBounds, if_neg hk.symm]
  | _ => rfl

theorem readLoc_withPblen {d : BitVec 3} (hl : ∀ k, l = .pblen k → (k : Nat) ≠ d.toNat) (n : BitVec 10) :
    readLoc { s with pblen := s.pblen.set d.toNat n d.isLt } l = readLoc s l := by
  cases l with
  | pblen k =>
    have hk := hl k rfl
    simp only [readLoc, Fin.getElem_fin, Vector.getElem_set, if_neg hk.symm]
  | _ => rfl

theorem readLoc_softReset
    (hl : l = .status ∨ l = .imgw ∨ l = .imgh ∨ l = .id ∨ l = .fieldcfg ∨ l = .reserved) (hstatus : l ≠ .status) :
    readLoc (softReset s) l = readLoc s l := by
  obtain rfl | rfl | rfl | rfl | rfl | rfl := hl
  · exact absurd rfl hstatus
  all_goals rfl

end

/-! ## The words of a result -/

/-- The words of a polynomial result of at most n coefficients in PB[d], DEGR among them (42_gf_poly.md R188, R189). -/
def Loc.inPoly (d : BitVec 3) (n : Nat) (l : Loc) : Bool :=
  match l with
  | .pblen k => decide ((k : Nat) = d.toNat)
  | .pb k e => decide ((k : Nat) = d.toNat ∧ (e : Nat) < n)
  | .degr => true
  | _ => false

theorem pblenAt_putPoly (s : State) (k k' : BitVec 3) {p : Poly} (hp : p.length ≤ 512) :
    pblenAt (putPoly s k p) k' = if k' = k then p.length else pblenAt s k' := by
  have hlength : (BitVec.ofNat 10 p.length).toNat = p.length := by
    rw [BitVec.toNat_ofNat, Nat.mod_eq_of_lt (by omega)]
  by_cases hk : k' = k
  · subst hk
    simp only [pblenAt, putPoly, Vector.getElem_set_self, hlength, if_true]
  · have hne : k.toNat ≠ k'.toNat := fun h => hk (BitVec.eq_of_toNat_eq h.symm)
    simp only [pblenAt, putPoly, Vector.getElem_set, if_neg hne, if_neg hk]

theorem readLoc_putPoly {s : State} {d : BitVec 3} {p : Poly} {n : Nat} {l : Loc} (hp : p.length ≤ 512)
    (hn : p.length ≤ n) (hl : l.inPoly d n = false) : readLoc (putPoly s d p) l = readLoc s l := by
  have hd := d.isLt
  have hpblen : ∀ k, l = .pblen k → (k : Nat) ≠ d.toNat := by
    rintro k rfl hk
    exact of_decide_eq_false hl hk
  have hmem : ∀ j < p.length, l ≠ locate (pbBase d.toNat + 4 * j) := by
    intro j hj hlj
    rw [locate_pbBase hd (by omega)] at hlj
    subst hlj
    exact of_decide_eq_false hl ⟨rfl, Nat.lt_of_lt_of_le hj hn⟩
  let s₁ : State := { s with pblen := s.pblen.set d.toNat (BitVec.ofNat 10 p.length) d.isLt }
  calc readLoc (putPoly s d p) l
      = readLoc s₁ l := readLoc_withElems (s := s₁) (by rw [pbBase]; omega) hmem
    _ = readLoc s l := readLoc_withPblen s hpblen _

theorem WritesPoly.readLoc_eq {s u : State} {d : BitVec 3} {n : Nat} {l : Loc} (h : WritesPoly s d u)
    (hn : pblenAt u d ≤ n) (hl : l.inPoly d n = false) : readLoc u l = readLoc s l := by
  obtain ⟨p, hp, rfl⟩ := h
  have hlength : pblenAt { putPoly s d p with degr := degrOf p } d = p.length :=
    (pblenAt_putPoly s d d hp).trans (if_pos rfl)
  rw [hlength] at hn
  rw [readLoc_withDegr (putPoly s d p) (by rintro rfl; cases hl), readLoc_putPoly hp hn hl]

theorem WritesPolys.readLoc_eq {s u : State} {d q : BitVec 3} {n n' : Nat} {l : Loc} (h : WritesPolys s d q u)
    (hn : pblenAt u d ≤ n) (hn' : pblenAt u q ≤ n') (hl : (l.inPoly d n || l.inPoly q n') = false) :
    readLoc u l = readLoc s l := by
  obtain ⟨p, p', hp, hp', hdq, rfl⟩ := h
  obtain ⟨hld, hlq⟩ := Bool.or_eq_false_iff.1 hl
  have hd : pblenAt { putPoly (putPoly s d p) q p' with degr := degrOf p } d = p.length := by
    refine (pblenAt_putPoly _ q d hp').trans ?_
    rw [if_neg hdq, pblenAt_putPoly s d d hp, if_pos rfl]
  have hq : pblenAt { putPoly (putPoly s d p) q p' with degr := degrOf p } q = p'.length :=
    (pblenAt_putPoly _ q q hp').trans (if_pos rfl)
  rw [hd] at hn
  rw [hq] at hn'
  rw [readLoc_withDegr (putPoly (putPoly s d p) q p') (by rintro rfl; cases hld), readLoc_putPoly hp' hn' hlq,
    readLoc_putPoly hp hn hld]

/-- The words of CWB below n. -/
def Loc.inCwb (n : Nat) (l : Loc) : Bool :=
  match l with
  | .cwb k => decide ((k : Nat) < n ∧ (k : Nat) < Config.maxCw)
  | _ => false

/-- The words of LOC below n. -/
def Loc.inLoc (n : Nat) (l : Loc) : Bool :=
  match l with
  | .loc k => decide ((k : Nat) < n ∧ (k : Nat) < Config.maxCw)
  | _ => false

/-- The words of MAG below n. -/
def Loc.inMag (n : Nat) (l : Loc) : Bool :=
  match l with
  | .mag k => decide ((k : Nat) < n ∧ (k : Nat) < Config.maxCw)
  | _ => false

theorem ne_locate_of_inCwb {n : Nat} {l : Loc} (h : l.inCwb n = false) {j : Nat} (hj : j < n) (hle : j < 255) :
    l ≠ locate (cwbBase + 4 * j) := by
  rintro rfl
  rw [locate_cwbBase (by omega)] at h
  exact of_decide_eq_false h ⟨hj, hle⟩

theorem ne_locate_of_inLoc {n : Nat} {l : Loc} (h : l.inLoc n = false) {j : Nat} (hj : j < n) (hle : j < 255) :
    l ≠ locate (locBase + 4 * j) := by
  rintro rfl
  rw [locate_locBase (by omega)] at h
  exact of_decide_eq_false h ⟨hj, hle⟩

theorem ne_locate_of_inMag {n : Nat} {l : Loc} (h : l.inMag n = false) {j : Nat} (hj : j < n) (hle : j < 255) :
    l ≠ locate (magBase + 4 * j) := by
  rintro rfl
  rw [locate_magBase (by omega)] at h
  exact of_decide_eq_false h ⟨hj, hle⟩

/-- The words of RSDEC's results for n locations (43_reed_solomon.md R210). -/
def Loc.inDecoded (cwlen n : Nat) (l : Loc) : Bool :=
  l.inCwb cwlen || l.inLoc n || l.inMag n || decide (l = .degr) || decide (l = .nloc)

theorem WritesDecoded.readLoc_eq {s u : State} {n : Nat} {l : Loc} (h : WritesDecoded s u) (hn : u.nloc.toNat ≤ n)
    (hl : l.inDecoded s.cwlen.toNat n = false) : readLoc u l = readLoc s l := by
  simp only [Loc.inDecoded, Bool.or_eq_false_iff, decide_eq_false_iff_not] at hl
  obtain ⟨⟨⟨⟨hcwb, hloc⟩, hmag⟩, hdegr⟩, hnloc⟩ := hl
  obtain ⟨hcwlen, rfl | ⟨found, mags, ps, hfound, hmags, hplaces, rfl⟩⟩ := h
  · rw [readLoc_withDegr { s with nloc := 0#9 } hdegr, readLoc_withNloc s hnloc]
  · have hfoundn : found.length ≤ n := by
      rwa [putDecoded_nloc, BitVec.toNat_ofNat, Nat.mod_eq_of_lt (by omega)] at hn
    let s₁ : State := { s with nloc := BitVec.ofNat 9 found.length, degr := BitVec.ofNat 16 found.length }
    let s₂ : State := { s₁ with mem := writeElems s₁.mem locBase found }
    let s₃ : State := { s₂ with mem := writeElems s₂.mem magBase mags }
    calc readLoc (putDecoded s found mags ps) l
        = readLoc s₃ l :=
          readLoc_withFixes (s := s₃) hplaces fun j hj => ne_locate_of_inCwb hcwb hj (by omega)
      _ = readLoc s₂ l := readLoc_withElems rfl fun j hj => ne_locate_of_inMag hmag (by omega) (by omega)
      _ = readLoc s₁ l := readLoc_withElems rfl fun j hj => ne_locate_of_inLoc hloc (by omega) (by omega)
      _ = readLoc s l := by
        rw [readLoc_withDegr { s with nloc := BitVec.ofNat 9 found.length } hdegr, readLoc_withNloc s hnloc]

theorem readLoc_putLocations {s : State} {found : List Byte} {l : Loc} (hle : found.length ≤ 255)
    (hl : (l.inLoc found.length || decide (l = .degr) || decide (l = .nloc)) = false) :
    readLoc (putLocations s found) l = readLoc s l := by
  simp only [Bool.or_eq_false_iff, decide_eq_false_iff_not] at hl
  obtain ⟨⟨hloc, hdegr⟩, hnloc⟩ := hl
  let s₁ : State := { s with nloc := BitVec.ofNat 9 found.length, degr := BitVec.ofNat 16 found.length }
  calc readLoc (putLocations s found) l
      = readLoc s₁ l :=
        readLoc_withElems (s := s₁) rfl fun j hj => ne_locate_of_inLoc hloc hj (by omega)
    _ = readLoc s l := by
      rw [readLoc_withDegr { s with nloc := BitVec.ofNat 9 found.length } hdegr, readLoc_withNloc s hnloc]

theorem readLoc_putCandidates {s : State} {cands : List Pattern} (hle : cands.length ≤ 256) {l : Loc}
    (hcand : ∀ k, l ≠ .cand k) (hncand : l ≠ .ncand) : readLoc (putCandidates s cands) l = readLoc s l := by
  have hstretch : ∀ j < 1024, l ≠ locate (candBase + 4 * j) := by
    rintro j hj rfl
    rw [locate_candBase hj] at hcand
    exact hcand _ rfl
  let s₁ : State := { s with ncand := BitVec.ofNat 16 cands.length }
  calc readLoc (putCandidates s cands) l
      = readLoc s₁ l :=
        readLoc_withStretch (s := s₁) rfl
          (fun x hx => readByte_putCandidates hle s (by rw [candBase] at hx; omega)) hstretch
    _ = readLoc s l := readLoc_withNcand s hncand _

/-! ## Every command -/

/-- A command that completes normally leaves every word that is not among its results. -/
theorem Results.readLoc_eq {s u : State} {i : Instr} {noerr resb : Bool} {l : Loc} (hresults : Results s i u)
    (h : exec i s = .next (u.ended .ok noerr resb)) (hstatus : l ≠ .status) (hl : resultLoc s i l = false) :
    readLoc u l = readLoc s l := by
  have hcount (whole : Nat) (count : State → Nat) :
      count (u.ended .ok noerr resb) ≤ resultCount s i whole count := le_resultCount whole count h rfl
  cases i with
  | nop | pfratio5 | pfratio3 | pfccd => exact congrArg (readLoc · l) hresults
  | gadd | gmul | ginv | gexp | glog =>
    obtain ⟨x, rfl⟩ := hresults
    exact readLoc_withGr s (of_decide_eq_false hl) x
  | sreset =>
    rw [hresults]
    refine readLoc_softReset s ?_ hstatus
    have := of_decide_eq_false hl
    tauto
  | pnorm d | padd d | pmul d | pscale d | pmulmono d | pmono d | rssyn d =>
    exact WritesPoly.readLoc_eq hresults (hcount Config.maxLen fun t => pblenAt t d) hl
  | pdiv d q | rseuc d q =>
    exact WritesPolys.readLoc_eq hresults (hcount Config.maxLen fun t => pblenAt t d)
      (hcount Config.maxLen fun t => pblenAt t q) hl
  | peval | pcoef =>
    obtain ⟨x, n, rfl⟩ := hresults
    obtain ⟨hgr, hdegr⟩ := Bool.or_eq_false_iff.1 hl
    rw [readLoc_withDegr { s with gr := x } (of_decide_eq_false hdegr), readLoc_withGr s (of_decide_eq_false hgr)]
  | rsdec => exact WritesDecoded.readLoc_eq hresults (hcount Config.maxCw fun t => t.nloc.toNat) hl
  | rschien a =>
    obtain ⟨found, hle, hlength, rfl⟩ := hresults
    exact readLoc_putLocations hle (hlength ▸ hl)
  | rsforney a =>
    obtain ⟨mags, n, hlength, hle, rfl⟩ := hresults
    obtain ⟨hmag, hdegr⟩ := Bool.or_eq_false_iff.1 hl
    let s₁ : State := { s with degr := n }
    exact (readLoc_withElems (s := s₁) rfl fun j hj => ne_locate_of_inMag hmag (by omega) (by omega)).trans
      (readLoc_withDegr s (of_decide_eq_false hdegr) n)
  | rsapply =>
    obtain ⟨fixes, hle, hplaces, rfl⟩ := hresults
    exact readLoc_withFixes hplaces fun j hj => ne_locate_of_inCwb hl hj (by omega)
  | xsq2q d | xq2sq d | xq2q d | xadj d | xtimes d | xqrgrid d =>
    obtain ⟨m, rfl⟩ := hresults
    exact readLoc_putMat s (by rintro k e rfl; exact of_decide_eq_false hl) m
  | xpts =>
    obtain ⟨ws, hlength, hle, rfl⟩ := hresults
    refine readLoc_withWords rfl ?_
    rintro j hj rfl
    rw [locate_pmBase (by omega)] at hl
    exact of_decide_eq_false hl (hlength ▸ hj)
  | grid =>
    obtain ⟨bs, hlength, rfl⟩ := hresults
    refine readLoc_withStretch (base := bmBase) (n := 2048) rfl (fun x hx => ?_) ?_
    · rw [readByte_setBytes, if_neg (by omega)]
    · rintro j hj rfl
      rw [locate_bmBase hj] at hl
      cases hl
  | pffind =>
    obtain ⟨cands, o, hle, rfl⟩ := hresults
    rw [readLoc_putFinders _ (by rintro k e rfl; cases hl),
      readLoc_putCandidates hle (by rintro k rfl; cases hl) (by rintro rfl; cases hl)]
  | pfalign =>
    obtain ⟨cands, p, hle, rfl⟩ := hresults
    rw [readLoc_putAlignment _ ⟨(by rintro rfl; cases hl), (by rintro rfl; cases hl), by rintro rfl; cases hl⟩,
      readLoc_putCandidates hle (by rintro k rfl; cases hl) (by rintro rfl; cases hl)]
  | pforder =>
    obtain ⟨o, rfl⟩ := hresults
    exact readLoc_putFinders s (by rintro k e rfl; cases hl) o
  | pfccv | pfcch | pfccva =>
    obtain ⟨x, rfl⟩ := hresults
    exact readLoc_withResf s (of_decide_eq_false hl) x

/-- A search that fails has written candidates only, and those are among its results. -/
theorem not_candidate_of_search {s : State} {i : Instr} (hi : IsSearch i) {l : Loc} (hl : resultLoc s i l = false) :
    (∀ k, l ≠ .cand k) ∧ l ≠ .ncand := by
  obtain rfl | rfl := hi
  · exact ⟨(by rintro k rfl; cases hl), by rintro rfl; cases hl⟩
  · exact ⟨(by rintro k rfl; cases hl), by rintro rfl; cases hl⟩

/-- Settles O13: a command completed on a state that differs from its own by its results, or failed on its own, a search
with candidates. -/
theorem commandsWriteOnlyResults : Obligations.CommandsWriteOnlyResults := by
  unfold Obligations.CommandsWriteOnlyResults
  intro s t w i l _ _ h hstatus hl
  cases exec_commandEnded h with
  | completed u noerr resb hresults =>
    rw [readLoc_ended u hstatus, hresults.readLoc_eq h hstatus hl]
  | failed e => exact readLoc_ended s hstatus e false false
  | searchRefused hsearch =>
    obtain ⟨-, hncand⟩ := not_candidate_of_search hsearch hl
    rw [readLoc_withNcand (s.failed .illegalArg) hncand, State.failed_eq, readLoc_ended s hstatus]
  | searchFailed hsearch cands e hlength =>
    obtain ⟨hcand, hncand⟩ := not_candidate_of_search hsearch hl
    rw [State.failed_eq, readLoc_ended _ hstatus, readLoc_putCandidates hlength hcand hncand]

end Sys2Proof.Machine
end

section
/-! PROOFS. The invariant (10_state.md R35, R37, R56, R57, 20_memory.md R87, 60_exceptions.md R372): it holds after reset
and every step keeps it. The buffer memories are the part that the commands' results touch. -/

namespace Sys2Proof.Machine

/-! ## The buffer memories -/

/-- The buffer memories are in canonical form and hold nothing outside the buffers: two parts of the invariant. -/
def Memory.InBuffers (m : Memory) : Prop := Memory.wf m = true ∧ ∀ x, bufferByte x = false → readByte m x = 0#8

section
variable {m : Memory} (h : m.InBuffers)
include h

/-- Bytes stored where every byte is a buffer's. -/
theorem Memory.InBuffers.setBytes {a : Nat} {bs : List Byte}
    (ha : ∀ x, a ≤ x → x < a + bs.length → bufferByte x = true) : (setBytes m a bs).InBuffers := by
  obtain ⟨hwf, hzero⟩ := h
  refine ⟨setBytes_wf hwf a bs, fun x hx => ?_⟩
  rw [readByte_setBytes, if_neg (fun hin => by simp [ha x hin.1 hin.2] at hx)]
  exact hzero x hx

/-- Elements stored in words of the element buffers: the bytes of a word above its lowest stay 0 (20_memory.md R87). -/
theorem Memory.InBuffers.writeElems {a : Nat} {bs : List Byte} (ha : a % 4 = 0) (hlow : 0x1000 ≤ a)
    (hhigh : a + 4 * bs.length ≤ 0x5C00) : (writeElems m a bs).InBuffers := by
  obtain ⟨hwf, hzero⟩ := h
  refine ⟨writeElems_wf hwf a bs, fun x hx => ?_⟩
  rw [stores_writeElems m a bs x]
  split
  · refine if_neg fun hx4 => ?_
    simp only [bufferByte, decide_eq_false_iff_not] at hx
    omega
  · exact hzero x hx

theorem Memory.InBuffers.writeElem {a : Nat} (ha : a % 4 = 0) (hlow : 0x1000 ≤ a) (hhigh : a + 4 ≤ 0x5C00) (b : Byte) :
    (writeElem m a b).InBuffers := h.writeElems (bs := [b]) ha hlow hhigh

theorem Memory.InBuffers.writeWords {a : Nat} {ws : List Word}
    (ha : ∀ x, a ≤ x → x < a + 4 * ws.length → bufferByte x = true) : (writeWords m a ws).InBuffers :=
  h.setBytes (by rwa [wordBytes_length])

theorem Memory.InBuffers.applyFixes {fixes : List (Nat × Byte)} {n : Nat} (hplaces : PlacesBelow n fixes)
    (hn : n ≤ 255) : (applyFixes m fixes).InBuffers := by
  induction fixes generalizing m with
  | nil => exact h
  | cons f fixes ih =>
    obtain ⟨hf, hfixes⟩ := List.forall_mem_cons.1 hplaces
    exact ih (h.writeElem (by rw [cwbBase]; omega) (by rw [cwbBase]; omega) (by rw [cwbBase]; omega) _) hfixes

end

section
variable {s : State} (h : s.mem.InBuffers)
include h

theorem putPoly_inBuffers (d : BitVec 3) {p : Poly} (hp : p.length ≤ 512) : (putPoly s d p).mem.InBuffers := by
  have hd := d.isLt
  exact h.writeElems (by rw [pbBase]; omega) (by rw [pbBase]; omega) (by rw [pbBase]; omega)

theorem putLocations_inBuffers {found : List Byte} (hfound : found.length ≤ 255) :
    (putLocations s found).mem.InBuffers := h.writeElems rfl (by rw [locBase]; omega) (by rw [locBase]; omega)

theorem putDecoded_inBuffers {found mags : List Byte} {ps : List Nat} {n : Nat} (hfound : found.length ≤ 255)
    (hmags : mags.length = found.length) (hplaces : PlacesBelow n (ps.zip mags)) (hn : n ≤ 255) :
    (putDecoded s found mags ps).mem.InBuffers :=
  ((putLocations_inBuffers h hfound).writeElems rfl (by rw [magBase]; omega)
    (by rw [magBase]; omega)).applyFixes hplaces hn

theorem putCandidates_inBuffers {cands : List Pattern} (hcands : cands.length ≤ 256) :
    (putCandidates s cands).mem.InBuffers := by
  have hlength : (cands.flatMap candidateWords).length = 4 * cands.length := by
    simp [List.length_flatMap, candidateWords, Nat.mul_comm]
  refine h.writeWords fun x hx hx' => ?_
  rw [candBase] at hx hx'
  simp only [bufferByte, decide_eq_true_eq]
  omega

end

/-! ## The results of a command -/

/-- The part of the invariant that a command's results touch. -/
structure State.Stored (s : State) : Prop where
  memory : s.mem.InBuffers
  tables : s.tables = buildTables Config.prim
  ncand : s.ncand.toNat ≤ 256

theorem State.Stored.putCandidates {s : State} (h : s.Stored) {cands : List Pattern} (hcands : cands.length ≤ 256) :
    (putCandidates s cands).Stored where
  memory := putCandidates_inBuffers h.memory hcands
  tables := h.tables
  ncand := by rw [putCandidates_ncand, BitVec.toNat_ofNat, Nat.mod_eq_of_lt (by omega)]; exact hcands

theorem State.Stored.withMem {s : State} (h : s.Stored) {m : Memory} (hm : m.InBuffers) :
    ({ s with mem := m } : State).Stored := ⟨hm, h.tables, h.ncand⟩

theorem softReset_stored (s : State) : (softReset s).Stored := ⟨⟨rfl, fun _ _ => rfl⟩, rfl, Nat.zero_le _⟩

theorem Results.stored {s u : State} {i : Instr} (h : s.Stored) (hresults : Results s i u) : u.Stored := by
  obtain ⟨hmem, htables, hncand⟩ := h
  cases i with
  | nop | pfratio5 | pfratio3 | pfccd => rw [hresults]; exact ⟨hmem, htables, hncand⟩
  | gadd | gmul | ginv | gexp | glog | xsq2q | xq2sq | xq2q | xadj | xtimes | xqrgrid | pforder | pfccv | pfcch
  | pfccva =>
    obtain ⟨_, rfl⟩ := hresults
    exact ⟨hmem, htables, hncand⟩
  | sreset => rw [hresults]; exact softReset_stored s
  | pnorm d | padd d | pmul d | pscale d | pmulmono d | pmono d | rssyn d =>
    obtain ⟨p, hp, rfl⟩ := hresults
    exact ⟨putPoly_inBuffers hmem d hp, htables, hncand⟩
  | pdiv d q | rseuc d q =>
    obtain ⟨p, p', hp, hp', -, rfl⟩ := hresults
    exact ⟨putPoly_inBuffers (putPoly_inBuffers hmem d hp) q hp', htables, hncand⟩
  | peval | pcoef =>
    obtain ⟨_, _, rfl⟩ := hresults
    exact ⟨hmem, htables, hncand⟩
  | rsdec =>
    obtain ⟨hcwlen, rfl | ⟨found, mags, ps, hfound, hmags, hplaces, rfl⟩⟩ := hresults
    · exact ⟨hmem, htables, hncand⟩
    · exact ⟨putDecoded_inBuffers hmem hfound hmags hplaces hcwlen, htables, hncand⟩
  | rschien =>
    obtain ⟨found, hle, -, rfl⟩ := hresults
    exact ⟨putLocations_inBuffers hmem hle, htables, hncand⟩
  | rsforney =>
    obtain ⟨mags, _, hlength, hle, rfl⟩ := hresults
    exact ⟨hmem.writeElems rfl (by rw [magBase]; omega) (by rw [magBase]; omega), htables, hncand⟩
  | rsapply =>
    obtain ⟨fixes, hle, hplaces, rfl⟩ := hresults
    exact ⟨hmem.applyFixes hplaces hle, htables, hncand⟩
  | xpts =>
    obtain ⟨ws, hlength, hle, rfl⟩ := hresults
    refine ⟨hmem.writeWords fun x hx hx' => ?_, htables, hncand⟩
    rw [pmBase] at hx hx'
    simp only [bufferByte, decide_eq_true_eq]
    omega
  | grid =>
    obtain ⟨bs, hlength, rfl⟩ := hresults
    refine ⟨hmem.setBytes fun x hx hx' => ?_, htables, hncand⟩
    rw [bmBase] at hx hx'
    simp only [bufferByte, decide_eq_true_eq]
    omega
  | pffind | pfalign =>
    obtain ⟨cands, _, hle, rfl⟩ := hresults
    obtain ⟨hmem, htables, hncand⟩ := State.Stored.putCandidates ⟨hmem, htables, hncand⟩ hle
    exact ⟨hmem, htables, hncand⟩

/-! ## The invariant and its parts -/

theorem State.Inv.stored {s : State} (h : s.Inv) (hphase : s.phase ≠ .resetting) : s.Stored :=
  ⟨⟨h.mem_wf, h.mem_buffers⟩, h.tables_built hphase, h.ncand_le⟩

/-- In phase IDLE the invariant is BUSY = 0, no result bits after an error, and the stored part. -/
theorem inv_of_idle {s : State} (hphase : s.phase = .idle) (hbusy : s.status.busy = false)
    (herr : s.status.err ≠ .ok → s.status.noerr = false ∧ s.status.resb = false) (h : s.Stored) : s.Inv where
  busy_iff := by simp [hbusy, hphase]
  busy_clear hb := by simp [hbusy] at hb
  err_clear := herr
  mem_wf := h.memory.1
  mem_buffers := h.memory.2
  tables_built _ := h.tables
  ncand_le := h.ncand
  resetting hr := by simp [hphase] at hr

/-- The port and the model's own fields have no part in the invariant. -/
theorem State.Inv.withOutside {s : State} (h : s.Inv) (im : Image) (host : List Input) (rdata : Word) (draws : Nat) :
    ({ s with port := im, host := host, rdata := rdata, draws := draws } : State).Inv where
  busy_iff := h.busy_iff
  busy_clear := h.busy_clear
  err_clear := h.err_clear
  mem_wf := h.mem_wf
  mem_buffers := h.mem_buffers
  tables_built := h.tables_built
  ncand_le := h.ncand_le
  resetting hphase :=
    congrArg (fun u : State =>
      ({ u with port := im, host := host, rdata := rdata, draws := draws } : State)) (h.resetting hphase)

/-- CMDOVR and WRBUSY have no part in the invariant while a command runs. -/
theorem State.Inv.withOverruns {s : State} (h : s.Inv) {w : Word} (hphase : s.phase = .running w) (cmdovr wrbusy : Bool) :
    ({ s with status := { s.status with cmdovr := cmdovr, wrbusy := wrbusy } } : State).Inv where
  busy_iff := h.busy_iff
  busy_clear := h.busy_clear
  err_clear := h.err_clear
  mem_wf := h.mem_wf
  mem_buffers := h.mem_buffers
  tables_built := h.tables_built
  ncand_le := h.ncand_le
  resetting hr := by simp [hphase] at hr

/-! ## `rst` and reset initialisation -/

theorem hardReset_inv (s : State) : s.hardReset.Inv where
  busy_iff := ⟨(fun _ h => nomatch h), fun _ => rfl⟩
  busy_clear _ := ⟨rfl, rfl, rfl, rfl⟩
  err_clear _ := ⟨rfl, rfl⟩
  mem_wf := rfl
  mem_buffers _ _ := rfl
  tables_built h := absurd rfl h
  ncand_le := Nat.zero_le _
  resetting _ := rfl

/-- Settles O24: the state after reset is the one that `rst` leaves of itself. -/
theorem resetMeetsInvariant : Obligations.ResetMeetsInvariant := hardReset_inv State.reset

theorem initialised_inv {s : State} (h : s.Inv) : s.initialised.Inv :=
  inv_of_idle rfl rfl h.err_clear ⟨⟨h.mem_wf, h.mem_buffers⟩, rfl, h.ncand_le⟩

/-! ## The engine -/

/-- A command that ends on a state whose stored part is sound keeps the invariant. -/
theorem CommandEnded.inv {i : Instr} {s t : State} (h : s.Stored) (hended : CommandEnded i s t) : t.Inv := by
  obtain ⟨hphase, hbusy, -, herr⟩ := hended.completion
  refine inv_of_idle hphase hbusy herr ?_
  cases hended with
  | completed u noerr resb hresults =>
    obtain ⟨hmem, htables, hncand⟩ := hresults.stored h
    exact ⟨hmem, htables, hncand⟩
  | failed => exact ⟨h.memory, h.tables, h.ncand⟩
  | searchRefused => exact ⟨h.memory, h.tables, Nat.zero_le _⟩
  | searchFailed _ cands e hlength =>
    obtain ⟨hmem, htables, hncand⟩ := h.putCandidates hlength
    exact ⟨hmem, htables, hncand⟩

theorem engineStep_inv {s t : State} (h : s.Inv) (hstep : engineStep s = .next t) : t.Inv := by
  rw [engineStep] at hstep
  cases hphase : s.phase with
  | resetting => rw [hphase] at hstep; cases hstep; exact initialised_inv h
  | idle => rw [hphase] at hstep; cases hstep; exact h
  | running w =>
    rw [hphase] at hstep
    have hstored := h.stored (by simp [hphase])
    dsimp only at hstep
    split at hstep
    · rw [illegalCommand_eq] at hstep
      cases hstep
      exact inv_of_idle rfl rfl (fun _ => ⟨rfl, rfl⟩) ⟨hstored.memory, hstored.tables, hstored.ncand⟩
    · exact (exec_commandEnded hstep).inv hstored

/-! ## The host -/

theorem hostReadLoc_inv {s : State} (h : s.Inv) (l : Loc) : (hostReadLoc s l).Inv := by
  rw [hostReadLoc]
  split
  · exact h.withOutside s.port s.host _ _
  · exact h.withOutside s.port s.host _ s.draws

theorem acceptedNcand_le {s : State} (h : s.ncand.toNat ≤ 256) (w : Word) : (acceptedNcand s w).toNat ≤ 256 := by
  rw [acceptedNcand]
  split
  · exact h
  split
  · exact Nat.zero_le _
  · exact h

theorem accept_inv {s : State} (h : s.Stored) (w : Word) : (s.accept w).Inv where
  busy_iff := by simp
  busy_clear _ := ⟨rfl, rfl, rfl, rfl⟩
  err_clear _ := ⟨rfl, rfl⟩
  mem_wf := h.memory.1
  mem_buffers := h.memory.2
  tables_built _ := h.tables
  ncand_le := acceptedNcand_le h.ncand w
  resetting hr := by simp at hr

/-- A host write stores within the buffers. -/
theorem writeLoc_stored {s : State} (h : s.Stored) {l : Loc} (hl : l ≠ .cmd) (v : Word) : (writeLoc s l v).Stored := by
  cases l with
  | cmd => exact absurd rfl hl
  | pb k e =>
    have hk : (k : Nat) < 8 := k.isLt
    have he : (e : Nat) < 512 := e.isLt
    exact h.withMem (h.memory.writeElem (by rw [pbBase]; omega) (by rw [pbBase]; omega) (by rw [pbBase]; omega) _)
  | cwb i =>
    have hi : (i : Nat) < 256 := i.isLt
    exact h.withMem (h.memory.writeElem (by rw [cwbBase]; omega) (by rw [cwbBase]; omega) (by rw [cwbBase]; omega) _)
  | loc i =>
    have hi : (i : Nat) < 256 := i.isLt
    exact h.withMem (h.memory.writeElem (by rw [locBase]; omega) (by rw [locBase]; omega) (by rw [locBase]; omega) _)
  | mag i =>
    have hi : (i : Nat) < 256 := i.isLt
    exact h.withMem (h.memory.writeElem (by rw [magBase]; omega) (by rw [magBase]; omega) (by rw [magBase]; omega) _)
  | pm i =>
    have hi : (i : Nat) < 512 := i.isLt
    refine h.withMem (h.memory.setBytes fun x hx hx' => ?_)
    rw [pmBase] at hx hx'
    rw [bytesOfWord_length] at hx'
    simp only [bufferByte, decide_eq_true_eq]
    omega
  | _ => exact ⟨h.memory, h.tables, h.ncand⟩

/-- A host write in phase IDLE keeps the invariant: a write to STATUS clears no bit of a result, and no other word has
bits of STATUS. -/
theorem writeLoc_inv {s : State} (h : s.Inv) (hphase : s.phase = .idle) (l : Loc) (v : Word) : (writeLoc s l v).Inv := by
  have hstored := h.stored (by simp [hphase])
  have hbusy : s.status.busy = false := by
    rw [← Bool.not_eq_true, h.busy_iff]
    simp [hphase]
  by_cases hcmd : l = .cmd
  · subst hcmd
    exact accept_inv hstored v
  · by_cases hstatus : l = .status
    · subst hstatus
      exact inv_of_idle hphase hbusy h.err_clear ⟨hstored.memory, hstored.tables, hstored.ncand⟩
    · have hsame : (writeLoc s l v).status = s.status := by
        cases l with
        | cmd => exact absurd rfl hcmd
        | status => exact absurd rfl hstatus
        | _ => rfl
      refine inv_of_idle ((writeLoc_phase hcmd s v).trans hphase) ?_ ?_ (writeLoc_stored hstored hcmd v)
      · rw [hsame, hbusy]
      · rw [hsame]; exact h.err_clear

theorem hostWriteLoc_inv {s : State} (h : s.Inv) (l : Loc) (v : Word) : (hostWriteLoc s l v).Inv := by
  cases hphase : s.phase with
  | idle => rw [hostWriteLoc_idle hphase]; exact writeLoc_inv h hphase l v
  | running w =>
    by_cases hl : l = .cmd
    · rw [hl, hostWriteLoc_running_cmd hphase]
      exact h.withOverruns hphase true s.status.wrbusy
    · rw [hostWriteLoc_running_of_ne_cmd hphase hl]
      exact h.withOverruns hphase s.status.cmdovr true
  | resetting => rw [hostWriteLoc, hphase]; exact h

/-- Settles O23: by the cases of what a step did. -/
theorem stepKeepsInvariant : Obligations.StepKeepsInvariant := by
  unfold Obligations.StepKeepsInvariant
  intro s t h hstep
  have hafter : s.afterInput.Inv := h.withOutside s.port s.host.tail s.rdata s.draws
  obtain ⟨-, hengine⟩ | ⟨off, rest, -, -, -, rfl⟩ | ⟨off, v, rest, -, -, -, rfl⟩ | ⟨im, rest, -, -, rfl⟩ |
    ⟨rest, -, rfl⟩ := step_next hstep
  · exact engineStep_inv hafter hengine
  · exact hostReadLoc_inv hafter _
  · exact hostWriteLoc_inv hafter _ v
  · exact hafter.withOutside im s.afterInput.host s.rdata s.draws
  · exact hardReset_inv _

end Sys2Proof.Machine
end

section
/-! PROOFS. What each thing the outside does makes of the state (70_reset_and_hazards.md R411, R420 to R425): host reads,
the acceptance of a command, writes to STATUS, the turn of the engine, and the stops. -/

namespace Sys2Proof.Machine

/-! ## One step, by the next item of the outside -/

theorem afterInput_of_cons {s : State} {i : Input} {rest : List Input} (h : s.host = i :: rest) :
    s.afterInput = { s with host := rest } := by
  rw [State.afterInput, h, List.tail_cons]

/-- The outside leaves the engine to move: the step is the engine's. -/
theorem step_turn {s : State} (h : s.host = [] ∨ ∃ rest, s.host = .tick :: rest) : step s = engineStep s.afterInput := by
  obtain h | ⟨rest, h⟩ := h
  · have hs : s.afterInput = s := by rw [State.afterInput, h, List.tail_nil, ← h]
    rw [hs, step, h]
  · rw [step, h, afterInput_of_cons h]

theorem step_hostRead {s : State} {off size : Nat} {rest : List Input} (h : s.host = .read off size :: rest) :
    step s = hostRead s.afterInput off size := by
  rw [step, h, afterInput_of_cons h]

theorem step_hostWrite {s : State} {off size : Nat} {v : Word} {rest : List Input}
    (h : s.host = .write off size v :: rest) : step s = hostWrite s.afterInput off size v := by
  rw [step, h, afterInput_of_cons h]

/-- The outside is at an aligned host read in the window: the step is that read at the word its offset names. -/
theorem step_read {s : State} {off : Nat} {rest : List Input} (h : s.host = .read off 4 :: rest)
    (halign : off % 4 = 0) (hwin : off < 0x10000) : step s = .next (hostReadLoc s.afterInput (locate off)) :=
  (step_hostRead h).trans (hostAccess_defined off _ halign hwin)

theorem step_image {s : State} {im : Image} {rest : List Input} (h : s.host = .image im :: rest) :
    step s = changeImage s.afterInput im := by
  rw [step, h, afterInput_of_cons h]

theorem step_rst {s : State} {rest : List Input} (h : s.host = .rst :: rest) : step s = .next s.afterInput.hardReset := by
  rw [step, h, afterInput_of_cons h]

theorem engineStep_running {s : State} {w : Word} {i : Instr} (h : s.phase = .running w) (hw : decodeWord w = .ok i) :
    engineStep s = exec i s := by
  rw [engineStep, h]
  simp only [hw]

/-! ## Host reads -/

/-- STATUS is a result of no command (20_memory.md R94). -/
theorem resultLoc_status (s : State) (i : Instr) : resultLoc s i .status = false := by
  cases i <;> rfl

theorem hostReadLoc_of_specified {s : State} {l : Loc} (h : readUnspecified s l = false) :
    hostReadLoc s l = { s with rdata := readLoc s l } := by
  rw [hostReadLoc, if_neg (by rw [h]; exact Bool.false_ne_true)]

theorem readUnspecified_idle {s : State} (h : s.phase = .idle) (l : Loc) : readUnspecified s l = false := by
  rw [readUnspecified, h]

theorem readUnspecified_resetting {s : State} (h : s.phase = .resetting) (l : Loc) : readUnspecified s l = false := by
  rw [readUnspecified, h]

theorem readUnspecified_running {s : State} {w : Word} {i : Instr} (h : s.phase = .running w)
    (hw : decodeWord w = .ok i) (l : Loc) : readUnspecified s l = resultLoc s i l := by
  rw [readUnspecified, h]
  simp only [commandOf, hw, Except.toOption]

theorem readUnspecified_status (s : State) : readUnspecified s .status = false := by
  rw [readUnspecified]
  cases s.phase with
  | running w =>
    dsimp only
    cases commandOf w with
    | none => rfl
    | some i => exact resultLoc_status s i
  | _ => rfl

/-- Settles O9: a read is free exactly where its word is a result of the running command. -/
theorem hostReads : Obligations.HostReads := by
  unfold Obligations.HostReads
  intro s off rest hhost halign hwin
  rw [step_read hhost halign hwin]
  refine ⟨fun hidle => ?_, ?_, fun w i hrun hw => ?_⟩
  · rw [hostReadLoc_of_specified (readUnspecified_idle (s := s.afterInput) hidle _)]
    rfl
  · rintro rfl
    have hstatus : locate 0x00C = .status := rfl
    rw [hstatus, hostReadLoc_of_specified (readUnspecified_status _)]
    rfl
  · rw [hostReadLoc, readUnspecified_running (s := s.afterInput) hrun hw]
    split
    · rfl
    · rfl

/-! ## Acceptance and the turn of the engine -/

theorem decodeWord_pffind : decodeWord 0x00000040#32 = .ok .pffind := decodeOfEncode .pffind rfl

theorem decodeWord_pfalign : decodeWord 0x00000041#32 = .ok .pfalign := decodeOfEncode .pfalign rfl

/-- Only the words of PFFIND and PFALIGN clear NCAND (10_state.md R53). -/
theorem acceptedNcand_eq (s : State) (w : Word) :
    acceptedNcand s w = if w = 0x00000040#32 ∨ w = 0x00000041#32 then 0#16 else s.ncand := by
  by_cases hw : w = 0x00000040#32 ∨ w = 0x00000041#32
  · rw [if_pos hw]
    obtain rfl | rfl := hw
    · rw [acceptedNcand, decodeWord_pffind]; rfl
    · rw [acceptedNcand, decodeWord_pfalign]; rfl
  · rw [if_neg hw, acceptedNcand]
    cases hd : decodeWord w with
    | error _ => rfl
    | ok i =>
      have hi : clearsCandidates i = false := by
        obtain ⟨-, hencode⟩ := encodeOfDecode w i hd
        cases i with
        | pffind => exact absurd (Or.inl hencode.symm) hw
        | pfalign => exact absurd (Or.inr hencode.symm) hw
        | _ => rfl
      simp only [hi, Bool.false_eq_true, if_false]

/-- A host write to CMD in phase IDLE is the acceptance of the word (60_exceptions.md R371). -/
theorem step_accept {s : State} {w : Word} {rest : List Input} (hidle : s.phase = .idle)
    (hhost : s.host = .write 0x008 4 w :: rest) : step s = .next (s.afterInput.accept w) := by
  rw [step_write hhost (by decide) (by decide), hostWriteLoc_idle (s := s.afterInput) hidle]
  rfl

/-- Settles O7: a write to CMD is the acceptance of its word, and two words clear NCAND. -/
theorem commandAcceptance : Obligations.CommandAcceptance := by
  unfold Obligations.CommandAcceptance
  intro s w rest hidle hhost
  rw [step_accept hidle hhost, State.accept, acceptedNcand_eq]
  rfl

theorem launch_cleanEntry (s : State) : s.launch.cleanEntry := ⟨rfl, rfl, rfl, rfl, rfl⟩

/-- Settles O10: the turn of the engine in phase RUNNING is the decoded command. -/
theorem stepRunsDecodedCommand : Obligations.StepRunsDecodedCommand := by
  unfold Obligations.StepRunsDecodedCommand
  refine ⟨fun s w i hrun hw hturn => ?_, launch_cleanEntry, fun s w i rest hclean hw hhost => ?_⟩
  · rw [step_turn hturn, engineStep_running (s := s.afterInput) hrun hw]
  · obtain ⟨hidle, -, -, -, htables⟩ := hclean
    have hrest : (s.afterInput.accept w).host = .tick :: rest := by
      rw [afterInput_of_cons hhost]
      rfl
    refine ⟨s.afterInput.accept w, step_accept hidle hhost, rfl, hrest, htables, ?_⟩
    rw [step_turn (.inr ⟨rest, hrest⟩)]
    exact engineStep_running rfl hw

/-- Settles O18: a write to STATUS in phase IDLE is `statusCleared`. -/
theorem statusWriteClears : Obligations.StatusWriteClears := by
  unfold Obligations.StatusWriteClears
  intro s v rest hidle hhost
  rw [step_write hhost (by decide) (by decide), hostWriteLoc_idle (s := s.afterInput) hidle]
  rfl

/-! ## The stops -/

/-- The engine never stops the machine. -/
theorem engineStep_safe (s : State) : Safe (engineStep s) := by
  rw [engineStep]
  cases s.phase with
  | resetting => exact ⟨_, rfl⟩
  | idle => exact ⟨_, rfl⟩
  | running w =>
    dsimp only
    cases decodeWord w with
    | error _ => exact ⟨_, rfl⟩
    | ok i =>
      obtain ⟨t, ht, -⟩ := everyCommandCompletes i s
      exact ⟨t, ht⟩

theorem hostAccess_undefined {off size : Nat} (effect : Loc → State) (h : size ≠ 4 ∨ off % 4 ≠ 0) :
    hostAccess off size effect = .refused .undefinedAccess := by
  have hundefined : accessDefined off size = false := by
    simp only [accessDefined, decide_eq_false_iff_not]
    omega
  rw [hostAccess, hundefined]
  rfl

theorem hostAccess_outside {off : Nat} (effect : Loc → State) (halign : off % 4 = 0) (hout : 0x10000 ≤ off) :
    hostAccess off 4 effect = .fault .outsideWindow := by
  rw [hostAccess, if_neg (by simp [accessDefined, halign]), if_pos hout]

theorem hostAccess_safe_iff (off size : Nat) (effect : Loc → State) :
    Safe (hostAccess off size effect) ↔ size = 4 ∧ off % 4 = 0 ∧ off < 0x10000 := by
  constructor
  · rintro ⟨t, ht⟩
    obtain ⟨hsize, halign, hwin, -⟩ := hostAccess_next ht
    exact ⟨hsize, halign, hwin⟩
  · rintro ⟨rfl, halign, hwin⟩
    exact ⟨_, hostAccess_defined off effect halign hwin⟩

theorem changeImage_safe_iff (s : State) (im : Image) : Safe (changeImage s im) ↔ pixelCommandRuns s = false := by
  rw [changeImage]
  cases pixelCommandRuns s with
  | true => exact ⟨(by rintro ⟨t, ht⟩; cases ht), (by intro h; cases h)⟩
  | false => exact ⟨fun _ => rfl, fun _ => ⟨_, rfl⟩⟩

/-- A step gives a next state exactly when the next item of the outside is one the spec defines. -/
theorem step_safe_iff (s : State) : Safe (step s) ↔ s.dutiful = true := by
  rw [State.dutiful]
  cases h : s.host with
  | nil => simpa only [iff_true, step_turn (.inl h)] using engineStep_safe _
  | cons i rest =>
    cases i with
    | read off size => rw [step_hostRead h, hostRead, hostAccess_safe_iff, decide_eq_true_iff]
    | write off size v => rw [step_hostWrite h, hostWrite, hostAccess_safe_iff, decide_eq_true_iff]
    | image im =>
      rw [step_image h, changeImage_safe_iff, Bool.not_eq_true']
      exact Iff.rfl
    | rst => simpa only [iff_true, step_rst h] using ⟨_, rfl⟩
    | tick => simpa only [iff_true, step_turn (.inr ⟨rest, h⟩)] using engineStep_safe _

/-- Settles O19: by the kind of the next item; the engine never stops. -/
theorem stopsAreTheHosts : Obligations.StopsAreTheHosts := by
  unfold Obligations.StopsAreTheHosts
  refine fun s => ⟨step_safe_iff s, fun off size rest hhost => ?_, fun im rest hhost => ?_⟩
  · have haccess : ∃ effect, step s = hostAccess off size effect := by
      obtain hhost | ⟨v, hhost⟩ := hhost
      · exact ⟨_, step_hostRead hhost⟩
      · exact ⟨_, step_hostWrite hhost⟩
    obtain ⟨effect, hstep⟩ := haccess
    refine ⟨fun hundefined => hstep.trans (hostAccess_undefined effect hundefined), ?_⟩
    rintro rfl halign hout
    exact hstep.trans (hostAccess_outside effect halign hout)
  · rw [step_image hhost]
    rfl

end Sys2Proof.Machine
end

section
/-! PROOFS. Reset (70_reset_and_hazards.md R410 to R415) and SRESET (40_control.md R141): what every word of the window
reads in a state whose registers and memories are at their reset values. -/

namespace Sys2Proof.Machine

/-- What a word of the window reads in a state at its reset values, with `st` in STATUS and `im` at the pixel port. -/
def Loc.resetValue (im : Image) (st : Word) (l : Loc) : Word :=
  match l with
  | .id => 0x51524443#32
  | .fieldcfg => 0x0000011D#32
  | .status => st
  | .imgw => im.width.setWidth 32
  | .imgh => im.height.setWidth 32
  | .pblen _ => 1#32
  | _ => 0#32

theorem getElem_replicate_fin {α : Type} {n : Nat} (x : α) (k : Fin n) : (Vector.replicate n x)[k] = x :=
  Vector.getElem_replicate _

/-- Every word of a state whose registers and memories are at their reset values. -/
theorem readLoc_resetValues (ph : Phase) (st : Status) (g : Tables) (im : Image) (host : List Input) (rdata : Word)
    (draws : Nat) (l : Loc) :
    readLoc { State.reset with
      phase := ph, status := st, tables := g, port := im, host := host, rdata := rdata, draws := draws } l =
      l.resetValue im (statusWord st) := by
  cases l with
  | fieldcfg => exact (by decide : fieldcfgWord = 0x0000011D#32)
  | ctrl => exact (by decide : ctrlWord ⟨false, false, false⟩ = 0#32)
  | pm | bm | cand => exact (by decide : wordOfBytes 0#8 0#8 0#8 0#8 = 0#32)
  | sc k => exact getElem_replicate_fin _ k
  | pblen k => exact congrArg (BitVec.setWidth 32) (getElem_replicate_fin 1#10 k)
  | f k => exact getElem_replicate_fin _ k
  | t k e =>
    refine (congrArg (matElem · e) (getElem_replicate_fin zeroMat k)).trans ?_
    exact (by decide : ∀ e, matElem zeroMat e = 0#32) e
  | fpr k e =>
    refine (congrArg (patternWord · e) (getElem_replicate_fin zeroPattern k)).trans ?_
    exact (by decide : ∀ e, patternWord zeroPattern e = 0#32) e
  | _ => rfl

/-- The reset value of the word at an offset is the one the rule lists for the offset. -/
theorem resetValue_locate (im : Image) {off : Nat} (halign : off % 4 = 0) :
    (locate off).resetValue im 0x00000001#32 = resetWord im off := by
  by_cases hscalar : off < 0x08C
  · obtain ⟨k, rfl⟩ : ∃ k, off = 4 * k := ⟨off / 4, by omega⟩
    have hk : k < 35 := by omega
    interval_cases k <;> rfl
  · simp (disch := omega) only [resetWord, if_neg]
    simp only [locate, if_neg hscalar, apply_ite (Loc.resetValue im 0x00000001#32)]
    simp only [Loc.resetValue, ite_self]
    by_cases hlen : 0x0C0 ≤ off ∧ off < 0x0E0
    · rw [if_pos hlen, if_neg (by omega), if_pos hlen.2]
    · rw [if_neg hlen, ite_eq_left_iff]
      intro hge
      exact if_neg (by omega)

theorem resetValue_status_irrelevant (im : Image) {l : Loc} (h : l ≠ .status) (v w : Word) :
    l.resetValue im v = l.resetValue im w := by
  cases l with
  | status => exact absurd rfl h
  | _ => rfl

/-- Settles O5: `rst` gives the reset values, which every word reads. -/
theorem resetValues : Obligations.ResetValues := by
  unfold Obligations.ResetValues
  refine ⟨fun s rest hhost => ⟨s.afterInput.hardReset, step_rst hhost, rfl, rfl, rfl, rfl, ?_, fun off halign _ => ?_⟩,
    rfl, fun off halign _ => ?_⟩
  · rw [afterInput_of_cons hhost]; rfl
  · rw [← resetValue_locate s.port halign]
    exact readLoc_resetValues .resetting resetStatus emptyTables _ _ _ _ _
  · rw [← resetValue_locate _ halign]
    exact readLoc_resetValues .resetting resetStatus emptyTables _ [] 0#32 0 _

theorem State.atReset.phase {s : State} (h : s.atReset) : s.phase = .resetting := by rw [h]; rfl

theorem State.atReset.status {s : State} (h : s.atReset) : s.status = resetStatus := by rw [h]; rfl

theorem State.atReset.readLoc {s : State} (h : s.atReset) (l : Loc) :
    readLoc s l = l.resetValue s.port 0x00000001#32 := by
  rw [h]
  exact readLoc_resetValues .resetting resetStatus _ _ _ _ _ l

/-- Settles O6: in phase RESETTING the engine ends the initialisation, a write is discarded, and a read is defined. -/
theorem resetInitialisation : Obligations.ResetInitialisation := by
  unfold Obligations.ResetInitialisation
  intro s hreset
  have hphase : s.afterInput.phase = .resetting := hreset.phase
  refine ⟨fun hturn => ?_, fun off v rest hhost halign hwin => ?_, fun off rest hhost halign hwin => ?_⟩
  · have hstep : step s = .next s.afterInput.initialised := by
      rw [step_turn hturn, engineStep, hphase]
    have hstatus : s.afterInput.status = resetStatus := hreset.status
    refine ⟨?_, fun t ht => ?_⟩
    · rw [hstep, State.initialised, hstatus]
      rfl
    · rw [hstep] at ht
      cases ht
      rw [State.cleanEntry, State.initialised, hstatus]
      exact ⟨rfl, rfl, rfl, rfl, rfl⟩
  · rw [step_write hhost halign hwin, hostWriteLoc, hphase]
  · rw [step_read hhost halign hwin, hostReadLoc_of_specified (readUnspecified_resetting hphase _),
      ← resetValue_locate s.port halign, ← hreset.readLoc]
    rfl

theorem eq_of_locate_eq_status {off : Nat} (h : locate off = .status) : off = 0x00C := by
  by_cases hoff : off < 0x08C
  · exact (by decide : ∀ o < 0x08C, locate o = .status → o = 0x00C) off hoff h
  · simp [locate, hoff, ite_eq_iff] at h

/-- Settles O26: SRESET is the soft reset, whose words other than STATUS are the reset values. -/
theorem sresetEffect : Obligations.SresetEffect := by
  unfold Obligations.SresetEffect
  refine ⟨rfl, fun s => ⟨rfl, fun t ht => ?_⟩⟩
  cases ht
  refine ⟨(by decide : statusWord ⟨false, true, false, false, .ok, false, false⟩ = 0x00000002#32), rfl,
    fun off halign hwin hne => ?_⟩
  have hloc : locate off ≠ .status := by
    intro hl
    have := eq_of_locate_eq_status hl
    omega
  rw [← resetValue_locate s.port halign, resetValue_status_irrelevant _ hloc _ 0x00000002#32]
  exact readLoc_resetValues .idle ⟨false, true, false, false, .ok, false, false⟩ _ _ _ _ _ _

end Sys2Proof.Machine
end

section
/-! PROOFS. The errors of polynomial operands and of counts out of range (42_gf_poly.md R187, 43_reed_solomon.md R201). -/

namespace Sys2Proof.Machine

/-! ## Operands of a length no command accepts -/

theorem polyOperand_error {s : State} {k : BitVec 3} (h : ¬operandOk s k) :
    polyOperand s k = .error (operandError s k) := by
  rw [polyOperand_eq, operandError]
  by_cases hzero : pblenAt s k = 0
  · rw [if_pos hzero, if_pos hzero]
  · have hlong : 512 < pblenAt s k := by
      rw [operandOk] at h
      omega
    rw [if_neg hzero, if_neg hzero, if_pos hlong]

theorem withOperand_error {s : State} {a : BitVec 3} (ha : ¬operandOk s a) (f : Poly → Except ErrCode State) :
    withOperand s a f = .error (operandError s a) := by
  rw [withOperand, polyOperand_error ha]

theorem withOperand_ok {s : State} {a : BitVec 3} (ha : operandOk s a) (f : Poly → Except ErrCode State) :
    withOperand s a f = f (normalise (rawPoly s a)) := by
  rw [withOperand, polyOperand_ok ha]

theorem withOperands_error_second {s : State} {a b : BitVec 3} (ha : operandOk s a) (hb : ¬operandOk s b)
    (f : Poly → Poly → Except ErrCode State) : withOperands s a b f = .error (operandError s b) := by
  rw [withOperands, withOperand_ok ha, withOperand_error hb]

theorem endCommand_error (s : State) (e : ErrCode) : endCommand s (.error e) = .next (s.failed e) := endCommand_eq s _

theorem endCommandFlags_error (s : State) (e : ErrCode) : endCommandFlags s (.error e) = .next (s.failed e) :=
  endCommandFlags_eq s _

theorem twosOk_iff (s : State) : twosOk s = true ↔ 1 ≤ s.twos.toNat ∧ s.twos.toNat ≤ 255 := decide_eq_true_iff

theorem nlocOk_iff (s : State) : nlocOk s = true ↔ s.nloc.toNat ≤ 255 := decide_eq_true_iff

theorem cwlenOk_iff (s : State) : cwlenOk s = true ↔ 1 ≤ s.cwlen.toNat ∧ s.cwlen.toNat ≤ 255 := decide_eq_true_iff

/-- RSEUC with two destinations and TWOS in range. -/
theorem exec_rseuc {s : State} {d q a b : BitVec 3} (hdq : d ≠ q) (htwos : 1 ≤ s.twos.toNat ∧ s.twos.toNat ≤ 255) :
    exec (.rseuc d q a b) s =
      endCommand s (withOperands s a b (fun x y => divResult s d q (euclid s.tables x y s.twos.toNat))) :=
  (if_neg hdq).trans (congrArg (endCommand s) (if_pos ((twosOk_iff s).2 htwos)))

/-- What RSFORNEY makes of the magnitudes Forney's formula gives (43_reed_solomon.md R207). -/
def forneyOutcome (s : State) (omega : Poly) (r : Except ErrCode (List Byte)) : Except ErrCode State :=
  match r with
  | .error e => .error e
  | .ok mags => .ok { s with mem := writeElems s.mem magBase mags, degr := degrOf omega }

/-- RSFORNEY with NLOC in range. -/
theorem exec_rsforney {s : State} {a : BitVec 3} (hnloc : s.nloc.toNat ≤ 255) :
    exec (.rsforney a) s =
      endCommand s (withOperand s a (fun omega =>
        forneyOutcome s omega (forney s.tables Config.gbase omega (locations s)))) :=
  congrArg (endCommand s) (if_pos ((nlocOk_iff s).2 hnloc))

/-- Settles O32: the operands are checked before anything else is computed, the first before the second. -/
theorem polyOperandErrors : Obligations.PolyOperandErrors := by
  unfold Obligations.PolyOperandErrors
  intro s d q a b
  have hfirst {f : Poly → Except ErrCode State} (ha : ¬operandOk s a) :
      endCommand s (withOperand s a f) = .next (s.failed (operandError s a)) := by
    rw [withOperand_error ha, endCommand_error]
  have hsecond {f : Poly → Poly → Except ErrCode State} (ha : operandOk s a) (hb : ¬operandOk s b) :
      endCommand s (withOperands s a b f) = .next (s.failed (operandError s b)) := by
    rw [withOperands_error_second ha hb, endCommand_error]
  refine ⟨fun ha => ⟨hfirst ha, hfirst ha, hfirst ha, hfirst ha, hfirst ha, fun hdq => (if_neg hdq).trans (hfirst ha),
    hfirst ha, hfirst ha, fun hdq hpos hle => (exec_rseuc hdq ⟨hpos, hle⟩).trans (hfirst ha), hfirst ha,
    fun hnloc => (exec_rsforney hnloc).trans (hfirst ha)⟩, fun ha hb => ⟨hsecond ha hb, hsecond ha hb,
    fun hdq => (if_neg hdq).trans (hsecond ha hb), fun hdq hpos hle => (exec_rseuc hdq ⟨hpos, hle⟩).trans (hsecond ha hb)⟩⟩

/-- Settles O40: each command checks its counts first. -/
theorem rangeErrors : Obligations.RangeErrors := by
  unfold Obligations.RangeErrors
  refine fun s d q a b => ⟨fun hranges => ?_, fun htwos hdq => ?_, fun hnloc => ?_, fun hcounts => ?_⟩
  · rw [← cwlenOk_and_twosOk] at hranges
    exact ⟨(congrArg (endCommandFlags s) (if_neg hranges)).trans (endCommandFlags_error s _),
      (congrArg (endCommandFlags s) (if_neg hranges)).trans (endCommandFlags_error s _)⟩
  · have hbad : ¬twosOk s = true := by
      rw [twosOk_iff]
      omega
    exact (if_neg hdq).trans ((congrArg (endCommand s) (if_neg hbad)).trans (endCommand_error s _))
  · have hbad : ¬nlocOk s = true := by
      rw [nlocOk_iff]
      omega
    exact (congrArg (endCommand s) (if_neg hbad)).trans (endCommand_error s _)
  · have hbad : ¬(cwlenOk s && nlocOk s) = true := by
      rw [Bool.and_eq_true, cwlenOk_iff, nlocOk_iff]
      omega
    exact (congrArg (endCommand s) (if_neg hbad)).trans (endCommand_error s _)

end Sys2Proof.Machine
end

section
/-! PROOFS. The polynomial commands (42_gf_poly.md R175 to R183): their results are normalised, and fit a buffer exactly
where the degree of the result is at most 511. -/

namespace Sys2Proof.Machine

open Polynomial

theorem exec_pnorm {s : State} {a : BitVec 3} (ha : operandOk s a) (d : BitVec 3) :
    exec (.pnorm d a) s = endCommand s (polyResult s d (normalise (rawPoly s a))) :=
  congrArg (endCommand s) (withOperand_ok ha _)

/-- Settles O33: the operand is read normalised, and is no longer than its buffer. -/
theorem pnormResult : Obligations.PnormResult := by
  unfold Obligations.PnormResult
  intro s d a ha
  obtain ⟨t, hnext, hresult⟩ := endCommand_polyResult (s := s) (normalise_rawPoly_length_le ha) d
  exact ⟨_, t, (exec_pnorm ha d).trans hnext, hresult, normalise_normal _, coefOf_normalise _⟩

/-- Settles O34: the sum is normalised and no longer than the longer operand. -/
theorem paddResult : Obligations.PaddResult := by
  unfold Obligations.PaddResult
  intro s d a b ha hb
  have hnormal := normalise_normal (rawPoly s a)
  have hnormal' := normalise_normal (rawPoly s b)
  have hlength := (padd_length_le hnormal hnormal').trans
    (max_le (normalise_rawPoly_length_le ha) (normalise_rawPoly_length_le hb))
  obtain ⟨t, hnext, hresult⟩ := endCommand_polyResult (s := s) hlength d
  refine ⟨_, t, ?_, hresult, padd_normal hnormal hnormal', fun n => ?_⟩
  · exact (congrArg (endCommand s) (withOperands_ok ha hb _)).trans hnext
  · rw [coefOf_padd hnormal hnormal', coefOf_normalise, coefOf_normalise]

/-! ## Products -/

theorem exec_pmul {s : State} {a b : BitVec 3} (ha : operandOk s a) (hb : operandOk s b) (d : BitVec 3) :
    exec (.pmul d a b) s =
      endCommand s (polyResult s d (pmul s.tables (normalise (rawPoly s a)) (normalise (rawPoly s b)))) :=
  congrArg (endCommand s) (withOperands_ok ha hb _)

theorem coefOf_pmul {g : Tables} (hg : g = buildTables Config.prim) {p q : Poly} (hp : Normal p) (hq : Normal q)
    (n : Nat) : coefOf (pmul g p q) n = productCoef g p q n := by
  obtain ⟨K, _, _, φ, hφ⟩ := exists_fieldMap hg
  apply hφ.injective
  rw [← coeff_toPoly hφ, toPoly_pmul hφ hp hq, coeff_toPoly_mul hφ]

theorem pmul_zero {g : Tables} {p q : Poly} (h : p = [0#8] ∨ q = [0#8]) : pmul g p q = [0#8] := by
  obtain rfl | rfl := h
  · rfl
  · exact if_pos (Bool.or_true _)

/-- A normalised polynomial is one longer than its degree. -/
theorem Normal.length_eq {p : Poly} (h : Normal p) : p.length = pdeg p + 1 := by
  have := h.length_pos
  rw [pdeg]
  omega

theorem pdeg_pmul {g : Tables} (hg : g = buildTables Config.prim) {p q : Poly} (hp : Normal p) (hq : Normal q)
    (hp0 : p ≠ [0#8]) (hq0 : q ≠ [0#8]) : pdeg (pmul g p q) = pdeg p + pdeg q := by
  obtain ⟨K, _, _, φ, hφ⟩ := exists_fieldMap hg
  rw [← natDegree_toPoly hφ (pmul_normal g p q), toPoly_pmul hφ hp hq,
    natDegree_mul (mt (toPoly_eq_zero_iff hφ hp).1 hp0) (mt (toPoly_eq_zero_iff hφ hq).1 hq0),
    natDegree_toPoly hφ hp, natDegree_toPoly hφ hq]

theorem productCoef_normalise_right (g : Tables) (a b : List Byte) (n : Nat) :
    productCoef g a (normalise b) n = productCoef g a b n := by
  simp only [productCoef, coefOf_normalise]

/-- Settles O35: the degree of a product of nonzero polynomials is the sum of theirs. -/
theorem pmulResult : Obligations.PmulResult := by
  unfold Obligations.PmulResult
  intro s d a b hs ha hb
  have hnormal := normalise_normal (rawPoly s a)
  have hnormal' := normalise_normal (rawPoly s b)
  rw [allZero_iff_normalise, allZero_iff_normalise, exec_pmul ha hb]
  refine ⟨fun hfits => ?_, fun hza hzb hlong => ?_⟩
  · have hlength : (pmul s.tables (normalise (rawPoly s a)) (normalise (rawPoly s b))).length ≤ 512 := by
      by_cases hzero : normalise (rawPoly s a) = [0#8] ∨ normalise (rawPoly s b) = [0#8]
      · rw [pmul_zero hzero, List.length_singleton]; omega
      · rw [not_or] at hzero
        obtain ⟨hza, hzb⟩ := hzero
        have hdegree := (hfits.resolve_left hza).resolve_left hzb
        rw [(pmul_normal _ _ _).length_eq, pdeg_pmul hs hnormal hnormal' hza hzb]
        exact Nat.succ_le_succ hdegree
    obtain ⟨t, hnext, hresult⟩ := endCommand_polyResult (s := s) hlength d
    refine ⟨_, t, hnext, hresult, pmul_normal _ _ _, fun n => ?_⟩
    rw [coefOf_pmul hs hnormal hnormal', productCoef_normalise_left, productCoef_normalise_right]
  · refine endCommand_polyResult_capacity ?_ d
    rw [(pmul_normal _ _ _).length_eq, pdeg_pmul hs hnormal hnormal' hza hzb]
    exact Nat.succ_lt_succ hlong

/-! ## Scalar and monomial products -/

theorem gfMul_one {g : Tables} (hg : g = buildTables Config.prim) (a : Byte) : gfMul g a 1#8 = a := by
  rw [gfMul_comm, one_gfMul hg]

theorem gfMul_eq_zero_iff {g : Tables} (hg : g = buildTables Config.prim) (a b : Byte) :
    gfMul g a b = 0#8 ↔ a = 0#8 ∨ b = 0#8 := by
  obtain ⟨K, _, _, φ, hφ⟩ := exists_fieldMap hg
  rw [← hφ.eq_zero_iff, hφ.gfMul, mul_eq_zero, hφ.eq_zero_iff, hφ.eq_zero_iff]

theorem coefOf_pscale {g : Tables} (hg : g = buildTables Config.prim) (p : Poly) (s : Byte) (n : Nat) :
    coefOf (pscale g p s) n = gfMul g (coefOf p n) s := by
  rw [pscale]
  split
  · next h => rw [h, gfMul_zero, coefOf_zero]
  split
  · next h => rw [h, gfMul_one hg]
  · rw [coefOf_normalise, coefOf_scaleCoefs]

theorem pscale_length_le (g : Tables) {p : Poly} (hp : Normal p) (s : Byte) : (pscale g p s).length ≤ p.length := by
  rw [pscale]
  split
  · exact hp.length_pos
  split
  · exact le_rfl
  · have hne : scaleCoefs g p s ≠ [] := by simpa [scaleCoefs] using hp.ne_nil
    exact (normalise_length_le hne).trans (List.length_map _).le

theorem exec_pmulmono_of_neg {s : State} {a : BitVec 3} (ha : operandOk s a) (h : s.deg.toInt < 0) (d : BitVec 3) :
    exec (.pmulmono d a) s = .next (s.failed .illegalArg) := by
  have hmono (p : Poly) : pmulmono s.tables p (degOperand s) s.ga = .error .illegalArg := if_pos h
  refine (congrArg (endCommand s) ((withOperand_ok ha _).trans ?_)).trans (endCommand_error s .illegalArg)
  rw [hmono, polyResultOf]

theorem exec_pmulmono_of_nonneg {s : State} {a : BitVec 3} (ha : operandOk s a) (h : 0 ≤ s.deg.toInt) (d : BitVec 3) :
    exec (.pmulmono d a) s =
      endCommand s (polyResult s d (pmulmonoNat s.tables (normalise (rawPoly s a)) s.deg.toNat s.ga)) := by
  have hmono (p : Poly) :
      pmulmono s.tables p (degOperand s) s.ga = .ok (pmulmonoNat s.tables p s.deg.toNat s.ga) := by
    rw [← toNat_degOperand h]
    exact if_neg (by rw [degOperand]; omega)
  refine congrArg (endCommand s) ((withOperand_ok ha _).trans ?_)
  rw [hmono, polyResultOf]

theorem pmulmonoNat_zero_left (g : Tables) (d : Nat) (s : Byte) : pmulmonoNat g [0#8] d s = [0#8] := by
  have h := (pmulmonoNat_normal g [0#8] d s).length_le (n := 0) fun n _ => by
    rw [coefOf_pmulmonoNat, coefOf_zero, zero_gfMul, ite_self]
  exact h.resolve_right (by have := (pmulmonoNat_normal g [0#8] d s).length_pos; omega)

/-- The degree of a monomial product of a nonzero polynomial. -/
theorem pdeg_pmulmonoNat {g : Tables} (hg : g = buildTables Config.prim) {p : Poly} (hp : Normal p) (hp0 : p ≠ [0#8])
    {s : Byte} (hs : s ≠ 0#8) (d : Nat) : pdeg (pmulmonoNat g p d s) = pdeg p + d := by
  have hlead : gfMul g (plead p) s ≠ 0#8 := by
    rw [ne_eq, gfMul_eq_zero_iff hg, not_or]
    exact ⟨hp.plead_ne_zero hp0, hs⟩
  have hcons : ∃ l, scaleCoefs g p s ++ List.replicate d 0#8 = gfMul g (plead p) s :: l := by
    cases p with
    | nil => exact absurd rfl hp.ne_nil
    | cons c l => exact ⟨_, rfl⟩
  obtain ⟨l, hl⟩ := hcons
  have hlength := congrArg List.length hl
  rw [List.length_append, scaleCoefs, List.length_map, List.length_replicate, List.length_cons, hp.length_eq] at hlength
  rw [pmulmonoNat, if_neg hs, hl, normalise_cons_nonzero _ _ hlead, pdeg, List.length_cons]
  omega

/-- Settles O36: PSCALE keeps the degree or gives zero; PMULMONO adds DEG to it or gives zero. -/
theorem pscalePmulmonoResult : Obligations.PscalePmulmonoResult := by
  unfold Obligations.PscalePmulmonoResult
  intro s d a hs ha
  have hnormal := normalise_normal (rawPoly s a)
  rw [allZero_iff_normalise]
  refine ⟨?_, fun hneg => exec_pmulmono_of_neg ha hneg d, fun hdeg hfits => ?_, fun hdeg hga hzero hlong => ?_⟩
  · obtain ⟨t, hnext, hresult⟩ := endCommand_polyResult (s := s)
      ((pscale_length_le s.tables hnormal s.ga).trans (normalise_rawPoly_length_le ha)) d
    refine ⟨_, t, (congrArg (endCommand s) (withOperand_ok ha _)).trans hnext, hresult, pscale_normal _ hnormal _,
      fun n => ?_⟩
    rw [coefOf_pscale hs, coefOf_normalise]
  · have hlength : (pmulmonoNat s.tables (normalise (rawPoly s a)) s.deg.toNat s.ga).length ≤ 512 := by
      by_cases hga : s.ga = 0#8
      · rw [hga, pmulmonoNat, if_pos rfl, List.length_singleton]; omega
      by_cases hzero : normalise (rawPoly s a) = [0#8]
      · rw [hzero, pmulmonoNat_zero_left, List.length_singleton]; omega
      · have hdegree := (hfits.resolve_left hga).resolve_left hzero
        rw [(pmulmonoNat_normal _ _ _ _).length_eq, pdeg_pmulmonoNat hs hnormal hzero hga]
        exact Nat.succ_le_succ hdegree
    obtain ⟨t, hnext, hresult⟩ := endCommand_polyResult (s := s) hlength d
    refine ⟨_, t, (exec_pmulmono_of_nonneg ha hdeg d).trans hnext, hresult, pmulmonoNat_normal _ _ _ _, fun n => ?_⟩
    rw [coefOf_pmulmonoNat, coefOf_normalise]
  · rw [exec_pmulmono_of_nonneg ha hdeg]
    refine endCommand_polyResult_capacity ?_ d
    rw [(pmulmonoNat_normal _ _ _ _).length_eq, pdeg_pmulmonoNat hs hnormal hzero hga]
    exact Nat.succ_lt_succ hlong

/-! ## Values and coefficients -/

/-- The coefficient primitive reads 0 past the degree (42_gf_poly.md R171). -/
theorem coefAt_eq_coefOf {p : Poly} (hp : p ≠ []) (d : Nat) : coefAt p d = coefOf p d := by
  have hpos := List.length_pos_iff.2 hp
  rw [coefAt, coefOf, pdeg]
  by_cases hd : d < p.length
  · rw [if_pos (by omega), if_pos hd]
  · rw [if_neg (by omega), if_neg hd]

/-- Settles O38: PEVAL is Horner's rule on the normalised operand, PCOEF its coefficient. -/
theorem pevalPcoefResult : Obligations.PevalPcoefResult := by
  unfold Obligations.PevalPcoefResult
  intro s a ha
  have hpeval : exec (.peval a) s = endCommand s _ := congrArg (endCommand s) (withOperand_ok ha _)
  have hpcoef : exec (.pcoef a) s = endCommand s _ := congrArg (endCommand s) (withOperand_ok ha _)
  refine ⟨fun hs => ?_, fun hneg => ?_, fun hdeg => ?_⟩
  · rw [hpeval, peval_normalise_eq_polyValue hs, endCommand_eq]
    rfl
  · rw [hpcoef, if_pos (show degOperand s < 0 from hneg), endCommand_error]
  · have hnonneg : ¬degOperand s < 0 := Int.not_lt.2 hdeg
    rw [hpcoef, if_neg hnonneg, toNat_degOperand hdeg, coefAt_eq_coefOf (normalise_normal _).ne_nil, coefOf_normalise,
      endCommand_eq]
    rfl

end Sys2Proof.Machine
end

section
/-! PROOFS. The syndromes (43_reed_solomon.md R202, R204) and the block with none (R210). -/

namespace Sys2Proof.Machine

/-- RSSYN with its counts in range writes the syndrome polynomial. -/
theorem exec_rssyn {s : State} (hr : rangesOk s) (d : BitVec 3) :
    exec (.rssyn d) s = .next (({ putPoly s d (receivedSyndromes s) with degr := degrOf (receivedSyndromes s) } :
      State).ended .ok (decide (receivedSyndromes s = [0#8])) false) := by
  have hlength := receivedSyndromes_length_le hr
  obtain ⟨-, -, -, htwos⟩ := id hr
  have hresult : polyResult s d (receivedSyndromes s) = .ok _ :=
    (polyResult_eq s d _).trans (if_neg (by omega))
  refine (congrArg (endCommandFlags s) (if_pos ((cwlenOk_and_twosOk s).2 hr))).trans ?_
  rw [hresult, endCommandFlags_eq]

/-- Settles O41: the syndrome polynomial is no longer than TWOS, and is [0] exactly where every syndrome is 0. -/
theorem rssynResult : Obligations.RssynResult := by
  unfold Obligations.RssynResult
  intro s d hs hr
  refine ⟨_, _, _, exec_rssyn hr d, polyResult_done s d _ _, receivedSyndromes_normal s,
    coefOf_receivedSyndromes hs hr, ?_⟩
  rw [decide_eq_true_iff, receivedSyndromes_eq_zero_iff hs hr]

/-- Settles O47: with every syndrome 0 RSDEC takes its first branch. -/
theorem decodeCleanBlock : Obligations.DecodeCleanBlock := by
  unfold Obligations.DecodeCleanBlock
  intro s hs hr hclean
  have hzero := (receivedSyndromes_eq_zero_iff hs hr).2 hclean
  refine (congrArg (endCommandFlags s) ((if_pos ((cwlenOk_and_twosOk s).2 hr)).trans (if_pos hzero))).trans ?_
  rw [endCommandFlags_eq]
  rfl

end Sys2Proof.Machine
end

section
/-! PROOFS. RSEUC (43_reed_solomon.md R203, R205): what the extended Euclidean algorithm answers on any two operands, the
cofactor of the first one turned back into a coefficient list. -/

namespace Sys2Proof.Machine

open Polynomial

/-! ## Polynomials as coefficient lists -/

/-- The field of the bytes has no other elements. -/
theorem exists_surjective_fieldMap {g : Tables} (hg : g = buildTables Config.prim) :
    ∃ (K : Type) (_ : Field K) (_ : CharP K 2) (φ : Byte → K), FieldMap g φ ∧ Function.Surjective φ := by
  let _ := byteField hg
  have htwo : (2 : FieldByte) = 0 := by
    rw [← one_add_one_eq_two]
    exact congrArg FieldByte.mk BitVec.xor_self
  exact ⟨FieldByte, byteField hg, CharTwo.of_one_ne_zero_of_two_eq_zero one_ne_zero htwo, FieldByte.mk,
    ⟨fun _ _ => rfl, fun _ _ => rfl, rfl, fun _ _ h => congrArg FieldByte.byte h⟩, fun a => ⟨a.byte, rfl⟩⟩

section
variable {K : Type} [Field K] {g : Tables} {φ : Byte → K} (hφ : FieldMap g φ)
include hφ

/-- Every polynomial over the field of the bytes has a coefficient list. -/
theorem exists_toPoly_eq (hsurj : Function.Surjective φ) (p : K[X]) : ∃ l, toPoly φ l = p := by
  choose byteOf hbyteOf using hsurj
  refine ⟨((List.range (p.natDegree + 1)).map fun d => byteOf (p.coeff d)).reverse, toPoly_eq hφ fun d => ?_⟩
  rw [coefOf_eq_reverse_getD, List.reverse_reverse]
  by_cases hd : d < p.natDegree + 1
  · rw [List.getD_eq_getElem _ _ (by simpa using hd), List.getElem_map, List.getElem_range, hbyteOf]
  · rw [List.getD_eq_default _ _ (by simpa using hd), hφ.zero, coeff_eq_zero_of_natDegree_lt (by omega)]

theorem toPoly_one : toPoly φ [1#8] = 1 := by
  have h := toPoly_pmonoNat hφ 0 1#8
  rwa [hφ.one, C_1, one_mul, pow_zero] at h

/-- The loop of R203 may start on any two operands in the order of their degrees, the first not of too low a degree. -/
theorem EuclidLoopInvariant.start_of_le {a b : Poly} (ha : Normal a) (hb : Normal b) {twos : Nat}
    (hle : pdeg b ≤ pdeg a) (htwos : twos ≤ 2 * pdeg a) :
    EuclidLoopInvariant φ (toPoly φ a) (toPoly φ b) twos a b [0#8] [1#8] where
  normal_rLast := ha
  normal_r := hb
  normal_tLast := normal_zero
  normal_t := .inr ⟨List.cons_ne_nil _ _, by decide⟩
  degree_le := hle
  not_last := htwos
  euclid := by
    rw [toPoly_one hφ, (toPoly_eq_zero_iff hφ normal_zero).2 rfl]
    exact ⟨1, 0, .start _ _⟩

end

/-! ## The algorithm -/

theorem pdeg_pscale_le (g : Tables) {p : Poly} (hp : Normal p) (s : Byte) : pdeg (pscale g p s) ≤ pdeg p :=
  Nat.sub_le_sub_right (pscale_length_le g hp s) 1

theorem pscale_one (g : Tables) (p : Poly) : pscale g p 1#8 = p := by
  rw [pscale, if_neg (by decide), if_pos rfl]

theorem euclidFinish_one {g : Tables} (hg : g = buildTables Config.prim) (r : Poly) :
    euclidFinish g [1#8] r = .ok ([1#8], r) := by
  have hinv : fieldInv g 1#8 = 1#8 := by
    have h := gfMul_fieldInv hg (a := 1#8) (by decide)
    rwa [one_gfMul hg] at h
  have hcoef : coefAt [1#8] 0 = 1#8 := rfl
  rw [euclidFinish, hcoef, if_neg (by decide), gfInv_of_ne_zero g (by decide), hinv]
  simp only [pscale_one]

/-- An operand of degree below TWOS/2 is answered at once. -/
theorem euclid_of_lt {g : Tables} (hg : g = buildTables Config.prim) {a b : Poly} {twos : Nat} (hle : pdeg b ≤ pdeg a)
    (hlt : 2 * pdeg b < twos) : euclid g a b twos = .ok ([1#8], b) := by
  rw [euclid_eq_euclidFinish hle (euclidLoop_of_lt hlt g _ _ _ _), euclidFinish_one hg]

theorem euclid_of_gt {g : Tables} (hg : g = buildTables Config.prim) {a b : Poly} {twos : Nat} (hle : pdeg a < pdeg b)
    (hlt : 2 * pdeg a < twos) : euclid g a b twos = .ok ([1#8], a) := by
  rw [euclid, if_pos hle, euclidLoop_of_lt hlt]
  exact euclidFinish_one hg a

/-- What R203 promises of σ and ω for the operands `a` and `b`: the key equation, with some cofactor of `a`, and the
bounds on the degrees. -/
structure SolvesKeyEquation (g : Tables) (a b : Poly) (twos : Nat) (sigma omega : Poly) : Prop where
  normal_sigma : Normal sigma
  normal_omega : Normal omega
  sigma_at_zero : coefOf sigma 0 = 1#8
  sigma_length : sigma.length ≤ a.length
  omega_length : omega.length ≤ a.length
  omega_degree : 2 * pdeg omega < twos
  equation : ∃ u, ∀ n, coefOf omega n = productCoef g sigma b n ^^^ productCoef g u a n

theorem solvesKeyEquation_one {g : Tables} (hg : g = buildTables Config.prim) {a b : Poly} {twos : Nat} (hb : Normal b)
    (hle : b.length ≤ a.length) (hlt : 2 * pdeg b < twos) : SolvesKeyEquation g a b twos [1#8] b where
  normal_sigma := .inr ⟨List.cons_ne_nil _ _, by decide⟩
  normal_omega := hb
  sigma_at_zero := rfl
  sigma_length := hb.length_pos.trans hle
  omega_length := hle
  omega_degree := hlt
  equation := by
    obtain ⟨K, _, _, φ, hφ⟩ := exists_fieldMap hg
    refine ⟨[0#8], fun n => hφ.injective ?_⟩
    rw [hφ.xor, ← coeff_toPoly_mul hφ, ← coeff_toPoly_mul hφ, toPoly_one hφ, one_mul,
      (toPoly_eq_zero_iff hφ normal_zero).2 rfl, zero_mul, coeff_zero, add_zero, coeff_toPoly hφ]

/-- The remainder and cofactor at which the loop stops, divided by a nonzero constant term of the cofactor, solve the
key equation. -/
theorem EuclidLoopInvariant.solvesKeyEquation {K : Type} [Field K] [CharP K 2] {g : Tables} {φ : Byte → K}
    (hg : g = buildTables Config.prim) (hφ : FieldMap g φ) (hsurj : Function.Surjective φ) {a b : Poly} (ha : Normal a)
    {twos : Nat} {rLast r tLast t : Poly}
    (h : EuclidLoopInvariant φ (toPoly φ a) (toPoly φ b) twos rLast r tLast t) (hr : 2 * pdeg r < twos)
    (ht : coefAt t 0 ≠ 0#8) :
    SolvesKeyEquation g a b twos (pscale g t (fieldInv g (coefAt t 0))) (pscale g r (fieldInv g (coefAt t 0))) := by
  obtain ⟨sLast, s, heuclid⟩ := h.euclid
  have hdegree := heuclid.degree_current
  rw [natDegree_toPoly hφ h.normal_t, natDegree_toPoly hφ h.normal_rLast, natDegree_toPoly hφ ha] at hdegree
  have hle := h.degree_le
  have hlast := h.not_last
  refine ⟨pscale_normal g h.normal_t _, pscale_normal g h.normal_r _, ?_, ?_, ?_, ?_, ?_⟩
  · rw [coefOf_pscale hg, ← coefAt_zero, gfMul_fieldInv hg ht]
  · refine (pscale_length_le g h.normal_t _).trans ?_
    rw [h.normal_t.length_eq, ha.length_eq]
    omega
  · refine (pscale_length_le g h.normal_r _).trans ?_
    rw [h.normal_r.length_eq, ha.length_eq]
    omega
  · have := pdeg_pscale_le g h.normal_r (fieldInv g (coefAt t 0))
    omega
  · obtain ⟨u, hu⟩ := exists_toPoly_eq hφ hsurj (C (φ (fieldInv g (coefAt t 0))) * s)
    refine ⟨u, fun n => hφ.injective ?_⟩
    rw [hφ.xor, ← coeff_toPoly_mul hφ, ← coeff_toPoly_mul hφ, ← coeff_toPoly hφ, toPoly_pscale hφ, toPoly_pscale hφ, hu,
      heuclid.current, ← coeff_add]
    congr 1
    ring

/-- The algorithm ends with CHECKSUM or solves the key equation. -/
theorem euclid_spec {g : Tables} (hg : g = buildTables Config.prim) {a b : Poly} (ha : Normal a) (hb : Normal b)
    {twos : Nat} (htwos : 1 ≤ twos) (hle : pdeg b ≤ pdeg a) :
    euclid g a b twos = .error .checksum ∨
      ∃ sigma omega, euclid g a b twos = .ok (sigma, omega) ∧ SolvesKeyEquation g a b twos sigma omega := by
  by_cases hlt : 2 * pdeg b < twos
  · refine .inr ⟨_, _, euclid_of_lt hg hle hlt, solvesKeyEquation_one hg hb ?_ hlt⟩
    rw [ha.length_eq, hb.length_eq]
    omega
  · obtain ⟨K, _, _, φ, hφ, hsurj⟩ := exists_surjective_fieldMap hg
    have hstart := EuclidLoopInvariant.start_of_le hφ ha hb hle (twos := twos) (by omega)
    obtain ⟨rLast, r, tLast, t, hloop, h, hr⟩ := euclidLoop_spec hg hφ htwos (b.length + 1) hstart (by rw [pdeg]; omega)
    rw [euclid_eq_euclidFinish hle hloop, euclidFinish]
    by_cases ht : coefAt t 0 = 0#8
    · exact .inl (if_pos ht)
    · refine .inr ⟨_, _, ?_, h.solvesKeyEquation hg hφ hsurj ha hr ht⟩
      simp only [if_neg ht, gfInv_of_ne_zero g ht]

/-! ## The command -/

theorem exec_rseuc_ok {s : State} {d q a b : BitVec 3} (ha : operandOk s a) (hb : operandOk s b) (hdq : d ≠ q)
    (htwos : 1 ≤ s.twos.toNat ∧ s.twos.toNat ≤ 255) :
    exec (.rseuc d q a b) s = endCommand s
      (divResult s d q (euclid s.tables (normalise (rawPoly s a)) (normalise (rawPoly s b)) s.twos.toNat)) :=
  (exec_rseuc hdq htwos).trans (congrArg (endCommand s) (withOperands_ok ha hb _))

/-- Settles O42: with an operand of low degree the loop is not entered, and the cofactor it starts from is 1. -/
theorem rseucShortcut : Obligations.RseucShortcut := by
  unfold Obligations.RseucShortcut
  intro s d q a b hs ha hb hdq hpos hle
  rw [exec_rseuc_ok ha hb hdq ⟨hpos, hle⟩]
  refine ⟨fun hdeg hlt => ?_, fun hdeg hlt => ?_⟩
  · obtain ⟨t, hnext, hresults⟩ := endCommand_polyResults (s := s) (p := [1#8]) (by decide)
      (normalise_rawPoly_length_le hb) d q
    rw [euclid_of_lt hs hdeg hlt]
    exact ⟨_, t, hnext, hresults, normalise_normal _, coefOf_normalise _⟩
  · obtain ⟨t, hnext, hresults⟩ := endCommand_polyResults (s := s) (p := [1#8]) (by decide)
      (normalise_rawPoly_length_le ha) d q
    rw [euclid_of_gt hs hdeg hlt]
    exact ⟨_, t, hnext, hresults, normalise_normal _, coefOf_normalise _⟩

/-- Settles O43: σ and ω solve the key equation, and are no longer than the first operand, so that both fit. -/
theorem keyEquation : Obligations.KeyEquation := by
  unfold Obligations.KeyEquation
  intro s d q a b hs ha hb hdq hpos hle hdeg
  rw [exec_rseuc_ok ha hb hdq ⟨hpos, hle⟩]
  obtain herror | ⟨sigma, omega, hok, h⟩ := euclid_spec hs (normalise_normal (rawPoly s a))
    (normalise_normal (rawPoly s b)) hpos hdeg
  · left
    rw [herror]
    exact endCommand_error s _
  · right
    have hfits := normalise_rawPoly_length_le ha
    obtain ⟨t, hnext, hresults⟩ := endCommand_polyResults (s := s) (h.sigma_length.trans hfits)
      (h.omega_length.trans hfits) d q
    obtain ⟨u, hu⟩ := h.equation
    have hdegree : degreeOf omega = pdeg omega := by rw [degreeOf, h.normal_omega.normalise_eq, pdeg]
    refine ⟨sigma, omega, u, t, ?_, hresults, h.normal_sigma, h.normal_omega, h.sigma_at_zero, ?_, fun n => ?_⟩
    · rw [hok]
      exact hnext
    · rw [hdegree]
      exact h.omega_degree
    · rw [hu, productCoef_normalise_right, productCoef_normalise_right]

end Sys2Proof.Machine
end

section
/-! PROOFS. RSCHIEN (43_reed_solomon.md R206): the search stops at the degree-th root, and ends with CHECKSUM where there
are fewer. -/

namespace Sys2Proof.Machine

/-- The search answers the inverses of the first roots, until it holds n. -/
theorem chienSearch_eq (g : Tables) (sigma : Poly) {n : Nat} (left : Nat) {e : Nat} {found : List Byte} (he : 1 ≤ e)
    (hleft : e + left ≤ 256) (hn : found.length ≤ n) :
    chienSearch g sigma n left e found =
      .ok (found ++ ((rootsFrom g sigma e left).take (n - found.length)).map (fieldInv g)) := by
  induction left generalizing e found with
  | zero => simp [chienSearch, rootsFrom]
  | succ left ih =>
    rw [chienSearch]
    by_cases hfull : found.length = n
    · rw [if_pos hfull, hfull, Nat.sub_self, List.take_zero, List.map_nil, List.append_nil]
    rw [if_neg hfull, rootsFrom_succ]
    by_cases hroot : peval g sigma (BitVec.ofNat 8 e) = 0#8
    · have hroom : n - found.length = (n - (found.length + 1)) + 1 := by omega
      simp only [if_pos hroot, gfInv_of_ne_zero g (ofNat_ne_zero he (by omega))]
      rw [ih (by omega) (by omega) (by rw [List.length_append, List.length_singleton]; omega), List.append_assoc, hroom,
        List.take_succ_cons, List.map_cons, List.length_append, List.length_singleton, List.singleton_append]
    · rw [if_neg hroot, if_neg hroot]
      exact ih (by omega) (by omega) hn

theorem chien_eq (g : Tables) (sigma : Poly) :
    chien g sigma =
      if pdeg sigma ≤ (rootsFrom g sigma 1 255).length
      then .ok (((rootsFrom g sigma 1 255).take (pdeg sigma)).map (fieldInv g)) else .error .checksum := by
  have hsearch := chienSearch_eq g sigma (n := pdeg sigma) 255 (e := 1) (found := []) le_rfl le_rfl (Nat.zero_le _)
  simp only [chien, hsearch, List.nil_append, List.length_nil, Nat.sub_zero, List.length_map, List.length_take]
  by_cases h : pdeg sigma ≤ (rootsFrom g sigma 1 255).length
  · rw [if_pos h, if_pos (by omega)]
  · rw [if_neg h, if_neg (by omega)]

/-- The roots of the claim are the roots of the search. -/
theorem rootsOf_eq {g : Tables} (hg : g = buildTables Config.prim) (l : List Byte) :
    rootsOf g l = rootsFrom g (normalise l) 1 255 := by
  have hrange : List.range 256 = 0 :: List.range' 1 255 := by rw [List.range_eq_range', List.range'_succ]
  rw [rootsOf, rootsFrom, hrange, List.map_cons, List.filter_cons_of_neg (by simp)]
  refine List.filter_congr fun x hx => ?_
  obtain ⟨e, he, rfl⟩ := List.mem_map.1 hx
  rw [List.mem_range'_1] at he
  have hne : (BitVec.ofNat 8 e != 0#8) = true := bne_iff_ne.2 (ofNat_ne_zero he.1 (by omega))
  rw [hne, Bool.true_and, peval_normalise_eq_polyValue hg]

theorem degreeOf_eq (l : List Byte) : degreeOf l = pdeg (normalise l) := rfl

/-- What RSCHIEN makes of the locations the search gives (43_reed_solomon.md R206). -/
def chienOutcome (s : State) (r : Except ErrCode (List Byte)) : Except ErrCode State :=
  match r with
  | .error e => .error e
  | .ok found => .ok (putLocations s found)

theorem exec_rschien {s : State} {a : BitVec 3} (ha : operandOk s a) :
    exec (.rschien a) s = endCommand s (chienOutcome s (chien s.tables (normalise (rawPoly s a)))) :=
  congrArg (endCommand s) (withOperand_ok ha _)

/-- Settles O44: the inverses of the first roots, as many as the degree, or CHECKSUM. -/
theorem chienResult : Obligations.ChienResult := by
  unfold Obligations.ChienResult
  intro s a hs ha
  rw [rootsOf_eq hs, exec_rschien ha, chien_eq, degreeOf_eq]
  refine ⟨fun hfew => ?_, fun henough => ?_⟩
  · rw [if_neg (Nat.not_le.2 hfew)]
    exact endCommand_error s _
  · have hlength : (((rootsFrom s.tables (normalise (rawPoly s a)) 1 255).take
        (pdeg (normalise (rawPoly s a)))).map (fieldInv s.tables)).length = pdeg (normalise (rawPoly s a)) := by
      rw [List.length_map, List.length_take]
      exact min_eq_left henough
    refine ⟨_, _, hlength, fun k hk => ?_, stores_writeElems _ _ _, ?_⟩
    · have hk' : k < (rootsFrom s.tables (normalise (rawPoly s a)) 1 255).length := by
        rw [hlength] at hk
        omega
      rw [List.getD_eq_getElem _ _ hk, List.getD_eq_getElem _ _ hk', List.getElem_map, List.getElem_take, gfMul_comm]
      obtain ⟨hne, -⟩ := mem_rootsFrom.1 (List.getElem_mem hk')
      exact gfMul_fieldInv hs hne
    · rw [if_pos henough, endCommand_eq]
      rfl

end Sys2Proof.Machine
end

section
/-! PROOFS. RSFORNEY (43_reed_solomon.md R207): a location's denominator is 0 exactly where the location is repeated. -/

namespace Sys2Proof.Machine

theorem forneyDen_eq_foldl (g : Tables) (x : Byte) (i : Nat) (ls : List Byte) (j : Nat) (den : Byte) :
    forneyDen g x i j ls den =
      (List.range ls.length).foldl
        (fun acc k => if j + k = i then acc else gfMul g acc (gfMul g (ls.getD k 0#8) x ^^^ 1#8)) den := by
  induction ls generalizing j den with
  | nil => rfl
  | cons l ls ih =>
    rw [forneyDen, ih, List.length_cons, List.range_succ_eq_map, List.foldl_cons, List.foldl_map]
    simp only [Nat.add_zero, List.getD_cons_zero, List.getD_cons_succ, gfAdd, Nat.add_assoc, Nat.succ_eq_add_one,
      Nat.add_comm 1]

/-- The denominator of R207 is the product the claim writes. -/
theorem forneyDen_eq_locatorProduct (g : Tables) (locs : List Byte) (i : Nat) (x : Byte) :
    forneyDen g x i 0 locs 1#8 = locatorProduct g locs i x := by
  rw [forneyDen_eq_foldl, locatorProduct]
  simp only [Nat.zero_add]

theorem forneyAt_error {g : Tables} {gbase : Nat} {omega : Poly} {loc : List Byte} {i : Nat} {l : Byte}
    (h : l = 0#8 ∨ forneyDen g (fieldInv g l) i 0 loc 1#8 = 0#8) : forneyAt g gbase omega loc i l = .error .arith := by
  by_cases hl : l = 0#8
  · rw [forneyAt, gfInv, if_pos hl]
  · have hzero (x : Byte) (hx : x = 0#8) : gfInv g x = .error .arith := if_pos hx
    simp only [forneyAt, gfInv_of_ne_zero g hl, hzero _ (h.resolve_left hl)]

theorem forneyAt_eq_ok {g : Tables} {omega : Poly} {loc : List Byte} {i : Nat} {l : Byte} (hl : l ≠ 0#8)
    (hden : forneyDen g (fieldInv g l) i 0 loc 1#8 ≠ 0#8) :
    forneyAt g Config.gbase omega loc i l =
      .ok (gfMul g (peval g omega (fieldInv g l)) (fieldInv g (forneyDen g (fieldInv g l) i 0 loc 1#8))) := by
  simp only [forneyAt, gfInv_of_ne_zero g hl, gfInv_of_ne_zero g hden]
  rfl

theorem forneyAt_error_arith {g : Tables} {gbase : Nat} {omega : Poly} {loc : List Byte} {i : Nat} {l : Byte}
    {e : ErrCode} (h : forneyAt g gbase omega loc i l = .error e) : e = .arith := by
  by_cases hbad : l = 0#8 ∨ forneyDen g (fieldInv g l) i 0 loc 1#8 = 0#8
  · rw [forneyAt_error hbad] at h
    exact (Except.error.inj h).symm
  · rw [not_or] at hbad
    obtain ⟨hl, hden⟩ := hbad
    simp only [forneyAt, gfInv_of_ne_zero g hl, gfInv_of_ne_zero g hden] at h
    cases h

/-- One failing location makes the whole command end with ARITH. -/
theorem forneyFrom_error {g : Tables} {gbase : Nat} {omega : Poly} {loc : List Byte} {i k : Nat} {ls : List Byte}
    (hk : k < ls.length) (h : forneyAt g gbase omega loc (i + k) ls[k] = .error .arith) :
    forneyFrom g gbase omega loc i ls = .error .arith := by
  induction ls generalizing i k with
  | nil => exact absurd hk (Nat.not_lt_zero _)
  | cons l ls ih =>
    rw [forneyFrom]
    cases hhead : forneyAt g gbase omega loc i l with
    | error e => rw [forneyAt_error_arith hhead]
    | ok m =>
      cases k with
      | zero => rw [Nat.add_zero, List.getElem_cons_zero, hhead] at h; cases h
      | succ k =>
        rw [List.getElem_cons_succ, ← Nat.add_assoc, Nat.add_right_comm] at h
        simp only [ih (Nat.lt_of_succ_lt_succ hk) h]

section
variable {K : Type} [Field K] [CharP K 2] {g : Tables} {φ : Byte → K} (hg : g = buildTables Config.prim)
  (hφ : FieldMap g φ) {locs : List Byte}
include hg hφ

/-- A location that stands again at another place makes the denominator 0. -/
theorem forneyDen_eq_zero_of_repeated {i j : Nat} (hi : i < locs.length) (hj : j < locs.length) (hne : i ≠ j)
    (heq : locs[i] = locs[j]) (hzero : locs[i] ≠ 0#8) :
    forneyDen g (fieldInv g locs[i]) i 0 locs 1#8 = 0#8 := by
  have hden := map_forneyDen hφ (fieldInv g locs[i]) 0 i locs 1#8
  rw [Nat.zero_add] at hden
  rw [← hφ.eq_zero_iff, hden, hφ.one, one_mul, List.prod_eq_zero_iff, List.mem_map]
  refine ⟨locs[j], List.mem_eraseIdx_iff_getElem.2 ⟨j, hj, hne.symm, rfl⟩, ?_⟩
  rw [← heq, hφ.fieldInv hg]
  exact (one_add_mul_inv_eq_zero_iff (hφ.eq_zero_iff.not.2 hzero)).2 rfl

theorem forneyDen_ne_zero (hnodup : locs.Nodup) (hzero : 0#8 ∉ locs) {i : Nat} (hi : i < locs.length) :
    forneyDen g (fieldInv g locs[i]) i 0 locs 1#8 ≠ 0#8 := by
  have hne : locs[i] ≠ 0#8 := fun h => hzero (h ▸ List.getElem_mem hi)
  rw [ne_eq, ← hφ.eq_zero_iff, map_forneyDen_eq_eval hg hφ hnodup hi]
  exact eval_locatorPoly_inv_ne_zero hφ.injective (Finset.notMem_erase _ _) (hφ.eq_zero_iff.not.2 hne)

end

theorem forney_error {g : Tables} (hg : g = buildTables Config.prim) {locs : List Byte}
    (h : ¬(locs.Nodup ∧ 0#8 ∉ locs)) (omega : Poly) : forney g Config.gbase omega locs = .error .arith := by
  have hbad : ∃ k, ∃ hk : k < locs.length, locs[k] = 0#8 ∨ forneyDen g (fieldInv g locs[k]) k 0 locs 1#8 = 0#8 := by
    by_cases hzero : 0#8 ∈ locs
    · obtain ⟨k, hk, hk0⟩ := List.getElem_of_mem hzero
      exact ⟨k, hk, .inl hk0⟩
    · obtain ⟨K, _, _, φ, hφ⟩ := exists_fieldMap hg
      have hrepeated : ¬locs.Nodup := fun hnodup => h ⟨hnodup, hzero⟩
      rw [List.nodup_iff_injective_getElem, Function.not_injective_iff] at hrepeated
      obtain ⟨i, j, heq, hne⟩ := hrepeated
      exact ⟨i, i.isLt, .inr (forneyDen_eq_zero_of_repeated hg hφ i.isLt j.isLt (Fin.val_ne_of_ne hne) heq
        fun h0 => hzero (h0 ▸ List.getElem_mem i.isLt))⟩
  obtain ⟨k, hk, hk0⟩ := hbad
  refine forneyFrom_error (i := 0) hk (forneyAt_error ?_)
  rwa [Nat.zero_add]

/-- The magnitude R207 defines at a location, by the place of the location in the list. -/
def forneyValue (g : Tables) (omega : Poly) (locs : List Byte) (l : Byte) : Byte :=
  gfMul g (peval g omega (fieldInv g l)) (fieldInv g (forneyDen g (fieldInv g l) (locs.idxOf l) 0 locs 1#8))

theorem forney_eq_ok {g : Tables} (hg : g = buildTables Config.prim) {locs : List Byte} (hnodup : locs.Nodup)
    (hzero : 0#8 ∉ locs) (omega : Poly) :
    forney g Config.gbase omega locs = .ok (locs.map (forneyValue g omega locs)) := by
  obtain ⟨K, _, _, φ, hφ⟩ := exists_fieldMap hg
  refine forneyFrom_eq_ok 0 locs fun k hk => ?_
  have hne : locs[k] ≠ 0#8 := fun h => hzero (h ▸ List.getElem_mem hk)
  rw [Nat.zero_add, forneyAt_eq_ok hne (forneyDen_ne_zero hg hφ hnodup hzero hk), forneyValue, hnodup.idxOf_getElem]

/-- A magnitude times its denominator is the value of ω. -/
theorem forneyValue_mul {g : Tables} (hg : g = buildTables Config.prim) {locs : List Byte} (hnodup : locs.Nodup)
    (hzero : 0#8 ∉ locs) (omega : Poly) {i : Nat} (hi : i < locs.length) {x : Byte} (hx : gfMul g locs[i] x = 1#8) :
    gfMul g (forneyValue g omega locs locs[i]) (locatorProduct g locs i x) = peval g omega x := by
  obtain ⟨K, _, _, φ, hφ⟩ := exists_fieldMap hg
  have hne : φ locs[i] ≠ 0 := hφ.eq_zero_iff.not.2 fun h => hzero (h ▸ List.getElem_mem hi)
  have hinv : fieldInv g locs[i] = x := by
    apply hφ.injective
    rw [hφ.fieldInv hg]
    refine (eq_inv_of_mul_eq_one_right ?_).symm
    rw [← hφ.gfMul, hx, hφ.one]
  have hden := hφ.eq_zero_iff.not.2 (forneyDen_ne_zero hg hφ hnodup hzero hi)
  rw [hinv] at hden
  apply hφ.injective
  rw [forneyValue, hnodup.idxOf_getElem, hinv, ← forneyDen_eq_locatorProduct, hφ.gfMul, hφ.gfMul, hφ.fieldInv hg,
    mul_assoc, inv_mul_cancel₀ hden, mul_one]

/-- Settles O45: every error of the formula is ARITH, raised exactly where a location is 0 or repeated. -/
theorem forneyResult : Obligations.ForneyResult := by
  unfold Obligations.ForneyResult
  intro s a hs ha hnloc locs
  have hexec := (exec_rsforney hnloc).trans (congrArg (endCommand s) (withOperand_ok ha _))
  have hlocs : locations s = locs := rfl
  simp only [hlocs] at hexec
  rw [hexec]
  refine ⟨fun hbad => ?_, fun hnodup hzero => ?_⟩
  · rw [forney_error hs hbad]
    exact endCommand_error s _
  · refine ⟨locs.map (forneyValue s.tables (normalise (rawPoly s a)) locs), _, List.length_map _,
      stores_writeElems _ _ _, fun i x hi hx => ?_, ?_⟩
    · have hi' : i < (locs.map (forneyValue s.tables (normalise (rawPoly s a)) locs)).length := by
        rwa [List.length_map]
      rw [List.getD_eq_getElem _ _ hi] at hx
      rw [List.getD_eq_getElem _ _ hi', List.getElem_map, forneyValue_mul hs hnodup hzero _ hi hx,
        peval_normalise_eq_polyValue hs]
    · rw [forney_eq_ok hs hnodup hzero, endCommand_eq]
      rfl

end Sys2Proof.Machine
end

section
/-! PROOFS. RSAPPLY (43_reed_solomon.md R208): the first bad location decides the error; with none, each magnitude is
exclusive-ored into the codeword at its position, also where positions repeat. -/

namespace Sys2Proof.Machine

/-! ## Positions -/

/-- A location that RSAPPLY accepts in a block of n codewords. -/
def GoodLocation (g : Tables) (n : Nat) (l : Byte) : Prop := l ≠ 0#8 ∧ (logAt g l).toNat < n

theorem position_of_good {g : Tables} {n : Nat} {l : Byte} (h : GoodLocation g n l) :
    position g n l = .ok (placeOf g n l) := by
  obtain ⟨hne, hlt⟩ := h
  simp only [position, gfLog, if_neg hne]
  rw [if_neg (by omega), placeOf]

theorem position_outside {g : Tables} {n : Nat} (hn : 1 ≤ n) {l : Byte} (hl : l ≠ 0#8) (h : n ≤ (logAt g l).toNat) :
    position g n l = .error .checksum := by
  simp only [position, gfLog, if_neg hl]
  exact if_pos (by omega)

/-- The first location that is not good decides the error. -/
theorem positions_error {g : Tables} {n : Nat} {e : ErrCode} {ls : List Byte} {k : Nat} (hk : k < ls.length)
    (hgood : ∀ (j : Nat) (hj : j < k), GoodLocation g n ls[j]) (h : position g n ls[k] = .error e) :
    positions g n ls = .error e := by
  induction ls generalizing k with
  | nil => exact absurd hk (Nat.not_lt_zero _)
  | cons l ls ih =>
    cases k with
    | zero =>
      rw [List.getElem_cons_zero] at h
      rw [positions, h]
    | succ k =>
      have hrest := ih (Nat.lt_of_succ_lt_succ hk) (fun j hj => hgood (j + 1) (Nat.succ_lt_succ hj)) h
      have hhead : position g n l = .ok (placeOf g n l) := position_of_good (hgood 0 (Nat.succ_pos k))
      simp only [positions, hhead, hrest]

/-! ## Corrections -/

/-- Every correction of a place is exclusive-ored into its codeword. -/
theorem readElem_applyFixes (fixes : List (Nat × Byte)) (m : Memory) (i : Nat) :
    readElem (applyFixes m fixes) (cwbBase + 4 * i) =
      readElem m (cwbBase + 4 * i) ^^^
        xorBelow fixes.length (fun k => if (fixes.getD k (0, 0#8)).1 = i then (fixes.getD k (0, 0#8)).2 else 0#8) := by
  induction fixes generalizing m with
  | nil => exact BitVec.xor_zero.symm
  | cons fix fixes ih =>
    obtain ⟨p, x⟩ := fix
    rw [applyFixes, ih, readElem_writeElem, List.length_cons, xorBelow_succ_left]
    simp only [List.getD_cons_zero, List.getD_cons_succ]
    by_cases hp : p = i
    · rw [if_pos hp, if_pos hp.symm, gfAdd, hp, BitVec.xor_assoc]
    · rw [if_neg hp, if_neg (Ne.symm hp), BitVec.zero_xor]

theorem readByte_writeElem_pad (m : Memory) (a : Nat) (b : Byte) {k : Nat} (hk : 1 ≤ k ∧ k < 4) :
    readByte (writeElem m a b) (a + k) = 0#8 := by
  obtain ⟨hpos, hlt⟩ := hk
  rw [writeElem, writeWord, readByte_setBytes, bytesOfWord_length, if_pos (by omega), Nat.add_sub_cancel_left,
    bytesOfWord_getD _ hlt, byteOfWord_setWidth _ hlt, if_neg (by omega)]

theorem readByte_writeElem_outside (m : Memory) (a : Nat) (b : Byte) {x : Nat} (h : x < a ∨ a + 4 ≤ x) :
    readByte (writeElem m a b) x = readByte m x := by
  rw [writeElem, writeWord, readByte_setBytes, bytesOfWord_length, if_neg (by omega)]

/-- A corrected word holds nothing but its codeword. -/
theorem readByte_applyFixes_pad (fixes : List (Nat × Byte)) (m : Memory) {p k : Nat} (hk : 1 ≤ k ∧ k < 4)
    (h : p ∈ fixes.map Prod.fst ∨ readByte m (cwbBase + 4 * p + k) = 0#8) :
    readByte (applyFixes m fixes) (cwbBase + 4 * p + k) = 0#8 := by
  induction fixes generalizing m with
  | nil => exact h.resolve_left List.not_mem_nil
  | cons fix fixes ih =>
    obtain ⟨p', x⟩ := fix
    refine ih _ ?_
    by_cases hp : p = p'
    · rw [hp]
      exact .inr (readByte_writeElem_pad m _ _ hk)
    · rw [List.map_cons, List.mem_cons, or_iff_right hp] at h
      rwa [readByte_writeElem_outside m _ _ (by omega)]

theorem readByte_applyFixes_outside (fixes : List (Nat × Byte)) (m : Memory) {x : Nat}
    (h : ∀ p ∈ fixes.map Prod.fst, x < cwbBase + 4 * p ∨ cwbBase + 4 * p + 4 ≤ x) :
    readByte (applyFixes m fixes) x = readByte m x := by
  induction fixes generalizing m with
  | nil => rfl
  | cons fix fixes ih =>
    obtain ⟨hfix, hfixes⟩ := List.forall_mem_cons.1 h
    rw [applyFixes, ih _ hfixes, readByte_writeElem_outside m _ _ hfix]

theorem wordOfBytes_low (b : Byte) : wordOfBytes b 0#8 0#8 0#8 = b.setWidth 32 := by
  revert b; decide

/-! ## The command -/

/-- What RSAPPLY makes of the positions of the locations (43_reed_solomon.md R208). -/
def applyOutcome (s : State) (mags : List Byte) (r : Except ErrCode (List Nat)) : Except ErrCode State :=
  match r with
  | .error e => .error e
  | .ok ps => .ok { s with mem := applyFixes s.mem (ps.zip mags) }

theorem exec_rsapply {s : State} (hcwlen : 1 ≤ s.cwlen.toNat ∧ s.cwlen.toNat ≤ 255) (hnloc : s.nloc.toNat ≤ 255) :
    exec .rsapply s = endCommand s
      (applyOutcome s (magnitudes s) (positions s.tables s.cwlen.toNat (locations s))) := by
  have hcounts : (cwlenOk s && nlocOk s) = true := by
    rw [Bool.and_eq_true, cwlenOk_iff, nlocOk_iff]
    exact ⟨hcwlen, hnloc⟩
  exact congrArg (endCommand s) (if_pos hcounts)

theorem locations_length (s : State) : (locations s).length = s.nloc.toNat := readElems_length _ _ _

theorem magnitudes_length (s : State) : (magnitudes s).length = s.nloc.toNat := readElems_length _ _ _

theorem getElem_readElems (m : Memory) (a n : Nat) {k : Nat} (hk : k < (readElems m a n).length) :
    (readElems m a n)[k] = readElem m (a + 4 * k) := by
  simp only [readElems, List.getElem_map, List.getElem_range]

/-- Settles O46: the positions are checked in order before any codeword changes; then each fix is applied. -/
theorem applyResult : Obligations.ApplyResult := by
  unfold Obligations.ApplyResult
  intro s hpos hle hnloc n loc good place
  have hloc {k : Nat} (hk : k < (locations s).length) : (locations s)[k] = loc k := getElem_readElems _ _ _ hk
  have herror {k : Nat} {e : ErrCode} (hk : k < n) (hgood : ∀ j, j < k → good j)
      (h : position s.tables s.cwlen.toNat (loc k) = .error e) : exec .rsapply s = .next (s.failed e) := by
    have hk' : k < (locations s).length := by rwa [locations_length]
    have hpositions := positions_error hk' (fun j hj => by rw [hloc]; exact hgood j hj) (by rwa [hloc])
    rw [exec_rsapply ⟨hpos, hle⟩ hnloc, hpositions]
    exact endCommand_error s e
  refine ⟨fun k hk hgood hzero => herror hk hgood (by rw [hzero]; rfl),
    fun k hk hgood hne hout => herror hk hgood (position_outside hpos hne hout), fun hgood => ?_⟩
  have hpositions : positions s.tables s.cwlen.toNat (locations s) =
      .ok ((locations s).map (placeOf s.tables s.cwlen.toNat)) := by
    refine positions_eq_ok fun l hl => ?_
    obtain ⟨k, hk, rfl⟩ := List.getElem_of_mem hl
    rw [hloc]
    exact hgood k (by rwa [locations_length] at hk)
  have hlength : ((locations s).map (placeOf s.tables s.cwlen.toNat)).length = (magnitudes s).length := by
    rw [List.length_map, locations_length, magnitudes_length]
  have hplaces : (((locations s).map (placeOf s.tables s.cwlen.toNat)).zip (magnitudes s)).map Prod.fst =
      (locations s).map (placeOf s.tables s.cwlen.toNat) := List.map_fst_zip hlength.le
  have hmem (k : Nat) (hk : k < n) : place k ∈ (locations s).map (placeOf s.tables s.cwlen.toNat) := by
    have hk' : k < (locations s).length := by rwa [locations_length]
    exact List.mem_map.2 ⟨loc k, hloc hk' ▸ List.getElem_mem hk', rfl⟩
  refine ⟨applyFixes s.mem (((locations s).map (placeOf s.tables s.cwlen.toNat)).zip (magnitudes s)), ?_,
    fun i _ => ?_, fun k hk => ?_, fun x hx => ?_⟩
  · rw [exec_rsapply ⟨hpos, hle⟩ hnloc, hpositions, endCommand_eq]
    rfl
  · rw [readElem_applyFixes, List.length_zip, hlength, min_self, magnitudes_length]
    congr 1
    refine xorBelow_congr fun k hk => ?_
    have hk' : k < (locations s).length := by rwa [locations_length]
    have hzip : k < (((locations s).map (placeOf s.tables s.cwlen.toNat)).zip (magnitudes s)).length := by
      rwa [List.length_zip, hlength, min_self, magnitudes_length]
    rw [List.getD_eq_getElem _ _ hzip, List.getElem_zip, List.getElem_map, hloc hk']
    simp only [magnitudes, getElem_readElems]
    rfl
  · have hpad (j : Nat) (hj : 1 ≤ j ∧ j < 4) := readByte_applyFixes_pad
      (((locations s).map (placeOf s.tables s.cwlen.toNat)).zip (magnitudes s)) s.mem hj
      (.inl (hplaces ▸ hmem k hk))
    rw [readWord, hpad 1 (by decide), hpad 2 (by decide), hpad 3 (by decide), wordOfBytes_low, readElem]
  · refine readByte_applyFixes_outside _ s.mem fun p hp => ?_
    rw [hplaces, List.mem_map] at hp
    obtain ⟨l, hl, rfl⟩ := hp
    obtain ⟨k, hk, rfl⟩ := List.getElem_of_mem hl
    rw [hloc]
    exact hx k (by rwa [locations_length] at hk)

end Sys2Proof.Machine
end

section
/-! PROOFS. The five stages and RSDEC (43_reed_solomon.md R213): each stage reads back what the one before it wrote, so
that both run the same algorithms on the same values; their memories agree from CWB on. -/

namespace Sys2Proof.Machine

/-! ## Memories that agree from an offset on -/

/-- Two memories read the same from an offset on. -/
def AgreeFrom (base : Nat) (m m' : Memory) : Prop := ∀ x, base ≤ x → readByte m x = readByte m' x

theorem AgreeFrom.writeElems {base : Nat} {m m' : Memory} (h : AgreeFrom base m m') (a : Nat) (l : List Byte) :
    AgreeFrom base (writeElems m a l) (writeElems m' a l) := by
  intro x hx
  rw [stores_writeElems m a l, stores_writeElems m' a l, h x hx]

theorem AgreeFrom.writeElem {base : Nat} {m m' : Memory} (h : AgreeFrom base m m') (a : Nat) (b : Byte) :
    AgreeFrom base (writeElem m a b) (writeElem m' a b) := by
  intro x hx
  simp only [Machine.writeElem, writeWord, readByte_setBytes, h x hx]

theorem AgreeFrom.applyFixes {m m' : Memory} (h : AgreeFrom cwbBase m m') (fixes : List (Nat × Byte)) :
    AgreeFrom cwbBase (applyFixes m fixes) (applyFixes m' fixes) := by
  induction fixes generalizing m m' with
  | nil => exact h
  | cons fix fixes ih =>
    obtain ⟨p, x⟩ := fix
    have hread : readElem m (cwbBase + 4 * p) = readElem m' (cwbBase + 4 * p) := h _ (Nat.le_add_right _ _)
    rw [Machine.applyFixes, Machine.applyFixes, hread]
    exact ih (h.writeElem _ _)

theorem agreeFrom_putPoly (s : State) (k : BitVec 3) {p : Poly} (hp : p.length ≤ 512) :
    AgreeFrom cwbBase (putPoly s k p).mem s.mem := by
  intro x hx
  have hk := k.isLt
  rw [cwbBase] at hx
  exact readByte_of_stores (stores_writeElems s.mem (pbBase k.toNat) p) (.inr (by rw [pbBase]; omega))

theorem AgreeFrom.trans {base : Nat} {m m' m'' : Memory} (h : AgreeFrom base m m') (h' : AgreeFrom base m' m'') :
    AgreeFrom base m m'' := fun x hx => (h x hx).trans (h' x hx)

/-! ## Operands read back -/

theorem readElems_congr {m m' : Memory} {a n : Nat}
    (h : ∀ x, a ≤ x → x < a + 4 * n → readByte m x = readByte m' x) : readElems m a n = readElems m' a n := by
  refine List.map_congr_left fun i hi => h _ (Nat.le_add_right _ _) ?_
  rw [List.mem_range] at hi
  omega

/-- PB[k] holds a polynomial the way a command stores it. -/
def Holds (s : State) (k : BitVec 3) (p : Poly) : Prop := rawPoly s k = p ∧ pblenAt s k = p.length ∧ Normal p ∧ p.length ≤ 512

theorem Holds.operandOk {s : State} {k : BitVec 3} {p : Poly} (h : Holds s k p) : operandOk s k := by
  obtain ⟨-, hlength, hnormal, hle⟩ := h
  rw [Machine.operandOk, hlength]
  exact ⟨hnormal.length_pos, hle⟩

theorem Holds.normalise_rawPoly {s : State} {k : BitVec 3} {p : Poly} (h : Holds s k p) : normalise (rawPoly s k) = p := by
  obtain ⟨hraw, -, hnormal, -⟩ := h
  rw [hraw, hnormal.normalise_eq]

theorem holds_putPoly (s : State) (k : BitVec 3) {p : Poly} (hp : Normal p) (hle : p.length ≤ 512) :
    Holds (putPoly s k p) k p := by
  have hlength : pblenAt (putPoly s k p) k = p.length := (pblenAt_putPoly s k k hle).trans (if_pos rfl)
  refine ⟨?_, hlength, hp, hle⟩
  rw [rawPoly, hlength]
  exact readElems_of_stores (stores_writeElems s.mem (pbBase k.toNat) p)

/-- Another state with the same buffers holds the same polynomials. -/
theorem Holds.congr {s u : State} {k : BitVec 3} {p : Poly} (h : Holds s k p) (hpblen : pblenAt u k = pblenAt s k)
    (hmem : ∀ x, pbBase k.toNat ≤ x → x < pbBase k.toNat + 0x800 → readByte u.mem x = readByte s.mem x) :
    Holds u k p := by
  obtain ⟨hraw, hlength, hnormal, hle⟩ := h
  refine ⟨?_, hpblen.trans hlength, hnormal, hle⟩
  rw [← hraw, rawPoly, rawPoly, hpblen]
  exact readElems_congr fun x hx hx' => hmem x hx (by omega)

theorem Holds.putPoly {s : State} {k j : BitVec 3} {p q : Poly} (h : Holds s k p) (hj : k ≠ j) (hq : q.length ≤ 512) :
    Holds (putPoly s j q) k p := by
  have hne : k.toNat ≠ j.toNat := fun heq => hj (BitVec.eq_of_toNat_eq heq)
  refine h.congr ((pblenAt_putPoly s j k hq).trans (if_neg hj)) fun x hx hx' => ?_
  refine readByte_of_stores (stores_writeElems s.mem (pbBase j.toNat) q) ?_
  rw [pbBase] at *
  omega

/-! ## The stages -/

theorem runCommand_failed {i : Instr} {s : State} {e : ErrCode} (he : e ≠ .ok) (h : exec i s = .next (s.failed e)) :
    runCommand i s = .error e := by
  rw [runCommand, h]
  exact if_neg he

theorem runCommand_done {i : Instr} {s t : State} (h : exec i s = .next t) (ht : t.status.err = .ok) :
    runCommand i s = .ok t := by
  rw [runCommand, h]
  exact if_pos ht

theorem chien_error {g : Tables} {sigma : Poly} {e : ErrCode} (h : chien g sigma = .error e) : e = .checksum := by
  rw [chien_eq] at h
  split at h
  · cases h
  · cases h; rfl

theorem forneyFrom_error_arith {g : Tables} {gbase : Nat} {omega : Poly} {loc : List Byte} {i : Nat} {ls : List Byte}
    {e : ErrCode} (h : forneyFrom g gbase omega loc i ls = .error e) : e = .arith := by
  induction ls generalizing i with
  | nil => cases h
  | cons l ls ih =>
    rw [forneyFrom] at h
    split at h
    · next hhead => cases h; exact forneyAt_error_arith hhead
    split at h
    · next htail => cases h; exact ih htail
    · cases h

theorem positions_error_ne_ok {g : Tables} {n : Nat} {ls : List Byte} {e : ErrCode} (h : positions g n ls = .error e) :
    e ≠ .ok := by
  induction ls with
  | nil => cases h
  | cons l ls ih =>
    rw [positions] at h
    split at h
    · next hhead =>
      cases h
      rw [position, gfLog] at hhead
      by_cases hl : l = 0#8
      · rw [if_pos hl] at hhead
        cases hhead
        exact ErrCode.noConfusion
      · simp only [if_neg hl] at hhead
        split at hhead
        · cases hhead
          exact ErrCode.noConfusion
        · cases hhead
    split at h
    · next htail => cases h; exact ih htail
    · cases h

/-- What every state between the stages of a block `s` has in common: the operands of the decoder are those of `s`, and
the memory from CWB on reads as `m`. -/
structure StageState (s : State) (m : Memory) (u : State) : Prop where
  tables : u.tables = s.tables
  twos : u.twos = s.twos
  cwlen : u.cwlen = s.cwlen
  mem : AgreeFrom cwbBase u.mem m

section
variable {s u : State} {m : Memory} {S P sigma omega : Poly} {found mags : List Byte} {places : List Nat}

theorem stage_rssyn (hr : rangesOk s) :
    ∃ v, runCommand (.rssyn 0#3) s = .ok v ∧ StageState s s.mem v ∧ Holds v 0#3 (receivedSyndromes s) := by
  have hlength := receivedSyndromes_length_le hr
  have htwos := s.twos.isLt
  exact ⟨_, runCommand_done (exec_rssyn hr 0#3) rfl, ⟨rfl, rfl, rfl, agreeFrom_putPoly s 0#3 (by omega)⟩,
    holds_putPoly s 0#3 (receivedSyndromes_normal s) (by omega)⟩

/-- PMONO as the stages run it: the monomial x^TWOS (43_reed_solomon.md R213). -/
theorem stage_pmono (hs : StageState s m u) (hS : Holds u 0#3 S) (htwos : s.twos.toNat ≤ 255) :
    ∃ v, runCommand (.pmono 1#3) { u with deg := u.twos.setWidth 16, ga := 1#8 } = .ok v ∧ StageState s m v ∧
      Holds v 0#3 S ∧ Holds v 1#3 (pmonoNat s.twos.toNat 1#8) := by
  have hdeg : (u.twos.setWidth 16).toNat = s.twos.toNat := by
    rw [hs.twos, BitVec.toNat_setWidth, Nat.mod_eq_of_lt (by omega)]
  have hlength := pmonoNat_length_le s.twos.toNat 1#8
  have hexec : exec (.pmono 1#3) { u with deg := u.twos.setWidth 16, ga := 1#8 } =
      .next (({ putPoly { u with deg := u.twos.setWidth 16, ga := 1#8 } 1#3 (pmonoNat s.twos.toNat 1#8) with
        degr := degrOf (pmonoNat s.twos.toNat 1#8) } : State).done) := by
    have hfits : polyResult { u with deg := u.twos.setWidth 16, ga := 1#8 } 1#3 (pmonoNat s.twos.toNat 1#8) = _ :=
      (polyResult_eq _ _ _).trans (if_neg (by omega))
    rw [exec_pmono_of_nonneg (toInt_nonneg_of_toNat_le (by rw [hdeg]; omega)), hdeg, hfits, endCommand_eq]
  refine ⟨_, runCommand_done hexec rfl, ⟨hs.tables, hs.twos, hs.cwlen, ?_⟩, ?_, ?_⟩
  · exact (agreeFrom_putPoly { u with deg := u.twos.setWidth 16, ga := 1#8 } 1#3 (by omega)).trans hs.mem
  · exact Holds.putPoly (s := { u with deg := u.twos.setWidth 16, ga := 1#8 }) hS (by decide) (by omega)
  · exact holds_putPoly { u with deg := u.twos.setWidth 16, ga := 1#8 } 1#3 (pmonoNat_normal _ _) (by omega)

/-- RSEUC as the stages run it, on what the two stages before it wrote. -/
theorem exec_rseuc_stage (hs : StageState s m u) (hS : Holds u 0#3 S) (hP : Holds u 1#3 P)
    (htwos : 1 ≤ s.twos.toNat ∧ s.twos.toNat ≤ 255) :
    exec (.rseuc 2#3 3#3 1#3 0#3) u =
      endCommand u (divResult u 2#3 3#3 (euclid s.tables P S s.twos.toNat)) := by
  rw [exec_rseuc_ok hP.operandOk hS.operandOk (by decide) (by rwa [hs.twos]), hP.normalise_rawPoly,
    hS.normalise_rawPoly, hs.tables, hs.twos]

theorem stage_rseuc_ok (hs : StageState s m u) (hS : Holds u 0#3 S) (hP : Holds u 1#3 P)
    (htwos : 1 ≤ s.twos.toNat ∧ s.twos.toNat ≤ 255) (heuclid : euclid s.tables P S s.twos.toNat = .ok (sigma, omega))
    (h : SolvesKeyEquation s.tables P S s.twos.toNat sigma omega) :
    ∃ v, runCommand (.rseuc 2#3 3#3 1#3 0#3) u = .ok v ∧ StageState s m v ∧ Holds v 2#3 sigma ∧ Holds v 3#3 omega := by
  obtain ⟨-, -, -, hfits⟩ := id hP
  have hsigma := h.sigma_length.trans hfits
  have homega := h.omega_length.trans hfits
  have hexec : exec (.rseuc 2#3 3#3 1#3 0#3) u =
      .next (({ putPoly (putPoly u 2#3 sigma) 3#3 omega with degr := degrOf sigma } : State).done) := by
    rw [exec_rseuc_stage hs hS hP htwos, heuclid, divResult, polyResults_eq, if_neg (by omega), endCommand_eq]
  refine ⟨_, runCommand_done hexec rfl, ⟨hs.tables, hs.twos, hs.cwlen, ?_⟩, ?_, ?_⟩
  · exact (agreeFrom_putPoly _ 3#3 homega).trans ((agreeFrom_putPoly u 2#3 hsigma).trans hs.mem)
  · exact (holds_putPoly u 2#3 h.normal_sigma hsigma).putPoly (by decide) homega
  · exact holds_putPoly _ 3#3 h.normal_omega homega

/-- RSCHIEN as the stages run it, on what RSEUC wrote. -/
theorem exec_rschien_stage (hs : StageState s m u) (hsigma : Holds u 2#3 sigma) :
    exec (.rschien 2#3) u = endCommand u (chienOutcome u (chien s.tables sigma)) := by
  rw [exec_rschien hsigma.operandOk, hsigma.normalise_rawPoly, hs.tables]

theorem stage_rschien_ok (hs : StageState s m u) (hsigma : Holds u 2#3 sigma) (homega : Holds u 3#3 omega)
    (hchien : chien s.tables sigma = .ok found) :
    ∃ v, runCommand (.rschien 2#3) u = .ok v ∧ StageState s (writeElems m locBase found) v ∧ Holds v 3#3 omega ∧
      v.nloc = BitVec.ofNat 9 found.length := by
  have hexec : exec (.rschien 2#3) u = .next (putLocations u found).done := by
    rw [exec_rschien_stage hs hsigma, hchien, chienOutcome, endCommand_eq]
  refine ⟨_, runCommand_done hexec rfl, ⟨hs.tables, hs.twos, hs.cwlen, hs.mem.writeElems _ _⟩, ?_, rfl⟩
  refine homega.congr rfl fun x _ hx => readByte_of_stores (stores_writeElems u.mem locBase found) (.inl ?_)
  have hbase : pbBase (3#3 : BitVec 3).toNat + 0x800 = 0x3000 := rfl
  rw [hbase] at hx
  rw [locBase]
  omega

theorem readElems_locBase (hmem : AgreeFrom cwbBase u.mem (writeElems m locBase found)) :
    readElems u.mem locBase found.length = found := by
  rw [readElems_congr fun x hx _ => hmem x ((by decide : cwbBase ≤ locBase).trans hx)]
  exact readElems_of_stores (stores_writeElems m locBase found)

theorem toNat_nloc (hfound : found.length ≤ 255) (hnloc : u.nloc = BitVec.ofNat 9 found.length) :
    u.nloc.toNat = found.length := by
  rw [hnloc, BitVec.toNat_ofNat, Nat.mod_eq_of_lt (by omega)]

/-- RSFORNEY as the stages run it, on what RSEUC and RSCHIEN wrote. -/
theorem exec_rsforney_stage (hs : StageState s (writeElems m locBase found) u) (homega : Holds u 3#3 omega)
    (hfound : found.length ≤ 255) (hnloc : u.nloc = BitVec.ofNat 9 found.length) :
    exec (.rsforney 3#3) u =
      endCommand u (forneyOutcome u omega (forney s.tables Config.gbase omega found)) := by
  have hcount := toNat_nloc hfound hnloc
  have hlocations : locations u = found := by rw [locations, hcount, readElems_locBase hs.mem]
  have hexec := (exec_rsforney (a := 3#3) (by omega)).trans (congrArg (endCommand u) (withOperand_ok homega.operandOk _))
  rw [hexec, homega.normalise_rawPoly, hlocations, hs.tables]

theorem stage_rsforney_ok (hs : StageState s (writeElems m locBase found) u) (homega : Holds u 3#3 omega)
    (hfound : found.length ≤ 255) (hnloc : u.nloc = BitVec.ofNat 9 found.length)
    (hforney : forney s.tables Config.gbase omega found = .ok mags) :
    ∃ v, runCommand (.rsforney 3#3) u = .ok v ∧
      StageState s (writeElems (writeElems m locBase found) magBase mags) v ∧ v.nloc = u.nloc := by
  have hexec : exec (.rsforney 3#3) u =
      .next (({ u with mem := writeElems u.mem magBase mags, degr := degrOf omega } : State).done) := by
    rw [exec_rsforney_stage hs homega hfound hnloc, hforney, forneyOutcome, endCommand_eq]
  exact ⟨_, runCommand_done hexec rfl, ⟨hs.tables, hs.twos, hs.cwlen, hs.mem.writeElems _ _⟩, rfl⟩

/-- RSAPPLY as the stages run it, on what RSCHIEN and RSFORNEY wrote. -/
theorem exec_rsapply_stage (hs : StageState s (writeElems (writeElems m locBase found) magBase mags) u)
    (hcwlen : 1 ≤ s.cwlen.toNat ∧ s.cwlen.toNat ≤ 255) (hfound : found.length ≤ 255)
    (hnloc : u.nloc = BitVec.ofNat 9 found.length) (hmags : mags.length = found.length) :
    exec .rsapply u = endCommand u (applyOutcome u mags (positions s.tables s.cwlen.toNat found)) := by
  have hcount := toNat_nloc hfound hnloc
  have hlocations : locations u = found := by
    rw [locations, hcount]
    refine (readElems_congr fun x hx hx' => ?_).trans (readElems_of_stores (stores_writeElems m locBase found))
    rw [hs.mem x ((by decide : cwbBase ≤ locBase).trans hx)]
    refine readByte_of_stores (stores_writeElems _ magBase mags) (.inl ?_)
    rw [locBase] at hx'
    rw [magBase]
    omega
  have hmagnitudes : magnitudes u = mags := by
    rw [magnitudes, hcount, ← hmags,
      readElems_congr fun x hx _ => hs.mem x ((by decide : cwbBase ≤ magBase).trans hx)]
    exact readElems_of_stores (stores_writeElems _ magBase mags)
  rw [exec_rsapply (by rwa [hs.cwlen]) (by omega), hlocations, hmagnitudes, hs.tables, hs.cwlen]

theorem stage_rsapply_ok (hs : StageState s (writeElems (writeElems m locBase found) magBase mags) u)
    (hcwlen : 1 ≤ s.cwlen.toNat ∧ s.cwlen.toNat ≤ 255) (hfound : found.length ≤ 255)
    (hnloc : u.nloc = BitVec.ofNat 9 found.length) (hmags : mags.length = found.length)
    (hpositions : positions s.tables s.cwlen.toNat found = .ok places) :
    ∃ v, runCommand .rsapply u = .ok v ∧ v.nloc = u.nloc ∧
      AgreeFrom cwbBase v.mem (applyFixes (writeElems (writeElems m locBase found) magBase mags) (places.zip mags)) := by
  have hexec : exec .rsapply u = .next (({ u with mem := applyFixes u.mem (places.zip mags) } : State).done) := by
    rw [exec_rsapply_stage hs hcwlen hfound hnloc hmags, hpositions, applyOutcome, endCommand_eq]
  exact ⟨_, runCommand_done hexec rfl, rfl, hs.mem.applyFixes _⟩

end

/-! ## The two decoders -/

/-- What RSDEC makes of the errors it finds (43_reed_solomon.md R210). -/
def decodeOutcome (s : State) (r : Except ErrCode (List Byte × List Byte × List Nat)) :
    Except ErrCode (State × Bool × Bool) :=
  match r with
  | .error e => .error e
  | .ok (found, mags, ps) => .ok (putDecoded s found mags ps, false, false)

/-- RSDEC on a block with a nonzero syndrome. -/
theorem exec_rsdec {s : State} (hr : rangesOk s) (hne : receivedSyndromes s ≠ [0#8]) :
    exec .rsdec s = endCommandFlags s (decodeOutcome s (decodeErrors s)) :=
  congrArg (endCommandFlags s) ((if_pos ((cwlenOk_and_twosOk s).2 hr)).trans (if_neg hne))

theorem exec_rsdec_error {s : State} (hr : rangesOk s) (hne : receivedSyndromes s ≠ [0#8]) {e : ErrCode}
    (h : decodeErrors s = .error e) : exec .rsdec s = .next (s.failed e) := by
  rw [exec_rsdec hr hne, h]
  exact endCommandFlags_error s e

theorem exec_rsdec_ok {s : State} (hr : rangesOk s) (hne : receivedSyndromes s ≠ [0#8]) {found mags : List Byte}
    {ps : List Nat} (h : decodeErrors s = .ok (found, mags, ps)) :
    exec .rsdec s = .next (putDecoded s found mags ps).done := by
  rw [exec_rsdec hr hne, h, decodeOutcome, endCommandFlags_eq]
  rfl

/-- The syndrome polynomial is of lower degree than x^TWOS. -/
theorem pdeg_receivedSyndromes_le {s : State} (hr : rangesOk s) :
    pdeg (receivedSyndromes s) ≤ pdeg (pmonoNat s.twos.toNat 1#8) := by
  have := receivedSyndromes_length_le hr
  simp only [pmonoNat_of_ne_zero (s := 1#8) (by decide), pdeg, List.length_cons, List.length_replicate]
  omega

/-- The stages from RSEUC on. -/
def stagesFromEuclid (s2 : State) : Except ErrCode State := do
  let s3 ← runCommand (.rseuc 2#3 3#3 1#3 0#3) s2
  let s4 ← runCommand (.rschien 2#3) s3
  let s5 ← runCommand (.rsforney 3#3) s4
  runCommand .rsapply s5

/-- The stages from RSFORNEY on. -/
def stagesFromForney (s4 : State) : Except ErrCode State := do
  let s5 ← runCommand (.rsforney 3#3) s4
  runCommand .rsapply s5

/-- The stages end with the error RSDEC ends with, or with a state of the same corrections. -/
theorem decoderStages_spec {s : State} (hs : s.fieldReady) (hr : rangesOk s) :
    (∃ e, decoderStages s = .error e ∧ decodeErrors s = .error e) ∨
    ∃ u found mags ps, decoderStages s = .ok u ∧ decodeErrors s = .ok (found, mags, ps) ∧
      u.nloc = BitVec.ofNat 9 found.length ∧ AgreeFrom cwbBase u.mem (putDecoded s found mags ps).mem := by
  obtain ⟨hcwpos, hcwle, htpos, htle⟩ := id hr
  obtain ⟨s₁, hrun₁, hstage₁, hS₁⟩ := stage_rssyn hr
  obtain ⟨s₂, hrun₂, hstage₂, hS₂, hP₂⟩ := stage_pmono hstage₁ hS₁ htle
  have hstages : decoderStages s = stagesFromEuclid s₂ := by
    rw [decoderStages, hrun₁]
    exact congrArg (· >>= stagesFromEuclid) hrun₂
  obtain heuclid | ⟨sigma, omega, heuclid, hsolves⟩ := euclid_spec hs (pmonoNat_normal s.twos.toNat 1#8)
    (receivedSyndromes_normal s) htpos (pdeg_receivedSyndromes_le hr)
  · have hrun₃ : runCommand (.rseuc 2#3 3#3 1#3 0#3) s₂ = .error .checksum := by
      refine runCommand_failed (by decide) ?_
      rw [exec_rseuc_stage hstage₂ hS₂ hP₂ ⟨htpos, htle⟩, heuclid]
      exact endCommand_error s₂ _
    exact .inl ⟨_, by rw [hstages, stagesFromEuclid, hrun₃]; rfl, by rw [decodeErrors, heuclid]⟩
  obtain ⟨s₃, hrun₃, hstage₃, hsigma₃, homega₃⟩ := stage_rseuc_ok hstage₂ hS₂ hP₂ ⟨htpos, htle⟩ heuclid hsolves
  cases hchien : chien s.tables sigma with
  | error e =>
    have hrun₄ : runCommand (.rschien 2#3) s₃ = .error e := by
      refine runCommand_failed (by rw [chien_error hchien]; decide) ?_
      rw [exec_rschien_stage hstage₃ hsigma₃, hchien]
      exact endCommand_error s₃ e
    exact .inl ⟨e, by rw [hstages, stagesFromEuclid, hrun₃]; exact congrArg (· >>= stagesFromForney) hrun₄,
      by simp only [decodeErrors, heuclid, hchien]⟩
  | ok found =>
  obtain ⟨-, hfound⟩ := chien_length hchien
  obtain ⟨s₄, hrun₄, hstage₄, homega₄, hnloc₄⟩ := stage_rschien_ok hstage₃ hsigma₃ homega₃ hchien
  have hstages₄ : decoderStages s = stagesFromForney s₄ := by
    rw [hstages, stagesFromEuclid, hrun₃]
    exact congrArg (· >>= stagesFromForney) hrun₄
  cases hforney : forney s.tables Config.gbase omega found with
  | error e =>
    have hrun₅ : runCommand (.rsforney 3#3) s₄ = .error e := by
      refine runCommand_failed (by rw [forneyFrom_error_arith hforney]; decide) ?_
      rw [exec_rsforney_stage hstage₄ homega₄ hfound hnloc₄, hforney]
      exact endCommand_error s₄ e
    exact .inl ⟨e, by rw [hstages₄, stagesFromForney, hrun₅]; rfl, by simp only [decodeErrors, heuclid, hchien, hforney]⟩
  | ok mags =>
  obtain ⟨s₅, hrun₅, hstage₅, hnloc₅⟩ := stage_rsforney_ok hstage₄ homega₄ hfound hnloc₄ hforney
  have hstages₅ : decoderStages s = runCommand .rsapply s₅ := by
    rw [hstages₄, stagesFromForney, hrun₅]
    rfl
  have hmags := forney_length hforney
  cases hpositions : positions s.tables s.cwlen.toNat found with
  | error e =>
    have hrun₆ : runCommand .rsapply s₅ = .error e := by
      refine runCommand_failed (positions_error_ne_ok hpositions) ?_
      rw [exec_rsapply_stage hstage₅ ⟨hcwpos, hcwle⟩ hfound (hnloc₅.trans hnloc₄) hmags, hpositions]
      exact endCommand_error s₅ e
    exact .inl ⟨e, hstages₅.trans hrun₆, by simp only [decodeErrors, heuclid, hchien, hforney, hpositions]⟩
  | ok ps =>
    obtain ⟨s₆, hrun₆, hnloc₆, hmem₆⟩ := stage_rsapply_ok hstage₅ ⟨hcwpos, hcwle⟩ hfound (hnloc₅.trans hnloc₄) hmags
      hpositions
    exact .inr ⟨s₆, found, mags, ps, hstages₅.trans hrun₆,
      by simp only [decodeErrors, heuclid, hchien, hforney, hpositions], hnloc₆.trans (hnloc₅.trans hnloc₄), hmem₆⟩

/-- Settles O48: the stages and RSDEC run the same algorithms on the same values, and their memories agree from CWB on. -/
theorem stagesAgree : Obligations.StagesAgree := by
  unfold Obligations.StagesAgree
  intro s hs hr hsyndrome
  have hne : receivedSyndromes s ≠ [0#8] := by
    rw [ne_eq, receivedSyndromes_eq_zero_iff hs hr]
    obtain ⟨n, hn, hvalue⟩ := hsyndrome
    exact fun h => hvalue (h n hn)
  obtain ⟨e, hstages, herrors⟩ | ⟨u, found, mags, ps, hstages, hdecode, hnloc, hmem⟩ := decoderStages_spec hs hr
  · rw [hstages]
    exact exec_rsdec_error hr hne herrors
  · rw [hstages]
    have hread {a : Nat} (ha : cwbBase ≤ a) : readElem (putDecoded s found mags ps).mem a = readElem u.mem a :=
      (hmem a ha).symm
    exact ⟨_, exec_rsdec_ok hr hne hdecode, rfl, rfl, hnloc.symm, fun i _ => hread (Nat.le_add_right _ _),
      fun i _ => ⟨hread (Nat.le_add_right_of_le (by decide)), hread (Nat.le_add_right_of_le (by decide))⟩⟩

end Sys2Proof.Machine
end

section
/-! PROOFS. What a binary32 pattern is (00_scope.md R13): its sign, exponent and fraction, and the number it stands for as
a sign, a significand of at most 24 bits and an exponent. -/

namespace Sys2Proof.Machine

/-! ## Fields -/

theorem f32Exp_eq (a : F32) : f32Exp a = a.toNat / 2 ^ 23 % 2 ^ 8 := by
  rw [f32Exp, BitVec.extractLsb'_toNat, Nat.shiftRight_eq_div_pow]

theorem f32Frac_eq (a : F32) : f32Frac a = a.toNat % 2 ^ 23 := by
  rw [f32Frac, BitVec.extractLsb'_toNat, Nat.shiftRight_zero]

theorem f32Sign_eq (a : F32) : f32Sign a = decide (2 ^ 31 ≤ a.toNat) := BitVec.msb_eq_decide a

theorem f32Exp_lt (a : F32) : f32Exp a < 256 := by rw [f32Exp_eq]; omega

theorem f32Frac_lt (a : F32) : f32Frac a < 2 ^ 23 := by rw [f32Frac_eq]; omega

/-- A pattern is its three fields. -/
theorem f32_toNat_eq (a : F32) :
    a.toNat = (if f32Sign a then 2 ^ 31 else 0) + (f32Exp a * 2 ^ 23 + f32Frac a) := by
  have ha := a.isLt
  rw [f32Exp_eq, f32Frac_eq, f32Sign_eq]
  by_cases h : 2 ^ 31 ≤ a.toNat
  · rw [if_pos (decide_eq_true h)]; omega
  · rw [if_neg (by simpa using h)]; omega

theorem f32_ext {a b : F32} (hsign : f32Sign a = f32Sign b) (hexp : f32Exp a = f32Exp b)
    (hfrac : f32Frac a = f32Frac b) : a = b :=
  BitVec.eq_of_toNat_eq (by rw [f32_toNat_eq a, f32_toNat_eq b, hsign, hexp, hfrac])

theorem toNat_f32WithSign (neg : Bool) {mag : Nat} (h : mag < 2 ^ 31) :
    (f32WithSign neg mag).toNat = (if neg then 2 ^ 31 else 0) + mag := by
  rw [f32WithSign, BitVec.toNat_ofNat, Nat.mod_eq_of_lt]
  split <;> omega

theorem f32Exp_f32WithSign (neg : Bool) {mag : Nat} (h : mag < 2 ^ 31) : f32Exp (f32WithSign neg mag) = mag / 2 ^ 23 := by
  rw [f32Exp_eq, toNat_f32WithSign neg h]
  split <;> omega

theorem f32Frac_f32WithSign (neg : Bool) {mag : Nat} (h : mag < 2 ^ 31) : f32Frac (f32WithSign neg mag) = mag % 2 ^ 23 := by
  rw [f32Frac_eq, toNat_f32WithSign neg h]
  split <;> omega

theorem f32Sign_f32WithSign (neg : Bool) {mag : Nat} (h : mag < 2 ^ 31) : f32Sign (f32WithSign neg mag) = neg := by
  rw [f32Sign_eq, toNat_f32WithSign neg h]
  cases neg with
  | true => rw [if_pos rfl]; simp
  | false => rw [if_neg (by decide)]; simpa using h

theorem fisFinite_iff (a : F32) : fisFinite a = true ↔ f32Exp a ≠ 255 := decide_eq_true_iff

theorem fisNaN_iff (a : F32) : fisNaN a = true ↔ f32Exp a = 255 ∧ f32Frac a ≠ 0 := decide_eq_true_iff

/-! ## The number of a pattern -/

/-- The significand of a finite pattern. -/
def f32Mant (a : F32) : Nat := if f32Exp a = 0 then f32Frac a else 2 ^ 23 + f32Frac a

/-- The exponent of the significand's last place. -/
def f32Scale (a : F32) : Int := if f32Exp a = 0 then -149 else (f32Exp a : Int) - 150

theorem f32Unpack_of_finite {a : F32} (h : fisFinite a = true) :
    f32Unpack a = .fin (f32Sign a) (f32Mant a) (f32Scale a) := by
  rw [f32Unpack, if_neg ((fisFinite_iff a).1 h), f32Mant, f32Scale]
  by_cases h0 : f32Exp a = 0
  · simp only [if_pos h0]
  · simp only [if_neg h0]

theorem f32Mant_lt (a : F32) : f32Mant a < 2 ^ 24 := by
  have := f32Frac_lt a
  rw [f32Mant]
  split <;> omega

theorem neg149_le_f32Scale (a : F32) : -149 ≤ f32Scale a := by
  rw [f32Scale]
  split <;> omega

/-- The unit of a sign. -/
def signUnit (neg : Bool) : ℝ := if neg then -1 else 1

@[simp] theorem signUnit_true : signUnit true = -1 := rfl

@[simp] theorem signUnit_false : signUnit false = 1 := rfl

@[simp] theorem abs_signUnit (neg : Bool) : |signUnit neg| = 1 := by cases neg <;> simp

theorem signUnit_mul_signUnit (na nb : Bool) : signUnit na * signUnit nb = signUnit (na != nb) := by
  cases na <;> cases nb <;> norm_num [signUnit]

/-- The number of a pattern as a real number. -/
noncomputable def realValue (a : F32) : ℝ := ((f32Value a : ℚ) : ℝ)

theorem realValue_eq (a : F32) : realValue a = signUnit (f32Sign a) * (f32Mant a * (2 : ℝ) ^ f32Scale a) := by
  have hsign : (((if f32Sign a then -1 else 1 : ℚ)) : ℝ) = signUnit (f32Sign a) := by
    cases f32Sign a with
    | true => exact Rat.cast_neg 1 |>.trans (congrArg Neg.neg Rat.cast_one)
    | false => exact Rat.cast_one
  rw [realValue, f32Value, f32Mant, f32Scale, Rat.cast_mul, Rat.cast_mul, hsign, mul_assoc]
  by_cases h0 : f32Exp a = 0
  · simp only [if_pos h0, Rat.cast_natCast, Rat.cast_zpow, Rat.cast_ofNat]
  · simp only [if_neg h0, Rat.cast_add, Rat.cast_pow, Rat.cast_natCast, Rat.cast_zpow, Rat.cast_ofNat, Nat.cast_add,
      Nat.cast_pow, Nat.cast_ofNat]

theorem realValue_eq_zero_iff (a : F32) : realValue a = 0 ↔ f32Mant a = 0 := by
  have hscale : (2 : ℝ) ^ f32Scale a ≠ 0 := zpow_ne_zero _ two_ne_zero
  have hsign : signUnit (f32Sign a) ≠ 0 := fun h => by
    have := abs_signUnit (f32Sign a)
    rw [h, abs_zero] at this
    exact zero_ne_one this
  rw [realValue_eq, mul_eq_zero, or_iff_right hsign, mul_eq_zero, or_iff_left hscale, Nat.cast_eq_zero]

theorem f32Value_eq_iff (a b : F32) : f32Value a = f32Value b ↔ realValue a = realValue b := Rat.cast_inj.symm

/-! ## The opposite of a pattern -/

theorem f32Exp_fneg (a : F32) : f32Exp (fneg a) = f32Exp a := by
  have hmask : (0x80000000#32).extractLsb' 23 8 = 0#8 := by decide
  rw [f32Exp, fneg, BitVec.extractLsb'_xor, hmask, BitVec.xor_zero, f32Exp]

theorem f32Frac_fneg (a : F32) : f32Frac (fneg a) = f32Frac a := by
  have hmask : (0x80000000#32).extractLsb' 0 23 = 0#23 := by decide
  rw [f32Frac, fneg, BitVec.extractLsb'_xor, hmask, BitVec.xor_zero, f32Frac]

theorem f32Sign_fneg (a : F32) : f32Sign (fneg a) = !f32Sign a := by
  have hmask : (0x80000000#32).msb = true := by decide
  rw [f32Sign, fneg, BitVec.msb_xor, hmask, Bool.xor_true, f32Sign]

theorem fneg_fneg (a : F32) : fneg (fneg a) = a := by
  rw [fneg, fneg, BitVec.xor_assoc, BitVec.xor_self, BitVec.xor_zero]

theorem fisFinite_fneg (a : F32) : fisFinite (fneg a) = fisFinite a := by
  rw [fisFinite, fisFinite, f32Exp_fneg]

theorem realValue_fneg (a : F32) : realValue (fneg a) = -realValue a := by
  have hsign : signUnit (!f32Sign a) = -signUnit (f32Sign a) := by cases f32Sign a <;> simp
  rw [realValue_eq, realValue_eq, f32Sign_fneg, f32Mant, f32Scale, f32Exp_fneg, f32Frac_fneg, ← f32Mant, ← f32Scale,
    hsign, neg_mul]

theorem fneg_f32WithSign_false {mag : Nat} (h : mag < 2 ^ 31) : fneg (f32WithSign false mag) = f32WithSign true mag := by
  refine f32_ext ?_ ?_ ?_
  · rw [f32Sign_fneg, f32Sign_f32WithSign false h, f32Sign_f32WithSign true h, Bool.not_false]
  · rw [f32Exp_fneg, f32Exp_f32WithSign false h, f32Exp_f32WithSign true h]
  · rw [f32Frac_fneg, f32Frac_f32WithSign false h, f32Frac_f32WithSign true h]

end Sys2Proof.Machine
end

section
/-! PROOFS. Rounding (00_scope.md R13): the units of the last place are the nearest integer, ties to even, and the pattern
built of them is the nearest binary32 number; past the largest one it is the infinity. -/

namespace Sys2Proof.Machine

/-! ## The nearest integer -/

/-- `n` is the integer nearest to `y`, ties to even. -/
def NearestInt (y : ℝ) (n : Nat) : Prop := |y - n| ≤ 1 / 2 ∧ (|y - n| = 1 / 2 → n % 2 = 0)

theorem nearestInt_self (n : Nat) : NearestInt (n : ℝ) n := by
  constructor
  · rw [sub_self, abs_zero]; norm_num
  · intro h
    rw [sub_self, abs_zero] at h
    norm_num at h

/-- No integer is nearer than the nearest, and one as near is the same or shows the tie. -/
theorem NearestInt.le {y : ℝ} {n : Nat} (h : NearestInt y n) (k : ℤ) :
    |y - n| < |y - k| ∨ (|y - n| = |y - k| ∧ (k = n ∨ n % 2 = 0)) := by
  obtain ⟨hhalf, heven⟩ := h
  by_cases hk : k = n
  · exact .inr ⟨by rw [hk, Int.cast_natCast], .inl hk⟩
  · have hone : (1 : ℝ) ≤ |(n : ℝ) - k| := by
      have hne : (n : ℤ) - k ≠ 0 := sub_ne_zero.2 (Ne.symm hk)
      exact_mod_cast Int.one_le_abs hne
    have htriangle : |(n : ℝ) - k| ≤ |y - n| + |y - k| := by
      rw [show (n : ℝ) - k = -(y - n) + (y - k) by ring, ← abs_neg (y - n)]
      exact abs_add_le _ _
    rcases lt_or_eq_of_le hhalf with hlt | heq
    · exact .inl (by linarith)
    · rcases lt_or_eq_of_le (show (1 : ℝ) / 2 ≤ |y - k| by linarith) with hlt | heq'
      · exact .inl (by linarith)
      · exact .inr ⟨by rw [heq, heq'], .inr (heven heq)⟩

theorem NearestInt.lt_add_one {y : ℝ} {n : Nat} (h : NearestInt y n) : y < n + 1 ∧ (n : ℝ) - 1 < y := by
  have := abs_le.1 h.1
  constructor <;> linarith

/-- The exact number behind a truncated one: the integer, or with `sticky` something strictly up to the next one. -/
def Truncated (z : ℝ) (m : Nat) (sticky : Bool) : Prop :=
  if sticky then (m : ℝ) < z ∧ z < m + 1 else z = m

theorem Truncated.bounds {z : ℝ} {m : Nat} {sticky : Bool} (h : Truncated z m sticky) : (m : ℝ) ≤ z ∧ z < m + 1 := by
  cases sticky with
  | true =>
    obtain ⟨hlt, hlt'⟩ := (if_pos rfl : Truncated z m true = _).mp h
    exact ⟨hlt.le, hlt'⟩
  | false =>
    have heq : z = m := h
    rw [heq]
    exact ⟨le_rfl, lt_add_one _⟩

/-- The shift rounds to the nearest integer: the part shifted out is compared with one half. -/
theorem nearestInt_roundShift {z : ℝ} {m : Nat} {sticky : Bool} (hz : Truncated z m sticky) {k : Nat} (hk : k ≠ 0) :
    NearestInt (z / 2 ^ k) (roundShift m k sticky) := by
  obtain ⟨hle, hlt⟩ := hz.bounds
  set half := 2 ^ (k - 1) with hhalf
  have hpow : 2 ^ k = 2 * half := by
    rw [hhalf, ← pow_succ']
    congr 1
    omega
  have hpos : 0 < half := Nat.two_pow_pos _
  have hm := Nat.div_add_mod m (2 ^ k)
  have hlow := Nat.mod_lt m (Nat.two_pow_pos k)
  rw [roundShift, if_neg hk]
  simp only
  set low := m % 2 ^ k
  set q := m / 2 ^ k
  have hpowR : (2 : ℝ) ^ k = 2 * half := by exact_mod_cast hpow
  have hposR : (0 : ℝ) < half := by exact_mod_cast hpos
  have hmR : (m : ℝ) = 2 * half * q + low := by rw [hpow] at hm; exact_mod_cast hm.symm
  have hlowR : (low : ℝ) + 1 ≤ 2 * half := by rw [hpow] at hlow; exact_mod_cast hlow
  have hdiff (n : ℝ) : z / 2 ^ k - n = (z - 2 * half * n) / (2 * half) := by
    rw [hpowR]
    field_simp
  have hden : (0 : ℝ) < 2 * half := by linarith
  have hscale (x : ℝ) : |x / (2 * half)| = |x| / (2 * half) := by rw [abs_div, abs_of_pos hden]
  have hhalfR : (1 : ℝ) / 2 = half / (2 * half) := by field_simp
  have hinside {n : Nat} (h : |z - 2 * half * n| < half) : NearestInt (z / 2 ^ k) n := by
    have hstrict : |z / 2 ^ k - n| < 1 / 2 := by
      rw [hdiff, hscale, hhalfR]
      exact div_lt_div_of_pos_right h hden
    exact ⟨hstrict.le, fun heq => absurd heq hstrict.ne⟩
  have htie {n : Nat} (h : |z - 2 * half * n| = half) (heven : n % 2 = 0) : NearestInt (z / 2 ^ k) n := by
    refine ⟨?_, fun _ => heven⟩
    rw [hdiff, hscale, h, ← hhalfR]
  have hupper : (q + 1 : Nat) = (q : ℝ) + 1 := Nat.cast_succ q
  obtain hover | heq | hunder := Nat.lt_trichotomy half low
  · have hoverR : (half : ℝ) + 1 ≤ low := by exact_mod_cast hover
    rw [if_pos (.inl hover)]
    refine hinside (abs_lt.2 ⟨?_, ?_⟩) <;> rw [hupper] <;> nlinarith
  · have heqR : (low : ℝ) = half := by exact_mod_cast heq.symm
    have honeR : (1 : ℝ) ≤ half := by exact_mod_cast hpos
    cases sticky with
    | true =>
      obtain ⟨hgt, -⟩ := (if_pos rfl : Truncated z m true = _).mp hz
      rw [if_pos (.inr ⟨heq.symm, .inl rfl⟩)]
      refine hinside (abs_lt.2 ⟨?_, ?_⟩) <;> rw [hupper] <;> nlinarith
    | false =>
      have hexact : z = m := hz
      by_cases hodd : q % 2 = 1
      · rw [if_pos (.inr ⟨heq.symm, .inr hodd⟩)]
        refine htie ?_ (by omega)
        rw [hexact, hmR, heqR, hupper, show 2 * (half : ℝ) * q + half - 2 * half * (q + 1) = -half by ring, abs_neg,
          abs_of_pos hposR]
      · have heven : ¬(half < low ∨ (low = half ∧ (false = true ∨ q % 2 = 1))) := by
          rintro (hlt | ⟨-, hfalse | hq⟩)
          · exact hlt.ne heq
          · exact Bool.false_ne_true hfalse
          · exact hodd hq
        rw [if_neg heven]
        refine htie ?_ (by omega)
        rw [hexact, hmR, heqR, add_sub_cancel_left, abs_of_pos hposR]
  · have hunderR : (low : ℝ) + 1 ≤ half := by exact_mod_cast hunder
    rw [if_neg (by omega)]
    refine hinside (abs_lt.2 ⟨?_, ?_⟩) <;> nlinarith

/-! ## The units of the last place -/

section
variable {z : ℝ} {m : Nat} {e : ℤ} {sticky : Bool} (hz : Truncated z m sticky)

theorem zpow_add_natCast (q e : ℤ) (h : q ≤ e) : (2 : ℝ) ^ e = 2 ^ (e - q).toNat * 2 ^ q := by
  rw [← zpow_natCast, ← zpow_add₀ two_ne_zero, Int.toNat_of_nonneg (by omega), sub_add_cancel]

include hz in
/-- The units are the nearest integer to the exact number in units of the last place. -/
theorem nearestInt_f32Units (hm : sticky = true → 2 ^ 25 ≤ m) :
    NearestInt (z * 2 ^ e / 2 ^ f32Quantum m e) (f32Units m e sticky) := by
  have hq : (2 : ℝ) ^ f32Quantum m e ≠ 0 := zpow_ne_zero _ two_ne_zero
  rw [f32Units]
  by_cases hle : f32Quantum m e ≤ e
  · have hsticky : sticky = false := by
      rw [← Bool.not_eq_true]
      intro h
      have hlog : 25 ≤ Nat.log2 m := (Nat.le_log2 (by have := hm h; omega)).2 (hm h)
      rw [f32Quantum] at hle
      omega
    subst hsticky
    have hexact : z = m := hz
    rw [if_pos hle, hexact, zpow_add_natCast _ _ hle, ← mul_assoc, mul_div_assoc, div_self hq, mul_one]
    exact_mod_cast nearestInt_self _
  · have hshift : z * 2 ^ e / 2 ^ f32Quantum m e = z / 2 ^ (f32Quantum m e - e).toNat := by
      rw [zpow_add_natCast e (f32Quantum m e) (by omega)]
      field_simp
    rw [if_neg hle, hshift]
    exact nearestInt_roundShift hz (by omega)

theorem neg149_le_f32Quantum (m : Nat) (e : ℤ) : -149 ≤ f32Quantum m e := le_max_right _ _

include hz in
/-- The exact number is below 2^24 units, and from 2^23 units on but for the numbers below the normal ones. -/
theorem units_bounds (hm : m ≠ 0) :
    z * 2 ^ e / 2 ^ f32Quantum m e < 2 ^ 24 ∧
      (f32Quantum m e = -149 ∨ 2 ^ 23 ≤ z * 2 ^ e / 2 ^ f32Quantum m e) := by
  obtain ⟨hle, hlt⟩ := hz.bounds
  have hq : (0 : ℝ) < 2 ^ f32Quantum m e := zpow_pos two_pos _
  have he : (0 : ℝ) < 2 ^ e := zpow_pos two_pos _
  have hupper : z < 2 ^ (Nat.log2 m + 1) := by
    have : (m : ℝ) + 1 ≤ 2 ^ (Nat.log2 m + 1) := by exact_mod_cast Nat.lt_log2_self
    linarith
  have hlower : (2 : ℝ) ^ Nat.log2 m ≤ z := by
    have : (2 : ℝ) ^ Nat.log2 m ≤ m := by exact_mod_cast Nat.log2_self_le hm
    linarith
  constructor
  · rw [div_lt_iff₀ hq]
    calc z * 2 ^ e < 2 ^ (Nat.log2 m + 1) * 2 ^ e := mul_lt_mul_of_pos_right hupper he
      _ = 2 ^ ((Nat.log2 m + 1 : Nat) + e) := by rw [zpow_add₀ two_ne_zero, zpow_natCast]
      _ ≤ 2 ^ ((24 : Nat) + f32Quantum m e) := by
        refine zpow_le_zpow_right₀ one_le_two ?_
        rw [f32Quantum]
        omega
      _ = 2 ^ 24 * 2 ^ f32Quantum m e := by rw [zpow_add₀ two_ne_zero, zpow_natCast]
  · by_cases hmin : f32Quantum m e = -149
    · exact .inl hmin
    · right
      rw [le_div_iff₀ hq]
      calc (2 : ℝ) ^ 23 * 2 ^ f32Quantum m e = 2 ^ ((23 : Nat) + f32Quantum m e) := by
            rw [zpow_add₀ two_ne_zero, zpow_natCast]
        _ ≤ 2 ^ ((Nat.log2 m : Nat) + e) := by
          refine zpow_le_zpow_right₀ one_le_two ?_
          rw [f32Quantum] at *
          omega
        _ = 2 ^ Nat.log2 m * 2 ^ e := by rw [zpow_add₀ two_ne_zero, zpow_natCast]
        _ ≤ z * 2 ^ e := mul_le_mul_of_nonneg_right hlower he.le

end

/-! ## The pattern of a number of units -/

/-- A number of units of the last place 2^q that has a pattern: fewer than 2^24 of them, or 2^24 where the carry moves into
the exponent, and at least 2^23 but for the numbers below the normal ones. -/
structure HasPattern (q : ℤ) (n : Nat) : Prop where
  quantum : -149 ≤ q
  le : n ≤ 2 ^ 24
  normal : q = -149 ∨ 2 ^ 23 ≤ n
  fits : (q + 149).toNat * 2 ^ 23 + n < 0x7F800000

/-- The low 31 bits of the pattern of n units. -/
def patternBits (q : ℤ) (n : Nat) : Nat := (q + 149).toNat * 2 ^ 23 + n

section
variable {q : ℤ} {n : Nat} (h : HasPattern q n) (neg : Bool)
include h

theorem HasPattern.lt : patternBits q n < 2 ^ 31 := by
  have := h.fits
  rw [patternBits]
  omega

theorem HasPattern.finite : fisFinite (f32WithSign neg (patternBits q n)) = true := by
  have := h.fits
  rw [fisFinite_iff, f32Exp_f32WithSign neg h.lt, patternBits]
  omega

theorem HasPattern.frac_mod_two : f32Frac (f32WithSign neg (patternBits q n)) % 2 = n % 2 := by
  rw [f32Frac_f32WithSign neg h.lt, patternBits]
  omega

/-- The pattern of n units of 2^q stands for n · 2^q. -/
theorem HasPattern.realValue_eq : realValue (f32WithSign neg (patternBits q n)) = signUnit neg * (n * 2 ^ q) := by
  obtain ⟨hquantum, hle, hnormal, hfits⟩ := id h
  rw [Machine.realValue_eq, f32Sign_f32WithSign neg h.lt, f32Mant, f32Scale, f32Exp_f32WithSign neg h.lt,
    f32Frac_f32WithSign neg h.lt, patternBits]
  congr 1
  obtain ⟨k, rfl⟩ : ∃ k : Nat, q = k - 149 := ⟨(q + 149).toNat, by omega⟩
  have hk : ((k : ℤ) - 149 + 149).toNat = k := by omega
  rw [hk]
  by_cases hsub : n < 2 ^ 23
  · have hk0 : k = 0 := by omega
    have hexp : (k * 2 ^ 23 + n) / 2 ^ 23 = 0 := by omega
    have hfrac : (k * 2 ^ 23 + n) % 2 ^ 23 = n := by omega
    rw [hexp, hfrac, if_pos rfl, if_pos rfl, hk0]
    norm_num
  by_cases hfull : n < 2 ^ 24
  · have hexp : (k * 2 ^ 23 + n) / 2 ^ 23 = k + 1 := by omega
    have hfrac : 2 ^ 23 + (k * 2 ^ 23 + n) % 2 ^ 23 = n := by omega
    have hscale : ((k + 1 : Nat) : ℤ) - 150 = k - 149 := by push_cast; ring
    rw [hexp, if_neg (by omega), if_neg (by omega), hfrac, hscale]
  · have hn : n = 2 ^ 24 := by omega
    have hexp : (k * 2 ^ 23 + n) / 2 ^ 23 = k + 2 := by omega
    have hfrac : 2 ^ 23 + (k * 2 ^ 23 + n) % 2 ^ 23 = 2 ^ 23 := by omega
    have hscale : ((k + 2 : Nat) : ℤ) - 150 = (k - 149 : ℤ) + 1 := by push_cast; ring
    rw [hexp, if_neg (by omega), if_neg (by omega), hfrac, hscale, hn, zpow_add_one₀ two_ne_zero]
    push_cast
    ring

end

/-! ## Every other number -/

/-- A finite number is a whole number of units 2^q, or it is smaller than 2^23 of them and 2^q is not the smallest unit. -/
theorem realValue_units (c : F32) (q : ℤ) :
    (∃ k : ℤ, realValue c = k * 2 ^ q) ∨ (q ≠ -149 ∧ realValue c < 2 ^ 23 * 2 ^ q) := by
  rw [realValue_eq]
  by_cases hle : q ≤ f32Scale c
  · refine .inl ⟨(if f32Sign c then -1 else 1) * (f32Mant c * 2 ^ (f32Scale c - q).toNat : Nat), ?_⟩
    rw [zpow_add_natCast q (f32Scale c) hle, signUnit]
    push_cast
    split <;> ring
  · refine .inr ⟨by have := neg149_le_f32Scale c; omega, ?_⟩
    have hpos : (0 : ℝ) < 2 ^ f32Scale c := zpow_pos two_pos _
    have hmant : (f32Mant c : ℝ) < 2 ^ 24 := by exact_mod_cast f32Mant_lt c
    have hsign : signUnit (f32Sign c) ≤ 1 := (le_abs_self _).trans (abs_signUnit _).le
    calc signUnit (f32Sign c) * (f32Mant c * 2 ^ f32Scale c)
        ≤ 1 * (f32Mant c * 2 ^ f32Scale c) :=
          mul_le_mul_of_nonneg_right hsign (mul_nonneg (Nat.cast_nonneg _) hpos.le)
      _ < 1 * (2 ^ 24 * 2 ^ f32Scale c) :=
          mul_lt_mul_of_pos_left (mul_lt_mul_of_pos_right hmant hpos) one_pos
      _ = 2 ^ ((24 : Nat) + f32Scale c) := by rw [one_mul, zpow_add₀ two_ne_zero, zpow_natCast]
      _ ≤ 2 ^ ((23 : Nat) + q) := zpow_le_zpow_right₀ one_le_two (by push_cast; omega)
      _ = 2 ^ 23 * 2 ^ q := by rw [zpow_add₀ two_ne_zero, zpow_natCast]

/-- The pattern of the nearest number of units is the nearest binary32 number. -/
theorem HasPattern.nearest {q : ℤ} {n : Nat} (h : HasPattern q n) {x : ℝ} (hn : NearestInt (x / 2 ^ q) n)
    (hx : q = -149 ∨ 2 ^ 23 ≤ x / 2 ^ q) (c : F32) :
    |x - realValue (f32WithSign false (patternBits q n))| < |x - realValue c| ∨
      (|x - realValue (f32WithSign false (patternBits q n))| = |x - realValue c| ∧
        (realValue c = realValue (f32WithSign false (patternBits q n)) ∨
          f32Frac (f32WithSign false (patternBits q n)) % 2 = 0)) := by
  have hq : (0 : ℝ) < 2 ^ q := zpow_pos two_pos _
  have hdist (k : ℝ) : |x - k * 2 ^ q| = |x / 2 ^ q - k| * 2 ^ q := by
    rw [← abs_of_pos hq, ← abs_mul, abs_of_pos hq, sub_mul, div_mul_cancel₀ _ hq.ne']
  rw [h.realValue_eq, h.frac_mod_two, signUnit_false, one_mul, hdist]
  obtain ⟨k, hk⟩ | ⟨hnormal, hsmall⟩ := realValue_units c q
  · rw [hk, hdist]
    obtain hlt | ⟨heq, htie⟩ := hn.le k
    · exact .inl (mul_lt_mul_of_pos_right hlt hq)
    · refine .inr ⟨by rw [heq], htie.imp_left fun hkn => ?_⟩
      rw [hkn, Int.cast_natCast]
  · left
    have hge := hx.resolve_left hnormal
    have hnear : |x / 2 ^ q - n| ≤ |x / 2 ^ q - ((2 ^ 23 : ℤ) : ℝ)| := by
      obtain hlt | ⟨heq, -⟩ := hn.le (2 ^ 23)
      · exact hlt.le
      · exact heq.le
    have hbase : (((2 ^ 23 : ℤ)) : ℝ) = 2 ^ 23 := by norm_num
    have hx' : 2 ^ 23 * 2 ^ q ≤ x := (le_div_iff₀ hq).1 hge
    calc |x / 2 ^ q - n| * 2 ^ q ≤ |x / 2 ^ q - ((2 ^ 23 : ℤ) : ℝ)| * 2 ^ q := mul_le_mul_of_nonneg_right hnear hq.le
      _ = |x - 2 ^ 23 * 2 ^ q| := by rw [← hdist, hbase]
      _ = x - 2 ^ 23 * 2 ^ q := abs_of_nonneg (sub_nonneg.2 hx')
      _ < x - realValue c := by linarith
      _ ≤ |x - realValue c| := le_abs_self _

end Sys2Proof.Machine
end

section
/-! PROOFS. Every binary32 operation rounds its exact result once (00_scope.md R13, R14): the exact result of each
operation is the number it hands to the rounding. -/

namespace Sys2Proof.Machine

/-! ## Rounding -/

/-- The nearest binary32 number, said with real numbers. -/
theorem nearestEven_iff (x : ℝ) (r : F32) :
    NearestEven x r ↔ (2 ^ 128 - 2 ^ 103 ≤ x → r = f32Inf false) ∧ (x ≤ -(2 ^ 128 - 2 ^ 103) → r = f32Inf true) ∧
      (|x| < 2 ^ 128 - 2 ^ 103 → fisFinite r = true ∧ ∀ c, fisFinite c = true →
        |x - realValue r| < |x - realValue c| ∨
          (|x - realValue r| = |x - realValue c| ∧ (realValue c = realValue r ∨ f32Frac r % 2 = 0))) := by
  simp only [NearestEven, f32Value_eq_iff]
  rfl

theorem fneg_f32Inf_false : fneg (f32Inf false) = f32Inf true := fneg_f32WithSign_false (by decide)

/-- Rounding is symmetric in the sign. -/
theorem NearestEven.neg {x : ℝ} {r : F32} (h : NearestEven x r) : NearestEven (-x) (fneg r) := by
  rw [nearestEven_iff] at *
  obtain ⟨hover, hunder, hfinite⟩ := h
  have hdist (a : F32) : |-x - realValue (fneg a)| = |x - realValue a| := by
    rw [realValue_fneg, ← abs_neg, neg_sub_neg]
    congr 1
    ring
  refine ⟨fun hx => ?_, fun hx => ?_, fun hx => ?_⟩
  · rw [hunder (by linarith), ← fneg_f32Inf_false, fneg_fneg]
  · rw [hover (by linarith), fneg_f32Inf_false]
  · rw [abs_neg] at hx
    obtain ⟨hr, hnearest⟩ := hfinite hx
    refine ⟨by rwa [fisFinite_fneg], fun c hc => ?_⟩
    have h := hnearest (fneg c) (by rwa [fisFinite_fneg])
    rw [← hdist (fneg c), fneg_fneg] at h
    rw [hdist, f32Frac_fneg, realValue_fneg r]
    rwa [realValue_fneg, neg_eq_iff_eq_neg] at h

theorem threshold_pos : (0 : ℝ) < 2 ^ 128 - 2 ^ 103 := by norm_num

theorem nearestEven_zero (neg : Bool) : NearestEven 0 (f32Zero neg) := by
  have hvalue : realValue (f32Zero neg) = 0 := by
    rw [realValue_eq_zero_iff, f32Zero, f32Mant, f32Exp_f32WithSign neg (by decide), f32Frac_f32WithSign neg (by decide)]
    rfl
  rw [nearestEven_iff]
  refine ⟨fun h => absurd h (not_le.2 threshold_pos), fun h => absurd h (by linarith [threshold_pos]), fun _ => ⟨?_, ?_⟩⟩
  · rw [fisFinite_iff, f32Zero, f32Exp_f32WithSign neg (by decide)]
    decide
  · intro c _
    rw [hvalue, sub_zero, abs_zero, zero_sub, abs_neg]
    obtain hlt | heq := lt_or_eq_of_le (abs_nonneg (realValue c))
    · exact .inl hlt
    · exact .inr ⟨heq, .inl (abs_eq_zero.1 heq.symm)⟩

section
variable {z : ℝ} {m : Nat} {e : ℤ} {sticky : Bool}

theorem f32Round_true (m : Nat) (e : ℤ) (sticky : Bool) : f32Round true m e sticky = fneg (f32Round false m e sticky) := by
  have hlt : f32Magnitude m e sticky < 2 ^ 31 := by
    rw [f32Magnitude]
    omega
  rw [f32Round, f32Round]
  split
  · exact (fneg_f32WithSign_false (by decide)).symm
  · exact (fneg_f32WithSign_false hlt).symm

/-- The units of a nonzero number: how many there can be. -/
theorem f32Units_bounds (hz : Truncated z m sticky) (hm : m ≠ 0) (hsticky : sticky = true → 2 ^ 25 ≤ m) :
    f32Units m e sticky ≤ 2 ^ 24 ∧ (f32Quantum m e = -149 ∨ 2 ^ 23 ≤ f32Units m e sticky) := by
  obtain ⟨hlt, hnormal⟩ := units_bounds (e := e) hz hm
  obtain ⟨hup, hdown⟩ := (nearestInt_f32Units (e := e) hz hsticky).lt_add_one
  constructor
  · have : (f32Units m e sticky : ℝ) < (2 ^ 24 : Nat) + 1 := by push_cast; linarith
    have : f32Units m e sticky < 2 ^ 24 + 1 := by exact_mod_cast this
    omega
  · refine hnormal.imp_right fun hge => ?_
    have : ((2 ^ 23 : Nat) : ℝ) < f32Units m e sticky + 1 := by push_cast; linarith
    have : 2 ^ 23 < f32Units m e sticky + 1 := by exact_mod_cast this
    omega

/-- From the midpoint past the largest finite number on, the units and their carry are past the largest pattern. -/
theorem overflow_iff (hz : Truncated z m sticky) (hm : m ≠ 0) (hsticky : sticky = true → 2 ^ 25 ≤ m) :
    2 ^ 128 - 2 ^ 103 ≤ z * 2 ^ e ↔ 0x7F800000 ≤ patternBits (f32Quantum m e) (f32Units m e sticky) := by
  obtain ⟨hlt, hnormal⟩ := units_bounds (e := e) hz hm
  obtain ⟨hhalf, heven⟩ := nearestInt_f32Units (e := e) hz hsticky
  obtain ⟨hle, hnormal'⟩ := f32Units_bounds (e := e) hz hm hsticky
  have hmin := neg149_le_f32Quantum m e
  generalize hq : f32Quantum m e = q at *
  generalize f32Units m e sticky = n at *
  have hpos : (0 : ℝ) < 2 ^ q := zpow_pos two_pos _
  have hx : z * 2 ^ e = z * 2 ^ e / 2 ^ q * 2 ^ q := (div_mul_cancel₀ _ hpos.ne').symm
  generalize z * 2 ^ e / 2 ^ q = y at *
  rw [hx, patternBits]
  obtain hsmall | rfl | hlarge := lt_trichotomy q 104
  · refine ⟨fun h => absurd h (not_le.2 ?_), fun h => absurd h (by omega)⟩
    calc y * 2 ^ q < 2 ^ 24 * 2 ^ q := mul_lt_mul_of_pos_right hlt hpos
      _ ≤ 2 ^ 24 * 2 ^ (103 : ℤ) :=
        mul_le_mul_of_nonneg_left (zpow_le_zpow_right₀ one_le_two (by omega)) (by norm_num)
      _ ≤ 2 ^ 128 - 2 ^ 103 := by norm_num
  · have hunit : (2 : ℝ) ^ 128 - 2 ^ 103 = (2 ^ 24 - 1 / 2) * 2 ^ (104 : ℤ) := by norm_num
    rw [hunit, mul_le_mul_iff_of_pos_right hpos]
    have habs := abs_le.1 hhalf
    constructor
    · intro hy
      by_contra hbits
      have hn : n + 1 ≤ 2 ^ 24 := by omega
      have hnR : (n : ℝ) + 1 ≤ 2 ^ 24 := by exact_mod_cast hn
      have htie : |y - n| = 1 / 2 := le_antisymm hhalf ((by linarith : (1 : ℝ) / 2 ≤ y - n).trans (le_abs_self _))
      have hn' : (n : ℝ) = (2 ^ 24 - 1 : Nat) := by
        push_cast
        linarith
      have hn'' : n = 2 ^ 24 - 1 := by exact_mod_cast hn'
      have := heven htie
      omega
    · intro hbits
      have hn : n = 2 ^ 24 := by omega
      rw [hn] at habs
      push_cast at habs
      linarith
  · refine ⟨fun _ => by omega, fun _ => ?_⟩
    have hge := hnormal.resolve_left (by omega)
    calc (2 : ℝ) ^ 128 - 2 ^ 103 ≤ 2 ^ 23 * 2 ^ (105 : ℤ) := by norm_num
      _ ≤ 2 ^ 23 * 2 ^ q := mul_le_mul_of_nonneg_left (zpow_le_zpow_right₀ one_le_two (by omega)) (by norm_num)
      _ ≤ y * 2 ^ q := mul_le_mul_of_nonneg_right hge hpos.le

/-- The rounding of a positive number. -/
theorem nearestEven_f32Round_pos (hz : Truncated z m sticky) (hm : m ≠ 0) (hsticky : sticky = true → 2 ^ 25 ≤ m) :
    NearestEven (z * 2 ^ e) (f32Round false m e sticky) := by
  have hnonneg : 0 ≤ z * 2 ^ e := mul_nonneg ((Nat.cast_nonneg m).trans hz.bounds.1) (zpow_pos two_pos _).le
  have hoverflow := overflow_iff (e := e) hz hm hsticky
  have hround : f32Round false m e sticky =
      f32WithSign false (min (patternBits (f32Quantum m e) (f32Units m e sticky)) 0x7F800000) := if_neg hm
  rw [nearestEven_iff, hround]
  refine ⟨fun h => ?_, fun h => absurd h (by linarith [threshold_pos]), fun h => ?_⟩
  · rw [min_eq_right (hoverflow.1 h), f32Inf]
  · rw [abs_of_nonneg hnonneg] at h
    have hfits := not_le.1 (mt hoverflow.2 (not_le.2 h))
    obtain ⟨hle, hnormal⟩ := f32Units_bounds (e := e) hz hm hsticky
    have hpattern : HasPattern (f32Quantum m e) (f32Units m e sticky) :=
      ⟨neg149_le_f32Quantum m e, hle, hnormal, hfits⟩
    obtain ⟨-, hnormal'⟩ := units_bounds (e := e) hz hm
    rw [min_eq_left hfits.le]
    exact ⟨hpattern.finite false, fun c _ => hpattern.nearest (nearestInt_f32Units hz hsticky) hnormal' c⟩

/-- The rounding of an exact number: its sign, the truncated magnitude, and whether something was cut off. -/
theorem nearestEven_f32Round (neg : Bool) (hz : Truncated z m sticky) (hsticky : sticky = true → 2 ^ 25 ≤ m) :
    NearestEven (signUnit neg * (z * 2 ^ e)) (f32Round neg m e sticky) := by
  by_cases hm : m = 0
  · have hfalse : sticky = false := by
      rw [← Bool.not_eq_true]
      intro h
      have := hsticky h
      omega
    subst hfalse
    have hzero : z = 0 := by
      have : z = m := hz
      rw [this, hm, Nat.cast_zero]
    rw [hzero, zero_mul, mul_zero, f32Round, if_pos hm]
    exact nearestEven_zero neg
  · cases neg with
    | false =>
      rw [signUnit_false, one_mul]
      exact nearestEven_f32Round_pos hz hm hsticky
    | true =>
      rw [signUnit_true, neg_one_mul, f32Round_true]
      exact (nearestEven_f32Round_pos hz hm hsticky).neg

/-- The rounding of a number that is not cut off. -/
theorem nearestEven_f32Round_exact (neg : Bool) (m : Nat) (e : ℤ) :
    NearestEven (signUnit neg * (m * 2 ^ e)) (f32Round neg m e false) :=
  nearestEven_f32Round neg (show Truncated (m : ℝ) m false from rfl) fun h => absurd h Bool.false_ne_true

end

/-! ## The operations -/

/-- The rounding of an integer number of units. -/
theorem nearestEven_f32Round_int (x : ℤ) (e : ℤ) :
    NearestEven (x * 2 ^ e) (f32Round (decide (x < 0)) x.natAbs e false) := by
  have h := nearestEven_f32Round_exact (decide (x < 0)) x.natAbs e
  have hx : (x : ℝ) = signUnit (decide (x < 0)) * x.natAbs := by
    by_cases hneg : x < 0
    · rw [decide_eq_true hneg, signUnit_true, Nat.cast_natAbs, abs_of_neg hneg]
      push_cast
      ring
    · rw [decide_eq_false hneg, signUnit_false, Nat.cast_natAbs, abs_of_nonneg (not_lt.1 hneg), one_mul]
  rwa [← mul_assoc, ← hx] at h

theorem cast_signedOf (neg : Bool) (m : Nat) : ((signedOf neg m : ℤ) : ℝ) = signUnit neg * m := by
  cases neg with
  | true => rw [signedOf, if_pos rfl, signUnit_true]; push_cast; ring
  | false => rw [signedOf, if_neg Bool.false_ne_true, signUnit_false, one_mul]; norm_cast

theorem nearestEven_f32AddFin (na : Bool) (ma : Nat) (ea : ℤ) (nb : Bool) (mb : Nat) (eb : ℤ) :
    NearestEven (signUnit na * (ma * 2 ^ ea) + signUnit nb * (mb * 2 ^ eb)) (f32AddFin na ma ea nb mb eb) := by
  rw [f32AddFin]
  set e := min ea eb
  set x := signedOf na (ma * 2 ^ (ea - e).toNat) + signedOf nb (mb * 2 ^ (eb - e).toNat) with hx
  have hsum : signUnit na * (ma * 2 ^ ea) + signUnit nb * (mb * 2 ^ eb) = x * 2 ^ e := by
    rw [hx, Int.cast_add, cast_signedOf, cast_signedOf, zpow_add_natCast e ea (min_le_left _ _),
      zpow_add_natCast e eb (min_le_right _ _)]
    push_cast
    ring
  rw [hsum]
  by_cases h0 : x = 0
  · rw [if_pos h0, h0, Int.cast_zero, zero_mul]
    exact nearestEven_zero _
  · rw [if_neg h0]
    exact nearestEven_f32Round_int x e

theorem fadd_of_finite {a b : F32} (ha : fisFinite a = true) (hb : fisFinite b = true) :
    fadd a b = f32AddFin (f32Sign a) (f32Mant a) (f32Scale a) (f32Sign b) (f32Mant b) (f32Scale b) := by
  rw [fadd, f32Unpack_of_finite ha, f32Unpack_of_finite hb]

theorem nearestEven_fadd {a b : F32} (ha : fisFinite a = true) (hb : fisFinite b = true) :
    NearestEven (realValue a + realValue b) (fadd a b) := by
  rw [fadd_of_finite ha hb, realValue_eq a, realValue_eq b]
  exact nearestEven_f32AddFin _ _ _ _ _ _

theorem nearestEven_fsub {a b : F32} (ha : fisFinite a = true) (hb : fisFinite b = true) :
    NearestEven (realValue a - realValue b) (fsub a b) := by
  rw [sub_eq_add_neg, ← realValue_fneg]
  exact nearestEven_fadd ha (by rwa [fisFinite_fneg])

theorem fmul_of_finite {a b : F32} (ha : fisFinite a = true) (hb : fisFinite b = true) :
    fmul a b = f32Round (f32Sign a != f32Sign b) (f32Mant a * f32Mant b) (f32Scale a + f32Scale b) false := by
  rw [fmul, f32Unpack_of_finite ha, f32Unpack_of_finite hb]

theorem nearestEven_fmul {a b : F32} (ha : fisFinite a = true) (hb : fisFinite b = true) :
    NearestEven (realValue a * realValue b) (fmul a b) := by
  have hproduct : realValue a * realValue b = signUnit (f32Sign a != f32Sign b) *
      ((f32Mant a * f32Mant b : Nat) * 2 ^ (f32Scale a + f32Scale b)) := by
    rw [realValue_eq a, realValue_eq b, ← signUnit_mul_signUnit, zpow_add₀ two_ne_zero]
    push_cast
    ring
  rw [fmul_of_finite ha hb, hproduct]
  exact nearestEven_f32Round_exact _ _ _

/-- A quotient of natural numbers, cut off to an integer. -/
theorem truncated_div (n : Nat) {d : Nat} (hd : d ≠ 0) : Truncated ((n : ℝ) / d) (n / d) (decide (n % d ≠ 0)) := by
  have hdR : (0 : ℝ) < d := by exact_mod_cast Nat.pos_of_ne_zero hd
  have hmod : (n : ℝ) = d * (n / d : Nat) + (n % d : Nat) := by exact_mod_cast (Nat.div_add_mod n d).symm
  have hquotient : (n : ℝ) / d = (n / d : Nat) + (n % d : Nat) / d := by
    rw [eq_comm, ← mul_left_cancel_iff_of_pos hdR, mul_add, mul_div_cancel₀ _ hdR.ne', mul_div_cancel₀ _ hdR.ne', ← hmod]
  rw [hquotient]
  by_cases hr : n % d = 0
  · rw [hr, Nat.cast_zero, zero_div, add_zero]
    rfl
  · have hpos : (0 : ℝ) < (n % d : Nat) := by exact_mod_cast Nat.pos_of_ne_zero hr
    have hlt : ((n % d : Nat) : ℝ) < d := by exact_mod_cast Nat.mod_lt n (Nat.pos_of_ne_zero hd)
    rw [decide_eq_true hr]
    exact ⟨lt_add_of_pos_right _ (div_pos hpos hdR), (add_lt_add_iff_left _).2 ((div_lt_one hdR).2 hlt)⟩

theorem nearestEven_f32DivFin (neg : Bool) {ma mb : Nat} (ea eb : ℤ) (ha : ma ≠ 0) (hb : mb ≠ 0) (hlt : mb < 2 ^ 24) :
    NearestEven (signUnit neg * (ma / mb * 2 ^ (ea - eb))) (f32DivFin neg ma ea mb eb) := by
  have hquotient : (ma : ℝ) / mb * 2 ^ (ea - eb) = ((ma * 2 ^ 50 : Nat) : ℝ) / mb * 2 ^ (ea - eb - 50) := by
    rw [zpow_sub₀ two_ne_zero (ea - eb) 50]
    push_cast
    field_simp
    norm_num
  rw [hquotient, f32DivFin]
  refine nearestEven_f32Round neg (truncated_div _ hb) fun _ => ?_
  rw [Nat.le_div_iff_mul_le (Nat.pos_of_ne_zero hb)]
  calc 2 ^ 25 * mb ≤ 2 ^ 25 * 2 ^ 24 := Nat.mul_le_mul_left _ hlt.le
    _ ≤ 1 * 2 ^ 50 := by norm_num
    _ ≤ ma * 2 ^ 50 := Nat.mul_le_mul_right _ (Nat.pos_of_ne_zero ha)

theorem nearestEven_fdiv {a b : F32} (ha : fisFinite a = true) (hb : fisFinite b = true) (hb0 : realValue b ≠ 0) :
    NearestEven (realValue a / realValue b) (fdiv a b) := by
  rw [ne_eq, realValue_eq_zero_iff] at hb0
  rw [fdiv, f32Unpack_of_finite ha, f32Unpack_of_finite hb]
  simp only [if_neg hb0]
  by_cases ha0 : f32Mant a = 0
  · rw [if_pos ha0, (realValue_eq_zero_iff a).2 ha0, zero_div]
    exact nearestEven_zero _
  · have hsign : signUnit (f32Sign a) / signUnit (f32Sign b) = signUnit (f32Sign a != f32Sign b) := by
      rw [← signUnit_mul_signUnit]
      cases f32Sign b <;> simp [div_neg]
    have hquotient : realValue a / realValue b = signUnit (f32Sign a != f32Sign b) *
        (f32Mant a / f32Mant b * 2 ^ (f32Scale a - f32Scale b)) := by
      rw [realValue_eq a, realValue_eq b, ← hsign, zpow_sub₀ two_ne_zero, mul_div_mul_comm, mul_div_mul_comm]
    rw [if_neg ha0, hquotient]
    exact nearestEven_f32DivFin _ _ _ ha0 hb0 (f32Mant_lt b)

/-! ## The square root -/

/-- The bits found from the top keep the root below and its square's next one above. -/
theorem isqrtFrom_spec (n : Nat) {k r : Nat} (hle : r * r ≤ n) (hlt : n < (r + 2 ^ k) * (r + 2 ^ k)) :
    isqrtFrom n k r * isqrtFrom n k r ≤ n ∧ n < (isqrtFrom n k r + 1) * (isqrtFrom n k r + 1) := by
  induction k generalizing r with
  | zero => exact ⟨hle, by simpa [isqrtFrom] using hlt⟩
  | succ k ih =>
    rw [isqrtFrom]
    by_cases hbit : (r + 2 ^ k) * (r + 2 ^ k) ≤ n
    · rw [if_pos hbit]
      refine ih hbit ?_
      rwa [Nat.add_assoc, ← Nat.two_mul, ← Nat.pow_succ']
    · rw [if_neg hbit]
      exact ih hle (Nat.lt_of_not_le hbit)

theorem isqrt_spec {n k : Nat} (h : n < 2 ^ k * 2 ^ k) :
    isqrt n k * isqrt n k ≤ n ∧ n < (isqrt n k + 1) * (isqrt n k + 1) :=
  isqrtFrom_spec n (Nat.zero_le _) (by rwa [Nat.zero_add])

theorem truncated_sqrt {n r : Nat} (hle : r * r ≤ n) (hlt : n < (r + 1) * (r + 1)) :
    Truncated (Real.sqrt n) r (decide (r * r ≠ n)) := by
  have hupper : Real.sqrt n < r + 1 := by
    rw [Real.sqrt_lt' (by positivity), sq]
    exact_mod_cast hlt
  by_cases heq : r * r = n
  · rw [decide_eq_false (not_not.2 heq), ← heq, Nat.cast_mul, Real.sqrt_mul_self (Nat.cast_nonneg r)]
    rfl
  · rw [decide_eq_true heq]
    refine ⟨?_, hupper⟩
    rw [Real.lt_sqrt (Nat.cast_nonneg r), sq]
    exact_mod_cast Nat.lt_of_le_of_ne hle heq

theorem nearestEven_f32SqrtFin {m : Nat} (hm : m ≠ 0) (hlt : m < 2 ^ 24) (e : ℤ) :
    NearestEven (Real.sqrt (m * 2 ^ e)) (f32SqrtFin m e) := by
  rw [f32SqrtFin]
  set odd := (e % 2).toNat with hodd
  have hodd_le : odd ≤ 1 := by omega
  have hbits : m * 2 ^ (52 + odd) < 2 ^ 39 * 2 ^ 39 := by
    calc m * 2 ^ (52 + odd) ≤ m * 2 ^ 53 := Nat.mul_le_mul_left _ (Nat.pow_le_pow_right (by decide) (by omega))
      _ < 2 ^ 24 * 2 ^ 53 := Nat.mul_lt_mul_of_pos_right hlt (by decide)
      _ ≤ 2 ^ 39 * 2 ^ 39 := by norm_num
  have hlower : 2 ^ 26 * 2 ^ 26 ≤ m * 2 ^ (52 + odd) := by
    calc 2 ^ 26 * 2 ^ 26 = 1 * 2 ^ 52 := by norm_num
      _ ≤ m * 2 ^ (52 + odd) := Nat.mul_le_mul (Nat.pos_of_ne_zero hm) (Nat.pow_le_pow_right (by decide) (by omega))
  set n := m * 2 ^ (52 + odd) with hn
  obtain ⟨hle, hlt'⟩ := isqrt_spec hbits
  have hroot : 2 ^ 25 ≤ isqrt n 39 := by
    by_contra hsmall
    have hr : isqrt n 39 + 1 ≤ 2 ^ 26 := by omega
    exact absurd (hlt'.trans_le (Nat.mul_le_mul hr hr)) (Nat.not_lt.2 hlower)
  set half := (e - (52 + odd)) / 2 with hhalf
  have heven : e = (52 + odd : Nat) + (half + half) := by push_cast; omega
  have hradicand : (m : ℝ) * 2 ^ e = n * (2 ^ half * 2 ^ half) := by
    rw [hn, heven, zpow_add₀ two_ne_zero, zpow_natCast, zpow_add₀ two_ne_zero]
    push_cast
    ring
  have hvalue : Real.sqrt (m * 2 ^ e) = signUnit false * (Real.sqrt n * 2 ^ half) := by
    rw [hradicand, Real.sqrt_mul (Nat.cast_nonneg n), Real.sqrt_mul_self (zpow_pos two_pos _).le, signUnit_false, one_mul]
  rw [hvalue]
  exact nearestEven_f32Round false (truncated_sqrt hle hlt') fun _ => hroot

theorem nearestEven_fsqrt {a : F32} (ha : fisFinite a = true) (hnonneg : 0 ≤ realValue a) :
    NearestEven (Real.sqrt (realValue a)) (fsqrt a) := by
  rw [fsqrt, f32Unpack_of_finite ha]
  simp only
  by_cases hm : f32Mant a = 0
  · rw [if_pos hm, (realValue_eq_zero_iff a).2 hm, Real.sqrt_zero]
    exact nearestEven_zero _
  · have hpos : (0 : ℝ) < f32Mant a * 2 ^ f32Scale a :=
      mul_pos (by exact_mod_cast Nat.pos_of_ne_zero hm) (zpow_pos two_pos _)
    rw [realValue_eq] at hnonneg ⊢
    cases hsign : f32Sign a with
    | true =>
      rw [hsign, signUnit_true] at hnonneg
      linarith
    | false =>
      rw [if_neg hm, if_neg Bool.false_ne_true, signUnit_false, one_mul]
      exact nearestEven_f32SqrtFin hm (f32Mant_lt a) _

theorem fsqrt_of_neg {a : F32} (ha : fisFinite a = true) (hneg : realValue a < 0) : fsqrt a = f32NaN := by
  have hm : f32Mant a ≠ 0 := fun h => hneg.ne ((realValue_eq_zero_iff a).2 h)
  have hsign : f32Sign a = true := by
    by_contra h
    rw [realValue_eq, eq_false_of_ne_true h, signUnit_false, one_mul] at hneg
    exact absurd hneg (not_lt.2 (mul_nonneg (Nat.cast_nonneg _) (zpow_pos two_pos _).le))
  rw [fsqrt, f32Unpack_of_finite ha]
  simp only [if_neg hm, hsign, if_true]

theorem nearestEven_f32OfInt (n : ℤ) : NearestEven n (f32OfInt n) := by
  have h := nearestEven_f32Round_int n 0
  rwa [zpow_zero, mul_one] at h

/-- Settles O52: each operation hands its exact result, or its truncation, to the rounding. -/
theorem floatRounding : Obligations.FloatRounding := by
  unfold Obligations.FloatRounding
  refine ⟨fun a b ha hb => ⟨?_, ?_, ?_, fun hb0 => ?_⟩, fun a ha => ⟨fun hnonneg => ?_, fun hneg => ?_⟩,
    nearestEven_f32OfInt⟩
  · rw [Rat.cast_add]
    exact nearestEven_fadd ha hb
  · rw [Rat.cast_sub]
    exact nearestEven_fsub ha hb
  · rw [Rat.cast_mul]
    exact nearestEven_fmul ha hb
  · rw [Rat.cast_div]
    exact nearestEven_fdiv ha hb (Rat.cast_ne_zero.2 hb0)
  · exact nearestEven_fsqrt ha (Rat.cast_nonneg.2 hnonneg)
  · exact fsqrt_of_neg ha (Rat.cast_lt_zero.2 hneg)

end Sys2Proof.Machine
end

section
/-! PROOFS. The cross-checks (46_finder_pattern.md R297 to R299, R323 to R325, 47_alignment_pattern.md R347, R352): what
the walks of a check counted, when its arguments are bad, and why no check passes with CCMAX = 0. -/

namespace Sys2Proof.Machine

/-! ## The walks -/

/-- Pixels k to k + n - 1 of a ray lie inside the image and have the colour. -/
def RayRun (ray : Ray) (k n : Nat) (colour : Bool) : Prop :=
  ∀ j, j < n → ray.inside (k + j) = true ∧ ray.black (k + j) = colour

/-- A walk counts pixels of its colour, one after another. -/
theorem walk_spec (ray : Ray) (colour : Bool) (more : Nat → Bool) (fuel k n : Nat) :
    ∃ c, walk ray colour more fuel k n = (k + c, n + c) ∧ RayRun ray k c colour := by
  induction fuel generalizing k n with
  | zero => exact ⟨0, rfl, fun j hj => absurd hj (Nat.not_lt_zero j)⟩
  | succ fuel ih =>
    rw [walk]
    by_cases hpixel : (ray.inside k && (ray.black k == colour) && more n) = true
    · obtain ⟨c, hwalk, hrun⟩ := ih (k + 1) (n + 1)
      simp only [Bool.and_eq_true, beq_iff_eq] at hpixel
      obtain ⟨⟨hinside, hblack⟩, hmore⟩ := hpixel
      refine ⟨c + 1, ?_, fun j hj => ?_⟩
      · rw [if_pos (by simp only [Bool.and_eq_true, beq_iff_eq]; exact ⟨⟨hinside, hblack⟩, hmore⟩), hwalk,
          Nat.add_right_comm, Nat.add_right_comm n]
        rfl
      · cases j with
        | zero => exact ⟨hinside, hblack⟩
        | succ j =>
          have := hrun j (by omega)
          rwa [Nat.add_right_comm] at this
    · rw [if_neg hpixel]
      exact ⟨0, rfl, fun j hj => absurd hj (Nat.not_lt_zero j)⟩

/-- What a finder cross-check counted: `up` pixels of the middle run on the backward ray, `down` on the forward ray, and
the other four runs beyond them. -/
structure Walked5 (back forth : Ray) (maxc : Nat) (r : Runs5) (stop up down : Nat) : Prop where
  middle : r.s2 = up + down
  stop_eq : stop = 1 + down + r.s3 + r.s4
  back_middle : RayRun back 0 up true
  back_white : RayRun back up r.s1 false
  back_black : RayRun back (up + r.s1) r.s0 true
  forth_middle : RayRun forth 1 down true
  forth_white : RayRun forth (1 + down) r.s3 false
  forth_black : RayRun forth (1 + down + r.s3) r.s4 true
  s0_le : r.s0 ≤ maxc
  s1_le : r.s1 ≤ maxc
  s3_lt : r.s3 < maxc
  s4_lt : r.s4 < maxc

theorem crossWalk5_spec {back forth : Ray} {fuel maxc : Nat} {r : Runs5} {stop : Nat}
    (h : crossWalk5 back forth fuel maxc = some (r, stop)) : ∃ up down, Walked5 back forth maxc r stop up down := by
  rw [crossWalk5] at h
  obtain ⟨up, hw2, hrun2⟩ := walk_spec back true (fun _ => true) fuel 0 0
  simp only [hw2, Nat.zero_add] at h
  split at h
  · cases h
  obtain ⟨s1, hw1, hrun1⟩ := walk_spec back false (fun n => decide (n ≤ maxc)) fuel up 0
  simp only [hw1, Nat.zero_add] at h
  split at h
  · cases h
  next hs1 =>
  obtain ⟨s0, hw0, hrun0⟩ := walk_spec back true (fun n => decide (n ≤ maxc)) fuel (up + s1) 0
  simp only [hw0, Nat.zero_add] at h
  split at h
  · cases h
  next hs0 =>
  obtain ⟨down, hv2, hrunv2⟩ := walk_spec forth true (fun _ => true) fuel 1 up
  simp only [hv2] at h
  split at h
  · cases h
  obtain ⟨s3, hv3, hrunv3⟩ := walk_spec forth false (fun n => decide (n < maxc)) fuel (1 + down) 0
  simp only [hv3, Nat.zero_add] at h
  split at h
  · cases h
  next hs3 =>
  obtain ⟨s4, hv4, hrunv4⟩ := walk_spec forth true (fun n => decide (n < maxc)) fuel (1 + down + s3) 0
  simp only [hv4, Nat.zero_add] at h
  split at h
  · cases h
  next hs4 =>
  simp only [Bool.or_eq_true, Bool.not_eq_true', decide_eq_true_eq, not_or, not_lt, not_le] at hs1 hs3
  cases h
  exact ⟨up, down, rfl, rfl, hrun2, hrun1, hrun0, hrunv2, hrunv3, hrunv4, not_lt.1 hs0, hs1.2, hs3.2, not_le.1 hs4⟩

/-- The forward bounds of a finder cross-check leave no run within CCMAX = 0. -/
theorem crossWalk5_zero (back forth : Ray) (fuel : Nat) : crossWalk5 back forth fuel 0 = none := by
  cases h : crossWalk5 back forth fuel 0 with
  | none => rfl
  | some x =>
    obtain ⟨up, down, hwalked⟩ := crossWalk5_spec (r := x.1) (stop := x.2) h
    exact absurd hwalked.s4_lt (Nat.not_lt_zero _)

/-- The start pixel is counted in one of the two backward runs, which CCMAX = 0 allows no pixel. -/
theorem crossWalk3_zero (back forth : Ray) (fuel : Nat) : crossWalk3 back forth (fuel + 1) 0 = none := by
  rw [crossWalk3]
  cases hinside : back.inside 0 with
  | false =>
    have hw1 : walk back true (fun n => decide (n ≤ 0)) (fuel + 1) 0 0 = (0, 0) := by simp [walk, hinside]
    simp only [hw1, hinside, Bool.not_false, Bool.true_or, if_true]
  | true =>
    cases hblack : back.black 0 with
    | true =>
      have hw1 : walk back true (fun n => decide (n ≤ 0)) (fuel + 1) 0 0 = (1, 1) := by
        cases fuel <;> simp [walk, hinside, hblack]
      simp only [hw1, Nat.one_pos, decide_true, Bool.or_true, if_true]
    | false =>
      have hw1 : walk back true (fun n => decide (n ≤ 0)) (fuel + 1) 0 0 = (0, 0) := by simp [walk, hblack]
      have hw0 : walk back false (fun n => decide (n ≤ 0)) (fuel + 1) 0 0 = (1, 1) := by
        cases fuel <;> simp [walk, hinside, hblack]
      simp only [hw1, hw0, Nat.one_pos, if_true, ite_self]

/-! ## The commands -/

theorem sizeOk_iff (s : State) : s.port.sizeOk = true ↔ imageOk s := decide_eq_true_iff

theorem crossChecked_iff (s : State) : (s.port.sizeOk && crossStartOk s) = true ↔ crossArgsOk s := by
  rw [Bool.and_eq_true, sizeOk_iff, imageOk, crossStartOk, decide_eq_true_iff, crossArgsOk]
  simp only [and_assoc]

theorem crossChecked_error {s : State} (h : ¬crossArgsOk s) (r : State × Bool × Bool) :
    endCommandFlags s (crossChecked s r) = .next (s.failed .illegalArg) := by
  rw [crossChecked, if_neg (by rwa [crossChecked_iff]), endCommandFlags_error]

theorem crossChecked_ok {s : State} (h : crossArgsOk s) (t : State) (noerr resb : Bool) :
    endCommandFlags s (crossChecked s (t, noerr, resb)) = .next (t.ended .ok noerr resb) := by
  rw [crossChecked, if_pos (by rwa [crossChecked_iff]), endCommandFlags_eq]

theorem crossChecked_centre {s : State} (h : crossArgsOk s) (r : Option F32) :
    endCommandFlags s (crossChecked s (centreResult s r)) =
      .next { s.ended .ok false r.isSome with resf := r.getD 0x7FC00000#32 } :=
  crossChecked_ok h _ _ _

/-- Settles O58: the arguments are checked first; the walks of every check end with none for CCMAX = 0. -/
theorem crossChecks : Obligations.CrossChecks := by
  unfold Obligations.CrossChecks
  refine fun s => ⟨fun hbad => ⟨crossChecked_error hbad _, crossChecked_error hbad _, crossChecked_error hbad _,
    crossChecked_error hbad _⟩, fun hok => ?_⟩
  refine ⟨crossChecked_centre hok _, crossChecked_centre hok _, crossChecked_ok hok _ _ _, crossChecked_centre hok _,
    fun hzero => ?_⟩
  have hv : crossVertical s.port s.cci.toNat s.ccj.toNat s.ccmax.toNat s.cctot.toNat = none := by
    rw [crossVertical, hzero]
    simp only [BitVec.toNat_ofNat, Nat.zero_mod, crossWalk5_zero]
  have hh : crossHorizontal s.port s.ccj.toNat s.cci.toNat s.ccmax.toNat s.cctot.toNat = none := by
    rw [crossHorizontal, hzero]
    simp only [BitVec.toNat_ofNat, Nat.zero_mod, crossWalk5_zero]
  have hd : crossDiagonal s.port s.cci.toNat s.ccj.toNat s.ccmax.toNat s.cctot.toNat = false := by
    rw [crossDiagonal, hzero]
    simp only [BitVec.toNat_ofNat, Nat.zero_mod, crossWalk5_zero]
  have ha : crossVertical3 s.port s.ams s.cci.toNat s.ccj.toNat s.ccmax.toNat s.cctot.toNat = none := by
    rw [crossVertical3, hzero]
    simp only [BitVec.toNat_ofNat, Nat.zero_mod, crossWalk3_zero]
  refine ⟨(crossChecked_centre hok _).trans ?_, (crossChecked_centre hok _).trans ?_,
    (crossChecked_ok hok _ _ _).trans ?_, (crossChecked_centre hok _).trans ?_⟩
  · rw [hv]; rfl
  · rw [hh]; rfl
  · rw [hd]; rfl
  · rw [ha]; rfl

/-! ## Soundness of the vertical check -/

/-- A run on the ray upwards from row i is a run of the column, read downwards. -/
theorem columnRun_of_rayUp {im : Image} {x i k n top : Nat} {colour : Bool} (h : RayRun (rayUp im x i) k n colour)
    (htop : top + k + n = i + 1) : ColumnRun im x top n colour := by
  intro j hj
  obtain ⟨-, hblack⟩ := h (n - 1 - j) (by omega)
  have hrow : (i : ℤ) - (k + (n - 1 - j) : Nat) = (top + j : Nat) := by omega
  rw [← hblack, rayUp]
  exact congrArg (im.black x) hrow.symm

theorem columnRun_of_rayDown {im : Image} {x i k n top : Nat} {colour : Bool} (h : RayRun (rayDown im x i) k n colour)
    (htop : top = i + k) : ColumnRun im x top n colour := by
  intro j hj
  obtain ⟨-, hblack⟩ := h j hj
  have hrow : (i : ℤ) + (k + j : Nat) = (top + j : Nat) := by omega
  rw [← hblack, rayDown]
  exact congrArg (im.black x) hrow.symm

/-- Two runs of one colour that meet are one run. -/
theorem ColumnRun.append {im : Image} {x top n n' : Nat} {colour : Bool} (h : ColumnRun im x top n colour)
    (h' : ColumnRun im x (top + n) n' colour) : ColumnRun im x top (n + n') colour := by
  intro j hj
  by_cases hlt : j < n
  · exact h j hlt
  · have := h' (j - n) (by omega)
    rwa [show top + n + (j - n) = top + j by omega] at this

/-- No run of a triple or quintuple that passes the ratio test is empty. -/
theorem ratio5_runs_pos {r : Runs5} (h : ratio5 r = true) : 1 ≤ r.s0 ∧ 1 ≤ r.s4 := by
  rw [ratio5] at h
  split at h
  · cases h
  · next hne =>
    simp only [not_or] at hne
    omega

/-- What a vertical check that finds a centre saw. -/
theorem crossVertical_eq_some {im : Image} {i x maxc orig : Nat} {y : F32}
    (h : crossVertical im i x maxc orig = some y) :
    ∃ r stop up down, Walked5 (rayUp im x i) (rayDown im x i) maxc r stop up down ∧ within40 r.total orig = true ∧
      ratio5 r = true ∧ y = centre5 r (i + stop) := by
  rw [crossVertical] at h
  split at h
  · cases h
  next r stop hwalk =>
  split at h
  · next htests =>
    obtain ⟨hwithin, hratio⟩ := (Bool.and_eq_true _ _).mp htests
    obtain ⟨up, down, hwalked⟩ := crossWalk5_spec hwalk
    cases h
    exact ⟨r, stop, up, down, hwalked, hwithin, hratio, rfl⟩
  · cases h

/-- Settles O59: the backward walks read the column upwards from the start row, the forward walks downwards. -/
theorem verticalCheckSound : Obligations.VerticalCheckSound := by
  unfold Obligations.VerticalCheckSound
  intro s t hexec hresb
  by_cases hok : crossArgsOk s
  · have hnext := (crossChecked_centre hok _).symm.trans hexec
    cases hnext
    obtain ⟨y, hy⟩ := Option.isSome_iff_exists.1 hresb
    obtain ⟨r, stop, up, down, h, hwithin, hratio, rfl⟩ := crossVertical_eq_some hy
    obtain ⟨hs0, hs4⟩ := ratio5_runs_pos hratio
    obtain ⟨hmiddle, hstop, hbm, hbw, hbb, hfm, hfw, hfb, hs0_le, hs1_le, hs3_lt, hs4_lt⟩ := h
    obtain ⟨htop, -⟩ := hbb (r.s0 - 1) (by omega)
    obtain ⟨hbottom, -⟩ := hfb (r.s4 - 1) (by omega)
    have htop' : up + r.s1 + r.s0 ≤ s.cci.toNat + 1 := by
      have := of_decide_eq_true htop
      omega
    have hbottom' : s.cci.toNat + (1 + down + r.s3 + r.s4) ≤ s.port.height.toNat := by
      have := of_decide_eq_true hbottom
      omega
    have htotal : r.total = r.s0 + r.s1 + r.s2 + r.s3 + r.s4 := rfl
    obtain ⟨top, htop_eq⟩ : ∃ top, top + (up + r.s1 + r.s0) = s.cci.toNat + 1 := ⟨_, Nat.sub_add_cancel htop'⟩
    refine ⟨top, r, columnRun_of_rayUp hbb (by omega), columnRun_of_rayUp hbw (by omega), ?_,
      columnRun_of_rayDown hfw (by omega), columnRun_of_rayDown hfb (by omega), by omega, by omega, by omega, hs0_le,
      hs1_le, hs3_lt, hs4_lt, of_decide_eq_true hwithin, hratio, ?_⟩
    · rw [hmiddle]
      exact (columnRun_of_rayUp hbm (by omega)).append (columnRun_of_rayDown hfm (by omega))
    · have hend : ((top + r.total : Nat) : ℤ) = s.cci.toNat + stop := by omega
      rw [hend]
      exact congrArg (Option.getD · _) hy
  · have hnext := (crossChecked_error hok _).symm.trans hexec
    cases hnext
    exact absurd hresb Bool.false_ne_true

end Sys2Proof.Machine
end

section
/-! PROOFS. The pattern searches (46_finder_pattern.md R303, R320, 47_alignment_pattern.md R348 to R350): what selection
keeps of the candidates, and the end of each search. -/

namespace Sys2Proof.Machine

/-! ## Selection -/

theorem insertStable_perm (before : Pattern → Pattern → Bool) (x : Pattern) (l : List Pattern) :
    List.Perm (insertStable before x l) (x :: l) := by
  induction l with
  | nil => exact .refl _
  | cons y ys ih =>
    rw [insertStable]
    split
    · exact .refl _
    · exact (ih.cons y).trans (.swap x y ys)

theorem sortStable_perm (before : Pattern → Pattern → Bool) (l : List Pattern) :
    List.Perm (sortStable before l) l := by
  suffices h : ∀ acc, List.Perm (l.foldl (fun acc x => insertStable before x acc) acc) (acc ++ l) from h []
  induction l with
  | nil => intro acc; rw [List.append_nil]; exact .refl _
  | cons x l ih =>
    intro acc
    exact (ih _).trans (((insertStable_perm before x acc).append_right l).trans List.perm_middle.symm)

theorem dropOutliers_sublist (avg lim : F32) (size : Nat) (l : List Pattern) :
    List.Sublist (dropOutliers avg lim size l) l := by
  induction l generalizing size with
  | nil => exact .slnil
  | cons p ps ih =>
    rw [dropOutliers]
    split
    · exact (ih _).cons p
    · exact (ih _).cons_cons p

/-- The drop stops at three candidates: `done` of the `size` candidates are passed already. -/
theorem dropOutliers_length (avg lim : F32) {size done : Nat} {l : List Pattern} (hsize : size = done + l.length)
    (hthree : 3 ≤ size) : 3 ≤ done + (dropOutliers avg lim size l).length := by
  induction l generalizing size done with
  | nil => exact hsize ▸ hthree
  | cons p ps ih =>
    rw [List.length_cons] at hsize
    rw [dropOutliers]
    split
    · next hdrop =>
      have hmore : 3 < size := of_decide_eq_true ((Bool.and_eq_true _ _).mp hdrop).1
      exact ih (by omega) (by omega)
    · have := ih (size := size) (done := done + 1) (by omega) hthree
      rw [List.length_cons]
      omega

theorem withoutOutliers_subperm (l : List Pattern) : List.Subperm (withoutOutliers l) l :=
  (dropOutliers_sublist _ _ _ _).subperm.trans (sortStable_perm _ l).subperm

theorem withoutOutliers_length {l : List Pattern} (h : 3 ≤ l.length) : 3 ≤ (withoutOutliers l).length := by
  have hkept (avg lim : F32) (before : Pattern → Pattern → Bool) :
      3 ≤ 0 + (dropOutliers avg lim l.length (sortStable before l)).length :=
    dropOutliers_length avg lim (by rw [(sortStable_perm before l).length_eq, Nat.zero_add]) h
  simp only [Nat.zero_add] at hkept
  exact hkept _ _ _

theorem threeBest_subperm (l : List Pattern) : List.Subperm (threeBest l) l :=
  (List.take_sublist _ _).subperm.trans (sortStable_perm _ l).subperm

theorem threeBest_length {l : List Pattern} (h : 3 ≤ l.length) : (threeBest l).length = 3 := by
  rw [threeBest, List.length_take, (sortStable_perm _ l).length_eq, Nat.min_eq_left h]

/-- Fewer than three candidates select nothing. -/
theorem select_eq_none {cands : List Pattern} (h : cands.length < 3) : select cands = none := by
  simp only [select, if_neg (show ¬3 < cands.length by omega)]
  match cands, h with
  | [], _ | [_], _ | [_, _], _ => rfl

/-- Three of three or more candidates are selected. -/
theorem select_eq_some {cands : List Pattern} (h : 3 ≤ cands.length) :
    ∃ p0 p1 p2, select cands = some (p0, p1, p2) ∧ List.Subperm [p0, p1, p2] cands := by
  obtain ⟨l1, hl1, hsub1, hlength1⟩ : ∃ l1, (if 3 < cands.length then withoutOutliers cands else cands) = l1 ∧
      List.Subperm l1 cands ∧ 3 ≤ l1.length := by
    split
    · exact ⟨_, rfl, withoutOutliers_subperm cands, withoutOutliers_length h⟩
    · exact ⟨_, rfl, .refl _, h⟩
  obtain ⟨l2, hl2, hsub2, hlength2⟩ : ∃ l2, (if 3 < l1.length then threeBest l1 else l1) = l2 ∧
      List.Subperm l2 l1 ∧ l2.length = 3 := by
    split
    · exact ⟨_, rfl, threeBest_subperm l1, threeBest_length hlength1⟩
    · exact ⟨_, rfl, .refl _, by omega⟩
  obtain ⟨p0, p1, p2, rfl⟩ := List.length_eq_three.1 hlength2
  refine ⟨p0, p1, p2, ?_, hsub2.trans hsub1⟩
  rw [select, hl1, hl2]

/-! ## PFFIND -/

theorem execPffind_bad {s : State} (h : ¬imageOk s) : execPffind s = .next { s.failed .illegalArg with ncand := 0#16 } := by
  rw [execPffind, if_pos (by rwa [Bool.not_eq_true', ← Bool.not_eq_true, sizeOk_iff]), State.raise_eq,
    State.complete_error]
  rfl

theorem execPffind_full {s : State} (h : imageOk s) (hfull : (scan5 s.port s.ctrl.tryh s.ctrl.pure).2 = .full) :
    execPffind s = .next ((putCandidates s (scan5 s.port s.ctrl.tryh s.ctrl.pure).1).failed .capacity) := by
  rw [execPffind, (sizeOk_iff s).2 h, Bool.not_true]
  dsimp only
  rw [if_neg Bool.false_ne_true, if_pos hfull, State.raise_eq, State.complete_error]
  rfl

theorem execPffind_none {s : State} (h : imageOk s) (hfull : (scan5 s.port s.ctrl.tryh s.ctrl.pure).2 ≠ .full)
    (hnone : select (scan5 s.port s.ctrl.tryh s.ctrl.pure).1 = none) :
    execPffind s = .next ((putCandidates s (scan5 s.port s.ctrl.tryh s.ctrl.pure).1).failed .notFound) := by
  rw [execPffind, (sizeOk_iff s).2 h, Bool.not_true]
  dsimp only
  rw [if_neg Bool.false_ne_true, if_neg hfull, hnone, State.raise_eq, State.complete_error]
  rfl

theorem execPffind_some {s : State} (h : imageOk s) (hfull : (scan5 s.port s.ctrl.tryh s.ctrl.pure).2 ≠ .full)
    {p0 p1 p2 : Pattern} (hsome : select (scan5 s.port s.ctrl.tryh s.ctrl.pure).1 = some (p0, p1, p2)) :
    execPffind s = .next (putFinders (putCandidates s (scan5 s.port s.ctrl.tryh s.ctrl.pure).1)
      (orderPatterns p0 p1 p2)).done := by
  rw [execPffind, (sizeOk_iff s).2 h, Bool.not_true]
  dsimp only
  rw [if_neg Bool.false_ne_true, if_neg hfull, hsome]
  rfl

/-- Settles O55: one lemma for each end of PFFIND; selection answers exactly when there are three candidates. -/
theorem pffindResult : Obligations.PffindResult := by
  unfold Obligations.PffindResult
  refine fun s => ⟨execPffind_bad, fun hok => ⟨_, storesWords_writeWords _ _ _, scan5_length_le _ _ _, ?_, ?_⟩⟩
  · intro hfails
    by_cases hfull : (scan5 s.port s.ctrl.tryh s.ctrl.pure).2 = .full
    · rw [if_pos hfull]
      exact execPffind_full hok hfull
    · rw [if_neg hfull]
      exact execPffind_none hok hfull (select_eq_none (hfails.resolve_left hfull))
  · intro hfull hthree
    obtain ⟨p0, p1, p2, hselect, hsub⟩ := select_eq_some hthree
    exact ⟨p0, p1, p2, hselect, hsub, execPffind_some hok hfull hselect⟩

/-! ## PFALIGN -/

theorem alignChecked_iff (s : State) : (s.port.sizeOk && regionOk s) = true ↔ imageOk s ∧ regionInside s := by
  rw [Bool.and_eq_true, sizeOk_iff, regionOk, decide_eq_true_iff, regionInside]

theorem execPfalign_bad {s : State} (h : ¬(imageOk s ∧ regionInside s)) :
    execPfalign s = .next { s.failed .illegalArg with ncand := 0#16 } := by
  rw [execPfalign, if_pos (by rwa [Bool.not_eq_true', ← Bool.not_eq_true, alignChecked_iff]), State.raise_eq,
    State.complete_error]
  rfl

theorem execPfalign_error {s : State} (h : imageOk s ∧ regionInside s) {r : List Pattern × Progress3} {e : ErrCode}
    (hr : scan3 s.port s.ams s.rgx.toNat s.rgy.toNat s.rgw.toNat s.rgh.toNat = r) (he : alignmentResult r = .error e) :
    execPfalign s = .next ((putCandidates s r.1).failed e) := by
  rw [execPfalign, (alignChecked_iff s).2 h, Bool.not_true, hr]
  dsimp only
  rw [if_neg Bool.false_ne_true, he]
  dsimp only
  rw [State.raise_eq, State.complete_error]
  rfl

theorem execPfalign_ok {s : State} (h : imageOk s ∧ regionInside s) {r : List Pattern × Progress3} {p : Alignment}
    (hr : scan3 s.port s.ams s.rgx.toNat s.rgy.toNat s.rgw.toNat s.rgh.toNat = r) (hp : alignmentResult r = .ok p) :
    execPfalign s = .next (putAlignment (putCandidates s r.1) p).done := by
  rw [execPfalign, (alignChecked_iff s).2 h, Bool.not_true, hr]
  dsimp only
  rw [if_neg Bool.false_ne_true, hp]
  rfl

/-- Settles O60: the answer of the search decides the end; its candidates are each seen once. -/
theorem pfalignResult : Obligations.PfalignResult := by
  unfold Obligations.PfalignResult
  refine fun s => ⟨execPfalign_bad, fun hok hregion => ?_⟩
  have hargs := And.intro hok hregion
  obtain ⟨hlength, hcount⟩ := scan3_seenOnce s.port s.ams s.rgx.toNat s.rgy.toNat s.rgw.toNat s.rgh.toNat
  refine ⟨_, storesWords_writeWords _ _ _, hlength, hcount, ?_⟩
  obtain ⟨⟨cands, progress⟩, hr⟩ : ∃ r, scan3 s.port s.ams s.rgx.toNat s.rgy.toNat s.rgw.toNat s.rgh.toNat = r :=
    ⟨_, rfl⟩
  rw [hr]
  refine ⟨?_, ?_, ?_⟩
  · rintro (hfull | ⟨hscanning, hempty⟩)
    · cases hfull
      exact execPfalign_error hargs hr rfl
    · cases hscanning
      cases hempty
      exact execPfalign_error hargs hr rfl
  · rintro p hfound
    cases hfound
    exact execPfalign_ok hargs hr rfl
  · rintro c cs hscanning hcands
    cases hscanning
    cases hcands
    exact execPfalign_ok hargs hr rfl

end Sys2Proof.Machine
end

section
/-! PROOFS. The matrix commands and the mapping of points (44_transform.md R246, R247, R250 to R256). -/

namespace Sys2Proof.Machine

/-! ## Matrix registers named by an index below 4 -/

theorem toNat_ofNat_fin4 (k : Fin 4) : (BitVec.ofNat 3 k).toNat = k := by
  rw [BitVec.toNat_ofNat, Nat.mod_eq_of_lt (by omega)]

theorem matrixIndexOk_fin4 (k : Fin 4) : matrixIndexOk (BitVec.ofNat 3 k) = true := by
  rw [matrixIndexOk, toNat_ofNat_fin4]
  exact decide_eq_true k.isLt

theorem matAt_fin4 (s : State) (k : Fin 4) : matAt s (BitVec.ofNat 3 k) = s.t[k] := by
  rw [matAt, toNat_ofNat_fin4, Vector.getD, Array.getD, dif_pos (by rw [Vector.size_toArray]; exact k.isLt)]
  rfl

theorem putMat_fin4 (s : State) (k : Fin 4) (m : Mat) : putMat s (BitVec.ofNat 3 k) m = { s with t := s.t.set k m } := by
  have hset : s.t.setIfInBounds k m = s.t.set k m := by
    ext i hi
    rw [Vector.getElem_setIfInBounds, Vector.getElem_set]
  rw [putMat, toNat_ofNat_fin4, hset]

/-- A matrix command whose indices are legal writes its matrix. -/
theorem matResult_fin4 (s : State) {ok : Bool} (hok : ok = true) (d : Fin 4) (m : Mat) :
    matResult s ok (BitVec.ofNat 3 d) m = .next { s.done with t := s.t.set d m } := by
  rw [matResult, if_pos hok, putMat_fin4]
  rfl

/-! ## Canonical elements -/

theorem eq_f32NaN_of_fisNaN_fcanon (a : F32) (h : fisNaN (fcanon a) = true) : fcanon a = 0x7FC00000#32 := by
  rw [fcanon] at h ⊢
  split
  · rfl
  · next hne =>
    rw [if_neg hne] at h
    exact absurd h hne

/-- Every element `PT(...)` stores that is a NaN is the canonical one. -/
theorem matElem_matPT_of_fisNaN (a11 a21 a31 a12 a22 a32 a13 a23 a33 : F32) (e : Fin 9)
    (h : fisNaN (matElem (matPT a11 a21 a31 a12 a22 a32 a13 a23 a33) e) = true) :
    matElem (matPT a11 a21 a31 a12 a22 a32 a13 a23 a33) e = 0x7FC00000#32 := by
  fin_cases e <;> exact eq_f32NaN_of_fisNaN_fcanon _ h

theorem matElem_sq2q_of_fisNaN (q : Quad) (e : Fin 9) :
    fisNaN (matElem (sq2q q) e) = true → matElem (sq2q q) e = 0x7FC00000#32 := by
  rw [sq2q]
  dsimp only
  split
  · exact matElem_matPT_of_fisNaN _ _ _ _ _ _ _ _ _ e
  · exact matElem_matPT_of_fisNaN _ _ _ _ _ _ _ _ _ e

/-- Settles O50: the indices are legal, so each command writes the matrix its formula gives, and `PT(...)` builds it. -/
theorem matrixCommands : Obligations.MatrixCommands := by
  unfold Obligations.MatrixCommands
  refine ⟨fun s d a b => ?_, fun q m o e => ⟨matElem_sq2q_of_fisNaN q e, matElem_matPT_of_fisNaN _ _ _ _ _ _ _ _ _ e,
    matElem_matPT_of_fisNaN _ _ _ _ _ _ _ _ _ e⟩⟩
  have hd := matrixIndexOk_fin4 d
  have hda : (matrixIndexOk (BitVec.ofNat 3 d) && matrixIndexOk (BitVec.ofNat 3 a)) = true := by
    rw [hd, matrixIndexOk_fin4 a]; rfl
  have hdab : (matrixIndexOk (BitVec.ofNat 3 d) && matrixIndexOk (BitVec.ofNat 3 a) && matrixIndexOk (BitVec.ofNat 3 b))
      = true := by rw [hda, matrixIndexOk_fin4 b]; rfl
  have hflag {x : BitVec 3} (hx : flagOk x = true) : (matrixIndexOk (BitVec.ofNat 3 d) && flagOk x) = true := by
    rw [hd, hx]; rfl
  refine ⟨matResult_fin4 s hd d _, matResult_fin4 s hd d _, matResult_fin4 s hd d _, ?_, ?_,
    matResult_fin4 s (hflag rfl) d _, matResult_fin4 s (hflag rfl) d _⟩
  · rw [← matAt_fin4 s a]
    exact matResult_fin4 s hda d _
  · rw [← matAt_fin4 s a, ← matAt_fin4 s b]
    exact matResult_fin4 s hdab d _

/-! ## Points -/

/-- The points are mapped one by one. -/
theorem mapPoints_getD (m : Mat) : ∀ (ws : List Word) (j : Nat), 2 * (j / 2) + 1 < ws.length →
    (mapPoints m ws).getD j 0#32 =
      if j % 2 = 0 then (mapPoint m (ws.getD (2 * (j / 2)) 0#32) (ws.getD (2 * (j / 2) + 1) 0#32)).1
      else (mapPoint m (ws.getD (2 * (j / 2)) 0#32) (ws.getD (2 * (j / 2) + 1) 0#32)).2
  | [], j, h => absurd h (Nat.not_lt_zero _)
  | [_], j, h => by
    rw [List.length_singleton] at h
    omega
  | x :: y :: rest, 0, _ => rfl
  | x :: y :: rest, 1, _ => rfl
  | x :: y :: rest, j + 2, h => by
    have hhalf : 2 * ((j + 2) / 2) = 2 * (j / 2) + 2 := by omega
    rw [hhalf, List.length_cons, List.length_cons] at h
    have ih := mapPoints_getD m rest j (by omega)
    rw [hhalf, Nat.add_mod_right]
    exact ih

theorem readWords_getD (mem : Memory) (a : Nat) {n i : Nat} (h : i < n) :
    (readWords mem a n).getD i 0#32 = readWord mem (a + 4 * i) := by
  rw [List.getD_eq_getElem _ _ (by rwa [readWords_length])]
  simp only [readWords, List.getElem_map, List.getElem_range]

theorem mapPoints_readWords (mem : Memory) (m : Mat) (n : Nat) :
    mapPoints m (readWords mem pmBase (2 * n)) = mappedWords mem m n := by
  have hlength : (mapPoints m (readWords mem pmBase (2 * n))).length = 2 * n := by
    rw [mapPoints_length, readWords_length]
  refine List.ext_getElem (by rw [hlength, mappedWords, List.length_map, List.length_range]) fun j hj _ => ?_
  have hlt : j < 2 * n := hlength ▸ hj
  rw [← List.getD_eq_getElem _ 0#32 hj, mapPoints_getD m _ j (by rw [readWords_length]; omega),
    readWords_getD _ _ (by omega), readWords_getD _ _ (by omega)]
  simp only [mappedWords, List.getElem_map, List.getElem_range]
  rw [show pmBase + 4 * (2 * (j / 2)) = pmBase + 8 * (j / 2) by omega,
    show pmBase + 4 * (2 * (j / 2) + 1) = pmBase + 8 * (j / 2) + 4 by omega]

/-- Settles O51. -/
theorem xptsResult : Obligations.XptsResult := by
  unfold Obligations.XptsResult
  refine fun s a => ⟨fun hmany => ?_, fun hfits => ⟨_, storesWords_writeWords _ _ _, ?_⟩⟩
  · exact (if_pos (matrixIndexOk_fin4 a)).trans ((congrArg (endCommand s) (if_pos hmany)).trans (endCommand_error s _))
  · rw [← matAt_fin4 s a, ← mapPoints_readWords]
    exact (if_pos (matrixIndexOk_fin4 a)).trans (congrArg (endCommand s) (if_neg (Nat.not_lt.2 hfits)))

end Sys2Proof.Machine
end

section
/-! PROOFS. Exact binary32 arithmetic: an operation whose exact result is a binary32 number gives that number; and the
ratio tests of R292 and R341 on runs in their nominal ratio. -/

namespace Sys2Proof.Machine

/-! ## Exact results -/

/-- A finite pattern that stands for a number. -/
def Exactly (a : F32) (x : ℝ) : Prop := fisFinite a = true ∧ realValue a = x

/-- A number that some finite pattern stands for. -/
def Representable (x : ℝ) : Prop := ∃ c, Exactly c x

theorem f32Scale_le {a : F32} (ha : fisFinite a = true) : f32Scale a ≤ 104 := by
  have hexp := f32Exp_lt a
  have hfinite := (fisFinite_iff a).1 ha
  rw [f32Scale]
  split <;> omega

theorem abs_realValue (a : F32) : |realValue a| = f32Mant a * 2 ^ f32Scale a := by
  rw [realValue_eq, abs_mul, abs_signUnit, one_mul, abs_of_nonneg (mul_nonneg (Nat.cast_nonneg _) (zpow_pos two_pos _).le)]

/-- A finite number is below the midpoint from which on rounding gives an infinity. -/
theorem abs_realValue_lt {a : F32} (ha : fisFinite a = true) : |realValue a| < 2 ^ 128 - 2 ^ 103 := by
  have hmant : (f32Mant a : ℝ) ≤ 2 ^ 24 - 1 := by
    have := f32Mant_lt a
    have : f32Mant a + 1 ≤ 2 ^ 24 := by omega
    have : (f32Mant a : ℝ) + 1 ≤ 2 ^ 24 := by exact_mod_cast this
    linarith
  rw [abs_realValue]
  calc (f32Mant a : ℝ) * 2 ^ f32Scale a ≤ (2 ^ 24 - 1) * 2 ^ (104 : ℤ) :=
        mul_le_mul hmant (zpow_le_zpow_right₀ one_le_two (f32Scale_le ha)) (zpow_pos two_pos _).le (by norm_num)
    _ < 2 ^ 128 - 2 ^ 103 := by norm_num

/-- Rounding a number that has a pattern gives that number. -/
theorem NearestEven.exactly {x : ℝ} {r : F32} (h : NearestEven x r) (hx : Representable x) : Exactly r x := by
  obtain ⟨c, hc, rfl⟩ := hx
  rw [nearestEven_iff] at h
  obtain ⟨-, -, hfinite⟩ := h
  obtain ⟨hr, hnearest⟩ := hfinite (abs_realValue_lt hc)
  refine ⟨hr, ?_⟩
  have hdist : |realValue c - realValue r| ≤ |realValue c - realValue c| := by
    obtain hlt | ⟨heq, -⟩ := hnearest c hc
    · exact hlt.le
    · exact heq.le
  rw [sub_self, abs_zero] at hdist
  exact (sub_eq_zero.1 (abs_nonpos_iff.1 hdist)).symm

section
variable {a b : F32} {x y : ℝ} (ha : Exactly a x) (hb : Exactly b y)
include ha hb

theorem Exactly.fadd (hr : Representable (x + y)) : Exactly (fadd a b) (x + y) := by
  obtain ⟨hfa, rfl⟩ := ha
  obtain ⟨hfb, rfl⟩ := hb
  exact (nearestEven_fadd hfa hfb).exactly hr

theorem Exactly.fsub (hr : Representable (x - y)) : Exactly (fsub a b) (x - y) := by
  obtain ⟨hfa, rfl⟩ := ha
  obtain ⟨hfb, rfl⟩ := hb
  exact (nearestEven_fsub hfa hfb).exactly hr

theorem Exactly.fmul (hr : Representable (x * y)) : Exactly (fmul a b) (x * y) := by
  obtain ⟨hfa, rfl⟩ := ha
  obtain ⟨hfb, rfl⟩ := hb
  exact (nearestEven_fmul hfa hfb).exactly hr

theorem Exactly.fdiv (hy : y ≠ 0) (hr : Representable (x / y)) : Exactly (fdiv a b) (x / y) := by
  obtain ⟨hfa, rfl⟩ := ha
  obtain ⟨hfb, rfl⟩ := hb
  exact (nearestEven_fdiv hfa hfb hy).exactly hr

end

/-! ## Numbers that have a pattern -/

theorem Exactly.representable {a : F32} {x : ℝ} (h : Exactly a x) : Representable x := ⟨a, h⟩

theorem exactly_zero : Exactly 0#32 0 := ⟨by decide, (realValue_eq_zero_iff _).2 (by decide)⟩

/-- Fewer than 2^24 units of a last place within range. -/
theorem representable_mul_zpow {m : Nat} {e : ℤ} (hm : m < 2 ^ 24) (hmin : -149 ≤ e) (hmax : e ≤ 103) :
    Representable (m * 2 ^ e) := by
  by_cases h0 : m = 0
  · rw [h0, Nat.cast_zero, zero_mul]
    exact exactly_zero.representable
  have hz : Truncated (m : ℝ) m false := rfl
  have hsticky : false = true → 2 ^ 25 ≤ m := fun h => absurd h Bool.false_ne_true
  have hfits : ¬(2 ^ 128 - 2 ^ 103 ≤ (m : ℝ) * 2 ^ e) := by
    have hmR : (m : ℝ) ≤ 2 ^ 24 := by exact_mod_cast hm.le
    refine not_le.2 ?_
    calc (m : ℝ) * 2 ^ e ≤ 2 ^ 24 * 2 ^ (103 : ℤ) :=
          mul_le_mul hmR (zpow_le_zpow_right₀ one_le_two hmax) (zpow_pos two_pos _).le (by norm_num)
      _ < 2 ^ 128 - 2 ^ 103 := by norm_num
  have hle : f32Quantum m e ≤ e := by
    have := (Nat.log2_lt h0).2 hm
    rw [f32Quantum]
    omega
  obtain ⟨hunits, hnormal⟩ := f32Units_bounds (e := e) hz h0 hsticky
  have hpattern : HasPattern (f32Quantum m e) (f32Units m e false) :=
    ⟨neg149_le_f32Quantum m e, hunits, hnormal, not_le.1 (mt (overflow_iff (e := e) hz h0 hsticky).2 hfits)⟩
  refine ⟨_, hpattern.finite false, ?_⟩
  rw [hpattern.realValue_eq, signUnit_false, one_mul, f32Units]
  simp only [if_pos hle]
  rw [zpow_add_natCast _ _ hle]
  push_cast
  ring

theorem representable_natCast {n : Nat} (h : n ≤ 2 ^ 24) : Representable n := by
  obtain hlt | rfl := Nat.lt_or_eq_of_le h
  · have := representable_mul_zpow (e := 0) hlt (by decide) (by decide)
    rwa [zpow_zero, mul_one] at this
  · have := representable_mul_zpow (m := 2 ^ 23) (e := 1) (by decide) (by decide) (by decide)
    norm_num at this ⊢
    exact this

theorem representable_half {n : Nat} (h : n ≤ 2 ^ 24) : Representable (n / 2) := by
  obtain hlt | rfl := Nat.lt_or_eq_of_le h
  · have := representable_mul_zpow (e := -1) hlt (by decide) (by decide)
    rwa [zpow_neg_one, ← div_eq_mul_inv] at this
  · have := representable_natCast (n := 2 ^ 23) (by decide)
    norm_num at this ⊢
    exact this

theorem exactly_f32OfNat {n : Nat} (h : n ≤ 2 ^ 24) : Exactly (f32OfNat n) n := by
  have hnearest := nearestEven_f32OfInt n
  rw [Int.cast_natCast] at hnearest
  exact hnearest.exactly (representable_natCast h)

/-- The number of a positive pattern from its fields. -/
theorem exactly_of_fields {a : F32} {m : Nat} {e : ℤ} (hfinite : fisFinite a = true) (hsign : f32Sign a = false)
    (hmant : f32Mant a = m) (hscale : f32Scale a = e) : Exactly a (m * 2 ^ e) :=
  ⟨hfinite, by rw [realValue_eq, hsign, hmant, hscale, signUnit_false, one_mul]⟩

theorem exactly_f1 : Exactly f1 1 := by
  have h := exactly_of_fields (a := f1) (m := 2 ^ 23) (e := -23) (by decide) (by decide) (by decide) (by decide)
  norm_num at h
  exact h

theorem exactly_f2 : Exactly f2 2 := by
  have h := exactly_of_fields (a := f2) (m := 2 ^ 23) (e := -22) (by decide) (by decide) (by decide) (by decide)
  norm_num at h
  exact h

theorem exactly_f3 : Exactly f3 3 := by
  have h := exactly_of_fields (a := f3) (m := 3 * 2 ^ 22) (e := -22) (by decide) (by decide) (by decide) (by decide)
  norm_num at h
  exact h

theorem exactly_f7 : Exactly f7 7 := by
  have h := exactly_of_fields (a := f7) (m := 7 * 2 ^ 21) (e := -21) (by decide) (by decide) (by decide) (by decide)
  norm_num at h
  exact h

theorem exactly_f05 : Exactly f05 (1 / 2) := by
  have h := exactly_of_fields (a := f05) (m := 2 ^ 23) (e := -24) (by decide) (by decide) (by decide) (by decide)
  norm_num at h
  exact h

/-! ## Comparison with zero -/

theorem fabs_toNat (a : F32) : (fabs a).toNat = a.toNat % 2 ^ 31 := by
  rw [fabs, BitVec.toNat_and]
  exact Nat.and_two_pow_sub_one_eq_mod a.toNat 31

theorem fkey_eq (a : F32) : fkey a = signedOf (f32Sign a) (a.toNat % 2 ^ 31) := by
  rw [fkey, BitVec.extractLsb'_toNat, Nat.shiftRight_zero]

theorem f32Sign_fabs (a : F32) : f32Sign (fabs a) = false := by
  rw [f32Sign_eq, fabs_toNat]
  exact decide_eq_false (by omega)

theorem f32Exp_fabs (a : F32) : f32Exp (fabs a) = f32Exp a := by
  rw [f32Exp_eq, f32Exp_eq, fabs_toNat]
  omega

theorem f32Frac_fabs (a : F32) : f32Frac (fabs a) = f32Frac a := by
  rw [f32Frac_eq, f32Frac_eq, fabs_toNat]
  omega

theorem fkey_fabs (a : F32) : fkey (fabs a) = (a.toNat % 2 ^ 31 : Nat) := by
  rw [fkey_eq, f32Sign_fabs, fabs_toNat, Nat.mod_mod]
  rfl

theorem fisNaN_of_fisFinite {a : F32} (h : fisFinite a = true) : fisNaN a = false := by
  rw [← Bool.not_eq_true, fisNaN_iff]
  exact fun hnan => (fisFinite_iff a).1 h hnan.1

theorem fisNaN_fabs (a : F32) : fisNaN (fabs a) = fisNaN a := by
  rw [fisNaN, fisNaN, f32Exp_fabs, f32Frac_fabs]

/-- The magnitude bits of a pattern are 0 exactly when its significand is. -/
theorem f32Mant_eq_zero_iff (a : F32) : f32Mant a = 0 ↔ a.toNat % 2 ^ 31 = 0 := by
  have hexp := f32Exp_eq a
  have hfrac := f32Frac_eq a
  rw [f32Mant]
  split <;> omega

/-- A zero is nearer to zero than a positive number. -/
theorem flt_fabs_of_zero {a b : F32} {y : ℝ} (ha : Exactly a 0) (hb : Exactly b y) (hy : 0 < y) :
    flt (fabs a) b = true := by
  obtain ⟨hfa, ha0⟩ := ha
  obtain ⟨hfb, rfl⟩ := hb
  rw [realValue_eq_zero_iff, f32Mant_eq_zero_iff] at ha0
  have hb0 : b.toNat % 2 ^ 31 ≠ 0 := fun h => hy.ne' ((realValue_eq_zero_iff b).2 ((f32Mant_eq_zero_iff b).2 h))
  have hsign : f32Sign b = false := by
    rw [← Bool.not_eq_true]
    intro hneg
    have habs := abs_realValue b
    rw [realValue_eq, hneg, signUnit_true] at hy habs
    have : (0 : ℝ) ≤ f32Mant b * 2 ^ f32Scale b := mul_nonneg (Nat.cast_nonneg _) (zpow_pos two_pos _).le
    linarith
  rw [flt, fisNaN_fabs, fisNaN_of_fisFinite hfa, fisNaN_of_fisFinite hfb, fkey_fabs, fkey_eq, hsign, ha0]
  exact decide_eq_true (Int.natCast_pos.2 (Nat.pos_of_ne_zero hb0))

/-- Nothing is nearer to zero than a zero. -/
theorem flt_fabs_zero (a : F32) : flt (fabs a) 0#32 = false := by
  have hkey : fkey 0#32 = 0 := by decide
  rw [flt, fkey_fabs, hkey, decide_eq_false (by omega), Bool.and_false]

theorem flt_of_fisNaN_right (a : F32) {b : F32} (h : fisNaN b = true) : flt a b = false := by
  rw [flt, h, Bool.not_true, Bool.and_false, Bool.false_and]

theorem fdiv_of_fisNaN {a : F32} (b : F32) (h : fisNaN a = true) : fdiv a b = f32NaN := by
  obtain ⟨hexp, hfrac⟩ := (fisNaN_iff a).1 h
  have hnan : f32Unpack a = .nan := by rw [f32Unpack, if_pos hexp, if_neg hfrac]
  rw [fdiv, hnan]

/-! ## The ratio tests -/

/-- Two equal numbers differ by less than a positive margin. -/
theorem flt_fabs_fsub_self {a b m : F32} {x y : ℝ} (ha : Exactly a x) (hb : Exactly b x) (hm : Exactly m y) (hy : 0 < y) :
    flt (fabs (fsub a b)) m = true := by
  have hzero := ha.fsub hb (by rw [sub_self]; exact exactly_zero.representable)
  rw [sub_self] at hzero
  exact flt_fabs_of_zero hzero hm hy

/-- A zero run or a total below 7 fails the finder ratio test. -/
theorem ratio5_eq_false {r : Runs5} (h : (r.s0 = 0 ∨ r.s1 = 0 ∨ r.s2 = 0 ∨ r.s3 = 0 ∨ r.s4 = 0) ∨ r.total < 7) :
    ratio5 r = false := by
  rw [ratio5]
  split
  · rfl
  · next hne => exact if_pos (h.resolve_left hne)

/-- Runs in the ratio 1 : 1 : 3 : 1 : 1 pass the finder ratio test. -/
theorem ratio5_nominal {n : Nat} (hn : 1 ≤ n) (hmax : 7 * n ≤ 2 ^ 24) : ratio5 ⟨n, n, 3 * n, n, n⟩ = true := by
  have hnR : (0 : ℝ) < n := by exact_mod_cast hn
  have htotal : (Runs5.mk n n (3 * n) n n).total = 7 * n := by
    simp only [Runs5.total]
    omega
  have hnX := exactly_f32OfNat (n := n) (by omega)
  have h3nX := exactly_f32OfNat (n := 3 * n) (by omega)
  have hms : Exactly (fdiv (f32OfNat (7 * n)) f7) n := by
    have hquotient : ((7 * n : Nat) : ℝ) / 7 = n := by push_cast; ring
    have h := (exactly_f32OfNat hmax).fdiv exactly_f7 (by norm_num)
    rw [hquotient] at h
    exact h (representable_natCast (by omega))
  have hmv := hms.fdiv exactly_f2 two_ne_zero (representable_half (by omega))
  have h3ms : Exactly (fmul f3 (fdiv (f32OfNat (7 * n)) f7)) (3 * n : Nat) := by
    have h := exactly_f3.fmul hms
    rw [show (3 : ℝ) * n = (3 * n : Nat) by push_cast; ring] at h
    exact h (representable_natCast (by omega))
  have h3mv := exactly_f3.fmul hmv (by
    rw [show (3 : ℝ) * (n / 2) = (3 * n : Nat) / 2 by push_cast; ring]
    exact representable_half (by omega))
  have hpass := flt_fabs_fsub_self hms hnX hmv (by linarith)
  have hpass3 := flt_fabs_fsub_self h3ms h3nX h3mv (by linarith)
  rw [ratio5]
  simp only [htotal]
  rw [if_neg (by omega), if_neg (by omega), hpass, hpass3]
  rfl

theorem ratio3_zero (r : Runs3) : ratio3 0#32 r = false := by
  have hmv : fdiv 0#32 f2 = 0#32 := by decide
  simp only [ratio3, hmv, flt_fabs_zero, Bool.and_false]

theorem ratio3_of_fisNaN {ams : F32} (h : fisNaN ams = true) (r : Runs3) : ratio3 ams r = false := by
  have hnan : fisNaN f32NaN = true := by decide
  simp only [ratio3, fdiv_of_fisNaN f2 h, flt_of_fisNaN_right _ hnan, Bool.and_false]

/-- Runs of the module size pass the alignment ratio test. -/
theorem ratio3_nominal {n : Nat} (hn : 1 ≤ n) (hmax : n ≤ 2 ^ 24) : ratio3 (f32OfNat n) ⟨n, n, n⟩ = true := by
  have hnR : (0 : ℝ) < n := by exact_mod_cast hn
  have hnX := exactly_f32OfNat hmax
  have hpass := flt_fabs_fsub_self hnX hnX (hnX.fdiv exactly_f2 two_ne_zero (representable_half hmax)) (by linarith)
  simp only [ratio3, hpass, Bool.and_true]

/-- Settles O57: on nominal runs every operation of a test is exact, so each difference is 0. -/
theorem ratioTests : Obligations.RatioTests := by
  unfold Obligations.RatioTests
  intro s c
  have h5 : exec .pfratio5 s = .next (s.ended .ok false (ratio5 ⟨c 0, c 1, c 2, c 3, c 4⟩)) :=
    endCommandFlags_eq s (.ok (s, false, _))
  have h3 : exec .pfratio3 s = .next (s.ended .ok false (ratio3 s.ams ⟨c 0, c 1, c 2⟩)) :=
    endCommandFlags_eq s (.ok (s, false, _))
  refine ⟨h5, h3, fun hfails => ?_, fun n hn hmax h0 h1 h2 h3 h4 => ?_, fun hfails => ?_,
    fun n hn hmax hams h0 h1 h2 => ?_⟩
  · rw [h5, ratio5_eq_false]
    refine hfails.imp_left ?_
    rintro ⟨k, hk⟩
    fin_cases k
    · exact .inl hk
    · exact .inr (.inl hk)
    · exact .inr (.inr (.inl hk))
    · exact .inr (.inr (.inr (.inl hk)))
    · exact .inr (.inr (.inr (.inr hk)))
  · rw [h5, h0, h1, h2, h3, h4, ratio5_nominal hn hmax]
  · obtain hzero | hnan := hfails
    · rw [h3, hzero, ratio3_zero]
    · rw [h3, ratio3_of_fisNaN hnan]
  · rw [h3, hams, h0, h1, h2, ratio3_nominal hn hmax]

end Sys2Proof.Machine
end

section
/-! PROOFS. GRID (45_grid_sampler.md R270 to R276): where the sampled bits lie in BM, when the samples are refused, and
what the identity samples. -/

namespace Sys2Proof.Machine

/-! ## The bits of BM -/

theorem testBit_natOfBits (l : List Bool) (i : Nat) : (natOfBits l).testBit i = l.getD i false := by
  induction l generalizing i with
  | nil => rw [natOfBits, Nat.zero_testBit, List.getD_nil]
  | cons b bs ih =>
    rw [natOfBits]
    cases i with
    | zero => cases b <;> simp
    | succ i =>
      have hhalf : ((if b then 1 else 0) + 2 * natOfBits bs) / 2 = natOfBits bs := by cases b <;> simp; omega
      rw [Nat.testBit_succ, hhalf, ih, List.getD_cons_succ]

theorem rowBytes_getD (row : List Bool) {k : Nat} (hk : k < 32) (d : Byte) :
    (rowBytes row).getD k d = BitVec.ofNat 8 (natOfBits row >>> (8 * k)) := by
  rw [List.getD_eq_getElem _ _ (by rwa [rowBytes_length])]
  simp only [rowBytes, List.getElem_map, List.getElem_range]

/-- Element k of part y of equally long parts in a row. -/
theorem getD_flatMap_range {α : Type} {f : Nat → List α} {w : Nat} (hf : ∀ y, (f y).length = w) (d : α) {k : Nat}
    (hk : k < w) (n y : Nat) (hy : y < n) : ((List.range n).flatMap f).getD (w * y + k) d = (f y).getD k d := by
  induction n with
  | zero => exact absurd hy (Nat.not_lt_zero y)
  | succ n ih =>
    have hlength : ((List.range n).flatMap f).length = w * n := by
      simp only [List.length_flatMap, hf, List.map_const', List.length_range, List.sum_replicate, smul_eq_mul]
      exact Nat.mul_comm n w
    rw [List.range_succ, List.flatMap_append]
    obtain hlt | rfl := Nat.lt_succ_iff_lt_or_eq.1 hy
    · have hbefore : w * y + k < w * n := by
        calc w * y + k < w * (y + 1) := by rw [Nat.mul_succ]; omega
          _ ≤ w * n := Nat.mul_le_mul_left _ hlt
      rw [List.getD_append _ _ _ _ (hlength.symm ▸ hbefore), ih hlt]
    · rw [List.getD_append_right _ _ _ _ (hlength.symm ▸ Nat.le_add_right _ _), hlength, Nat.add_sub_cancel_left,
        List.flatMap_singleton]

/-- Bit i of a word of the memory is a bit of its byte i / 8. -/
theorem getLsbD_readWord (m : Memory) (a : Nat) {i : Nat} (hi : i < 32) :
    (readWord m a).getLsbD i = (readByte m (a + i / 8)).getLsbD (i % 8) := by
  simp only [readWord, wordOfBytes, BitVec.getLsbD_append]
  obtain h | h | h | h : i / 8 = 0 ∨ i / 8 = 1 ∨ i / 8 = 2 ∨ i / 8 = 3 := by omega
  · rw [h, if_pos (by omega), if_pos (by omega), if_pos (by omega), Nat.mod_eq_of_lt (by omega)]
    rfl
  · rw [h, if_pos (by omega), if_pos (by omega), if_neg (by omega)]
    congr 1
    omega
  · rw [h, if_pos (by omega), if_neg (by omega)]
    congr 1
    omega
  · rw [h, if_neg (by omega)]
    congr 1
    omega

theorem gridBytes_getD (rows : List (List Bool)) {y k : Nat} (hy : y < 256) (hk : k < 32) (d : Byte) :
    (gridBytes rows).getD (32 * y + k) d = BitVec.ofNat 8 (natOfBits (rows.getD y []) >>> (8 * k)) := by
  rw [← rowBytes_getD _ hk d]
  exact getD_flatMap_range (fun y => rowBytes_length (rows.getD y [])) d hk 256 y hy

/-- Bit (x, y) of BM once the sampled rows are stored. -/
theorem gridBit_setBytes (mem : Memory) (rows : List (List Bool)) {x y : Nat} (hx : x < 256) (hy : y < 256) :
    gridBit (setBytes mem bmBase (gridBytes rows)) x y = (rows.getD y []).getD x false := by
  have hplace : bmBase + 32 * y + 4 * (x / 32) + x % 32 / 8 - bmBase = 32 * y + x / 8 := by omega
  have hbit : 8 * (x / 8) + x % 32 % 8 = x := by omega
  rw [gridBit, getLsbD_readWord _ _ (by omega), readByte_setBytes, gridBytes_length, if_pos (by omega), hplace,
    gridBytes_getD rows hy (by omega), BitVec.getLsbD_ofNat, decide_eq_true (by omega), Bool.true_and,
    Nat.testBit_shiftRight, testBit_natOfBits, hbit]

/-- GRID changes no byte outside BM. -/
theorem readByte_setBytes_gridBytes (mem : Memory) (rows : List (List Bool)) {x : Nat} (hx : x < 0x8000 ∨ 0xA000 ≤ x) :
    readByte (setBytes mem bmBase (gridBytes rows)) x = readByte mem x := by
  rw [readByte_setBytes, gridBytes_length, bmBase, if_neg (by omega)]

/-! ## The samples -/

/-- The values of a partial function at x, x + 1, ..., `n` of them; none at the first it refuses. -/
def collect {α : Type} (f : Nat → Option α) : Nat → Nat → Option (List α)
  | 0, _ => some []
  | n + 1, x => (f x).bind fun b => (collect f n (x + 1)).map (b :: ·)

theorem sampleRow_eq_collect (im : Image) (m : Mat) (y n x : Nat) :
    sampleRow im m y n x = collect (fun x => sampleModule im m x y) n x := by
  induction n generalizing x with
  | zero => rfl
  | succ n ih =>
    rw [sampleRow, collect, ih]
    cases sampleModule im m x y with
    | none => rfl
    | some b => cases collect (fun x => sampleModule im m x y) n (x + 1) <;> rfl

theorem sampleRows_eq_collect (im : Image) (m : Mat) (w n y : Nat) :
    sampleRows im m w n y = collect (fun y => sampleRow im m y w 0) n y := by
  induction n generalizing y with
  | zero => rfl
  | succ n ih =>
    rw [sampleRows, collect, ih]
    cases sampleRow im m y w 0 with
    | none => rfl
    | some row => cases collect (fun y => sampleRow im m y w 0) n (y + 1) <;> rfl

section
variable {α : Type} {f : Nat → Option α}

theorem collect_eq_none {n x k : Nat} (hk : k < n) (h : f (x + k) = none) : collect f n x = none := by
  induction n generalizing x k with
  | zero => exact absurd hk (Nat.not_lt_zero k)
  | succ n ih =>
    rw [collect]
    cases k with
    | zero => rw [show f x = none from h]; rfl
    | succ k =>
      rw [ih (k := k) (by omega) (by rwa [Nat.add_right_comm])]
      cases f x <;> rfl

theorem collect_eq_some {g : Nat → α} {n x : Nat} (h : ∀ k, k < n → f (x + k) = some (g (x + k))) :
    collect f n x = some ((List.range n).map fun k => g (x + k)) := by
  induction n generalizing x with
  | zero => rfl
  | succ n ih =>
    have hrest := ih (x := x + 1) fun k hk => by
      have := h (k + 1) (by omega)
      rwa [← Nat.add_assoc, Nat.add_right_comm] at this
    rw [collect, show f x = some (g x) from h 0 (Nat.succ_pos n), hrest, List.range_succ_eq_map, List.map_cons,
      List.map_map]
    refine congrArg some (congrArg (g x :: ·) (List.map_congr_left fun k _ => ?_))
    exact congrArg g (Nat.add_right_comm x 1 k ▸ rfl)

end

/-- The samples of a grid no point of which is rejected. -/
def samples (im : Image) (m : Mat) (w h : Nat) : List (List Bool) :=
  (List.range h).map fun y => (List.range w).map fun x => (sampleModule im m x y).getD false

theorem sampleRows_eq_none {im : Image} {m : Mat} {w h x y : Nat} (hx : x < w) (hy : y < h)
    (hnone : sampleModule im m x y = none) : sampleRows im m w h 0 = none := by
  rw [sampleRows_eq_collect]
  refine collect_eq_none hy ?_
  rw [Nat.zero_add, sampleRow_eq_collect]
  exact collect_eq_none hx (by rwa [Nat.zero_add])

theorem sampleRows_eq_some {im : Image} {m : Mat} {w h : Nat}
    (hsome : ∀ x y, x < w → y < h → sampleModule im m x y ≠ none) : sampleRows im m w h 0 = some (samples im m w h) := by
  have hrow (y : Nat) (hy : y < h) :
      sampleRow im m y w 0 = some ((List.range w).map fun x => (sampleModule im m x y).getD false) := by
    rw [sampleRow_eq_collect, collect_eq_some (g := fun x => (sampleModule im m x y).getD false)]
    · simp only [Nat.zero_add]
    · intro x hx
      rw [Nat.zero_add]
      obtain ⟨b, hb⟩ := Option.ne_none_iff_exists'.1 (hsome x y hx hy)
      rw [hb, Option.getD_some]
  rw [sampleRows_eq_collect,
    collect_eq_some (g := fun y => (List.range w).map fun x => (sampleModule im m x y).getD false)]
  · simp only [Nat.zero_add, samples]
  · intro y hy
    rw [Nat.zero_add]
    exact hrow y hy

/-- An element of a list computed place by place. -/
theorem getD_map_range {α : Type} (g : Nat → α) (d : α) (n i : Nat) :
    ((List.range n).map g).getD i d = if i < n then g i else d := by
  by_cases hi : i < n
  · rw [if_pos hi, List.getD_eq_getElem _ _ (by rwa [List.length_map, List.length_range]), List.getElem_map,
      List.getElem_range]
  · rw [if_neg hi, List.getD_eq_default _ _ (by rwa [List.length_map, List.length_range, ← Nat.not_lt])]

theorem samples_getD (im : Image) (m : Mat) (w h x y : Nat) : ((samples im m w h).getD y []).getD x false =
    if x < w ∧ y < h then (sampleModule im m x y).getD false else false := by
  rw [samples, getD_map_range]
  by_cases hy : y < h
  · rw [if_pos hy, getD_map_range]
    simp only [hy, and_true]
  · rw [if_neg hy, if_neg (fun h => hy h.2)]
    rfl

/-! ## The command -/

/-- How GRID ends once its samples are taken. -/
def gridOutcome (s : State) : Option (List (List Bool)) → Except ErrCode State
  | none => .error .notFound
  | some rows => .ok { s with mem := setBytes s.mem bmBase (gridBytes rows) }

theorem exec_grid (s : State) (a : Fin 4) : exec (.grid (BitVec.ofNat 3 a)) s = endCommand s
    (if !s.port.sizeOk then .error .illegalArg
     else if s.dimx = 0#16 ∨ s.dimy = 0#16 then .error .notFound
     else if 256 < s.dimx.toNat ∨ 256 < s.dimy.toNat then .error .capacity
     else gridOutcome s (sampleRows s.port s.t[a] s.dimx.toNat s.dimy.toNat 0)) := by
  rw [← matAt_fin4]
  refine (if_pos (matrixIndexOk_fin4 a)).trans (congrArg (endCommand s) ?_)
  cases sampleRows s.port (matAt s (BitVec.ofNat 3 a)) s.dimx.toNat s.dimy.toNat 0 <;> rfl

theorem exec_grid_bad {s : State} (a : Fin 4) (h : ¬imageOk s) :
    exec (.grid (BitVec.ofNat 3 a)) s = .next (s.failed .illegalArg) := by
  rw [exec_grid, if_pos (by rwa [Bool.not_eq_true', ← Bool.not_eq_true, sizeOk_iff]), endCommand_error]

theorem dims_zero_iff (s : State) : s.dimx = 0#16 ∨ s.dimy = 0#16 ↔ s.dimx.toNat = 0 ∨ s.dimy.toNat = 0 := by
  simp only [← BitVec.toNat_inj, BitVec.toNat_ofNat, Nat.zero_mod]

theorem exec_grid_dim_zero {s : State} (a : Fin 4) (h : imageOk s) (hzero : s.dimx.toNat = 0 ∨ s.dimy.toNat = 0) :
    exec (.grid (BitVec.ofNat 3 a)) s = .next (s.failed .notFound) := by
  rw [exec_grid, (sizeOk_iff s).2 h, Bool.not_true, if_neg Bool.false_ne_true,
    if_pos ((dims_zero_iff s).2 hzero), endCommand_error]

/-- GRID on a legal image with nonzero dimensions. -/
theorem exec_grid_dims {s : State} (a : Fin 4) (h : imageOk s) (hx : 1 ≤ s.dimx.toNat) (hy : 1 ≤ s.dimy.toNat) :
    exec (.grid (BitVec.ofNat 3 a)) s = endCommand s
      (if 256 < s.dimx.toNat ∨ 256 < s.dimy.toNat then .error .capacity
       else gridOutcome s (sampleRows s.port s.t[a] s.dimx.toNat s.dimy.toNat 0)) := by
  rw [exec_grid, (sizeOk_iff s).2 h, Bool.not_true, if_neg Bool.false_ne_true,
    if_neg (mt (dims_zero_iff s).1 (by omega))]

section
variable {s : State} (a : Fin 4) (h : imageOk s) (hx : 1 ≤ s.dimx.toNat) (hx' : s.dimx.toNat ≤ 256)
  (hy : 1 ≤ s.dimy.toNat) (hy' : s.dimy.toNat ≤ 256)
include h hx hx' hy hy'

theorem exec_grid_rejected {x y : Nat} (hlx : x < s.dimx.toNat) (hly : y < s.dimy.toNat)
    (hnone : sampleModule s.port s.t[a] x y = none) :
    exec (.grid (BitVec.ofNat 3 a)) s = .next (s.failed .notFound) := by
  rw [exec_grid_dims a h hx hy, if_neg (by omega), sampleRows_eq_none hlx hly hnone, gridOutcome, endCommand_error]

theorem exec_grid_sampled (hsome : ∀ x y, x < s.dimx.toNat → y < s.dimy.toNat → sampleModule s.port s.t[a] x y ≠ none) :
    exec (.grid (BitVec.ofNat 3 a)) s = .next { s.done with
      mem := setBytes s.mem bmBase (gridBytes (samples s.port s.t[a] s.dimx.toNat s.dimy.toNat)) } := by
  rw [exec_grid_dims a h hx hy, if_neg (by omega), sampleRows_eq_some hsome]
  rfl

end

/-- Settles O53: the checks in their order, then the samples row by row. -/
theorem gridResult : Obligations.GridResult := by
  unfold Obligations.GridResult
  refine fun s a => ⟨exec_grid_bad a, exec_grid_dim_zero a, fun h hx hy hmany => ?_, fun h hx hx' hy hy' => ⟨?_, ?_⟩⟩
  · rw [exec_grid_dims a h hx hy, if_pos hmany, endCommand_error]
  · rintro ⟨x, y, hlx, hly, hnone⟩
    exact exec_grid_rejected a h hx hx' hy hy' hlx hly hnone
  · intro hsome
    refine ⟨_, exec_grid_sampled a h hx hx' hy hy' hsome, fun x y hlx hly => ?_,
      fun x => readByte_setBytes_gridBytes _ _⟩
    rw [gridBit_setBytes _ _ hlx hly, samples_getD]

/-! ## The identity -/

/-- A positive number is cut to the integer below it. -/
theorem ftrunc_of_exactly {a : F32} {x : ℝ} (ha : Exactly a x) (hpos : 0 < x) {v : Nat} (hle : (v : ℝ) ≤ x)
    (hlt : x < v + 1) : ftrunc a = some (v : ℤ) := by
  obtain ⟨hfinite, rfl⟩ := ha
  have habs := abs_realValue a
  rw [abs_of_pos hpos] at habs
  have hsign : f32Sign a = false := by
    rw [← Bool.not_eq_true]
    intro hneg
    have heq := realValue_eq a
    rw [hneg, signUnit_true, ← habs] at heq
    linarith
  rw [ftrunc, f32Unpack_of_finite hfinite, hsign]
  refine congrArg some (congrArg Int.ofNat ?_)
  rw [habs] at hle hlt
  by_cases hscale : 0 ≤ f32Scale a
  · rw [if_pos hscale]
    rw [zpow_add_natCast 0 _ hscale, zpow_zero, mul_one, sub_zero] at hle hlt
    have hle' : v ≤ f32Mant a * 2 ^ (f32Scale a).toNat := by exact_mod_cast hle
    have hlt' : f32Mant a * 2 ^ (f32Scale a).toNat < v + 1 := by exact_mod_cast hlt
    omega
  · rw [if_neg hscale]
    have hpow : (2 : ℝ) ^ f32Scale a = (2 ^ (-f32Scale a).toNat)⁻¹ := by
      rw [← zpow_natCast, ← zpow_neg, Int.toNat_of_nonneg (by omega), neg_neg]
    have hunit : (0 : ℝ) < 2 ^ (-f32Scale a).toNat := by positivity
    rw [hpow, ← div_eq_mul_inv, le_div_iff₀ hunit] at hle
    rw [hpow, ← div_eq_mul_inv, div_lt_iff₀ hunit] at hlt
    have hle' : v * 2 ^ (-f32Scale a).toNat ≤ f32Mant a := by exact_mod_cast hle
    have hlt' : f32Mant a < (v + 1) * 2 ^ (-f32Scale a).toNat := by exact_mod_cast hlt
    exact Nat.div_eq_of_lt_le hle' hlt'

/-- The centre of a module is a binary32 number. -/
theorem representable_centre {v : Nat} (hv : v < 256) : Representable (v + 1 / 2) := by
  have h := representable_half (n := 2 * v + 1) (by omega)
  rwa [show ((2 * v + 1 : Nat) : ℝ) / 2 = v + 1 / 2 by push_cast; ring] at h

theorem exactly_centre {v : Nat} (hv : v < 256) : Exactly (fadd (f32OfNat v) f05) (v + 1 / 2) :=
  (exactly_f32OfNat (by omega)).fadd exactly_f05 (representable_centre hv)

section
variable {a b : F32} {x y : ℝ} (ha : Exactly a x) (hb : Exactly b y)
include ha

theorem Exactly.zero_fmul : Exactly (Machine.fmul 0#32 a) 0 := by
  have h := exactly_zero.fmul ha
  rw [zero_mul] at h
  exact h exactly_zero.representable

theorem Exactly.one_fmul : Exactly (Machine.fmul f1 a) x := by
  have h := exactly_f1.fmul ha
  rw [one_mul] at h
  exact h ha.representable

theorem Exactly.fdiv_one (hb : Exactly b 1) : Exactly (Machine.fdiv a b) x := by
  have h := ha.fdiv hb one_ne_zero
  rw [div_one] at h
  exact h ha.representable

theorem Exactly.fadd_zero (hb : Exactly b 0) : Exactly (Machine.fadd a b) x := by
  have h := ha.fadd hb
  rw [add_zero] at h
  exact h ha.representable

theorem Exactly.zero_fadd (hb : Exactly b 0) : Exactly (Machine.fadd b a) x := by
  have h := hb.fadd ha
  rw [zero_add] at h
  exact h ha.representable

include hb

/-- The identity maps a point to itself. -/
theorem mapPoint_identity :
    Exactly (mapPoint identityMat a b).1 x ∧ Exactly (mapPoint identityMat a b).2 y := by
  have hden : Exactly (fsum3 (fmul identityMat.a13 a) (fmul identityMat.a23 b) identityMat.a33) 1 :=
    exactly_f1.zero_fadd (ha.zero_fmul.fadd_zero hb.zero_fmul)
  exact ⟨((ha.one_fmul.fadd_zero hb.zero_fmul).fadd_zero exactly_zero).fdiv_one hden,
    ((hb.one_fmul.zero_fadd ha.zero_fmul).fadd_zero exactly_zero).fdiv_one hden⟩

end

theorem nudge_of_lt {v n : Nat} (h : v < n) : nudge v n = v := by
  rw [nudge, if_neg (by omega), if_neg (by omega)]

/-- A point inside the image samples its pixel. -/
theorem samplePixel_of_lt {im : Image} {p : F32 × F32} {x y : Nat} (htx : ftrunc p.1 = some (x : ℤ))
    (hty : ftrunc p.2 = some (y : ℤ)) (hx : x < im.width.toNat) (hy : y < im.height.toNat) :
    samplePixel im p = some (im.black x y) := by
  rw [samplePixel, htx, hty]
  simp only
  rw [if_neg (by omega), nudge_of_lt hx, nudge_of_lt hy]

/-- Through the identity the sample of a module is the pixel at its place. -/
theorem sampleModule_identity (im : Image) {x y : Nat} (hx : x < im.width.toNat) (hx' : x < 256)
    (hy : y < im.height.toNat) (hy' : y < 256) : sampleModule im identityMat x y = some (im.black x y) := by
  obtain ⟨hpx, hpy⟩ := mapPoint_identity (exactly_centre hx') (exactly_centre hy')
  exact samplePixel_of_lt (ftrunc_of_exactly hpx (by positivity) (by linarith) (by linarith))
    (ftrunc_of_exactly hpy (by positivity) (by linarith) (by linarith)) hx hy

theorem black_of_outside (im : Image) {x y : Nat} (h : ¬(x < im.width.toNat ∧ y < im.height.toNat)) :
    im.black x y = false := by
  rw [Image.black, decide_eq_false (by omega), Bool.false_and]

/-- Settles O54: the samples through the identity are the pixels. -/
theorem identityGridCopies : Obligations.IdentityGridCopies := by
  unfold Obligations.IdentityGridCopies
  intro s a hmat hwidth hwidth' hheight hheight' hdimx hdimy
  have hsample (x y : Nat) (hx : x < s.port.width.toNat) (hy : y < s.port.height.toNat) :
      sampleModule s.port s.t[a] x y = some (s.port.black x y) := by
    rw [hmat]
    exact sampleModule_identity s.port hx (by omega) hy (by omega)
  have hsampled := exec_grid_sampled (s := s) a ⟨hwidth, by omega, hheight, by omega⟩ (by rwa [hdimx]) (by rwa [hdimx])
    (by rwa [hdimy]) (by rwa [hdimy]) fun x y hx hy => by
      rw [hdimx] at hx
      rw [hdimy] at hy
      rw [hsample x y hx hy]
      exact Option.some_ne_none _
  refine ⟨_, hsampled, fun x y hx hy => ?_, fun x => readByte_setBytes_gridBytes _ _⟩
  rw [gridBit_setBytes _ _ hx hy, samples_getD, hdimx, hdimy]
  split
  · next hinside => rw [hsample x y hinside.1 hinside.2, Option.getD_some]
  · next houtside => exact (black_of_outside s.port houtside).symm

end Sys2Proof.Machine
end

section
/-! PROOFS. PFORDER (46_finder_pattern.md R304, R305, R322): swapping the operands of a subtraction changes the sign only,
so the distance is symmetric and the swap of the outer patterns makes a negative cross product not negative. -/

namespace Sys2Proof.Machine

/-! ## Values of opposite and absolute patterns -/

/-- The value with its sign inverted. -/
def FloatValue.opposite : FloatValue → FloatValue
  | .nan => .nan
  | .inf neg => .inf (!neg)
  | .fin neg m e => .fin (!neg) m e

theorem f32Unpack_fneg (a : F32) : f32Unpack (fneg a) = (f32Unpack a).opposite := by
  rw [f32Unpack, f32Unpack, f32Exp_fneg, f32Frac_fneg, f32Sign_fneg]
  by_cases hexp : f32Exp a = 255
  · by_cases hfrac : f32Frac a = 0
    · simp only [if_pos hexp, if_pos hfrac, FloatValue.opposite]
    · simp only [if_pos hexp, if_neg hfrac, FloatValue.opposite]
  · by_cases hzero : f32Exp a = 0
    · simp only [if_neg hexp, if_pos hzero, FloatValue.opposite]
    · simp only [if_neg hexp, if_neg hzero, FloatValue.opposite]

/-- The value without its sign. -/
def FloatValue.absolute : FloatValue → FloatValue
  | .nan => .nan
  | .inf _ => .inf false
  | .fin _ m e => .fin false m e

theorem f32Unpack_fabs (a : F32) : f32Unpack (fabs a) = (f32Unpack a).absolute := by
  rw [f32Unpack, f32Unpack, f32Exp_fabs, f32Frac_fabs, f32Sign_fabs]
  by_cases hexp : f32Exp a = 255
  · by_cases hfrac : f32Frac a = 0
    · simp only [if_pos hexp, if_pos hfrac, FloatValue.absolute]
    · simp only [if_pos hexp, if_neg hfrac, FloatValue.absolute]
  · by_cases hzero : f32Exp a = 0
    · simp only [if_neg hexp, if_pos hzero, FloatValue.absolute]
    · simp only [if_neg hexp, if_neg hzero, FloatValue.absolute]

/-! ## Products -/

theorem fmul_comm (a b : F32) : fmul a b = fmul b a := by
  have hsign (na nb : Bool) : (na != nb) = (nb != na) := bne_comm
  rw [fmul, fmul]
  cases f32Unpack a with
  | nan => cases f32Unpack b <;> rfl
  | inf na =>
    cases f32Unpack b with
    | nan => rfl
    | inf nb => simp only [hsign na]
    | fin nb mb eb => simp only [hsign na]
  | fin na ma ea =>
    cases f32Unpack b with
    | nan => rfl
    | inf nb => simp only [hsign na]
    | fin nb mb eb => simp only [hsign na, Nat.mul_comm ma, Int.add_comm ea]

/-- A square does not depend on the sign. -/
theorem fmul_self_fabs (a : F32) : fmul (fabs a) (fabs a) = fmul a a := by
  rw [fmul, fmul, f32Unpack_fabs]
  cases f32Unpack a with
  | nan => rfl
  | inf na => simp only [FloatValue.absolute, bne_self_eq_false]
  | fin na ma ea => simp only [FloatValue.absolute, bne_self_eq_false]

/-! ## Differences -/

theorem fneg_f32Inf (neg : Bool) : fneg (f32Inf neg) = f32Inf (!neg) := by
  cases neg with
  | false => exact fneg_f32Inf_false
  | true => rw [Bool.not_true, ← fneg_f32Inf_false, fneg_fneg]

theorem fneg_f32Round (neg : Bool) (m : Nat) (e : ℤ) (sticky : Bool) :
    fneg (f32Round neg m e sticky) = f32Round (!neg) m e sticky := by
  cases neg with
  | false => exact (f32Round_true m e sticky).symm
  | true => rw [f32Round_true, fneg_fneg, Bool.not_true]

theorem fabs_fneg (a : F32) : fabs (fneg a) = fabs a :=
  f32_ext (by rw [f32Sign_fabs, f32Sign_fabs]) (by rw [f32Exp_fabs, f32Exp_fabs, f32Exp_fneg])
    (by rw [f32Frac_fabs, f32Frac_fabs, f32Frac_fneg])

theorem fabs_f32Zero (neg : Bool) : fabs (f32Zero neg) = 0#32 := by cases neg <;> decide

/-- How a difference and the difference of the swapped operands are related: opposite, both a zero, or both the NaN. -/
def Swapped (r r' : F32) : Prop :=
  r' = fneg r ∨ (fabs r = 0#32 ∧ fabs r' = 0#32) ∨ (r = f32NaN ∧ r' = f32NaN)

theorem swapped_f32AddFin (na : Bool) (ma : Nat) (ea : ℤ) (nb : Bool) (mb : Nat) (eb : ℤ) :
    Swapped (f32AddFin na ma ea (!nb) mb eb) (f32AddFin nb mb eb (!na) ma ea) := by
  have hopposite (neg : Bool) (m : Nat) : signedOf (!neg) m = -signedOf neg m := by
    cases neg with
    | false => rfl
    | true => exact (neg_neg _).symm
  rw [f32AddFin, f32AddFin, min_comm eb ea, hopposite, hopposite]
  generalize signedOf na (ma * 2 ^ (ea - min ea eb).toNat) = x
  generalize signedOf nb (mb * 2 ^ (eb - min ea eb).toNat) = y
  by_cases h : x = y
  · rw [if_pos (by omega), if_pos (by omega)]
    exact .inr (.inl ⟨fabs_f32Zero _, fabs_f32Zero _⟩)
  · have habs : (y + -x).natAbs = (x + -y).natAbs := by omega
    have hsign : decide (y + -x < 0) = !decide (x + -y < 0) := by
      rw [← decide_not]
      exact decide_eq_decide.2 (by omega)
    rw [if_neg (by omega), if_neg (by omega), habs, hsign, ← fneg_f32Round]
    exact .inl rfl

theorem fsub_swapped (a b : F32) : Swapped (fsub a b) (fsub b a) := by
  rw [fsub, fsub, fadd, fadd, f32Unpack_fneg, f32Unpack_fneg]
  cases f32Unpack a with
  | nan => cases f32Unpack b <;> exact .inr (.inr ⟨rfl, rfl⟩)
  | inf na =>
    cases f32Unpack b with
    | nan => exact .inr (.inr ⟨rfl, rfl⟩)
    | inf nb =>
      simp only [FloatValue.opposite]
      by_cases h : na = !nb
      · rw [if_pos h, if_pos (by rw [h, Bool.not_not]), h]
        exact .inl (by rw [fneg_f32Inf, Bool.not_not])
      · rw [if_neg h, if_neg fun h' => h (by rw [h', Bool.not_not])]
        exact .inr (.inr ⟨rfl, rfl⟩)
    | fin nb mb eb => exact .inl (fneg_f32Inf na).symm
  | fin na ma ea =>
    cases f32Unpack b with
    | nan => exact .inr (.inr ⟨rfl, rfl⟩)
    | inf nb => exact .inl ((fneg_f32Inf (!nb)).trans (congrArg f32Inf (Bool.not_not nb))).symm
    | fin nb mb eb => exact swapped_f32AddFin na ma ea nb mb eb

theorem fabs_fsub_comm (a b : F32) : fabs (fsub a b) = fabs (fsub b a) := by
  obtain h | ⟨h, h'⟩ | ⟨h, h'⟩ := fsub_swapped a b
  · rw [h, fabs_fneg]
  · rw [h, h']
  · rw [h, h']

theorem f32Sign_of_flt_zero {a : F32} (h : flt a 0#32 = true) : f32Sign a = true := by
  by_contra hsign
  have hkey : fkey 0#32 = 0 := by decide
  rw [flt, fkey_eq, eq_false_of_ne_true hsign, hkey] at h
  simp only [Bool.and_eq_true, decide_eq_true_eq] at h
  exact absurd h.2 (not_lt.2 (Int.natCast_nonneg _))

theorem flt_zero_of_fabs_eq_zero {a : F32} (h : fabs a = 0#32) : flt a 0#32 = false := by
  have hkey : fkey a = 0 := by
    have hlow := congrArg BitVec.toNat h
    rw [fabs_toNat] at hlow
    rw [fkey_eq, hlow]
    cases f32Sign a <;> rfl
  have hzero : fkey 0#32 = 0 := by decide
  rw [flt, hkey, hzero, decide_eq_false (lt_irrefl _), Bool.and_false]

/-- A difference and the difference of the swapped operands are not both negative. -/
theorem flt_fsub_swap {a b : F32} (h : flt (fsub a b) 0#32 = true) : flt (fsub b a) 0#32 = false := by
  obtain hneg | ⟨-, hzero⟩ | ⟨-, hnan⟩ := fsub_swapped a b
  · rw [← Bool.not_eq_true, hneg]
    intro h'
    have hsign := f32Sign_of_flt_zero h'
    rw [f32Sign_fneg, f32Sign_of_flt_zero h] at hsign
    exact Bool.false_ne_true hsign
  · exact flt_zero_of_fabs_eq_zero hzero
  · rw [hnan]
    decide

/-! ## Ordering -/

theorem distance_comm (a b : Pattern) : distance a b = distance b a := by
  rw [distance, ← fmul_self_fabs, ← fmul_self_fabs (fsub a.y b.y), fabs_fsub_comm, fabs_fsub_comm a.y, fmul_self_fabs,
    fmul_self_fabs, distance]

/-- The cross product of the swapped outer patterns is the swapped difference. -/
theorem flt_crossZ_swap {a b c : Pattern} (h : flt (crossZ a b c) 0#32 = true) : flt (crossZ c b a) 0#32 = false := by
  rw [crossZ, fmul_comm (fsub a.x b.x), fmul_comm (fsub a.y b.y)]
  exact flt_fsub_swap h

theorem fle_iff {a b : F32} (ha : fisNaN a = false) (hb : fisNaN b = false) : fle a b = true ↔ fkey a ≤ fkey b := by
  rw [fle, ha, hb]
  exact decide_eq_true_iff

/-- The three distances are numbers. -/
def DistancesAreNumbers (p0 p1 p2 : Pattern) : Prop :=
  fisNaN (distance p0 p1) = false ∧ fisNaN (distance p1 p2) = false ∧ fisNaN (distance p0 p2) = false

/-- No two of the three patterns are farther apart than the outer ones, `a` and `c`. -/
def OuterFarthest (a b c : Pattern) : Prop :=
  fle (distance a b) (distance a c) = true ∧ fle (distance b c) (distance a c) = true

theorem OuterFarthest.swap {a b c : Pattern} (h : OuterFarthest a b c) : OuterFarthest c b a := by
  obtain ⟨hab, hbc⟩ := h
  rw [OuterFarthest, distance_comm c b, distance_comm c a, distance_comm b a]
  exact ⟨hbc, hab⟩

/-- The last two steps of the ordering: the outer patterns are swapped where the cross product is negative. -/
theorem orderPatterns_eq (p0 p1 p2 : Pattern) : ∃ a b c,
    orderPatterns p0 p1 p2 = (if flt (crossZ a b c) 0#32 then (c, b, a) else (a, b, c)) ∧
      List.Perm [a, b, c] [p0, p1, p2] ∧ (DistancesAreNumbers p0 p1 p2 → OuterFarthest a b c) := by
  rw [orderPatterns]
  by_cases h12 : (fle (distance p0 p1) (distance p1 p2) && fle (distance p0 p2) (distance p1 p2)) = true
  · rw [if_pos h12]
    refine ⟨_, _, _, rfl, .swap _ _ _, fun _ => ?_⟩
    obtain ⟨h01, h02⟩ := (Bool.and_eq_true _ _).mp h12
    exact ⟨by rwa [distance_comm p1 p0], h02⟩
  rw [if_neg h12]
  by_cases h02 : (fle (distance p1 p2) (distance p0 p2) && fle (distance p0 p1) (distance p0 p2)) = true
  · rw [if_pos h02]
    refine ⟨_, _, _, rfl, .refl _, fun _ => ?_⟩
    obtain ⟨h12', h01⟩ := (Bool.and_eq_true _ _).mp h02
    exact ⟨h01, h12'⟩
  rw [if_neg h02]
  refine ⟨_, _, _, rfl, .cons _ (.swap _ _ _), fun ⟨hn01, hn12, hn02⟩ => ?_⟩
  rw [Bool.and_eq_true, fle_iff hn01 hn12, fle_iff hn02 hn12] at h12
  rw [Bool.and_eq_true, fle_iff hn12 hn02, fle_iff hn01 hn02] at h02
  rw [OuterFarthest, distance_comm p2 p1, fle_iff hn02 hn01, fle_iff hn12 hn01]
  omega

/-- What the ordering gives: the three patterns, a cross product that is not negative, and the outer ones farthest. -/
theorem orderPatterns_spec (p0 p1 p2 : Pattern) : ∃ bl tl tr, orderPatterns p0 p1 p2 = (bl, tl, tr) ∧
    List.Perm [bl, tl, tr] [p0, p1, p2] ∧ flt (crossZ bl tl tr) 0#32 = false ∧
      (DistancesAreNumbers p0 p1 p2 → OuterFarthest bl tl tr) := by
  obtain ⟨a, b, c, horder, hperm, hfar⟩ := orderPatterns_eq p0 p1 p2
  by_cases hcross : flt (crossZ a b c) 0#32 = true
  · rw [if_pos hcross] at horder
    exact ⟨c, b, a, horder, (List.reverse_perm [a, b, c]).trans hperm, flt_crossZ_swap hcross, fun h => (hfar h).swap⟩
  · rw [if_neg hcross] at horder
    exact ⟨a, b, c, horder, hperm, eq_false_of_ne_true hcross, hfar⟩

/-- Settles O56. -/
theorem pforderResult : Obligations.PforderResult := by
  unfold Obligations.PforderResult
  intro s
  obtain ⟨bl, tl, tr, horder, hperm, hcross, hfar⟩ := orderPatterns_spec s.fpr[0] s.fpr[1] s.fpr[2]
  refine ⟨bl, tl, tr, ?_, hperm, hcross, fun h01 h12 h02 => hfar ⟨h01, h12, h02⟩⟩
  have hresult : putFinders s (orderPatterns s.fpr[0] s.fpr[1] s.fpr[2]) = { s with fpr := #v[bl, tl, tr] } := by
    rw [horder, putFinders]
  exact congrArg (fun t => endCommand s (.ok t)) hresult

end Sys2Proof.Machine
end
